-- ==== Sys2Proof/Word.lean ====
section
/-! DEFINITION. The words and numbers the manual uses: bytes, two-byte fields, ports, pages, lines, slots, sources. -/

namespace Sys2Proof

/-- A byte of a line, of the store or of a bus transfer. -/
abbrev Byte := BitVec 8

/-- A two-byte field: a version, a lease, a wait limit, a reported line number. -/
abbrev Half := BitVec 16

/-- A port, P0 to P3. P0 to P2 are two-wire ports, P3 is the SPI port (R53). -/
abbrev Port := Fin 4

/-- A two-wire port, P0 to P2. -/
abbrev TwoWirePort := Fin 3

/-- A page number, 0 to 127 (R1). -/
abbrev Page := Fin 128

/-- A device-wide line number, 0 to 2047 (R1). -/
abbrev LineNo := Fin 2048

/-- A hold slot's number within its port, 0 to 3 (R91). -/
abbrev SlotNo := Fin 4

/-- An attention source's number, 0 to 7 (R139). -/
abbrev SourceNo := Fin 8

/-- A view address, 000h to FFFh (R36). -/
abbrev ViewAddr := BitVec 12

/-- A selection of ports: bit `n` selects port `n` (chapter 12, code values). -/
abbrev PortSet := BitVec 4

/-- The sixteen bytes of a line. -/
abbrev Line := Vector Byte 16

/-- A two-wire port as one of the four ports. -/
abbrev TwoWirePort.port (p : TwoWirePort) : Port := p.castSucc

/-- The SPI port, P3. -/
abbrev spi : Port := 3

end Sys2Proof
end

