-- ==== Sys2Proof/Config.lean ====
section
/-! DEFINITION. What the device fixes: sizes, capacities, identity codes; and the one free value. What else the manual
leaves open is an operand of a command (logs 6, 15). -/

namespace Sys2Proof.Config

/-- Entries of the staging buffer (R55). -/
def stagingEntries : Nat := 64

/-- Line numbers in the damaged-line list (R8). -/
def damagedEntries : Nat := 8

/-- Records in a notice queue (R76). -/
def noticeRecords : Nat := 16

/-- Pages of a hold (R95). -/
def holdPages : Nat := 8

/-- Pages of a copy (R127). -/
def copyPages : Nat := 16

/-- Bytes of the store (R1). -/
def storeBytes : Nat := 32768

/-- The fill byte (00_scope section 4, R9). -/
def fill : Byte := 0xFF

/-- The WAIT byte of the SPI port (R167, R168). -/
def spiWait : Byte := 0x00

/-- The READY byte of the SPI port, also sent while write data are taken (R167, R168). -/
def spiReady : Byte := 0xA5

/-- The SPI opcodes WRITE, READ and STATUS (R166). -/
def opWrite : Byte := 0x3A
def opRead : Byte := 0x3B
def opStatus : Byte := 0x3C

/-- The two-wire target address is this plus the AS strap value (R162). -/
def targetBase : BitVec 7 := 0x34

/-- IDENTITY: vendor code, part code, revision (R157). -/
def vendorCode : Byte := 0x54
def partCode : Byte := 0x41
def revision : Byte := 0x01

/-- The "no line" value of reported fields (R1) and the "none" value of a page, holder, slot or mode (chapter 12). -/
def noLine : Half := 0x0FFF
def noneByte : Byte := 0xFF

/-- A free value, by its number: which of the five parts of a PORT STATE line that is being gathered are taken now (R156;
log 32). Nothing constrains it. -/
opaque lateParts : Nat → BitVec 5

end Sys2Proof.Config
end

