-- ==== Sys2Proof/Syntax.lean ====
section
/-! DEFINITION. The commands of the block: one constructor for each row of spec/opcode_table.json, in the table's order.
A command that takes a claim names the issuing port only: its arguments are those the port's command line held when the
command executed (R153). What comes from outside the block (bus bytes, strap levels, the outcome of a line's check) is
an operand. -/

namespace Sys2Proof

/-- The outcome of the store controller's read of one line (R5): what the memory cells make of the line at that read. -/
inductive ReadOutcome where
  | good | corrected | uncorrectable
deriving DecidableEq, Repr

/-- The direction bit of a two-wire target address (R53). -/
inductive Direction where
  | write | read
deriving DecidableEq, Repr

/-- The part of a PORT_CONFIG that a step carries out (R155): its owners take their halves as separate acts. -/
inductive ConfigHalf where
  | translator | attention | both
deriving DecidableEq, Repr

/-- The levels of the strap pins at a release of reset (R21, R162). -/
structure Straps where
  supv : Port
  as0 : BitVec 2
  as1 : BitVec 2
  as2 : BitVec 2
deriving DecidableEq, Repr

/-- The commands. -/
inductive Instr where
  | powerOnReset (straps : Straps)
  | startUpClearEnd
  | resetNFall (completed : Bool) (reads : List ReadOutcome)
  | resetNRelease (straps : Straps)
  | alertIn
  | tick
  | leaseExpiry (p : Port) (k : SlotNo)
  | waitExpiry (p : Port) (k : SlotNo)
  | twoWireStart (p : TwoWirePort) (target : BitVec 7) (dir : Direction)
  | addressHighByte (p : Port) (b : Byte)
  | addressLowByte (p : Port) (b : Byte)
  | twoWireWriteByte (p : TwoWirePort) (b : Byte)
  | twoWireReadByte (p : TwoWirePort) (ack : Bool)
  | spiCsFall
  | spiWrite
  | spiRead
  | spiStatus
  | spiUnknownOpcode (op : Byte)
  | spiWriteSlot (b : Byte)
  | spiReadSlot
  | transactionEnd (p : Port)
  | lineFetch (p : Port) (read : ReadOutcome)
  | commit (p : Port) (reads : List ReadOutcome)
  | pageTransfer (reads : List ReadOutcome)
  | controlCommit (p : Port)
  | badCommand (p : Port)
  | hold (p : Port)
  | renew (p : Port)
  | release (p : Port)
  | watch (p : Port)
  | copy (p : Port)
  | copyCancel (p : Port)
  | copyTransferOutcome
  | signal (p : Port)
  | portSignal (target issuer : Port)
  | pageInfo (p : Port)
  | map (p : Port)
  | mapTranslatorTake (target issuer : Port)
  | mapQuery (p : Port)
  | portConfig (p : Port) (half : ConfigHalf)
  | attnConfig (p : Port)
  | policy (p : Port)
  | damageQuery (p : Port)
  | damageClear (p : Port)
  | portReset (p : Port)
  | portResetBegin (target issuer : Port)
  | holdResetPart (p : Port)
  | noticeResetPart (p : Port)
  | copyResetPart (p : Port)
  | attentionResetPart (p : Port)
  | commandResetPart (p : Port)
  | portUnitResetPart (p : Port)
  | attnTake (p : Port)
  | attnDone (p : Port)
  | noticePop (p : Port)
  | alertInNRise
deriving DecidableEq, Repr

end Sys2Proof
end

