-- ==== Sys2Proof/WellFormed.lean ====
section
/-! DEFINITION. Which terms are commands of the block. Most ranges are in the types; the rest is checked here. -/

namespace Sys2Proof

/-- The operands make sense:
an unknown opcode is none of the three known ones (R166);
a commit reads at most the 32 lines of two pages (R45, R13);
a page transfer reads at most the 16 lines of its source page (R14);
a request completed at RESET_N is one of these. -/
def Instr.wellFormed : Instr → Bool
  | .spiUnknownOpcode op => op != Config.opWrite && op != Config.opRead && op != Config.opStatus
  | .commit _ reads => decide (reads.length ≤ 32)
  | .pageTransfer reads => decide (reads.length ≤ 16)
  | .resetNFall completed reads => decide (reads.length ≤ 32) && (completed || reads.isEmpty)
  | .powerOnReset _ | .startUpClearEnd | .resetNRelease _ | .alertIn | .tick | .leaseExpiry _ _
  | .waitExpiry _ _ | .twoWireStart _ _ _ | .addressHighByte _ _ | .addressLowByte _ _ | .twoWireWriteByte _ _
  | .twoWireReadByte _ _ | .spiCsFall | .spiWrite | .spiRead | .spiStatus | .spiWriteSlot _ | .spiReadSlot
  | .transactionEnd _ | .lineFetch _ _ | .controlCommit _ | .badCommand _ | .hold _ | .renew _ | .release _
  | .watch _ | .copy _ | .copyCancel _ | .copyTransferOutcome | .signal _ | .portSignal _ _ | .pageInfo _
  | .map _ | .mapTranslatorTake _ _ | .mapQuery _ | .portConfig _ _ | .attnConfig _ | .policy _
  | .damageQuery _ | .damageClear _ | .portReset _ | .portResetBegin _ _ | .holdResetPart _
  | .noticeResetPart _ | .copyResetPart _ | .attentionResetPart _ | .commandResetPart _ | .portUnitResetPart _
  | .attnTake _ | .attnDone _ | .noticePop _ | .alertInNRise => true

end Sys2Proof
end

