-- ==== Sys2Proof/Decode.lean ====
section
/-! DEFINITION. Words that spell a command. The block fetches no instruction and no row of spec/opcode_table.json gives
bits ("fields" is empty in all 56 rows), so no word spells a command. -/

namespace Sys2Proof

/-- The command a word spells by the table's bits: the table gives no row any bits, so none. -/
def decodeTableWord (_nbits _w : Nat) : Option Instr := none

end Sys2Proof
end

