-- ==== Sys2Proof/Machine/State.lean ====
section
/-! DEFINITION. The state of the device, block by block as chapters 1 to 10 divide it, as plain data; and State.reset. -/

namespace Sys2Proof.Machine

/-! ## Names the manual writes in capitals -/

/-- The access rule of a page (R20, R22). -/
inductive Policy where
  | OPEN | OWNER | FIXED | PRIVATE
deriving DecidableEq, Repr

/-- A window's access (R38). -/
inductive Access where
  | RW | RO
deriving DecidableEq, Repr

/-- A port's increment mode (R42). -/
inductive IncMode where
  | LINEAR | WINDOW_WRAP
deriving DecidableEq, Repr

/-- A hold's mode (R91, R97). -/
inductive HoldMode where
  | WRITE | FULL
deriving DecidableEq, Repr

/-- A hold slot's state (R91). -/
inductive SlotState where
  | FREE | WAITING | GRANTED
deriving DecidableEq, Repr

/-- Why a transaction was voided, refused or faulted, or a transfer stopped (chapter 12, reasons; `none` is the code 00h). -/
inductive Reason where
  | none | DISABLED_WINDOW | READ_ONLY_WINDOW | VIEW_END | STAGING_FULL | BAD_ADDRESS | CONTROL_READ_ONLY
  | COMMAND_BUSY | POLICY | HELD | DAMAGED | CUT_BY_RESET
deriving DecidableEq, Repr

/-- The outcome code of a command (section 10.3). -/
inductive Status where
  | OK | WAITING | BAD_COMMAND | BAD_ARGUMENT | NOT_SUPERVISOR | POLICY | OVERLAP | BUSY | CYCLE | NO_SLOT
  | ALREADY_WAITING | NO_HOLD | NOT_FOUND
deriving DecidableEq, Repr

/-- A transaction's kind (R53, R65). -/
inductive TxKind where
  | NONE | STORE_READ | STORE_WRITE | CONTROL_WRITE
deriving DecidableEq, Repr

/-- A transaction's recorded outcome (R65). -/
inductive TxOutcome where
  | OK | PENDING | VOIDED | REFUSED | FAULTED
deriving DecidableEq, Repr

/-- The phase of a port unit's transaction (R54). -/
inductive Phase where
  | IDLE | ADDRESS | DATA | VOIDED | CUT
deriving DecidableEq, Repr

/-- What a transaction does on the bus: a write, a read, or an SPI STATUS transaction, which is neither (R53). -/
inductive TxDir where
  | write | read | status
deriving DecidableEq, Repr

/-- How a port's most recently ended copy ended (R126). -/
inductive CopyStatus where
  | NONE | OK | FAULT | CANCELLED
deriving DecidableEq, Repr

/-- Why a hold ended without a command of its port (R107). -/
inductive EndCause where
  | LEASE | WAIT_TIMEOUT | EVICTED
deriving DecidableEq, Repr

/-- The state of an attention source (R139). -/
inductive SourceState where
  | IDLE | PENDING | ACTIVE | ACTIVE_REPEND
deriving DecidableEq, Repr

/-- Who wrote the page of a notice (R76). -/
inductive Writer where
  | port (p : Port)
  | MULTIPLE
deriving DecidableEq, Repr

/-! ## The device: resets, pins, straps -/

/-- The reset and strap logic: pin levels, the start-up clear, the sampled straps (R17, R21, R148, R162, R166). -/
structure Device where
  /-- RESET_N is low. -/
  resetLow : Bool
  /-- The start-up clear has begun and not reached its end (R17). -/
  clearing : Bool
  /-- ALERT_IN_N is low (R148). -/
  alertLow : Bool
  /-- CS_N of the SPI port is low (R166). -/
  csLow : Bool
  /-- The supervisor port number (R21). -/
  supervisor : Port
  /-- The sampled AS value of each port; P3 has none and holds 0 (R157, R162). -/
  asValue : Vector (BitVec 2) 4
deriving DecidableEq, Repr

/-! ## The store controller and the arbiter -/

/-- The store's bytes: (address, byte) pairs, addresses strictly rising, no entry 00h, which an unlisted address reads
as (R18). The address of an offset of a page is the page times 256 plus the offset (R1). -/
abbrev Memory := List Host.Cell

/-- One page-table entry (R20). -/
structure PageEntry where
  policy : Policy
  owner : Port
  version : Half
deriving DecidableEq, Repr

/-- The store controller's own state (R4 to R8, R18, R20). -/
structure StoreCtl where
  bytes : Memory
  /-- Every line is stored with a check code computed from its bytes: not so until the start-up clear has written
  every line once (section 1.10, R4, R18). -/
  codesFresh : Bool
  /-- The corrected count, saturating (R6). -/
  corrected : Half
  /-- The damaged-line list, oldest first (R8). -/
  damaged : List LineNo
  /-- The overflow flag (R8). -/
  overflow : Bool
  pages : Vector PageEntry 128
deriving DecidableEq, Repr

/-- A requester of the store arbiter, in the order of its ring: P0, P1, P2, P3 and the copy engine, number 4 (R69). -/
abbrev Requester := Fin 5

/-- The copy engine as a requester (R69). -/
abbrev copyEngine : Requester := 4

/-- A port unit as a requester (R69). -/
abbrev portRequester (p : Port) : Requester := p.castSucc

/-- A claim of the store controller, or an act of the hold controller, that became due while a store request was in
service (R3, R94). -/
inductive DueAct where
  /-- The claim with this command code of this port. -/
  | claim (p : Port) (code : Byte)
  /-- A tick of the timebase. -/
  | tick
  /-- The hold controller's part of this port's reset. -/
  | holdReset (p : Port)
deriving DecidableEq, Repr

/-- The store arbiter (R69). -/
structure Arbiter where
  /-- The round-robin pointer. -/
  pointer : Requester
  /-- The requester whose request the store controller is serving. -/
  inService : Option Requester
  /-- What became due during the service, in the order in which it became due. -/
  due : List DueAct
deriving DecidableEq, Repr

/-! ## Window translators -/

/-- One entry of a window map (R38). -/
structure MapEntry where
  enabled : Bool
  page : Page
  access : Access
deriving DecidableEq, Repr

/-- A port's window translator: the entry of window `w` is at index `w - 1` (R38), and the increment mode (R42). -/
structure Translator where
  map : Vector MapEntry 15
  mode : IncMode
deriving DecidableEq, Repr

/-! ## Port units -/

/-- A staged byte with its captured place (R43, R55): a page and an offset, or, in a control transaction, the line of
the control window in place of the page and the byte of the line in place of the offset. -/
structure Entry where
  page : Page
  offset : Byte
  value : Byte
deriving DecidableEq, Repr

/-- The line a port unit holds, tagged with its window and line (R46). `ready` : the SPI port has sent its READY (R168). -/
structure HeldLine where
  window : Fin 16
  line : Fin 16
  bytes : Line
  ready : Bool
deriving DecidableEq, Repr

/-- The first fault of a read (R63): the page and line as the TRANSACTION STATUS line reports them. -/
structure FaultNote where
  reason : Reason
  page : Byte
  line : Half
deriving DecidableEq, Repr

/-- A line fetch as issued (R46): the window and line it was obtained for, and the page and line within the page it
names. `discard` : the transaction that issued it is over or cut, so its bytes are dropped (R63, R70). -/
structure Fetch where
  window : Fin 16
  tag : Fin 16
  page : Page
  line : Fin 16
  discard : Bool
deriving DecidableEq, Repr

/-- A port's outstanding store request (R54, R59). -/
inductive StoreRequest where
  | fetch (f : Fetch)
  | commit (entries : List Entry)
deriving DecidableEq, Repr

/-- The fields of the TRANSACTION STATUS line (R65). -/
structure TxStatus where
  kind : TxKind
  outcome : TxOutcome
  reason : Reason
  page : Byte
  line : Half
  count : Byte
  version : Half
deriving DecidableEq, Repr

/-- What waits to be handed over once the port's outstanding commit has returned (R60). -/
inductive HandOver where
  /-- A commit, to be issued to the arbiter. -/
  | commit (entries : List Entry)
  /-- A control commit for the COMMAND line. -/
  | command (entries : List Entry)
  /-- A control commit for the DONE line, with its staged byte count. -/
  | done (count : Byte)
  /-- A transaction record. -/
  | record (r : TxStatus)
deriving DecidableEq, Repr

/-- A port unit (R40, R54). -/
structure PortUnit where
  pointer : ViewAddr
  phase : Phase
  dir : Option TxDir
  kind : TxKind
  /-- The low four bits of the address high byte, once taken (R163). -/
  addrHigh : Option (BitVec 4)
  /-- The transaction has been in phase DATA. -/
  addressed : Bool
  /-- The increment mode latched at the begin of the transaction (R42). -/
  mode : IncMode
  voidReason : Option Reason
  /-- The entries staged before the void or the cut (R56, R71). -/
  counted : Nat
  /-- The transaction has reached the end of the view (R40). -/
  endOfView : Bool
  staging : List Entry
  held : Option HeldLine
  /-- The port unit is obtaining the line at the pointer and has neither got it nor issued its fetch (R46, R59, R60). -/
  asking : Bool
  /-- The held line is a PORT STATE line whose parts may still be taken (R156; log 32). -/
  gathering : Bool
  /-- The master has not acknowledged a read byte (R165). -/
  stopped : Bool
  firstFault : Option FaultNote
  outstanding : Option StoreRequest
  handOver : Option HandOver
  /-- The kept void record, and the count of replaced ones (R60). -/
  keptVoid : Option TxStatus
  replaced : Nat
  /-- A store read that ended while its fetch was outstanding, with its first fault (R63). -/
  endedRead : Option (Option FaultNote)
  /-- The last acknowledge the port gave on its bus (R163, R164). -/
  ackOut : Bool
  /-- What SDA or MISO carried in the last byte; 0FFh is also a released line. -/
  dataOut : Byte
deriving DecidableEq, Repr

/-! ## Command units and claims -/

/-- The result line; its in-flight field is a view of the command-in-flight flag (R152). -/
structure ResultLine where
  code : Byte
  status : Status
  sequence : Byte
  detail : Vector Byte 12
deriving DecidableEq, Repr

/-- The part of a port reset that is taken next (R159). -/
inductive ResetStage where
  | hold | notice | copy | attention | command | portUnit
deriving DecidableEq, Repr

/-- A port reset in progress (R158): while a command unit has one, its reset-in-progress flag is set. -/
structure ResetRun where
  stage : ResetStage
  issuer : Port
  /-- The code of the command in flight when the reset began, or zero (R160). -/
  code : Byte
deriving DecidableEq, Repr

/-- A port's command unit (R152, R65). -/
structure CommandUnit where
  line : Line
  result : ResultLine
  inFlight : Bool
  resetRun : Option ResetRun
  txStatus : TxStatus
deriving DecidableEq, Repr

/-- One owner's half of a PORT_CONFIG claim (R155). -/
inductive HalfClaim (α : Type) where
  | due
  | taken (v : α)
  /-- Discarded by the attention unit's part of a port reset (R159). -/
  | discarded
deriving DecidableEq, Repr

/-- Where a claim stands. -/
inductive Stage where
  /-- At the issuing command unit, which has tests of its own to make, or a code that is no command (R153). -/
  | commandUnit
  /-- With its one owner. -/
  | owner
  /-- With these ports' translators (MAP) or attention units (SIGNAL), which have not taken it yet. -/
  | ports (left : PortSet)
  /-- A PORT_CONFIG with the port's translator and attention unit (R155). -/
  | halves (mode : HalfClaim IncMode) (output : HalfClaim Bool)
  /-- A PORT_RESET's begin claim with the target's command unit (R158). -/
  | begin (target : Port)
deriving DecidableEq, Repr

/-- A command passed on as a claim, with the command line as it stood when the command executed (R153). -/
structure Claim where
  issuer : Port
  line : Line
  stage : Stage
  /-- The answer is discarded: it comes after step 5 of a reset of the issuer (R159). -/
  orphan : Bool
deriving DecidableEq, Repr

/-! ## Hold controller -/

/-- A slot of the hold table (R91); its arrival stamp is its place in the hold queue. -/
structure Slot where
  state : SlotState
  first : Page
  count : Nat
  mode : HoldMode
  lease : Half
  leaseLeft : Half
  waitLimit : Half
  waitLeft : Half
deriving DecidableEq, Repr

/-- A slot named by its port and its number within the port. -/
abbrev SlotRef := Port × SlotNo

/-- The hold controller: the hold table (R91) and the hold queue, oldest first (R111). -/
structure HoldCtl where
  slots : Vector (Vector Slot 4) 4
  queue : List SlotRef
deriving DecidableEq, Repr

/-! ## Notice unit -/

/-- A notice record (R76). -/
structure Notice where
  page : Page
  writer : Writer
  firstOff : Byte
  lastOff : Byte
  version : Half
  merges : BitVec 4
deriving DecidableEq, Repr

/-- A port's notice queue, oldest record first, with its lost count and last-lost page (R76). -/
structure NoticeQueue where
  records : List Notice
  lost : Byte
  lastLost : Page
deriving DecidableEq, Repr

/-- The notice unit (R73, R76). -/
structure NoticeUnit where
  watch : Vector PortSet 128
  queues : Vector NoticeQueue 4
deriving DecidableEq, Repr

/-! ## Copy engine -/

/-- A copy request (R126). -/
structure CopyReq where
  requester : Port
  src : Page
  dst : Page
  count : Nat
  pagesDone : Nat
  cancel : Bool
  silent : Bool
deriving DecidableEq, Repr

/-- A port's last-copy record (R126). -/
structure LastCopy where
  status : CopyStatus
  reason : Reason
  pagesDone : Nat
deriving DecidableEq, Repr

/-- The engine's page transfer (R128). -/
inductive Transfer where
  | none
  /-- Waiting at the arbiter or in service. -/
  | issued (src dst : Page) (q : Port)
  /-- Served, its outcome not yet taken: `Reason.none` for OK, else FAULT with the reason (R14). -/
  | returned (r : Reason)
deriving DecidableEq, Repr

/-- The copy engine: the queue, whose oldest request is the active copy, and the last-copy records (R126). -/
structure CopyEngine where
  queue : List CopyReq
  last : Vector LastCopy 4
  transfer : Transfer
deriving DecidableEq, Repr

/-! ## Attention units -/

/-- The detail of an event (R140). -/
inductive Detail where
  | zero
  | page (p : Page)
  | slot (k : SlotNo)
  | holdEnded (k : Option SlotNo) (c : EndCause)
  | copyDone (st : CopyStatus) (r : Reason) (done : Nat)
  | fault (r : Reason)
  | signal (sender : Port) (code : Byte)
deriving DecidableEq, Repr

/-- An attention source (R139). -/
structure Source where
  state : SourceState
  detail : Detail
  lost : Byte
  enabled : Bool
  level : Fin 8
deriving DecidableEq, Repr

/-- A port's attention unit (R139). `doneDue` : DONEs handed to it and not yet taken (R68, R144). -/
structure AttnUnit where
  sources : Vector Source 8
  outputEnable : Bool
  doneDue : Nat
deriving DecidableEq, Repr

/-! ## The whole -/

/-- The state of the device, and the queue of waiting commands. -/
structure State where
  pending : List Instr
  device : Device
  store : StoreCtl
  arbiter : Arbiter
  holds : HoldCtl
  notice : NoticeUnit
  copy : CopyEngine
  translators : Vector Translator 4
  ports : Vector PortUnit 4
  cmds : Vector CommandUnit 4
  claims : List Claim
  attn : Vector AttnUnit 4
  /-- The model's own: how many free values have been read. No reset changes it (log 43). -/
  freeIndex : Nat
deriving DecidableEq, Repr

/-! ## Reset values -/

/-- A vector given by its entries' numbers. -/
def vecOf {α : Type} (n : Nat) (f : Nat → α) : Vector α n := ⟨((List.range n).map f).toArray, by simp⟩

/-- A line of zeros. -/
def Line.zero : Line := Vector.replicate 16 0

/-- After power-on and device reset (R20). -/
def PageEntry.reset : PageEntry := ⟨.OPEN, 0, 0⟩

/-- After power-on reset (R18, R20); the codes are fresh from the clear's end on (R17). -/
def StoreCtl.reset : StoreCtl := ⟨[], false, 0, [], false, Vector.replicate 128 PageEntry.reset⟩

/-- After power-on and device reset (R70). -/
def Arbiter.reset : Arbiter := ⟨0, none, []⟩

/-- After power-on and device reset (R38, R42). -/
def Translator.reset : Translator := ⟨Vector.replicate 15 ⟨false, 0, .RW⟩, .LINEAR⟩

/-- After power-on and device reset (R40, R54). -/
def PortUnit.reset : PortUnit where
  pointer := 0
  phase := .IDLE
  dir := none
  kind := .NONE
  addrHigh := none
  addressed := false
  mode := .LINEAR
  voidReason := none
  counted := 0
  endOfView := false
  staging := []
  held := none
  asking := false
  gathering := false
  stopped := false
  firstFault := none
  outstanding := none
  handOver := none
  keptVoid := none
  replaced := 0
  endedRead := none
  ackOut := false
  dataOut := Config.fill

/-- All fields zero: kind NONE, outcome OK (R65). -/
def TxStatus.zero : TxStatus := ⟨.NONE, .OK, .none, 0, 0, 0, 0⟩

/-- After power-on and device reset (R65, R152). -/
def CommandUnit.reset : CommandUnit := ⟨Line.zero, ⟨0, .OK, 0, Vector.replicate 12 0⟩, false, none, TxStatus.zero⟩

/-- A FREE slot: all other fields zero (R91). -/
def Slot.free : Slot := ⟨.FREE, 0, 0, .WRITE, 0, 0, 0, 0⟩

/-- After power-on and device reset (R109). -/
def HoldCtl.reset : HoldCtl := ⟨Vector.replicate 4 (Vector.replicate 4 Slot.free), []⟩

/-- An empty notice queue (R76). -/
def NoticeQueue.empty : NoticeQueue := ⟨[], 0, 0⟩

/-- After power-on and device reset (R88). -/
def NoticeUnit.reset : NoticeUnit := ⟨Vector.replicate 128 0, Vector.replicate 4 NoticeQueue.empty⟩

/-- NONE, none, 0 (R126). -/
def LastCopy.reset : LastCopy := ⟨.NONE, .none, 0⟩

/-- After power-on and device reset (R126). -/
def CopyEngine.reset : CopyEngine := ⟨[], Vector.replicate 4 LastCopy.reset, .none⟩

/-- After power-on and device reset (R139): the level of a source is its number. -/
def AttnUnit.reset : AttnUnit where
  sources := vecOf 8 fun i => ⟨.IDLE, .zero, 0, false, Fin.ofNat 8 i⟩
  outputEnable := false
  doneDue := 0

/-- Why a command could stop the block with a fault: there is no such reason. Every refused, voided or faulted access is
an outcome the block records and goes on from (R9, R11, R56, R66). -/
inductive Fault where
deriving DecidableEq, Repr

/-- Why a command could be refused by the model. -/
inductive Refusal where
  /-- Raised by exec's arm of a command that has no meaning yet; safe. No arm answers with it. -/
  | notModelled (mnemonic : String)
deriving DecidableEq, Repr

/-- The machine right after power-on reset, the start-up clear running (R17): every field at the value the manual
states for power-on reset. Straps sampled as 0 (log 2); RESET_N, ALERT_IN_N and CS_N high (log 3). -/
def State.reset : State where
  pending := []
  device := ⟨false, true, false, false, 0, Vector.replicate 4 0⟩
  store := StoreCtl.reset
  arbiter := Arbiter.reset
  holds := HoldCtl.reset
  notice := NoticeUnit.reset
  copy := CopyEngine.reset
  translators := Vector.replicate 4 Translator.reset
  ports := Vector.replicate 4 PortUnit.reset
  cmds := Vector.replicate 4 CommandUnit.reset
  claims := []
  attn := Vector.replicate 4 AttnUnit.reset
  freeIndex := 0

end Sys2Proof.Machine
end

