-- ==== Sys2Proof/Machine/Ops.lean ====
section
/-! DEFINITION. The named operations over the store's bytes, over vectors and counts, and over the parts of the state. -/

namespace Sys2Proof.Machine

/-! ## Vectors, counts, lists of all ports -/

/-- Replaces the entry at `i` by what `f` makes of it. -/
def upd {α : Type} {n : Nat} (v : Vector α n) (i : Fin n) (f : α → α) : Vector α n := v.set i (f v[i])

/-- A saturating count's next value (00_scope section 5). -/
def satInc {w : Nat} (x : BitVec w) : BitVec w := if x = BitVec.allOnes w then x else x + 1

/-- P0 to P3 in ascending order. -/
def allPorts : List Port := [0, 1, 2, 3]

/-- A port's slots in ascending order. -/
def allSlots : List SlotNo := [0, 1, 2, 3]

/-- Every slot of the hold table, in ascending order of port and, within a port, of slot (R102). -/
def allRefs : List SlotRef := allPorts.flatMap fun p => allSlots.map fun k => (p, k)

/-- The sources of an attention unit in ascending order. -/
def allSources : List SourceNo := [0, 1, 2, 3, 4, 5, 6, 7]

/-- The lines of a page in ascending order. -/
def allLines : List (Fin 16) := [0, 1, 2, 3, 4, 5, 6, 7, 8, 9, 10, 11, 12, 13, 14, 15]

/-- Bit `p` of a port set. -/
def PortSet.has (s : PortSet) (p : Port) : Bool := s.getLsbD p

/-- The port set with bit `p` alone. -/
def PortSet.only (p : Port) : PortSet := BitVec.twoPow 4 p

/-- The set with `p` added. -/
def PortSet.add (s : PortSet) (p : Port) : PortSet := s ||| PortSet.only p

/-- The set with `p` removed. -/
def PortSet.remove (s : PortSet) (p : Port) : PortSet := s &&& ~~~ (PortSet.only p)

/-- The ports of a list as a set. -/
def PortSet.ofList (ps : List Port) : PortSet := ps.foldl PortSet.add 0

/-- How many ports a set has. -/
def PortSet.size (s : PortSet) : Nat := (allPorts.filter fun p => PortSet.has s p).length

/-! ## The store's bytes -/

/-- The byte at an address: 00h where none is listed (R18). -/
def Memory.read : Memory → Nat → Byte
  | [], _ => 0
  | (a, b) :: m, x => if a = x then b else Memory.read m x

/-- Writes a byte and keeps the canonical form: an entry 00h is not listed. -/
def Memory.write : Memory → Nat → Byte → Memory
  | [], x, v => if v = 0 then [] else [(x, v)]
  | (a, b) :: m, x, v =>
    if x < a then (if v = 0 then (a, b) :: m else (x, v) :: (a, b) :: m)
    else if x = a then (if v = 0 then m else (x, v) :: m)
    else (a, b) :: Memory.write m x v

/-- All addresses are above `lo`, rising, inside the store, and no byte is 00h. -/
def Memory.wfFrom : Nat → Memory → Bool
  | _, [] => true
  | lo, (a, b) :: m => decide (lo ≤ a) && decide (a < Config.storeBytes) && b != 0 && Memory.wfFrom (a + 1) m

/-- The canonical form of the store's bytes. -/
def Memory.wf (m : Memory) : Bool := Memory.wfFrom 0 m

/-- The store address of an offset of a page (R1). -/
def storeAddr (pg : Page) (off : Byte) : Nat := pg.val * 256 + off.toNat

/-- The device-wide number of line `ln` of a page (R1). -/
def lineNo (pg : Page) (ln : Fin 16) : LineNo := Fin.ofNat 2048 (pg.val * 16 + ln.val)

/-- A line given by its bytes in order, zeros beyond the list's end. -/
def Line.ofList (l : List Byte) : Line := vecOf 16 fun i => l.getD i 0

/-- Sixteen fill bytes (R9, R47). -/
def Line.fill : Line := Vector.replicate 16 Config.fill

/-- The sixteen bytes of a line of the store. -/
def Memory.readLine (m : Memory) (pg : Page) (ln : Fin 16) : Line :=
  vecOf 16 fun i => Memory.read m (pg.val * 256 + ln.val * 16 + i)

/-- Writes staged bytes in staged order, so that of two for one place the later remains (R11). -/
def Memory.writeEntries (m : Memory) (es : List Entry) : Memory :=
  es.foldl (fun m e => Memory.write m (storeAddr e.page e.offset) e.value) m

/-- Writes the 256 bytes of page `src`, as `m` has them, into page `dst` (R14). -/
def Memory.copyPage (m : Memory) (src dst : Page) : Memory :=
  (List.range 256).foldl
    (fun m' i => Memory.write m' (dst.val * 256 + i) (Memory.read m (src.val * 256 + i))) m

/-! ## Parts of the state -/

/-- The blocks act: no device reset is in progress and the start-up clear has ended (R17, R72). -/
def State.running (s : State) : Bool := !s.device.resetLow && !s.device.clearing

/-- Changes port `p`'s port unit. -/
def State.modPort (p : Port) (f : PortUnit → PortUnit) (s : State) : State := { s with ports := upd s.ports p f }

/-- Changes port `p`'s command unit. -/
def State.modCmd (p : Port) (f : CommandUnit → CommandUnit) (s : State) : State := { s with cmds := upd s.cmds p f }

/-- Changes port `p`'s attention unit. -/
def State.modAttn (p : Port) (f : AttnUnit → AttnUnit) (s : State) : State := { s with attn := upd s.attn p f }

/-- Changes port `p`'s window translator. -/
def State.modTranslator (p : Port) (f : Translator → Translator) (s : State) : State :=
  { s with translators := upd s.translators p f }

/-- Puts the hold controller's state. -/
def State.setHolds (h : HoldCtl) (s : State) : State := { s with holds := h }

/-- Puts the store controller's state. -/
def State.setStore (st : StoreCtl) (s : State) : State := { s with store := st }

/-- Puts the notice unit's state. -/
def State.setNotice (n : NoticeUnit) (s : State) : State := { s with notice := n }

/-- Puts the copy engine's state. -/
def State.setCopy (c : CopyEngine) (s : State) : State := { s with copy := c }

/-- Puts the arbiter's state. -/
def State.setArbiter (a : Arbiter) (s : State) : State := { s with arbiter := a }

/-- Puts the list of claims. -/
def State.setClaims (cs : List Claim) (s : State) : State := { s with claims := cs }

/-- Puts the device's pins, straps and resets. -/
def State.setDevice (d : Device) (s : State) : State := { s with device := d }

/-- Puts the queue of waiting commands. -/
def State.setPending (cs : List Instr) (s : State) : State := { s with pending := cs }

/-- Puts the number of the next free value. -/
def State.setFree (n : Nat) (s : State) : State := { s with freeIndex := n }

end Sys2Proof.Machine
end

