-- ==== Sys2Proof/Machine/Operands.lean ====
section
/-! DEFINITION. Chapter 12: code values, the arguments of a command line, and byte order. A field wider than one byte has
its least significant byte at the lower address. -/

namespace Sys2Proof.Machine

/-! ## Byte order and numbers -/

/-- The least significant byte of a two-byte field. -/
def loByte (x : Half) : Byte := x.setWidth 8

/-- The most significant byte of a two-byte field. -/
def hiByte (x : Half) : Byte := (x >>> 8).setWidth 8

/-- The two bytes of a field, in the order of their addresses. -/
def bytes2 (x : Half) : List Byte := [loByte x, hiByte x]

/-- A two-byte field from its bytes, the lower address first. -/
def half (lo hi : Byte) : Half := hi ++ lo

/-- A number as a byte. -/
def byteN (n : Nat) : Byte := BitVec.ofNat 8 n

/-- A flag as a byte. -/
def flagByte (b : Bool) : Byte := if b then 1 else 0

/-- A page as a byte. -/
def pageByte (p : Page) : Byte := byteN p.val

/-- A port as a byte. -/
def portByte (p : Port) : Byte := byteN p.val

/-- A port set as a byte, bits 4 to 7 zero. -/
def setByte (s : PortSet) : Byte := s.setWidth 8

/-- The page a byte below 128 names. -/
def pageOf (n : Nat) : Page := Fin.ofNat 128 n

/-! ## Code values (section 12.1) -/

/-- The sixteen command codes. -/
def cHOLD : Byte := 0x01
def cRENEW : Byte := 0x02
def cRELEASE : Byte := 0x03
def cWATCH : Byte := 0x04
def cCOPY : Byte := 0x05
def cCOPY_CANCEL : Byte := 0x06
def cSIGNAL : Byte := 0x07
def cPAGE_INFO : Byte := 0x08
def cMAP : Byte := 0x09
def cMAP_QUERY : Byte := 0x0A
def cPORT_CONFIG : Byte := 0x0B
def cATTN_CONFIG : Byte := 0x0C
def cPOLICY : Byte := 0x0D
def cPORT_RESET : Byte := 0x0E
def cDAMAGE_QUERY : Byte := 0x0F
def cDAMAGE_CLEAR : Byte := 0x10

/-- 00h and any value above 10h is no command code (R171). -/
def isCommandCode (b : Byte) : Bool := decide (1 ≤ b.toNat) && decide (b.toNat ≤ 16)

def Status.code : Status → Byte
  | .OK => 0x00
  | .WAITING => 0x01
  | .BAD_COMMAND => 0x02
  | .BAD_ARGUMENT => 0x03
  | .NOT_SUPERVISOR => 0x04
  | .POLICY => 0x05
  | .OVERLAP => 0x06
  | .BUSY => 0x07
  | .CYCLE => 0x08
  | .NO_SLOT => 0x09
  | .ALREADY_WAITING => 0x0A
  | .NO_HOLD => 0x0B
  | .NOT_FOUND => 0x0C

def Reason.code : Reason → Byte
  | .none => 0x00
  | .DISABLED_WINDOW => 0x01
  | .READ_ONLY_WINDOW => 0x02
  | .VIEW_END => 0x03
  | .STAGING_FULL => 0x04
  | .BAD_ADDRESS => 0x05
  | .CONTROL_READ_ONLY => 0x06
  | .COMMAND_BUSY => 0x07
  | .POLICY => 0x08
  | .HELD => 0x09
  | .DAMAGED => 0x0A
  | .CUT_BY_RESET => 0x0B

def Policy.code : Policy → Byte
  | .OPEN => 0
  | .OWNER => 1
  | .FIXED => 2
  | .PRIVATE => 3

def Policy.ofByte (b : Byte) : Option Policy :=
  if b = 0 then some .OPEN else if b = 1 then some .OWNER else if b = 2 then some .FIXED
  else if b = 3 then some .PRIVATE else none

def HoldMode.code : HoldMode → Byte
  | .WRITE => 0
  | .FULL => 1

def HoldMode.ofByte (b : Byte) : Option HoldMode :=
  if b = 0 then some .WRITE else if b = 1 then some .FULL else none

def Access.code : Access → Byte
  | .RW => 0
  | .RO => 1

def Access.ofByte (b : Byte) : Option Access := if b = 0 then some .RW else if b = 1 then some .RO else none

/-- A flag argument: 0 clear or no, 1 set or yes; any other value is undefined. -/
def flagOf (b : Byte) : Option Bool := if b = 0 then some false else if b = 1 then some true else none

/-- An enable or output action: keep, enable, disable. -/
def enableAction (b : Byte) : Option (Option Bool) :=
  if b = 0 then some none else if b = 1 then some (some true) else if b = 2 then some (some false) else none

/-- An increment action: keep, LINEAR, WINDOW_WRAP. -/
def incAction (b : Byte) : Option (Option IncMode) :=
  if b = 0 then some none else if b = 1 then some (some .LINEAR) else if b = 2 then some (some .WINDOW_WRAP) else none

/-- The increment mode in a PORT_CONFIG result (R172). -/
def IncMode.code : IncMode → Byte
  | .LINEAR => 1
  | .WINDOW_WRAP => 2

def SlotState.code : SlotState → Byte
  | .FREE => 0
  | .WAITING => 1
  | .GRANTED => 2

def EndCause.code : EndCause → Byte
  | .LEASE => 1
  | .WAIT_TIMEOUT => 2
  | .EVICTED => 3

def CopyStatus.code : CopyStatus → Byte
  | .NONE => 0
  | .OK => 1
  | .FAULT => 2
  | .CANCELLED => 3

/-- The copy state entered or found. -/
def cQUEUED : Byte := 1
def cACTIVE : Byte := 2

def Writer.code : Writer → Byte
  | .port p => portByte p
  | .MULTIPLE => 4

def TxKind.code : TxKind → Byte
  | .NONE => 0
  | .STORE_READ => 1
  | .STORE_WRITE => 2
  | .CONTROL_WRITE => 3

def TxOutcome.code : TxOutcome → Byte
  | .OK => 0
  | .PENDING => 1
  | .VOIDED => 2
  | .REFUSED => 3
  | .FAULTED => 4

/-! ## Arguments (R171) -/

/-- Byte `i` of a claim's command line. -/
def Claim.arg (c : Claim) (i : Fin 16) : Byte := c.line[i]

/-- The command code, byte 0. -/
def Claim.code (c : Claim) : Byte := c.arg 0

/-- The two-byte argument at bytes `i` and `i + 1`. -/
def Claim.arg2 (c : Claim) (i j : Fin 16) : Half := half (c.arg i) (c.arg j)

/-- The port set at byte 1: bits 4 to 7 are not read. -/
def Claim.portSet (c : Claim) : PortSet := (c.arg 1).setWidth 4

/-- HOLD: 1 first page; 2 count; 3 mode; 4-5 lease; 6 wait flag; 7-8 wait limit. -/
structure HoldArgs where
  first : Nat
  count : Nat
  mode : Option HoldMode
  lease : Half
  wait : Option Bool
  limit : Half
deriving DecidableEq, Repr

def Claim.holdArgs (c : Claim) : HoldArgs :=
  ⟨(c.arg 1).toNat, (c.arg 2).toNat, HoldMode.ofByte (c.arg 3), c.arg2 4 5, flagOf (c.arg 6), c.arg2 7 8⟩

/-- A range of `count` pages from `first` is not inside pages 0 to 127, or its count is 0 or above `most`. -/
def badRange (most first count : Nat) : Bool :=
  decide (count = 0) || decide (most < count) || decide (127 < first) || decide (127 < first + count - 1)

/-- The pages of a range, ascending. -/
def rangePages (first count : Nat) : List Page := (List.range count).map fun i => pageOf (first + i)

/-- Page `p` lies in the range of `count` pages from `first`. -/
def inRange (first count : Nat) (p : Page) : Bool := decide (first ≤ p.val) && decide (p.val < first + count)

/-! ## Details of results -/

/-- A result detail: its bytes in order, zeros to the twelfth. -/
def detailOf (l : List Byte) : Vector Byte 12 := vecOf 12 fun i => l.getD i 0

/-- An answer to a command: its status and the bytes of its detail. -/
abbrev Answer := Status × List Byte

/-- A refusal with a detail of all zeros. -/
def refusal (st : Status) : Answer := (st, [])

end Sys2Proof.Machine
end

