-- ==== Sys2Proof/Machine/Flags.lean ====
section
/-! DEFINITION. What is computed from an attention unit: eligibility, the choice of TAKE and of DONE, the summaries, the
ATTNn_N output; and the SPI STATUS byte's flags. -/

namespace Sys2Proof.Machine

/-- PENDING or ACTIVE_REPEND: an event that has not been taken (R143). -/
def Source.isPending (x : Source) : Bool := x.state == .PENDING || x.state == .ACTIVE_REPEND

/-- ACTIVE or ACTIVE_REPEND: an event that is being handled (R142). -/
def Source.isActive (x : Source) : Bool := x.state == .ACTIVE || x.state == .ACTIVE_REPEND

/-- Enabled, in state PENDING, and of a level above that of every active source (R142). -/
def AttnUnit.eligible (u : AttnUnit) (i : SourceNo) : Bool :=
  u.sources[i].enabled && u.sources[i].state == .PENDING &&
    allSources.all fun j => !u.sources[j].isActive || decide (u.sources[j].level < u.sources[i].level)

/-- Of two candidates, one of a lower number already found, keeps the one of the higher level; of equal levels the
lower number (R143, R144). -/
def AttnUnit.better (u : AttnUnit) (ok : SourceNo → Bool) (best : Option SourceNo) (i : SourceNo) : Option SourceNo :=
  if ok i then
    match best with
    | none => some i
    | some j => if u.sources[j].level < u.sources[i].level then some i else some j
  else best

/-- Among the sources that satisfy `ok`, the one of the highest level and, of that level, of the lowest number. -/
def AttnUnit.pick (u : AttnUnit) (ok : SourceNo → Bool) : Option SourceNo := allSources.foldl (u.better ok) none

/-- The source a TAKE chooses (R143). -/
def AttnUnit.chosen (u : AttnUnit) : Option SourceNo := u.pick u.eligible

/-- The source a DONE acts on (R144). -/
def AttnUnit.innermost (u : AttnUnit) : Option SourceNo := u.pick fun i => u.sources[i].isActive

/-- One flag per source, bit `n` for source `n` (R143, section 12.1). -/
def AttnUnit.summary (u : AttnUnit) (f : Source → Bool) : Byte :=
  allSources.foldl (fun b i => if f u.sources[i] then b ||| BitVec.twoPow 8 i.val else b) 0

/-- The pending summary (R143). -/
def AttnUnit.pendingSummary (u : AttnUnit) : Byte := u.summary Source.isPending

/-- The active summary (R143). -/
def AttnUnit.activeSummary (u : AttnUnit) : Byte := u.summary Source.isActive

/-- Some source is eligible. -/
def AttnUnit.anyEligible (u : AttnUnit) : Bool := allSources.any u.eligible

/-- ATTNn_N is low: the output is enabled, no reset or clear is in progress, and some source is eligible (R146). -/
def attnLow (s : State) (p : Port) : Bool := s.running && s.attn[p].outputEnable && s.attn[p].anyEligible

/-- What stands on MISO: high impedance (`none`) while CS_N is high, else the byte P3 drives (pin summary 12.4). With CS_N low
in a reset or the start-up clear that is a driven 0FFh (R72, R166), not the release of R170: the model's choice (log 41). -/
def miso (s : State) : Option Byte := if s.device.csLow then some s.ports[spi].dataOut else none

/-- The SPI STATUS byte (R169, R172): attention, command, last OK, notice, waiting hold in bits 0 to 4. -/
def statusByte (s : State) : Byte :=
  (if s.attn[spi].anyEligible then 0x01 else 0) |||
  (if s.cmds[spi].inFlight then 0x02 else 0) |||
  (if s.cmds[spi].txStatus.outcome = .OK then 0x04 else 0) |||
  (if s.notice.queues[spi].records.isEmpty then 0 else 0x08) |||
  (if allSlots.any (fun k => s.holds.slots[spi][k].state == .WAITING) then 0x10 else 0)

end Sys2Proof.Machine
end

