-- ==== Sys2Proof/Machine/Attention.lean ====
section
/-! DEFINITION. Chapter 9: the acts of an attention unit. -/

namespace Sys2Proof.Machine

/-- An event for a port's attention unit (R140). -/
structure Event where
  port : Port
  source : SourceNo
  detail : Detail
deriving DecidableEq, Repr

/-- The sources (R140). -/
def sNOTICE_NEW : SourceNo := 0
def sNOTICE_LOST : SourceNo := 1
def sHOLD_GRANTED : SourceNo := 2
def sHOLD_ENDED : SourceNo := 3
def sCOPY_DONE : SourceNo := 4
def sACCESS_FAULT : SourceNo := 5
def sPORT_SIGNAL : SourceNo := 6
def sALERT_IN : SourceNo := 7

/-- An event arrives at a source (R141): latched or merged whether or not the source is enabled. -/
def Source.arrive (d : Detail) (x : Source) : Source :=
  match x.state with
  | .IDLE => { x with state := .PENDING, detail := d }
  | .PENDING => { x with detail := d, lost := satInc x.lost }
  | .ACTIVE => { x with state := .ACTIVE_REPEND, detail := d }
  | .ACTIVE_REPEND => { x with detail := d, lost := satInc x.lost }

/-- An event arrives at source `i` of a unit. -/
def AttnUnit.arrive (i : SourceNo) (d : Detail) (u : AttnUnit) : AttnUnit :=
  { u with sources := upd u.sources i (Source.arrive d) }

/-- Raises an event at its port's unit. -/
def State.raise (e : Event) (s : State) : State := s.modAttn e.port (AttnUnit.arrive e.source e.detail)

/-- Raises events in order. -/
def State.raiseAll (es : List Event) (s : State) : State := es.foldl (fun s e => s.raise e) s

/-- The bytes 6 to 8 of the ATTENTION line (section 12.3). -/
def Detail.bytes : Detail → List Byte
  | .zero => []
  | .page p => [pageByte p]
  | .slot k => [byteN k.val]
  | .holdEnded (some k) c => [byteN k.val, c.code]
  | .holdEnded none c => [Config.noneByte, c.code]
  | .copyDone st r n => [st.code, r.code, byteN n]
  | .fault r => [r.code]
  | .signal q c => [portByte q, c]

/-- TAKE (R143): the chosen source goes to ACTIVE, its lost count to 0, and the line tells of it; with no eligible source
the line reads NONE and nothing changes. The summaries are those after the TAKE. -/
def AttnUnit.take (u : AttnUnit) : AttnUnit × Line :=
  match u.chosen with
  | some i =>
    let x := u.sources[i]
    let u' := { u with sources := u.sources.set i { x with state := .ACTIVE, lost := 0 } }
    (u', Line.ofList ([1, byteN i.val, byteN x.level.val, x.lost, u'.pendingSummary, u'.activeSummary] ++ x.detail.bytes))
  | none => (u, Line.ofList [0, 0, 0, 0, u.pendingSummary, u.activeSummary])

/-- What DONE makes of the source it acts on (R144). -/
def Source.finish (x : Source) : Source :=
  match x.state with
  | .ACTIVE => { x with state := .IDLE, detail := .zero }
  | .ACTIVE_REPEND => { x with state := .PENDING }
  | .IDLE | .PENDING => x

/-- DONE (R144): acts on the innermost active source; without one it has no effect. -/
def AttnUnit.done (u : AttnUnit) : AttnUnit :=
  match u.innermost with
  | some i => { u with sources := upd u.sources i Source.finish }
  | none => u

/-- One DONE that was handed to the unit is taken (R68, R144). -/
def AttnUnit.takeDone (u : AttnUnit) : AttnUnit := { u.done with doneDue := u.doneDue - 1 }

/-- The unit takes every DONE handed to it. -/
def AttnUnit.takeDones : Nat → AttnUnit → AttnUnit
  | 0, u => u
  | n + 1, u => AttnUnit.takeDones n u.takeDone

/-- ATTN_CONFIG's effect on one source of the set: `none` keeps the field (R145). -/
def Source.configure (en : Option Bool) (lv : Option (Fin 8)) (x : Source) : Source :=
  { x with enabled := en.getD x.enabled, level := lv.getD x.level }

/-- The enable and level of all eight sources, as the result of ATTN_CONFIG gives them (R145, R172). -/
def AttnUnit.configDetail (u : AttnUnit) : List Byte :=
  u.summary (fun x => x.enabled) :: allSources.map fun i => byteN u.sources[i].level.val

/-- Every source of the set takes the new enable and level, as one act (R145). -/
def AttnUnit.configure (srcs : Byte) (en : Option Bool) (lv : Option (Fin 8)) (u : AttnUnit) : AttnUnit :=
  let change (i : SourceNo) : Source :=
    if srcs.getLsbD i.val then u.sources[i].configure en lv else u.sources[i]
  { u with sources := Vector.ofFn change }

/-- ATTN_CONFIG with source set, enable action and level bytes (R145). -/
def AttnUnit.config (srcs act level : Byte) (u : AttnUnit) : AttnUnit × Answer :=
  if srcs = 0 then (u, refusal .BAD_ARGUMENT)
  else match enableAction act with
    | none => (u, refusal .BAD_ARGUMENT)
    | some en =>
      if 7 < level.toNat ∧ level ≠ Config.noneByte then (u, refusal .BAD_ARGUMENT)
      else
        let lv : Option (Fin 8) := if level = Config.noneByte then none else some (Fin.ofNat 8 level.toNat)
        let u' := u.configure srcs en lv
        (u', .OK, u'.configDetail)

/-- A source without an event; its enable and level are kept (R150). -/
def Source.idle (x : Source) : Source := { x with state := .IDLE, detail := .zero, lost := 0 }

/-- The unit's part of a port reset (R150): every source IDLE; enables, levels and output enable kept. DONEs not yet taken
would find no active source, and are dropped. -/
def AttnUnit.resetPart (u : AttnUnit) : AttnUnit :=
  { u with sources := Vector.ofFn fun i => u.sources[i].idle, doneDue := 0 }

end Sys2Proof.Machine
end

