-- ==== Sys2Proof/Machine/Command.lean ====
section
/-! DEFINITION. Chapter 10, the command unit: recording an answer, writing the TRANSACTION STATUS line, passing claims and
finding them; and the lines it answers. -/

namespace Sys2Proof.Machine

/-! ## Answers -/

/-- The reset in progress has not reached step 5, so the command-in-flight flag stays set (R154; log 21). -/
def CommandUnit.keepsFlag (c : CommandUnit) : Bool :=
  match c.resetRun with
  | some r => r.stage != .portUnit
  | none => false

/-- Writes the result line whole and clears the command-in-flight flag (R154). -/
def CommandUnit.record (code : Byte) (a : Answer) (c : CommandUnit) : CommandUnit :=
  { c with
    result := ⟨code, a.1, c.result.sequence + 1, detailOf a.2⟩
    inFlight := c.inFlight && c.keepsFlag }

/-- The command unit of `p` records an answer (R154). -/
def State.recordAnswer (p : Port) (code : Byte) (a : Answer) (s : State) : State :=
  s.modCmd p (CommandUnit.record code a)

/-- The answer to a claim: recorded, or discarded after step 5 of a reset of its issuer (R154, R159). -/
def State.answer (c : Claim) (a : Answer) (s : State) : State :=
  if c.orphan then s else s.recordAnswer c.issuer c.code a

/-! ## Claims -/

/-- The first claim that satisfies `f`, and the others. -/
def takeFirst (f : Claim → Bool) : List Claim → Option (Claim × List Claim)
  | [] => none
  | c :: cs => if f c then some (c, cs) else (takeFirst f cs).map fun x => (x.1, c :: x.2)

/-- The first claim that satisfies `f` replaced by `g` of it, or taken away. -/
def replaceFirst (f : Claim → Bool) (g : Claim → Option Claim) : List Claim → List Claim
  | [] => []
  | c :: cs => if f c then (g c).toList ++ cs else c :: replaceFirst f g cs

/-- `p`'s claim with this code, with its one owner. -/
def isOwned (p : Port) (code : Byte) (c : Claim) : Bool := c.issuer == p && c.code == code && c.stage == .owner

/-- `p`'s claim with this code, still at the issuing command unit. -/
def atUnit (p : Port) (code : Byte) (c : Claim) : Bool := c.issuer == p && c.code == code && c.stage == .commandUnit

/-- The owner of `p`'s oldest claim with this code takes it: `act` gives the owner's change and its answer. Where there is
no such claim there is nothing to take (log 5). -/
def State.takeOwned (p : Port) (code : Byte) (act : Claim → State → State × Answer) (s : State) : State :=
  match takeFirst (isOwned p code) s.claims with
  | none => s
  | some (c, rest) =>
    let r := act c { s with claims := rest }
    r.1.answer c r.2

/-- The claims of `p` with one of these codes, with their one owner, are discarded (R87, R108, R136, R150). -/
def State.discardOwned (p : Port) (codes : List Byte) (s : State) : State :=
  { s with claims := s.claims.filter fun c => !(codes.any fun code => isOwned p code c) }

/-- The codes whose rules give tests to the command unit itself (section 10.3), and the codes that are no command. -/
def testedAtUnit (code : Byte) : Bool :=
  code == cSIGNAL || code == cMAP || code == cMAP_QUERY || code == cPORT_CONFIG || code == cPORT_RESET ||
    !isCommandCode code

/-- Executes the command the line holds (R153): the command-in-flight flag is set and the claim goes on its way. -/
def State.execute (p : Port) (s : State) : State :=
  let c : Claim := ⟨p, s.cmds[p].line, .owner, false⟩
  let c' : Claim := if testedAtUnit c.code then { c with stage := .commandUnit } else c
  { s.modCmd p (fun u => { u with inFlight := true }) with claims := s.claims ++ [c'] }

/-! ## The TRANSACTION STATUS line -/

/-- A final outcome other than OK (R66). -/
def TxOutcome.isFault : TxOutcome → Bool
  | .VOIDED | .REFUSED | .FAULTED => true
  | .OK | .PENDING => false

/-- Raises ACCESS_FAULT at `p` (R66). -/
def State.accessFault (p : Port) (r : Reason) (s : State) : State := s.raise ⟨p, sACCESS_FAULT, .fault r⟩

/-- Writes `p`'s TRANSACTION STATUS line whole, with ACCESS_FAULT for a final outcome other than OK (R65, R66). -/
def State.writeRecord (p : Port) (r : TxStatus) (s : State) : State :=
  let s' := s.modCmd p fun c => { c with txStatus := r }
  if r.outcome.isFault then s'.accessFault p r.reason else s'

/-! ## The lines the command unit answers (R152, R156, R157, R172) -/

/-- The RESULT line, its in-flight field read live (R152). -/
def resultLine (c : CommandUnit) : Line :=
  Line.ofList ([c.result.code, c.result.status.code, c.result.sequence, flagByte c.inFlight] ++ c.result.detail.toList)

/-- The TRANSACTION STATUS line (R65, R172). -/
def txStatusLine (t : TxStatus) : Line :=
  Line.ofList ([t.kind.code, t.outcome.code, t.reason.code, t.page] ++ bytes2 t.line ++ [t.count] ++ bytes2 t.version)

/-- The IDENTITY line (R157). -/
def identityLine (s : State) (p : Port) : Line :=
  Line.ofList [Config.vendorCode, Config.partCode, Config.revision, portByte p, portByte s.device.supervisor,
    s.device.asValue[p].setWidth 8]

/-- The lease code of a lease remaining (R172). -/
def leaseCode (n : Nat) : Nat := if n ≤ 127 then n else 127 + (n + 511) / 512

/-- A slot's 13-bit record in PORT STATE (section 12.3). -/
def slotRecord (x : Slot) : Nat :=
  x.state.code.toNat + x.mode.code.toNat * 4 + (x.count - 1) % 8 * 8 + x.first.val * 64

/-- The lease code shown for a slot: 0 for a FREE or WAITING slot (R172). -/
def slotLeaseCode (x : Slot) : Nat := if x.state = .GRANTED then leaseCode x.leaseLeft.toNat else 0

/-- `p`'s copy state: 0 NONE, 1 QUEUED, 2 plus the pages done for ACTIVE (section 12.3). -/
def copyState (e : CopyEngine) (p : Port) : Nat :=
  match e.queue with
  | [] => 0
  | a :: rest => if a.requester = p then 2 + a.pagesDone else if rest.any (fun x => x.requester == p) then 1 else 0

/-- The last-copy status of PORT STATE (section 12.3). -/
def lastCopyCode (l : LastCopy) : Nat :=
  match l.status, l.reason with
  | .NONE, _ => 0
  | .OK, _ => 1
  | .CANCELLED, _ => 2
  | .FAULT, .HELD => 4
  | .FAULT, .DAMAGED => 5
  | .FAULT, _ => 3

/-- Packs values at bit positions into the 128 bits of a line (R172). -/
def packBits (fs : List (Nat × Nat)) : BitVec 128 :=
  fs.foldl (fun b f => b ||| (BitVec.ofNat 128 f.2 <<< f.1)) 0

/-- The 128 bits as 16 bytes, bit 0 of byte 0 first. -/
def lineOfBits (b : BitVec 128) : Line := vecOf 16 fun i => (b >>> (8 * i)).setWidth 8

/-- The PORT STATE line (R156, R172). -/
def portStateLine (s : State) (p : Port) : Line :=
  let slots := s.holds.slots[p]
  let u := s.attn[p]
  let q := s.notice.queues[p]
  lineOfBits <| packBits
    [ (0, slotRecord slots[0]), (13, slotRecord slots[1]), (26, slotRecord slots[2]), (39, slotRecord slots[3]),
      (52, slotLeaseCode slots[0]), (60, slotLeaseCode slots[1]), (68, slotLeaseCode slots[2]),
      (76, slotLeaseCode slots[3]),
      (84, q.records.length), (89, q.lost.toNat), (97, u.pendingSummary.toNat), (105, u.activeSummary.toNat),
      (113, if s.translators[p].mode = .WINDOW_WRAP then 1 else 0), (114, if u.outputEnable then 1 else 0),
      (115, copyState s.copy p), (120, lastCopyCode s.copy.last[p]), (123, s.copy.last[p].pagesDone) ]

/-- The part of the PORT STATE line that bit `n` belongs to (R156): 0 the slots, 1 the notices, 2 the copy, 3 attention,
4 configuration. -/
def partOfBit (n : Nat) : Fin 5 :=
  if n < 84 then 0 else if n < 97 then 1 else if n = 113 then 4 else if n < 115 then 3 else 2

/-- A PORT STATE line of parts from two lines: each part is whole, of the second line where `late` says so (R156). -/
def gatheredLine (late : BitVec 5) (first second : Line) : Line :=
  vecOf 16 fun i => BitVec.ofFnLE fun j : Fin 8 =>
    if late.getLsbD (partOfBit (8 * i + j)).val then second[Fin.ofNat 16 i].getLsbD j else first[Fin.ofNat 16 i].getLsbD j

/-- A line of the control window whose reading changes nothing (R37): all but ATTENTION and NOTICE. -/
def controlLine (s : State) (p : Port) (ln : Fin 16) : Line :=
  if ln = 0 then s.cmds[p].line
  else if ln = 1 then resultLine s.cmds[p]
  else if ln = 5 then portStateLine s p
  else if ln = 6 then txStatusLine s.cmds[p].txStatus
  else if ln = 7 then identityLine s p
  else Line.zero

end Sys2Proof.Machine
end

