-- ==== Sys2Proof/Machine/Hold.lean ====
section
/-! DEFINITION. Chapters 6 and 7: the hold table, the hold queue, and the acts of the hold controller, as functions of its
own state that also give the events they raise. -/

namespace Sys2Proof.Machine

/-! ## The page table's rights (R22), which HOLD also tests (R24) -/

/-- Read rights of `q` on a page (R22). -/
def PageEntry.readable (e : PageEntry) (q : Port) : Bool :=
  match e.policy with
  | .OPEN | .OWNER | .FIXED => true
  | .PRIVATE => e.owner == q

/-- Write rights of `q` on a page, `sup` being the supervisor port (R22). -/
def PageEntry.writable (e : PageEntry) (sup q : Port) : Bool :=
  match e.policy with
  | .OPEN => true
  | .OWNER | .PRIVATE => e.owner == q
  | .FIXED => sup == q

/-! ## Slots and ranges (R91, R93) -/

/-- The ranges of two counts of pages share a page (R93). -/
def overlap (f₁ c₁ f₂ c₂ : Nat) : Bool := decide (f₁ < f₂ + c₂) && decide (f₂ < f₁ + c₁)

/-- A slot's range shares a page with `c` pages from `f`. -/
def Slot.meets (x : Slot) (f c : Nat) : Bool := overlap x.first.val x.count f c

/-- A slot's range covers a page. -/
def Slot.covers (x : Slot) (pg : Page) : Bool := inRange x.first.val x.count pg

/-- A slot of the hold table. -/
def HoldCtl.slot (h : HoldCtl) (r : SlotRef) : Slot := h.slots[r.1][r.2]

/-- Puts a slot of the hold table. -/
def HoldCtl.setSlot (r : SlotRef) (x : Slot) (h : HoldCtl) : HoldCtl :=
  { h with slots := upd h.slots r.1 fun v => v.set r.2 x }

/-- A slot becomes FREE, its fields zero, and leaves the queue if it was in it (R91, R111). -/
def HoldCtl.free (h : HoldCtl) (r : SlotRef) : HoldCtl :=
  { h.setSlot r Slot.free with queue := h.queue.filter fun x => x != r }

/-- `q` has a GRANTED slot that shares a page with `c` pages from `f`. -/
def HoldCtl.grantedMeets (h : HoldCtl) (q : Port) (f c : Nat) : Bool :=
  allSlots.any fun k => (h.slot (q, k)).state == .GRANTED && (h.slot (q, k)).meets f c

/-- A port other than `p` has such a slot. -/
def HoldCtl.grantedByOther (h : HoldCtl) (p : Port) (f c : Nat) : Bool :=
  allPorts.any fun q => q != p && h.grantedMeets q f c

/-- A WAITING request shares a page with `c` pages from `f`. -/
def HoldCtl.waitingMeets (h : HoldCtl) (f c : Nat) : Bool := h.queue.any fun r => (h.slot r).meets f c

/-- A port other than `q` holds a GRANTED slot covering the page, in either mode (R98, R100). -/
def HoldCtl.heldByOther (h : HoldCtl) (q : Port) (pg : Page) : Bool :=
  allRefs.any fun r => r.1 != q && (h.slot r).state == .GRANTED && (h.slot r).covers pg

/-- The same, in FULL mode (R99, R100). -/
def HoldCtl.fullByOther (h : HoldCtl) (q : Port) (pg : Page) : Bool :=
  allRefs.any fun r => r.1 != q && (h.slot r).state == .GRANTED && (h.slot r).mode == .FULL && (h.slot r).covers pg

/-- The GRANTED slot covering a page: at most one exists (R93), the lowest is reported (R32). -/
def HoldCtl.holder (h : HoldCtl) (pg : Page) : Option SlotRef :=
  allRefs.find? fun r => (h.slot r).state == .GRANTED && (h.slot r).covers pg

/-! ## The scan (R118) -/

/-- A grant from the queue: the lease starts, the wait ends (R118). -/
def HoldCtl.grant (h : HoldCtl) (r : SlotRef) : HoldCtl :=
  h.setSlot r { h.slot r with state := .GRANTED, leaseLeft := (h.slot r).lease, waitLeft := 0 }

/-- The request of `r` is not granted: another port's GRANTED slot, or one of the older requests still WAITING, overlaps
its range (R118). -/
def HoldCtl.blocked (h : HoldCtl) (older : List SlotRef) (r : SlotRef) : Bool :=
  h.grantedByOther r.1 (h.slot r).first.val (h.slot r).count ||
    older.any fun o => (h.slot o).meets (h.slot r).first.val (h.slot r).count

/-- Takes the queued requests in order, `older` being those left WAITING so far; gives the table, the requests still
WAITING and those granted, in order. -/
def HoldCtl.scanFrom (h : HoldCtl) (older : List SlotRef) : List SlotRef → HoldCtl × List SlotRef × List SlotRef
  | [] => (h, older, [])
  | r :: rs =>
    if h.blocked older r then h.scanFrom (older ++ [r]) rs
    else
      let x := (h.grant r).scanFrom older rs
      (x.1, x.2.1, r :: x.2.2)

/-- HOLD_GRANTED for a granted slot (R119). -/
def grantedEvent (r : SlotRef) : Event := ⟨r.1, sHOLD_GRANTED, .slot r.2⟩

/-- Scans the queue once (R117, R118), with the HOLD_GRANTED events in the order of the grants. -/
def HoldCtl.scan (h : HoldCtl) : HoldCtl × List Event :=
  let x := h.scanFrom [] h.queue
  ({ x.1 with queue := x.2.1 }, x.2.2.map grantedEvent)

/-! ## Waits-on and the cycle check (R113, R114) -/

/-- The ports a request of `p` for `c` pages from `f` waits on, `older` being the requests before it (R113). -/
def HoldCtl.blockers (h : HoldCtl) (older : List SlotRef) (p : Port) (f c : Nat) : List Port :=
  allPorts.filter fun q => q != p && (h.grantedMeets q f c || older.any fun o => o.1 == q && (h.slot o).meets f c)

/-- The requests before `q`'s in the queue, and `q`'s. -/
def splitAtPort (q : Port) : List SlotRef → Option (List SlotRef × SlotRef)
  | [] => none
  | r :: rs => if r.1 = q then some ([], r) else (splitAtPort q rs).map fun x => (r :: x.1, x.2)

/-- The ports `q` waits on: none without a WAITING request (R113). -/
def HoldCtl.waitsOn (h : HoldCtl) (q : Port) : List Port :=
  match splitAtPort q h.queue with
  | none => []
  | some (older, r) => h.blockers older q (h.slot r).first.val (h.slot r).count

/-- The ports reached from `ps` along at most `n` waits-on edges. -/
def HoldCtl.reach (h : HoldCtl) : Nat → List Port → List Port
  | 0, ps => ps
  | n + 1, ps => h.reach n (allPorts.filter fun q => ps.contains q || ps.any fun x => (h.waitsOn x).contains q)

/-- Waiting for `c` pages from `f` would close a cycle through `p` (R114): a chain has at most four edges. -/
def HoldCtl.closesCycle (h : HoldCtl) (p : Port) (f c : Nat) : Bool :=
  (h.reach 4 (h.blockers h.queue p f c)).contains p

/-! ## HOLD (R95, R96, R112 to R115) -/

/-- `p`'s lowest-numbered FREE slot (R96). -/
def HoldCtl.freeSlot (h : HoldCtl) (p : Port) : Option SlotNo :=
  allSlots.find? fun k => (h.slot (p, k)).state == .FREE

/-- The lowest-numbered GRANTED slot of `p` that overlaps the range (R95). -/
def HoldCtl.ownOverlap (h : HoldCtl) (p : Port) (f c : Nat) : Option SlotNo :=
  allSlots.find? fun k => (h.slot (p, k)).state == .GRANTED && (h.slot (p, k)).meets f c

/-- `p` has a WAITING slot. -/
def HoldCtl.isWaiting (h : HoldCtl) (p : Port) : Bool := allSlots.any fun k => (h.slot (p, k)).state == .WAITING

/-- The arrival stamp of a slot: its place in the queue, from 1; 0 when it is not in it (R111). -/
def HoldCtl.stamp (h : HoldCtl) (r : SlotRef) : Nat := if h.queue.contains r then h.queue.idxOf r + 1 else 0

/-- What HOLD does with a slot once the tests of R95 have passed: an immediate grant (R96), BUSY (R112), CYCLE (R114) or
WAITING (R115). -/
def HoldCtl.place (h : HoldCtl) (p : Port) (k : SlotNo) (a : HoldArgs) (mode : HoldMode) (wait : Bool) :
    HoldCtl × Answer :=
  let head : List Byte := [byteN k.val, byteN a.first, byteN a.count, mode.code] ++ bytes2 a.lease
  if !h.grantedByOther p a.first a.count && !h.waitingMeets a.first a.count then
    (h.setSlot (p, k) ⟨.GRANTED, pageOf a.first, a.count, mode, a.lease, a.lease, 0, 0⟩, .OK, head)
  else if !wait then (h, refusal .BUSY)
  else if h.closesCycle p a.first a.count then (h, refusal .CYCLE)
  else
    let h' := h.setSlot (p, k) ⟨.WAITING, pageOf a.first, a.count, mode, a.lease, 0, a.limit, a.limit⟩
    ({ h' with queue := h.queue ++ [(p, k)] }, .WAITING,
      head ++ bytes2 a.limit ++ [byteN (h.queue.length + 1),
        setByte (PortSet.ofList (h.blockers h.queue p a.first a.count))])

/-- HOLD of port `p` (R95): the five tests in order, then R96. -/
def HoldCtl.takeHold (sup : Port) (pages : Vector PageEntry 128) (p : Port) (a : HoldArgs) (h : HoldCtl) :
    HoldCtl × Answer :=
  if badRange Config.holdPages a.first a.count then (h, refusal .BAD_ARGUMENT)
  else match a.mode, a.wait with
    | some mode, some wait =>
      if (rangePages a.first a.count).any fun pg => !pages[pg].writable sup p then (h, refusal .POLICY)
      else match h.ownOverlap p a.first a.count with
        | some k => (h, .OVERLAP, [byteN k.val])
        | none =>
          if h.isWaiting p then (h, refusal .ALREADY_WAITING)
          else match h.freeSlot p with
            | none => (h, refusal .NO_SLOT)
            | some k => h.place p k a mode wait
    | _, _ => (h, refusal .BAD_ARGUMENT)

/-! ## RENEW and RELEASE (R103, R104) -/

/-- A slot argument above 3 names no slot. -/
def slotOf (b : Byte) : Option SlotNo := if 3 < b.toNat then none else some (Fin.ofNat 4 b.toNat)

/-- RENEW (R103). -/
def HoldCtl.takeRenew (p : Port) (slot : Byte) (lease : Half) (h : HoldCtl) : HoldCtl × Answer :=
  match slotOf slot with
  | none => (h, refusal .BAD_ARGUMENT)
  | some k =>
    let x := h.slot (p, k)
    if x.state = .GRANTED then
      (h.setSlot (p, k) { x with lease := lease, leaseLeft := lease }, .OK,
        [byteN k.val] ++ bytes2 lease ++ bytes2 lease)
    else (h, refusal .NO_HOLD)

/-- RELEASE (R104, R121): a GRANTED slot is freed, a WAITING one withdrawn, and the queue scanned. -/
def HoldCtl.takeRelease (p : Port) (slot : Byte) (h : HoldCtl) : HoldCtl × List Event × Answer :=
  match slotOf slot with
  | none => (h, [], refusal .BAD_ARGUMENT)
  | some k =>
    let x := h.slot (p, k)
    if x.state = .FREE then (h, [], refusal .NO_HOLD)
    else
      let r := (h.free (p, k)).scan
      (r.1, r.2, .OK, [byteN k.val, x.state.code])

/-! ## Ticks (R101, R102, R120) -/

/-- One tick's decrease of a slot's times. -/
def Slot.countDown (x : Slot) : Slot :=
  match x.state with
  | .FREE => x
  | .GRANTED => if x.lease = 0 then x else { x with leaseLeft := x.leaseLeft - 1 }
  | .WAITING => if x.waitLimit = 0 then x else { x with waitLeft := x.waitLeft - 1 }

/-- The slot's lease has run out. -/
def Slot.leaseOver (x : Slot) : Bool := x.state == .GRANTED && x.lease != 0 && x.leaseLeft == 0

/-- The slot's wait has run out. -/
def Slot.waitOver (x : Slot) : Bool := x.state == .WAITING && x.waitLimit != 0 && x.waitLeft == 0

/-- The decreases of a tick, all slots. -/
def HoldCtl.countDown (h : HoldCtl) : HoldCtl :=
  { h with slots := Vector.ofFn fun p => Vector.ofFn fun k => (h.slots[p][k]).countDown }

/-- The slots whose lease or wait the decreases brought to its end, in ascending order (R102, R120). -/
def HoldCtl.over (h : HoldCtl) : List SlotRef := allRefs.filter fun r => (h.slot r).leaseOver || (h.slot r).waitOver

/-- HOLD_ENDED of an expired slot, with its cause (R102, R120). -/
def HoldCtl.endedEvent (h : HoldCtl) (r : SlotRef) : Event :=
  ⟨r.1, sHOLD_ENDED, .holdEnded (some r.2) (if (h.slot r).leaseOver then .LEASE else .WAIT_TIMEOUT)⟩

/-- The act of one tick: all decreases, then all expiries in ascending order, then one scan if a slot expired
(R102, R117, R120). -/
def HoldCtl.tick (h : HoldCtl) : HoldCtl × List Event :=
  let h₁ := h.countDown
  let ended := h₁.over
  if ended.isEmpty then (h₁, [])
  else
    let x := (ended.foldl HoldCtl.free h₁).scan
    (x.1, ended.map h₁.endedEvent ++ x.2)

/-- The next tick brings the lease of a GRANTED slot to its end (R102). -/
def HoldCtl.leaseEnding (h : HoldCtl) (r : SlotRef) : Bool := (h.slot r).countDown.leaseOver

/-- The next tick brings the wait of a WAITING slot to its end (R120). -/
def HoldCtl.waitEnding (h : HoldCtl) (r : SlotRef) : Bool := (h.slot r).countDown.waitOver

/-! ## The hold controller's part of a port reset (R108, R124) -/

/-- All slots of `p` become FREE, its request leaves the queue, and the queue is scanned once. -/
def HoldCtl.resetPart (p : Port) (h : HoldCtl) : HoldCtl × List Event :=
  HoldCtl.scan { slots := h.slots.set p (Vector.replicate 4 Slot.free), queue := h.queue.filter fun r => r.1 != p }

end Sys2Proof.Machine
end

