-- ==== Sys2Proof/Machine/NoticeUnit.lean ====
section
/-! DEFINITION. Chapter 5: watch sets, postings, pops, and the notice unit's part of a port reset. -/

namespace Sys2Proof.Machine

/-- One page of a posting (R77): the page, the writing port, the first and last offset written, the new version. -/
structure PageWrite where
  page : Page
  writer : Port
  firstOff : Byte
  lastOff : Byte
  version : Half
deriving DecidableEq, Repr

/-- The lower of two offsets. -/
def minByte (a b : Byte) : Byte := if a ≤ b then a else b

/-- The higher of two offsets. -/
def maxByte (a b : Byte) : Byte := if a ≤ b then b else a

/-- A write merged into the record of its page (R78). -/
def Notice.merge (w : PageWrite) (n : Notice) : Notice :=
  { n with
    writer := if n.writer = .port w.writer then n.writer else .MULTIPLE
    firstOff := minByte n.firstOff w.firstOff
    lastOff := maxByte n.lastOff w.lastOff
    version := w.version
    merges := satInc n.merges }

/-- The record a write appends (R79). -/
def Notice.fresh (w : PageWrite) : Notice := ⟨w.page, .port w.writer, w.firstOff, w.lastOff, w.version, 0⟩

/-- The queue holds a record for the page. -/
def NoticeQueue.has (q : NoticeQueue) (pg : Page) : Bool := q.records.any fun n => n.page == pg

/-- A write reaches a watching port's queue: merged (R78), appended (R79) or dropped (R80), with the source it raises. -/
def NoticeQueue.post (w : PageWrite) (q : NoticeQueue) : NoticeQueue × Option SourceNo :=
  if q.has w.page then
    ({ q with records := q.records.map fun n => if n.page = w.page then n.merge w else n }, none)
  else if q.records.length < Config.noticeRecords then
    ({ q with records := q.records ++ [Notice.fresh w] }, some sNOTICE_NEW)
  else ({ q with lost := satInc q.lost, lastLost := w.page }, some sNOTICE_LOST)

/-- A write reaches port `p`: passed over unless `p` watches the page and is not the writer (R77). -/
def NoticeUnit.postPort (w : PageWrite) (x : NoticeUnit × List Event) (p : Port) : NoticeUnit × List Event :=
  if PortSet.has x.1.watch[w.page] p && p != w.writer then
    let r := x.1.queues[p].post w
    ({ x.1 with queues := x.1.queues.set p r.1 }, x.2 ++ (r.2.toList.map fun i => ⟨p, i, .page w.page⟩))
  else x

/-- One page of a posting reaches every watching port other than the writer (R77). -/
def NoticeUnit.postPage (x : NoticeUnit × List Event) (w : PageWrite) : NoticeUnit × List Event :=
  allPorts.foldl (NoticeUnit.postPort w) x

/-- A posting, taken as one whole, its pages in ascending order (R77, R81). -/
def NoticeUnit.post (ws : List PageWrite) (n : NoticeUnit) : NoticeUnit × List Event := ws.foldl NoticeUnit.postPage (n, [])

/-- The NOTICE line of a popped record (R82, R172). -/
def recordLine (n : Notice) (q : NoticeQueue) (remaining : Nat) : Line :=
  Line.ofList ([1, pageByte n.page, n.writer.code, n.firstOff, n.lastOff] ++ bytes2 n.version ++
    [n.merges.setWidth 8, q.lost, pageByte q.lastLost, byteN remaining])

/-- The NOTICE line of an empty queue (R83, R172). -/
def emptyLine (q : NoticeQueue) : Line := Line.ofList [0, 0, 0, 0, 0, 0, 0, 0, q.lost, pageByte q.lastLost, 0]

/-- A pop (R82, R83): the oldest record leaves, and the lost count and last-lost page are reported and cleared. -/
def NoticeQueue.pop (q : NoticeQueue) : NoticeQueue × Line :=
  match q.records with
  | n :: ns => (⟨ns, 0, 0⟩, recordLine n q ns.length)
  | [] => (⟨[], 0, 0⟩, emptyLine q)

/-- A pop of `p`'s queue. -/
def NoticeUnit.pop (p : Port) (n : NoticeUnit) : NoticeUnit × Line :=
  let r := n.queues[p].pop
  ({ n with queues := n.queues.set p r.1 }, r.2)

/-- Changes the watch sets of a range of pages. -/
def NoticeUnit.modRange (first count : Nat) (f : PortSet → PortSet) (n : NoticeUnit) : NoticeUnit :=
  let change (i : Page) : PortSet := if inRange first count i then f n.watch[i] else n.watch[i]
  { n with watch := Vector.ofFn change }

/-- WATCH of port `p` (R74). -/
def NoticeUnit.takeWatch (pages : Vector PageEntry 128) (p : Port) (first count : Nat) (action : Byte)
    (n : NoticeUnit) : NoticeUnit × Answer :=
  if badRange 128 first count then (n, refusal .BAD_ARGUMENT)
  else match flagOf action with
    | none => (n, refusal .BAD_ARGUMENT)
    | some join =>
      let range := rangePages first count
      if join && range.any fun pg => !pages[pg].readable p then (n, refusal .POLICY)
      else
        let changed := (range.filter fun pg => PortSet.has n.watch[pg] p != join).length
        (n.modRange first count fun w => if join then PortSet.add w p else PortSet.remove w p, .OK,
          [byteN first, byteN count, action, byteN changed])

/-- The members of a watch set that a PRIVATE page of `owner` keeps (R28). -/
def keepOwner (owner : Port) (w : PortSet) : PortSet := w &&& PortSet.only owner

/-- The watch removal of a POLICY to PRIVATE (R28, R86), with the number of memberships removed. -/
def NoticeUnit.removeWatchers (first count : Nat) (owner : Port) (n : NoticeUnit) : NoticeUnit × Nat :=
  (n.modRange first count (keepOwner owner),
    ((rangePages first count).map fun pg => PortSet.size (PortSet.remove n.watch[pg] owner)).sum)

/-- The notice unit's part of a port reset (R87). -/
def NoticeUnit.resetPart (p : Port) (n : NoticeUnit) : NoticeUnit :=
  { watch := Vector.ofFn fun i => PortSet.remove n.watch[i] p, queues := n.queues.set p NoticeQueue.empty }

end Sys2Proof.Machine
end

