-- ==== Sys2Proof/Machine/Store.lean ====
section
/-! DEFINITION. Chapters 1 and 2: the store controller's services and claims, as functions of its own state (and of the
hold table and the supervisor number, which its checks read). -/

namespace Sys2Proof.Machine

/-! ## Reading a line (R5 to R7) -/

/-- A line found uncorrectable is listed, or sets the overflow flag when the list is full (R7). -/
def StoreCtl.enterDamaged (l : LineNo) (st : StoreCtl) : StoreCtl :=
  if st.damaged.contains l then st
  else if st.damaged.length < Config.damagedEntries then { st with damaged := st.damaged ++ [l] }
  else { st with overflow := true }

/-- The read of a line with its check outcome (R5); the Bool says whether its bytes may be used. The write-back of a
corrected line restores the bytes the line already held (R6), so only the count changes. -/
def StoreCtl.readCheck (l : LineNo) (o : ReadOutcome) (st : StoreCtl) : StoreCtl × Bool :=
  match o with
  | .good => (st, true)
  | .corrected => ({ st with corrected := satInc st.corrected }, true)
  | .uncorrectable => (st.enterDamaged l, false)

/-- An entry leaves the damaged-line list; the others keep their order (R8). -/
def StoreCtl.undamage (f : LineNo → Bool) (st : StoreCtl) : StoreCtl :=
  { st with damaged := st.damaged.filter fun l => !f l }

/-! ## Line fetch (R9, R10) -/

/-- What a fetch returns: the bytes, and `Reason.none` for OK or the reason of its fault. -/
structure FetchReply where
  bytes : Line
  outcome : Reason
deriving DecidableEq, Repr

/-- A faulted fetch returns sixteen fill bytes (R9). -/
def faulted (r : Reason) : FetchReply := ⟨Line.fill, r⟩

/-- Serves a line fetch by port `q` of line `ln` of page `pg`: policy, holds, damage, read (R9, R10). -/
def StoreCtl.serveFetch (h : HoldCtl) (q : Port) (pg : Page) (ln : Fin 16) (o : ReadOutcome) (st : StoreCtl) :
    StoreCtl × FetchReply :=
  if !st.pages[pg].readable q then (st, faulted .POLICY)
  else if h.fullByOther q pg then (st, faulted .HELD)
  else if st.damaged.contains (lineNo pg ln) then (st, faulted .DAMAGED)
  else
    let r := st.readCheck (lineNo pg ln) o
    (r.1, if r.2 then ⟨Memory.readLine st.bytes pg ln, .none⟩ else faulted .DAMAGED)

/-! ## Commit (R11 to R13, R58) -/

/-- Puts a page in ascending place, once. -/
def insertPage (p : Page) : List Page → List Page
  | [] => [p]
  | x :: xs => if p < x then p :: x :: xs else if p = x then x :: xs else x :: insertPage p xs

/-- The pages a commit touches, ascending (R11). -/
def touchedPages (es : List Entry) : List Page := es.foldr (fun e ps => insertPage e.page ps) []

/-- The line within its page of an offset (R1). -/
def offLine (off : Byte) : Fin 16 := Fin.ofNat 16 (off.toNat / 16)

/-- The commit gives line `ln` of page `pg` at least one byte. -/
def touchesLine (es : List Entry) (pg : Page) (ln : Fin 16) : Bool := es.any fun e => e.page == pg && offLine e.offset == ln

/-- The commit gives every offset of the line a byte (R12). -/
def coversLine (es : List Entry) (pg : Page) (ln : Fin 16) : Bool :=
  (List.range 16).all fun i => es.any fun e => e.page == pg && e.offset.toNat == ln.val * 16 + i

/-- The damage check over lines of a page in ascending order (R12, R13). `reads` gives the outcomes of the merge reads in
the order in which they are made, good beyond its end. Answers the line that failed, if one did, and the outcomes left. -/
def StoreCtl.damageCheck (es : List Entry) (pg : Page) (st : StoreCtl) (reads : List ReadOutcome) :
    List (Fin 16) → StoreCtl × List ReadOutcome × Option LineNo
  | [] => (st, reads, none)
  | ln :: lns =>
    if !touchesLine es pg ln || coversLine es pg ln then st.damageCheck es pg reads lns
    else if st.damaged.contains (lineNo pg ln) then (st, reads, some (lineNo pg ln))
    else
      let r := st.readCheck (lineNo pg ln) (reads.headD .good)
      if r.2 then r.1.damageCheck es pg reads.tail lns else (r.1, reads.tail, some (lineNo pg ln))

/-- A failed check of a commit: the reason, the fault page, the fault line as it is reported (R11, R58). -/
structure CommitFault where
  reason : Reason
  page : Page
  line : Half
deriving DecidableEq, Repr

/-- A line number in a two-byte field. -/
def lineHalf (l : LineNo) : Half := BitVec.ofNat 16 l.val

/-- The checks of a commit by `q`, page by page: policy, holds, damage (R11). -/
def StoreCtl.commitCheck (sup : Port) (h : HoldCtl) (q : Port) (es : List Entry) (st : StoreCtl)
    (reads : List ReadOutcome) : List Page → StoreCtl × Option CommitFault
  | [] => (st, none)
  | pg :: pgs =>
    if !st.pages[pg].writable sup q then (st, some ⟨.POLICY, pg, Config.noLine⟩)
    else if h.heldByOther q pg then (st, some ⟨.HELD, pg, Config.noLine⟩)
    else
      let r := st.damageCheck es pg reads allLines
      match r.2.2 with
      | some l => (r.1, some ⟨.DAMAGED, pg, lineHalf l⟩)
      | none => r.1.commitCheck sup h q es r.2.1 pgs

/-- Increases the version of every page that `f` selects by one, wrapping (R30). -/
def bumpVersions (f : Page → Bool) (pages : Vector PageEntry 128) : Vector PageEntry 128 :=
  let change (i : Page) : PageEntry :=
    if f i then { pages[i] with version := pages[i].version + 1 } else pages[i]
  Vector.ofFn change

/-- The line number's page and line within the page (R1). -/
def linePage (l : LineNo) : Page := pageOf (l.val / 16)
def lineInPage (l : LineNo) : Fin 16 := Fin.ofNat 16 l.val

/-- Applies a commit whose checks passed: the bytes in staged order, the repairs (R12), the versions (R30). A line that is
still listed and gets a byte is one the commit covers whole. -/
def StoreCtl.applyCommit (es : List Entry) (st : StoreCtl) : StoreCtl :=
  let st' := st.undamage fun l => touchesLine es (linePage l) (lineInPage l)
  { st' with
    bytes := Memory.writeEntries st'.bytes es
    pages := bumpVersions (fun pg => es.any fun e => e.page == pg) st'.pages }

/-- The offsets a commit writes on a page. -/
def offsetsOn (es : List Entry) (pg : Page) : List Byte := (es.filter fun e => e.page == pg).map Entry.offset

/-- What the notice unit is handed for a page of an applied commit: its lowest and highest offset and its new version
(R58). -/
def pageWrite (q : Port) (es : List Entry) (pages : Vector PageEntry 128) (pg : Page) : PageWrite :=
  let offs := offsetsOn es pg
  ⟨pg, q, offs.foldl minByte 0xFF, offs.foldl maxByte 0, pages[pg].version⟩

/-- The version of the lowest touched page (R58). -/
def lowestVersion (es : List Entry) (pages : Vector PageEntry 128) : Half :=
  match touchedPages es with
  | pg :: _ => pages[pg].version
  | [] => 0

/-- The outcome record of a commit (R58, R65). -/
def commitRecord (es : List Entry) (st : StoreCtl) : Option CommitFault → TxStatus
  | none => ⟨.STORE_WRITE, .OK, .none, 0, 0, byteN es.length, lowestVersion es st.pages⟩
  | some f => ⟨.STORE_WRITE, .REFUSED, f.reason, pageByte f.page, f.line, byteN es.length, 0⟩

/-- The outcome of a commit's service: its record, and the posting of an applied one. -/
structure CommitReply where
  record : TxStatus
  posting : List PageWrite
deriving DecidableEq, Repr

/-- Serves a commit by port `q` (R11 to R13, R58). -/
def StoreCtl.serveCommit (sup : Port) (h : HoldCtl) (q : Port) (es : List Entry) (reads : List ReadOutcome)
    (st : StoreCtl) : StoreCtl × CommitReply :=
  let c := st.commitCheck sup h q es reads (touchedPages es)
  match c.2 with
  | some f => (c.1, ⟨commitRecord es c.1 (some f), []⟩)
  | none =>
    let st' := c.1.applyCommit es
    (st', ⟨commitRecord es st' none, (touchedPages es).map (pageWrite q es st'.pages)⟩)

/-! ## Page transfer (R14, R129, R131) -/

/-- Reads the source lines in ascending order; false when one is uncorrectable, and then no later one is read (R14). -/
def StoreCtl.readSource (src : Page) (st : StoreCtl) (reads : List ReadOutcome) : List (Fin 16) → StoreCtl × Bool
  | [] => (st, true)
  | ln :: lns =>
    let r := st.readCheck (lineNo src ln) (reads.headD .good)
    if r.2 then r.1.readSource src reads.tail lns else (r.1, false)

/-- A transfer whose checks passed: the bytes, the repairs of the destination, its version (R14, R30). -/
def StoreCtl.applyTransfer (src dst : Page) (st : StoreCtl) : StoreCtl :=
  let st' := st.undamage fun l => linePage l == dst
  { st' with
    bytes := Memory.copyPage st'.bytes src dst
    pages := bumpVersions (fun pg => pg == dst) st'.pages }

/-- Serves a page transfer for requesting port `q`: the checks in the order of R129, then the copy. `Reason.none` is OK. -/
def StoreCtl.serveTransfer (sup : Port) (h : HoldCtl) (q : Port) (src dst : Page) (reads : List ReadOutcome)
    (st : StoreCtl) : StoreCtl × Reason × List PageWrite :=
  if !st.pages[src].readable q then (st, .POLICY, [])
  else if h.fullByOther q src then (st, .HELD, [])
  else if !st.pages[dst].writable sup q then (st, .POLICY, [])
  else if h.heldByOther q dst then (st, .HELD, [])
  else if allLines.any fun ln => st.damaged.contains (lineNo src ln) then (st, .DAMAGED, [])
  else
    let r := st.readSource src reads allLines
    if r.2 then
      let st' := r.1.applyTransfer src dst
      (st', .none, [⟨dst, q, 0x00, 0xFF, st'.pages[dst].version⟩])
    else (r.1, .DAMAGED, [])

/-! ## The damage commands (R15, R16) -/

/-- DAMAGE_QUERY (R15). -/
def StoreCtl.damageQuery (index : Nat) (st : StoreCtl) : Answer :=
  if 7 < index then refusal .BAD_ARGUMENT
  else
    let entry : Half := match st.damaged[index]? with
      | some l => lineHalf l
      | none => Config.noLine
    (.OK, bytes2 entry ++ [byteN st.damaged.length, flagByte st.overflow] ++ bytes2 st.corrected)

/-- The detail of DAMAGE_CLEAR after the command (R16). -/
def StoreCtl.clearDetail (st : StoreCtl) : List Byte := [byteN st.damaged.length, flagByte st.overflow]

/-- DAMAGE_CLEAR of port `p` (R16). -/
def StoreCtl.damageClear (sup p : Port) (line : Half) (st : StoreCtl) : StoreCtl × Answer :=
  if p ≠ sup then (st, refusal .NOT_SUPERVISOR)
  else if 2047 < line.toNat ∧ line ≠ Config.noLine then (st, refusal .BAD_ARGUMENT)
  else if line = Config.noLine then
    let st' := { st with overflow := false }
    (st', .OK, st'.clearDetail)
  else
    let l : LineNo := Fin.ofNat 2048 line.toNat
    if st.damaged.contains l then
      let st' := st.undamage fun x => x == l
      (st', .OK, st'.clearDetail)
    else (st, .NOT_FOUND, st.clearDetail)

/-! ## The page-table claims (R25 to R28, R32) -/

/-- Sets the policy and owner of every page of a range; versions are kept (R26). -/
def setPolicy (first count : Nat) (pol : Policy) (owner : Port) (pages : Vector PageEntry 128) : Vector PageEntry 128 :=
  let change (i : Page) : PageEntry :=
    if inRange first count i then { pages[i] with policy := pol, owner := owner } else pages[i]
  Vector.ofFn change

/-- POLICY of port `p` (R25, R26, R28): for PRIVATE the notice unit removes the other watchers. -/
def takePolicy (sup p : Port) (first count : Nat) (pol owner : Byte) (st : StoreCtl) (n : NoticeUnit) :
    StoreCtl × NoticeUnit × Answer :=
  if p ≠ sup then (st, n, refusal .NOT_SUPERVISOR)
  else if badRange 128 first count then (st, n, refusal .BAD_ARGUMENT)
  else match Policy.ofByte pol with
    | none => (st, n, refusal .BAD_ARGUMENT)
    | some pol' =>
      if 3 < owner.toNat then (st, n, refusal .BAD_ARGUMENT)
      else
        let o : Port := Fin.ofNat 4 owner.toNat
        let r := if pol' = .PRIVATE then n.removeWatchers first count o else (n, 0)
        ({ st with pages := setPolicy first count pol' o st.pages }, r.1, .OK,
          [byteN first, byteN count] ++ bytes2 (BitVec.ofNat 16 r.2))

/-- PAGE_INFO (R32, R33). -/
def pageInfo (page : Nat) (st : StoreCtl) (n : NoticeUnit) (h : HoldCtl) : Answer :=
  if 127 < page then refusal .BAD_ARGUMENT
  else
    let pg := pageOf page
    let e := st.pages[pg]
    let holder : List Byte := match h.holder pg with
      | some r => [portByte r.1, byteN r.2.val, (h.slot r).mode.code]
      | none => [Config.noneByte, Config.noneByte, Config.noneByte]
    (.OK, [byteN page, e.policy.code, portByte e.owner, setByte n.watch[pg]] ++ bytes2 e.version ++ holder)

end Sys2Proof.Machine
end

