-- ==== Sys2Proof/Machine/CopyEngine.lean ====
section
/-! DEFINITION. Chapter 8: the acts of the copy engine, as functions of its own state that also give the events they
raise. -/

namespace Sys2Proof.Machine

/-- Issues the active copy's transfer number pages done (R128); with an empty queue there is none. -/
def CopyEngine.issue (e : CopyEngine) : CopyEngine :=
  match e.queue with
  | [] => { e with transfer := .none }
  | a :: _ =>
    { e with transfer := .issued (pageOf (a.src.val + a.pagesDone)) (pageOf (a.dst.val + a.pagesDone)) a.requester }

/-- `p` has a request in the queue, active or queued. -/
def CopyEngine.has (e : CopyEngine) (p : Port) : Bool := e.queue.any fun a => a.requester == p

/-- COPY of port `p` (R127): a request that joins an empty queue is active and its first transfer is issued (R128). -/
def CopyEngine.takeCopy (p : Port) (src dst count : Nat) (e : CopyEngine) : CopyEngine × Answer :=
  if badRange Config.copyPages src count || badRange Config.copyPages dst count then (e, refusal .BAD_ARGUMENT)
  else if overlap src count dst count then (e, refusal .OVERLAP)
  else if e.has p then (e, refusal .BUSY)
  else
    let e' := { e with queue := e.queue ++ [⟨p, pageOf src, pageOf dst, count, 0, false, false⟩] }
    let answer (state : Byte) : Answer :=
      (.OK, [byteN src, byteN dst, byteN count, state, byteN e'.queue.length])
    if e.queue.isEmpty then (e'.issue, answer cACTIVE) else (e', answer cQUEUED)

/-- Writes `p`'s last-copy record and gives its COPY_DONE (R133, R134). -/
def CopyEngine.report (p : Port) (st : CopyStatus) (r : Reason) (n : Nat) (e : CopyEngine) : CopyEngine × List Event :=
  ({ e with last := e.last.set p ⟨st, r, n⟩ }, [⟨p, sCOPY_DONE, .copyDone st r n⟩])

/-- COPY_CANCEL of port `p` (R134): the active copy is marked, a queued one withdrawn. -/
def CopyEngine.takeCancel (p : Port) (e : CopyEngine) : CopyEngine × List Event × Answer :=
  match e.queue with
  | [] => (e, [], refusal .NOT_FOUND)
  | a :: rest =>
    if a.requester = p then
      let a' := if a.silent then a else { a with cancel := true }
      ({ e with queue := a' :: rest }, [], .OK, [cACTIVE, byteN a.pagesDone])
    else if rest.any fun x => x.requester == p then
      let r := { e with queue := a :: rest.filter fun x => x.requester != p }.report p .CANCELLED .none 0
      (r.1, r.2, .OK, [cQUEUED, 0])
    else (e, [], refusal .NOT_FOUND)

/-- The active copy leaves the queue and the next request, if any, becomes active (R133, steps 3 and 4). -/
def CopyEngine.next (e : CopyEngine) : CopyEngine := { e with queue := e.queue.tail }.issue

/-- The active copy ends with a status (R133). -/
def CopyEngine.finish (a : CopyReq) (st : CopyStatus) (r : Reason) (e : CopyEngine) : CopyEngine × List Event :=
  let x := e.report a.requester st r a.pagesDone
  (x.1.next, x.2)

/-- The outcome of the active copy's transfer is taken (R132). -/
def CopyEngine.takeOutcome (r : Reason) (e : CopyEngine) : CopyEngine × List Event :=
  match e.queue with
  | [] => ({ e with transfer := .none }, [])
  | a :: rest =>
    let a' := if r = .none then { a with pagesDone := a.pagesDone + 1 } else a
    let e' := { e with queue := a' :: rest }
    if a.silent then (e'.next, [])
    else if r ≠ .none then e'.finish a' .FAULT r
    else if a'.pagesDone = a.count then e'.finish a' .OK .none
    else if a.cancel then e'.finish a' .CANCELLED .none
    else (e'.issue, [])

/-- The copy engine's part of a port reset (R136). -/
def CopyEngine.resetPart (p : Port) (e : CopyEngine) : CopyEngine :=
  let queue := match e.queue with
    | [] => []
    | a :: rest =>
      (if a.requester = p then { a with silent := true } else a) :: rest.filter fun x => x.requester != p
  { e with queue := queue, last := e.last.set p LastCopy.reset }

end Sys2Proof.Machine
end

