-- ==== Sys2Proof/Machine/PortUnit.lean ====
section
/-! DEFINITION. Chapters 3 and 4, one port: translation, the pointer, the judgement of a written byte, the beginning and
the ending of a transaction, and its records. -/

namespace Sys2Proof.Machine

/-! ## Translation (R36, R37, R39) -/

/-- The window of a view address (R36). -/
def windowOf (a : ViewAddr) : Fin 16 := Fin.ofNat 16 (a.toNat / 256)

/-- The line within its window of a view address (R36). -/
def lineOf (a : ViewAddr) : Fin 16 := Fin.ofNat 16 (a.toNat / 16)

/-- The byte within its line of a view address (R37). -/
def byteOf (a : ViewAddr) : Fin 16 := Fin.ofNat 16 a.toNat

/-- The offset within its window of a view address (R36). -/
def offsetOf (a : ViewAddr) : Byte := a.setWidth 8

/-- What a view address stands for. -/
inductive Place where
  | control (ln byte : Fin 16)
  | store (pg : Page) (off : Byte) (access : Access)
  | disabled
deriving DecidableEq, Repr

/-- The map index of a window 1 to 15 (R38). -/
def mapIndex (w : Nat) : Fin 15 := Fin.ofNat 15 (w - 1)

/-- Translates a view address against the map as it stands (R37, R39). -/
def Translator.translate (t : Translator) (a : ViewAddr) : Place :=
  if windowOf a = 0 then .control (lineOf a) (byteOf a)
  else
    let e := t.map[mapIndex (windowOf a).val]
    if e.enabled then .store e.page (offsetOf a) e.access else .disabled

/-! ## The pointer (R40, R41) -/

/-- The next pointer, and whether the end of the view has been reached. -/
def nextPointer (m : IncMode) (a : ViewAddr) : ViewAddr × Bool :=
  match m with
  | .LINEAR => if a = 0xFFF then (a, true) else (a + 1, false)
  | .WINDOW_WRAP => ((a &&& 0xF00) ||| ((a + 1) &&& 0x0FF), false)

/-- The pointer advances over one data byte (R40, R41). -/
def PortUnit.advance (u : PortUnit) : PortUnit :=
  let n := nextPointer u.mode u.pointer
  { u with pointer := n.1, endOfView := u.endOfView || n.2 }

/-! ## Staging (R43 to R45, R55) -/

/-- The first page of the staging buffer (R45). -/
def firstPage (es : List Entry) : Option Page := es.head?.map Entry.page

/-- The second page of the staging buffer: the first one met that differs from the first page (R45). -/
def secondPage (es : List Entry) : Option Page :=
  match es with
  | [] => none
  | e :: rest => (rest.find? fun x => x.page != e.page).map Entry.page

/-- A byte on page `pg` would stage a third page (R45). -/
def thirdPage (es : List Entry) (pg : Page) : Bool :=
  match firstPage es, secondPage es with
  | some a, some b => pg != a && pg != b
  | _, _ => false

/-- The judgement of a written data byte: its staged entry, or the reason of the void. -/
inductive Judgement where
  | accept (e : Entry)
  | void (r : Reason)
deriving DecidableEq, Repr

/-- The kind of a write transaction, fixed by its first data byte (R44). -/
def PortUnit.writeKind (u : PortUnit) : TxKind :=
  if u.kind = .NONE then (if windowOf u.pointer = 0 then .CONTROL_WRITE else .STORE_WRITE) else u.kind

/-- A control transaction's byte (R44): lines 0 and 3 accept bytes (R37). -/
def PortUnit.judgeControl (u : PortUnit) (b : Byte) : Judgement :=
  if u.endOfView || windowOf u.pointer != 0 then .void .VIEW_END
  else if lineOf u.pointer = 0 ∨ lineOf u.pointer = 3 then
    .accept ⟨pageOf (lineOf u.pointer).val, byteN (byteOf u.pointer).val, b⟩
  else .void .CONTROL_READ_ONLY

/-- A store write's byte: the window rules (R44), the two-page limit (R45), the count (R55), in this order. -/
def PortUnit.judgeStore (t : Translator) (u : PortUnit) (b : Byte) : Judgement :=
  if u.endOfView then .void .VIEW_END
  else match t.translate u.pointer with
    | .store pg off .RW =>
      if thirdPage u.staging pg then .void .STAGING_FULL
      else if Config.stagingEntries ≤ u.staging.length then .void .STAGING_FULL
      else .accept ⟨pg, off, b⟩
    | .store _ _ .RO => .void .READ_ONLY_WINDOW
    | .disabled => .void .DISABLED_WINDOW
    | .control _ _ => .void .VIEW_END

/-- The judgement of a written byte by the kind of its transaction. -/
def PortUnit.judge (t : Translator) (u : PortUnit) (b : Byte) : Judgement :=
  if u.writeKind = .CONTROL_WRITE then u.judgeControl b else u.judgeStore t b

/-- Voids the transaction (R56): the reason and the entries staged before are noted, the buffer is discarded. -/
def PortUnit.void (r : Reason) (u : PortUnit) : PortUnit :=
  { u with phase := .VOIDED, voidReason := some r, counted := u.staging.length, staging := [] }

/-- A data byte of a write arrives in phase DATA (R44, R55, R56); the Bool says whether it was accepted. The pointer
advances over it either way (R40). -/
def PortUnit.takeData (t : Translator) (b : Byte) (u : PortUnit) : PortUnit × Bool :=
  let u' := { u with kind := u.writeKind }
  match u.judge t b with
  | .accept e => ({ u' with staging := u'.staging ++ [e] }.advance, true)
  | .void r => ((u'.void r).advance, false)

/-! ## The two address bytes (R163, R167, R168) -/

/-- The address high byte: any upper bit set voids the transaction (R56); the Bool is the acknowledge. -/
def PortUnit.takeHigh (b : Byte) (u : PortUnit) : PortUnit × Bool :=
  if b &&& 0xF0 ≠ 0 then (u.void .BAD_ADDRESS, false)
  else ({ u with addrHigh := some (b.setWidth 4) }, true)

/-- The address low byte: the pointer is set and the transaction enters phase DATA. -/
def PortUnit.takeLow (hi : BitVec 4) (b : Byte) (u : PortUnit) : PortUnit :=
  { u with pointer := hi ++ b, addrHigh := none, phase := .DATA, addressed := true }

/-! ## Beginning and ending -/

/-- A transaction begins: the increment mode is latched, the end-of-view mark cleared, no line is held (R40, R42, R46). -/
def PortUnit.begin (ph : Phase) (d : Option TxDir) (m : IncMode) (u : PortUnit) : PortUnit :=
  { u with
    phase := ph, dir := d, kind := .NONE, addrHigh := none, addressed := ph == .DATA, mode := m, voidReason := none,
    counted := 0, endOfView := false, staging := [], held := none, asking := false, stopped := false, firstFault := none }

/-- No transaction: phase IDLE, the transaction's own state put away; pointer, outstanding request and hand-overs stay
(R54). -/
def PortUnit.toIdle (u : PortUnit) : PortUnit := u.begin .IDLE none u.mode

/-- The outstanding fetch of the transaction in progress. -/
def PortUnit.ownFetch (u : PortUnit) : Bool :=
  match u.outstanding with
  | some (.fetch f) => !f.discard
  | _ => false

/-- The held line is that of the pointer (R46). -/
def PortUnit.inHand (u : PortUnit) : Option HeldLine :=
  match u.held with
  | some h => if h.window = windowOf u.pointer ∧ h.line = lineOf u.pointer then some h else none
  | none => none

/-- Notes a fault if it is the transaction's first (R63). -/
def PortUnit.noteFault (f : FaultNote) (u : PortUnit) : PortUnit :=
  { u with firstFault := some (u.firstFault.getD f) }

/-- Holds the line obtained at the pointer. -/
def PortUnit.holdLine (w ln : Fin 16) (bytes : Line) (u : PortUnit) : PortUnit :=
  { u with held := some ⟨w, ln, bytes, false⟩, asking := false }

/-- Holds a fill line for a disabled window, a fault of the transaction (R47, R63). -/
def PortUnit.holdFill (u : PortUnit) : PortUnit :=
  { (u.holdLine (windowOf u.pointer) (lineOf u.pointer) Line.fill).noteFault
      ⟨.DISABLED_WINDOW, Config.noneByte, Config.noLine⟩ with kind := .STORE_READ }

/-- The kind a voided or cut transaction is recorded with: the one decided so far, or the one its direction gives; an SPI
transaction voided at its opcode has no direction and is recorded as STORE_READ (R56, R71, R166). -/
def PortUnit.recordKind (u : PortUnit) : TxKind :=
  if u.kind ≠ .NONE then u.kind else if u.dir = some .write then .STORE_WRITE else .STORE_READ

/-- The record of a voided or cut transaction (R65, R71). -/
def voidRecord (k : TxKind) (r : Reason) (n : Nat) : TxStatus :=
  ⟨k, .VOIDED, r, Config.noneByte, Config.noLine, byteN n, 0⟩

/-- The record of a store read (R63, R65). -/
def readRecord : Option FaultNote → TxStatus
  | none => ⟨.STORE_READ, .OK, .none, 0, 0, 0, 0⟩
  | some f => ⟨.STORE_READ, .FAULTED, f.reason, f.page, f.line, 0, 0⟩

/-- The record of a control commit that was taken (R65, R67, R68). -/
def controlRecord (n : Byte) : TxStatus := ⟨.CONTROL_WRITE, .OK, .none, 0, 0, n, 0⟩

/-- The record of a control commit refused COMMAND_BUSY (R65, R67). -/
def busyRecord (n : Byte) : TxStatus :=
  ⟨.CONTROL_WRITE, .REFUSED, .COMMAND_BUSY, Config.noneByte, Config.noLine, n, 0⟩

/-- The line while a commit is outstanding (R61). -/
def pendingRecord (es : List Entry) : TxStatus := ⟨.STORE_WRITE, .PENDING, .none, 0, 0, byteN es.length, 0⟩

/-- The record of a hand-over discarded by a port reset, if it is a commit or a control commit (R71). -/
def HandOver.cutRecord : HandOver → Option TxStatus
  | .commit es => some (voidRecord .STORE_WRITE .CUT_BY_RESET es.length)
  | .command es => some (voidRecord .CONTROL_WRITE .CUT_BY_RESET es.length)
  | .done n => some (voidRecord .CONTROL_WRITE .CUT_BY_RESET n.toNat)
  | .record _ => none

/-- What a port reset makes of the transaction in progress (R71): phase CUT, its staging buffer and held line discarded,
the bytes of a fetch it has outstanding to be dropped. -/
def PortUnit.cut (u : PortUnit) : PortUnit :=
  match u.phase with
  | .IDLE | .CUT => u
  | .ADDRESS | .DATA | .VOIDED =>
    { u with
      phase := .CUT, voidReason := some .CUT_BY_RESET
      counted := if u.phase = .VOIDED then u.counted else u.staging.length
      staging := [], held := none, asking := false
      outstanding := match u.outstanding with
        | some (.fetch f) => some (.fetch { f with discard := true })
        | o => o }

end Sys2Proof.Machine
end

