-- ==== Sys2Proof/Machine/Handover.lean ====
section
/-! DEFINITION. Chapter 4, a port unit and its command unit together: hand-overs and their order, obtaining the line at the
pointer, the ending of a transaction, the return of a line. -/

namespace Sys2Proof.Machine

/-- The fault note of a returned line, if it is a fault (R63). -/
def Fetch.note (f : Fetch) (r : FetchReply) : Option FaultNote :=
  if r.outcome = .none then none else some ⟨r.outcome, pageByte f.page, lineHalf (lineNo f.page f.line)⟩

/-- Transaction records and control commits wait: a commit of the port is outstanding, or a store read that ended waits for
its fetch to return (R60, R63; log 18). -/
def PortUnit.blocked (u : PortUnit) : Bool :=
  u.endedRead.isSome || match u.outstanding with
    | some (.commit _) => true
    | _ => false

/-! ## Handing over (R57 to R61, R67, R68) -/

/-- ACCESS_FAULT with reason BAD_ADDRESS, once for each replaced record (R60). -/
def State.raiseReplaced (p : Port) : Nat → State → State
  | 0, s => s
  | n + 1, s => State.raiseReplaced p n (s.accessFault p .BAD_ADDRESS)

/-- The pending hand-over has been made: the replaced records' events, then the kept record (R60). -/
def State.flushKept (p : Port) (s : State) : State :=
  match s.ports[p].keptVoid with
  | none => s
  | some r =>
    ((s.raiseReplaced p s.ports[p].replaced).modPort p fun u => { u with keptVoid := none, replaced := 0 }).writeRecord p r

/-- A transaction record is written, or held behind a commit, or kept beside a pending hand-over (R60). -/
def State.handOverRecord (p : Port) (r : TxStatus) (s : State) : State :=
  let u := s.ports[p]
  if u.handOver.isSome then
    s.modPort p fun u => { u with keptVoid := some r, replaced := if u.keptVoid.isSome then u.replaced + 1 else u.replaced }
  else if u.blocked then s.modPort p fun u => { u with handOver := some (.record r) }
  else s.writeRecord p r

/-- A commit is issued to the arbiter and PENDING is written (R57, R61). -/
def State.issueCommit (p : Port) (es : List Entry) (s : State) : State :=
  (s.modPort p fun u => { u with outstanding := some (.commit es) }).writeRecord p (pendingRecord es)

/-- A commit is formed: issued, or held while a request of the port is outstanding (R57, R59). That a commit held behind a
line fetch is a pending hand-over like one held behind a commit is the model's choice (log 36). -/
def State.handOverCommit (p : Port) (es : List Entry) (s : State) : State :=
  if s.ports[p].outstanding.isSome || s.ports[p].blocked then s.modPort p fun u => { u with handOver := some (.commit es) }
  else s.issueCommit p es

/-- A DONE is handed to the attention unit and the transaction recorded (R68). -/
def State.giveDone (p : Port) (n : Byte) (s : State) : State :=
  (s.writeRecord p (controlRecord n)).modAttn p fun u => { u with doneDue := u.doneDue + 1 }

/-- A control commit is formed: for line 3 a DONE, for line 0 the command unit's, each behind an outstanding commit
(R60, R67, R68). -/
def State.handOverControl (p : Port) (es : List Entry) (s : State) : State :=
  if (firstPage es) = some 3 then
    if s.ports[p].blocked then s.modPort p fun u => { u with handOver := some (.done (byteN es.length)) }
    else s.giveDone p (byteN es.length)
  else s.modPort p fun u => { u with handOver := some (.command es) }

/-- A commit that was held is issued. A record kept beside it now waits behind it (R60; log 20). -/
def State.issueHeld (p : Port) (es : List Entry) (s : State) : State :=
  (s.raiseReplaced p s.ports[p].replaced).modPort p (fun u =>
    { u with handOver := u.keptVoid.map .record, keptVoid := none, replaced := 0 }) |>.issueCommit p es

/-- The outstanding request has returned: the pending hand-over is made, but for a control commit, which the command unit
takes in CONTROL_COMMIT (R60). -/
def State.makeHandOver (p : Port) (s : State) : State :=
  if s.ports[p].blocked || s.ports[p].outstanding.isSome then s
  else
    let s' := s.modPort p fun u => { u with handOver := none }
    match s.ports[p].handOver with
    | none | some (.command _) => s
    | some (.record r) => (s'.writeRecord p r).flushKept p
    | some (.done n) => (s'.giveDone p n).flushKept p
    | some (.commit es) => s'.issueHeld p es

/-! ## The control commit for the COMMAND line (R67) -/

/-- The staged bytes written into the command line at their positions. -/
def writeCommand (es : List Entry) (ln : Line) : Line :=
  es.foldl (fun l e => l.set (Fin.ofNat 16 e.offset.toNat) e.value) ln

/-- The control commit writes byte 0 of the line. -/
def writesCode (es : List Entry) : Bool := es.any fun e => e.offset == 0

/-- The command unit takes a control commit (R67): refused COMMAND_BUSY, or written, and executed if byte 0 was written. -/
def State.takeControl (p : Port) (es : List Entry) (s : State) : State :=
  if s.cmds[p].inFlight then s.writeRecord p (busyRecord (byteN es.length))
  else
    let s' := s.modCmd p fun c => { c with line := writeCommand es c.line }
    let s'' := if writesCode es then s'.execute p else s'
    s''.writeRecord p (controlRecord (byteN es.length))

/-- The pending control commit that the command unit can take now. -/
def PortUnit.readyCommand (u : PortUnit) : Option (List Entry) :=
  match u.handOver with
  | some (.command es) => if u.blocked then none else some es
  | _ => none

/-- The command unit takes the pending control commit, if it can (R60, R67). -/
def State.takeReadyControl (p : Port) (s : State) : State :=
  match s.ports[p].readyCommand with
  | some es => ((s.modPort p fun u => { u with handOver := none }).takeControl p es).flushKept p
  | none => s

/-! ## Obtaining the line at the pointer (R46, R47, R165, R168) -/

/-- The port unit holds the line of the control window at the pointer. -/
def State.holdControl (p : Port) (ln : Fin 16) (bytes : Line) (s : State) : State :=
  s.modPort p (PortUnit.holdLine 0 ln bytes)

/-- The port unit holds a line whose reading changes nothing. The parts of PORT STATE come from five blocks, and some may
still be taken (R156; log 32). -/
def State.holdPlain (p : Port) (ln : Fin 16) (s : State) : State :=
  s.modPort p fun u => { u.holdLine 0 ln (controlLine s p ln) with gathering := ln == 5 }

/-- Obtaining the ATTENTION line makes a TAKE (R143). -/
def State.obtainAttention (p : Port) (s : State) : State :=
  (s.modAttn p fun u => u.take.1).holdControl p 2 s.attn[p].take.2

/-- Obtaining the NOTICE line pops a notice (R82 to R84). -/
def State.obtainNotice (p : Port) (s : State) : State :=
  (s.setNotice (s.notice.pop p).1).holdControl p 4 (s.notice.pop p).2

/-- A line fetch is issued; the transaction is a store read (R46, R53). -/
def PortUnit.issueFetch (pg : Page) (u : PortUnit) : PortUnit :=
  { u with
    outstanding := some (.fetch ⟨windowOf u.pointer, lineOf u.pointer, pg, lineOf u.pointer, false⟩)
    asking := false, kind := .STORE_READ }

/-- The port unit is obtaining a line and nothing is pending before it (R46, R60). -/
def PortUnit.obtaining (u : PortUnit) : Bool := u.asking && u.phase == .DATA && u.handOver.isNone

/-- Obtains the line at the pointer if the port unit is obtaining one. `acts`: also a line whose reading acts, ATTENTION or
NOTICE, which otherwise waits for TAKE or POP (log 13). A fetch waits while a request of the port is outstanding (R59) and
is translated when it is issued (log 17). -/
def State.obtain (acts : Bool) (p : Port) (s : State) : State :=
  let u := s.ports[p]
  if u.obtaining then
    match s.translators[p].translate u.pointer with
    | .control ln _ =>
      if ln = 2 then (if acts then s.obtainAttention p else s)
      else if ln = 4 then (if acts then s.obtainNotice p else s)
      else s.holdPlain p ln
    | .disabled => s.modPort p PortUnit.holdFill
    | .store pg _ _ => if u.outstanding.isSome then s else s.modPort p (PortUnit.issueFetch pg)
  else s

/-- The port unit now needs the line at the pointer. -/
def PortUnit.ask (u : PortUnit) : PortUnit := { u with asking := true }

/-! ## The end of a transaction (R53, R57, R63, R65, R71) -/

/-- A store read ends: its record is handed over, or waits for the fetch it has issued (R63). -/
def State.endRead (p : Port) (u : PortUnit) (s : State) : State :=
  match u.outstanding with
  | some (.fetch f) =>
    if f.discard then s.handOverRecord p (readRecord u.firstFault)
    else s.modPort p fun v =>
      { v with outstanding := some (.fetch { f with discard := true }), endedRead := some u.firstFault }
  | _ => s.handOverRecord p (readRecord u.firstFault)

/-- A cut transaction leaves a record: not an SPI one cut before its opcode, nor an SPI STATUS transaction (R71). -/
def PortUnit.cutRecords (u : PortUnit) : Bool := (u.dir != none || u.kind != .NONE) && u.dir != some .status

/-- Port `p`'s transaction ends. -/
def State.endTransaction (p : Port) (s : State) : State :=
  let u := s.ports[p]
  let s' := s.modPort p PortUnit.toIdle
  match u.phase with
  | .IDLE | .ADDRESS => s'
  | .DATA =>
    if u.dir = some .write then
      if u.staging.isEmpty then s'
      else if u.kind = .CONTROL_WRITE then s'.handOverControl p u.staging
      else s'.handOverCommit p u.staging
    else if u.kind = .STORE_READ then s'.endRead p u
    else s'
  | .VOIDED => s'.handOverRecord p (voidRecord u.recordKind (u.voidReason.getD .none) u.counted)
  | .CUT => if u.cutRecords then s'.handOverRecord p (voidRecord u.recordKind .CUT_BY_RESET u.counted) else s'

/-! ## The return of a line (R46, R63) -/

/-- The line of fetch `f` returns to port `p`: to the transaction that issued it; to the record of a read that has ended; or
its bytes are dropped. What waited behind it goes on. -/
def State.deliver (p : Port) (f : Fetch) (r : FetchReply) (s : State) : State :=
  let u := s.ports[p]
  let s' := s.modPort p fun u => { u with outstanding := none }
  let s'' := match u.endedRead with
    | some fault =>
      (s'.modPort p fun u => { u with endedRead := none }).writeRecord p (readRecord (fault <|> f.note r))
    | none =>
      if f.discard then s'
      else s'.modPort p fun u =>
        { u.holdLine f.window f.tag r.bytes with firstFault := u.firstFault <|> f.note r }
  (s''.makeHandOver p).obtain false p

/-- The outcome of port `p`'s commit returns and is recorded; what waited behind it goes on (R58, R60, R61). -/
def State.returnCommit (p : Port) (r : TxStatus) (s : State) : State :=
  (((s.modPort p fun u => { u with outstanding := none }).writeRecord p r).makeHandOver p).obtain false p

end Sys2Proof.Machine
end

