-- ==== Sys2Proof/Machine/Claims.lean ====
section
/-! DEFINITION. The command unit's own tests of a claim (R49, R52, R147, R153, R155, R158), and the owners that share a
claim: window translators, attention units, the two halves of a PORT_CONFIG. -/

namespace Sys2Proof.Machine

/-- What the command unit makes of a claim: an answer at once, or the claim is passed on. -/
inductive Verdict where
  | answered (a : Answer)
  | passed (st : Stage)
deriving DecidableEq, Repr

/-! ## The tests -/

/-- SIGNAL (R147). A set that names only the issuer is answered at once. -/
def Claim.testSignal (c : Claim) : Verdict :=
  if c.portSet = 0 then .answered (refusal .BAD_ARGUMENT)
  else if PortSet.remove c.portSet c.issuer = 0 then .answered (.OK, [0, c.arg 2])
  else .passed (.ports (PortSet.remove c.portSet c.issuer))

/-- Tests 1 and 2 of R49, which MAP_QUERY shares (R52): the refusal, if there is one. -/
def Claim.testPorts (sup : Port) (c : Claim) : Option Status :=
  if c.portSet = 0 then some .BAD_ARGUMENT
  else if c.issuer ≠ sup ∧ c.portSet ≠ PortSet.only c.issuer then some .NOT_SUPERVISOR
  else none

/-- The window argument, byte 2, is 1 to 15. -/
def Claim.windowOk (c : Claim) : Bool := decide (1 ≤ (c.arg 2).toNat) && decide ((c.arg 2).toNat ≤ 15)

/-- The entry a MAP carries, if its arguments are defined values (R49, R171). -/
def Claim.mapEntry (c : Claim) : Option MapEntry :=
  match flagOf (c.arg 3), Access.ofByte (c.arg 5) with
  | some en, some ac => if (c.arg 4).toNat ≤ 127 then some ⟨en, pageOf (c.arg 4).toNat, ac⟩ else none
  | _, _ => none

/-- MAP (R49). -/
def Claim.testMap (sup : Port) (c : Claim) : Verdict :=
  match c.testPorts sup with
  | some st => .answered (refusal st)
  | none =>
    if c.windowOk && c.mapEntry.isSome then .passed (.ports c.portSet) else .answered (refusal .BAD_ARGUMENT)

/-- MAP_QUERY (R52). -/
def Claim.testMapQuery (sup : Port) (c : Claim) : Verdict :=
  match c.testPorts sup with
  | some st => .answered (refusal st)
  | none => if c.windowOk then .passed .owner else .answered (refusal .BAD_ARGUMENT)

/-- PORT_CONFIG (R155). -/
def Claim.testPortConfig (c : Claim) : Verdict :=
  if (incAction (c.arg 1)).isSome && (enableAction (c.arg 2)).isSome then .passed (.halves .due .due)
  else .answered (refusal .BAD_ARGUMENT)

/-- PORT_RESET (R158). -/
def Claim.testPortReset (sup : Port) (c : Claim) : Verdict :=
  if 3 < (c.arg 1).toNat then .answered (refusal .BAD_ARGUMENT)
  else if Fin.ofNat 4 (c.arg 1).toNat ≠ c.issuer ∧ c.issuer ≠ sup then .answered (refusal .NOT_SUPERVISOR)
  else .passed (.begin (Fin.ofNat 4 (c.arg 1).toNat))

/-- The tests a claim's code assigns to the command unit itself (R153); any other command is passed to its owner. -/
def Claim.verdict (sup : Port) (c : Claim) : Verdict :=
  if !isCommandCode c.code then .answered (refusal .BAD_COMMAND)
  else if c.code = cSIGNAL then c.testSignal
  else if c.code = cMAP then c.testMap sup
  else if c.code = cMAP_QUERY then c.testMapQuery sup
  else if c.code = cPORT_CONFIG then c.testPortConfig
  else if c.code = cPORT_RESET then c.testPortReset sup
  else .passed .owner

/-- The command unit examines the first claim that satisfies `f`: it answers it or passes it on. -/
def State.examineFirst (f : Claim → Bool) (s : State) : State :=
  match takeFirst f s.claims with
  | none => s
  | some (c, rest) =>
    match c.verdict s.device.supervisor with
    | .answered a => { s with claims := rest }.answer c a
    | .passed st => { s with claims := rest ++ [{ c with stage := st }] }

/-- Port `p`'s command unit examines its claim with this code. -/
def State.examine (p : Port) (code : Byte) (s : State) : State := s.examineFirst (atUnit p code)

/-- Port `p`'s claim at its command unit, whatever its code. -/
def anyAtUnit (p : Port) (c : Claim) : Bool := c.issuer == p && c.stage == .commandUnit

/-- Port `p`'s command unit examines the oldest claims that are with it, `n` of them. -/
def State.examineOldest (p : Port) : Nat → State → State
  | 0, s => s
  | n + 1, s => State.examineOldest p n (s.examineFirst (anyAtUnit p))

/-- Port `p`'s command unit examines every claim that is with it, the oldest first (R153). -/
def State.examineAll (p : Port) (s : State) : State := State.examineOldest p (s.claims.countP (anyAtUnit p)) s

/-- Port `p`'s claim at its command unit, whose code is no command code. -/
def badAtUnit (p : Port) (c : Claim) : Bool := anyAtUnit p c && !isCommandCode c.code

/-! ## Owners that share a claim -/

/-- Port `p`'s claim with this code that `target` has not taken. -/
def isWith (p target : Port) (code : Byte) (c : Claim) : Bool :=
  c.issuer == p && c.code == code && match c.stage with
    | .ports left => PortSet.has left target
    | _ => false

/-- The claim once `target` has taken its part. -/
def Claim.takenBy (target : Port) (c : Claim) : Claim :=
  match c.stage with
  | .ports left => { c with stage := .ports (PortSet.remove left target) }
  | _ => c

/-- `target`'s owner takes its part of `p`'s claim with this code: `act` is what it does, and the answer is recorded when
no owner is left (R154). -/
def State.takeShared (p target : Port) (code : Byte) (act : Claim → State → State) (answer : Claim → Answer)
    (s : State) : State :=
  match takeFirst (isWith p target code) s.claims with
  | none => s
  | some (c, _) =>
    let left := (c.takenBy target).stage
    let next (x : Claim) : Option Claim := if left = .ports 0 then none else some (x.takenBy target)
    let s' := act c { s with claims := replaceFirst (isWith p target code) next s.claims }
    if left = .ports 0 then s'.answer c (answer c) else s'

/-- An attention unit raises PORT_SIGNAL at itself (R147). -/
def signalAct (target : Port) (c : Claim) (s : State) : State :=
  s.raise ⟨target, sPORT_SIGNAL, .signal c.issuer (c.arg 2)⟩

/-- The answer of a SIGNAL (R147). -/
def signalAnswer (c : Claim) : Answer := (.OK, [setByte (PortSet.remove c.portSet c.issuer), c.arg 2])

/-- A translator writes the named window's entry (R50). A fetch that waits in the port unit is translated again, for a
window that is no longer enabled is read as fill (R47, R51; log 17). -/
def mapAct (target : Port) (c : Claim) (s : State) : State :=
  match c.mapEntry with
  | none => s
  | some e =>
    (s.modTranslator target fun t => { t with map := upd t.map (mapIndex (c.arg 2).toNat) fun _ => e }).obtain false target

/-- The answer of a MAP (R50, R172). -/
def mapAnswer (c : Claim) : Answer := (.OK, [setByte c.portSet, c.arg 2, c.arg 3, c.arg 4, c.arg 5])

/-- The highest-numbered port of a set (R52). -/
def highestPort (ps : PortSet) : Port :=
  if PortSet.has ps 3 then 3 else if PortSet.has ps 2 then 2 else if PortSet.has ps 1 then 1 else 0

/-- The answer of a MAP_QUERY by the translators as they stand (R52, R172). -/
def mapQueryAnswer (c : Claim) (s : State) : Answer :=
  let q := highestPort c.portSet
  let e := s.translators[q].map[mapIndex (c.arg 2).toNat]
  (.OK, [portByte q, c.arg 2, flagByte e.enabled, pageByte e.page, e.access.code])

/-! ## PORT_CONFIG (R155) -/

/-- Port `p`'s PORT_CONFIG claim with its two owners. -/
def isHalves (p : Port) (c : Claim) : Bool :=
  c.issuer == p && c.code == cPORT_CONFIG && match c.stage with
    | .halves _ _ => true
    | _ => false

/-- The translator takes its half: the mode is set unless the action is keep. -/
def Translator.configure (act : Option IncMode) (t : Translator) : Translator := { t with mode := act.getD t.mode }

/-- The attention unit takes its half: the output enable is set unless the action is keep. -/
def AttnUnit.setOutput (act : Option Bool) (u : AttnUnit) : AttnUnit := { u with outputEnable := act.getD u.outputEnable }

/-- The answer of a PORT_CONFIG both halves of which have been taken (R155, R172). -/
def configAnswer (m : IncMode) (o : Bool) : Answer := (.OK, [m.code, flagByte o])

/-- Port `p`'s PORT_CONFIG claim whose translator half has not been taken. -/
def modeDue (p : Port) (c : Claim) : Bool :=
  isHalves p c && match c.stage with
    | .halves .due _ => true
    | _ => false

/-- Port `p`'s PORT_CONFIG claim whose attention half has been neither taken nor discarded. -/
def outputDue (p : Port) (c : Claim) : Bool :=
  isHalves p c && match c.stage with
    | .halves _ .due => true
    | _ => false

/-- An owner has taken its half of `c`, the first claim that satisfies `f`; these are now its halves. The answer is recorded
when both have been taken (R154); with the attention half discarded there is none (R159). -/
def State.halfTaken (f : Claim → Bool) (c : Claim) (rest : List Claim) (m : HalfClaim IncMode) (o : HalfClaim Bool)
    (s : State) : State :=
  match m, o with
  | .taken m', .taken o' => (s.setClaims rest).answer c (configAnswer m' o')
  | .taken _, .discarded => s.setClaims rest
  | m, o => s.setClaims (replaceFirst f (fun x => some { x with stage := .halves m o }) s.claims)

/-- The translator of `p` takes its half of `p`'s oldest PORT_CONFIG whose translator half is due (R155; log 26). -/
def State.takeModeHalf (p : Port) (s : State) : State :=
  match takeFirst (modeDue p) s.claims with
  | none => s
  | some (c, rest) =>
    match c.stage with
    | .halves _ o =>
      let s' := s.modTranslator p (Translator.configure ((incAction (c.arg 1)).getD none))
      s'.halfTaken (modeDue p) c rest (.taken s'.translators[p].mode) o
    | _ => s

/-- The attention unit of `p` takes its half of `p`'s oldest PORT_CONFIG whose attention half is due (R155; log 26). -/
def State.takeOutputHalf (p : Port) (s : State) : State :=
  match takeFirst (outputDue p) s.claims with
  | none => s
  | some (c, rest) =>
    match c.stage with
    | .halves m _ =>
      let s' := s.modAttn p (AttnUnit.setOutput ((enableAction (c.arg 2)).getD none))
      s'.halfTaken (outputDue p) c rest m (.taken s'.attn[p].outputEnable)
    | _ => s

/-- The named owners take their halves, each as an act of its own (R155; log 26). -/
def State.takeHalves (p : Port) (half : ConfigHalf) (s : State) : State :=
  match half with
  | .translator => s.takeModeHalf p
  | .attention => s.takeOutputHalf p
  | .both => (s.takeModeHalf p).takeOutputHalf p

/-- The attention unit's half of `p`'s PORT_CONFIG is discarded; a claim whose other half has been taken is over (R159). -/
def Claim.dropOutputHalf (p : Port) (c : Claim) : Option Claim :=
  if isHalves p c then
    match c.stage with
    | .halves (.taken _) .due => none
    | .halves m .due => some { c with stage := .halves m .discarded }
    | _ => some c
  else some c

/-! ## PORT_RESET (R158) -/

/-- `p`'s begin claim with the command unit of `target`. -/
def isBegin (p target : Port) (c : Claim) : Bool := c.issuer == p && c.stage == .begin target

/-- The reset of `target` begins: both flags are set, and the code of the command in flight is kept (R158, R160). -/
def CommandUnit.beginReset (issuer : Port) (c : CommandUnit) : CommandUnit :=
  { c with resetRun := some ⟨.hold, issuer, if c.inFlight then c.line[(0 : Fin 16)] else 0⟩, inFlight := true }

/-- `target`'s command unit takes `p`'s begin claim: BUSY while a reset of it is in progress (R158). -/
def State.takeBegin (target p : Port) (s : State) : State :=
  match takeFirst (isBegin p target) s.claims with
  | none => s
  | some (c, rest) =>
    let s' := { s with claims := rest }
    if s.cmds[target].resetRun.isSome then s'.answer c (refusal .BUSY)
    else s'.modCmd target (CommandUnit.beginReset p)

end Sys2Proof.Machine
end

