-- ==== Sys2Proof/Machine/Acts.lean ====
section
/-! DEFINITION. The store arbiter (R69), the acts taken between two store requests (R3, R94), and what a port unit and its
command unit do at once. -/

namespace Sys2Proof.Machine

/-- A step of the blocks: nothing happens while RESET_N is low or the start-up clear runs (R17, R72). -/
def State.whenRunning (f : State → State) (s : State) : State := if s.running then f s else s

/-! ## The store arbiter (R69) -/

/-- The port of a requester, if it is a port unit. -/
def requesterPort (r : Requester) : Option Port := if h : r.val < 4 then some ⟨r.val, h⟩ else none

/-- A requester has a store request at the arbiter. -/
def State.requests (s : State) (r : Requester) : Bool :=
  match requesterPort r with
  | some p => s.ports[p].outstanding.isSome
  | none => match s.copy.transfer with
    | .issued _ _ _ => true
    | _ => false

/-- The ring from a requester on, that requester included. -/
def ringFrom (r : Requester) : List Requester := [r, r + 1, r + 2, r + 3, r + 4]

/-- The arbiter looks: when the store controller is free it hands it the first waiting request of the ring, and moves its
pointer to the requester after the one chosen (R69). -/
def State.arbitrate (s : State) : State :=
  if s.arbiter.inService.isSome || !s.running then s
  else match (ringFrom s.arbiter.pointer).find? s.requests with
    | none => s
    | some r => s.setArbiter { s.arbiter with inService := some r, pointer := r + 1 }

/-! ## Claims and acts taken between two store requests -/

/-- HOLD (R95, R96). -/
def State.holdAct (p : Port) (s : State) : State :=
  s.takeOwned p cHOLD fun c s =>
    let r := s.holds.takeHold s.device.supervisor s.store.pages p c.holdArgs
    (s.setHolds r.1, r.2)

/-- RENEW (R103). -/
def State.renewAct (p : Port) (s : State) : State :=
  s.takeOwned p cRENEW fun c s =>
    let r := s.holds.takeRenew p (c.arg 1) (c.arg2 2 3)
    (s.setHolds r.1, r.2)

/-- RELEASE (R104, R121): the events are raised before the answer is recorded. -/
def State.releaseAct (p : Port) (s : State) : State :=
  s.takeOwned p cRELEASE fun c s =>
    let r := s.holds.takeRelease p (c.arg 1)
    ((s.setHolds r.1).raiseAll r.2.1, r.2.2)

/-- PAGE_INFO (R32, R33). -/
def State.pageInfoAct (p : Port) (s : State) : State :=
  s.takeOwned p cPAGE_INFO fun c s => (s, pageInfo (c.arg 1).toNat s.store s.notice s.holds)

/-- POLICY (R25, R26, R28). -/
def State.policyAct (p : Port) (s : State) : State :=
  s.takeOwned p cPOLICY fun c s =>
    let r := takePolicy s.device.supervisor p (c.arg 1).toNat (c.arg 2).toNat (c.arg 3) (c.arg 4) s.store s.notice
    ((s.setStore r.1).setNotice r.2.1, r.2.2)

/-- DAMAGE_QUERY (R15). -/
def State.damageQueryAct (p : Port) (s : State) : State :=
  s.takeOwned p cDAMAGE_QUERY fun c s => (s, s.store.damageQuery (c.arg 1).toNat)

/-- DAMAGE_CLEAR (R16). -/
def State.damageClearAct (p : Port) (s : State) : State :=
  s.takeOwned p cDAMAGE_CLEAR fun c s =>
    let r := s.store.damageClear s.device.supervisor p (c.arg2 1 2)
    (s.setStore r.1, r.2)

/-- The claim of this code that waits for the store controller or the hold controller. -/
def State.claimAct (p : Port) (code : Byte) (s : State) : State :=
  if code = cHOLD then s.holdAct p
  else if code = cRENEW then s.renewAct p
  else if code = cRELEASE then s.releaseAct p
  else if code = cPAGE_INFO then s.pageInfoAct p
  else if code = cPOLICY then s.policyAct p
  else if code = cDAMAGE_QUERY then s.damageQueryAct p
  else if code = cDAMAGE_CLEAR then s.damageClearAct p
  else s

/-- A tick of the timebase at the hold controller (R101, R102, R120). -/
def State.tickAct (s : State) : State := (s.setHolds s.holds.tick.1).raiseAll s.holds.tick.2

/-- The reset of `p` has come to this part. -/
def CommandUnit.atStage (st : ResetStage) (c : CommandUnit) : Bool :=
  match c.resetRun with
  | some r => r.stage == st
  | none => false

/-- The reset goes on to its next part (R159). -/
def CommandUnit.toStage (st : ResetStage) (c : CommandUnit) : CommandUnit :=
  { c with resetRun := c.resetRun.map fun r => { r with stage := st } }

/-- The claims of the hold controller. -/
def holdCodes : List Byte := [cHOLD, cRENEW, cRELEASE]

/-- The hold controller's part of a reset of `p` (R108, R124, R159). -/
def State.holdResetAct (p : Port) (s : State) : State :=
  if s.cmds[p].atStage .hold then
    let s' := s.discardOwned p holdCodes
    ((s'.setHolds (s.holds.resetPart p).1).raiseAll (s.holds.resetPart p).2).modCmd p (CommandUnit.toStage .notice)
  else s

/-- Carries out what became due (R3, R94). -/
def State.runDue (a : DueAct) (s : State) : State :=
  match a with
  | .claim p code => s.claimAct p code
  | .tick => s.tickAct
  | .holdReset p => s.holdResetAct p

/-- There is something of this kind to be taken that is not already due: each claim becomes due once, and a tick as often as
it comes (log 10). -/
def State.mayBecomeDue (s : State) (a : DueAct) : Bool :=
  match a with
  | .claim p code => decide (s.arbiter.due.count a < s.claims.countP (isOwned p code))
  | .tick => true
  | .holdReset p => s.cmds[p].atStage .hold && !s.arbiter.due.contains a

/-- An act becomes due at the store controller or the hold controller: taken at once while the store controller is free,
after which the arbiter looks; otherwise when the service ends (R3, R69, R94). -/
def State.betweenRequests (a : DueAct) (s : State) : State :=
  if s.arbiter.inService.isNone then (s.runDue a).arbitrate
  else if s.mayBecomeDue a then s.setArbiter { s.arbiter with due := s.arbiter.due ++ [a] }
  else s

/-- The service ends: what became due is carried out in order, then the arbiter looks (R3, R69, R94). -/
def State.endService (s : State) : State :=
  let due := s.arbiter.due
  (due.foldl (fun s a => s.runDue a) (s.setArbiter { s.arbiter with inService := none, due := [] })).arbitrate

/-- The copy engine takes the outcome of its transfer; the next transfer, if there is one, is issued in the same act
(R128, R132, R133). -/
def State.takeOutcome (s : State) : State :=
  match s.copy.transfer with
  | .returned r => (s.setCopy (s.copy.takeOutcome r).1).raiseAll (s.copy.takeOutcome r).2
  | _ => s

/-- The service of a port's request ends. An outcome of a transfer that the copy engine has not taken yet is taken first, so
that the arbiter finds the next transfer and at most four requests of the ports are served between two transfers of a copy
(R69, R128; log 38). -/
def State.endPortService (s : State) : State := s.takeOutcome.endService

/-! ## What happens at once -/

/-- The attention unit of `p` takes the DONEs handed to it. -/
def State.takeAllDones (p : Port) (s : State) : State := s.modAttn p fun u => AttnUnit.takeDones u.doneDue u

/-- The held PORT STATE line gets the parts that are taken now. -/
def PortUnit.takeParts (late : BitVec 5) (now : Line) (u : PortUnit) : PortUnit :=
  { u with held := u.held.map fun h => { h with bytes := gatheredLine late h.bytes now } }

/-- Parts of the PORT STATE line that port `p` is gathering are taken as they stand now (R156). Which, is a free value
(log 32). -/
def State.takeParts (p : Port) (s : State) : State :=
  if s.ports[p].gathering then
    (s.modPort p (PortUnit.takeParts (Config.lateParts s.freeIndex) (portStateLine s p))).setFree (s.freeIndex + 1)
  else s

/-- What happens while no command comes: parts of PORT STATE lines are taken (logs 4, 32). -/
def State.idle (s : State) : State := allPorts.foldl (fun s p => s.takeParts p) s

/-- The gathering of a PORT STATE line ends (R156). -/
def State.gather (p : Port) (s : State) : State :=
  if s.ports[p].gathering then (s.takeParts p).modPort p fun u => { u with gathering := false } else s

/-- Before the next bus event of port `p`: the pending control commit that can be taken is taken, the executed command
examined, the DONEs taken, the line the port is obtaining obtained, ATTENTION and NOTICE included, and a PORT STATE line
gathered (R60, R67, R68, R153, R156, R165; logs 12, 32). That DONEs are taken before the TAKE is the model's choice (log 39). -/
def State.settle (p : Port) (s : State) : State :=
  ((((s.takeReadyControl p).examineAll p).takeAllDones p).obtain true p).gather p

end Sys2Proof.Machine
end

