-- ==== Sys2Proof/Machine/Resets.lean ====
section
/-! DEFINITION. POWER_ON_RESET, START_UP_CLEAR_END, RESET_N_FALL, RESET_N_RELEASE, ALERT_IN, ALERT_IN_N_RISE, TICK,
LEASE_EXPIRY, WAIT_EXPIRY. -/

namespace Sys2Proof.Machine

/-- The AS values a release of reset samples; P3 has no AS pins (R157, R162). -/
def asValues (x : Straps) : Vector (BitVec 2) 4 := vecOf 4 fun i => [x.as0, x.as1, x.as2].getD i 0

/-- The straps are sampled (R21, R162). -/
def Device.sample (x : Straps) (d : Device) : Device := { d with supervisor := x.supv, asValue := asValues x }

/-- Power-on reset: every block at its reset values, the start-up clear begun, the straps sampled (R17, R18, R21; log 16).
The levels of the input pins are the board's. -/
def State.powerOn (x : Straps) (s : State) : State :=
  { State.reset with
    pending := s.pending
    freeIndex := s.freeIndex
    device := { s.device with clearing := true }.sample x }

/-- POWER_ON_RESET (R17). -/
def execPowerOnReset (x : Straps) (s : State) : Host.Outcome State Fault Refusal := .next (s.powerOn x)

/-- The clear has written zero into every line, each with a fresh check code (R17). -/
def StoreCtl.cleared (st : StoreCtl) : StoreCtl := { st with bytes := [], codesFresh := true }

/-- The start-up clear reaches its end. While RESET_N is low it does not run (R17). -/
def State.clearEnd (s : State) : State :=
  if s.device.clearing && !s.device.resetLow then
    { s with device := { s.device with clearing := false }, store := s.store.cleared }
  else s

/-- START_UP_CLEAR_END (R17). -/
def execStartUpClearEnd (s : State) : Host.Outcome State Fault Refusal := .next s.clearEnd

/-- The store as the request in service leaves it when RESET_N falls and it is completed (R19): its outcome and its posting
go nowhere. -/
def State.completedStore (reads : List ReadOutcome) (s : State) : StoreCtl :=
  match s.arbiter.inService with
  | none => s.store
  | some r =>
    match requesterPort r with
    | some p => match s.ports[p].outstanding with
      | some (.commit es) => (s.store.serveCommit s.device.supervisor s.holds p es reads).1
      | some (.fetch f) => (s.store.serveFetch s.holds p f.page f.line (reads.headD .good)).1
      | none => s.store
    | none => match s.copy.transfer with
      | .issued src dst q => (s.store.serveTransfer s.device.supervisor s.holds q src dst reads).1
      | _ => s.store

/-- What device reset leaves of the store controller's state: the bytes, the check codes and the versions (R17, R18, R34). -/
def StoreCtl.deviceReset (st : StoreCtl) : StoreCtl :=
  let keep (i : Page) : PageEntry := { PageEntry.reset with version := st.pages[i].version }
  { StoreCtl.reset with bytes := st.bytes, codesFresh := st.codesFresh, pages := Vector.ofFn keep }

/-- Device reset: `st` is the store as the request in service left it; every other block is at its reset values. The straps
keep their sampled values until the release (R18, R21, R72, R88, R109, R150, R161). -/
def State.deviceReset (st : StoreCtl) (s : State) : State :=
  { State.reset with
    pending := s.pending
    freeIndex := s.freeIndex
    device := { s.device with resetLow := true }
    store := st.deviceReset }

/-- RESET_N falls: the request in service is completed, with these outcomes of its reads, or not begun (R19; log 15). During
the start-up clear none is in service; the clear stops, and starts again after the release (R17). -/
def State.resetFall (completed : Bool) (reads : List ReadOutcome) (s : State) : State :=
  if s.device.resetLow then s
  else s.deviceReset (if completed && s.running then s.completedStore reads else s.store)

/-- RESET_N_FALL (R72). -/
def execResetNFall (completed : Bool) (reads : List ReadOutcome) (s : State) : Host.Outcome State Fault Refusal :=
  .next (s.resetFall completed reads)

/-- RESET_N is released: the straps are sampled again (R21). -/
def State.resetRelease (x : Straps) (s : State) : State :=
  if s.device.resetLow then s.setDevice ({ s.device with resetLow := false }.sample x) else s

/-- RESET_N_RELEASE (R21). -/
def execResetNRelease (x : Straps) (s : State) : Host.Outcome State Fault Refusal := .next (s.resetRelease x)

/-- The event of ALERT_IN at the four attention units (R148). -/
def alertEvents : List Event := allPorts.map fun p => ⟨p, sALERT_IN, .zero⟩

/-- ALERT_IN_N falls. The edge is not taken during a reset or the start-up clear (R148). -/
def State.alertFall (s : State) : State :=
  if s.device.alertLow then s
  else (s.setDevice { s.device with alertLow := true }).whenRunning (State.raiseAll alertEvents)

/-- ALERT_IN (R148). -/
def execAlertIn (s : State) : Host.Outcome State Fault Refusal := .next s.alertFall

/-- ALERT_IN_N_RISE (R148): the next fall is an edge again. -/
def execAlertInNRise (s : State) : Host.Outcome State Fault Refusal :=
  .next (s.setDevice { s.device with alertLow := false })

/-- TICK (R101, R102, R120). -/
def execTick (s : State) : Host.Outcome State Fault Refusal := .next (s.whenRunning (State.betweenRequests .tick))

/-- LEASE_EXPIRY (R102): the tick that brings the lease of this GRANTED slot to its end (log 9). -/
def execLeaseExpiry (p : Port) (k : SlotNo) (s : State) : Host.Outcome State Fault Refusal :=
  .next (if s.holds.leaseEnding (p, k) then s.whenRunning (State.betweenRequests .tick) else s)

/-- WAIT_EXPIRY (R120): the tick that brings the wait of this WAITING slot to its end (log 9). -/
def execWaitExpiry (p : Port) (k : SlotNo) (s : State) : Host.Outcome State Fault Refusal :=
  .next (if s.holds.waitEnding (p, k) then s.whenRunning (State.betweenRequests .tick) else s)

end Sys2Proof.Machine
end

