-- ==== Sys2Proof/Machine/Bus.lean ====
section
/-! DEFINITION. The bus events of chapter 11: TWO_WIRE_START, ADDRESS_HIGH_BYTE, ADDRESS_LOW_BYTE, TWO_WIRE_WRITE_BYTE,
TWO_WIRE_READ_BYTE, SPI_CS_FALL, SPI_WRITE, SPI_READ, SPI_STATUS, SPI_UNKNOWN_OPCODE, SPI_WRITE_SLOT, SPI_READ_SLOT,
TRANSACTION_END. Each begins with what the port does at once before it, and ends with a look of the arbiter. -/

namespace Sys2Proof.Machine

/-- A bus event of port `p`: what the port does at once comes first, and a request that it issues is seen by the arbiter
(R69). -/
def State.busEvent (p : Port) (f : State → State) (s : State) : State :=
  s.whenRunning fun s => (f (s.settle p)).arbitrate

/-- The port answers a byte with ACK or NACK, its data line released; on SPI there is no acknowledge and MISO carries
0FFh (R163, R164, R167; log 27). -/
def PortUnit.respond (p : Port) (ack : Bool) (u : PortUnit) : PortUnit :=
  { u with ackOut := ack && p != spi, dataOut := Config.fill }

/-- The port drives a byte. -/
def PortUnit.drive (b : Byte) (u : PortUnit) : PortUnit := { u with dataOut := b }

/-- The pointer advances over a refused byte once the address is complete (R40, R56; logs 24, 25). -/
def PortUnit.skip (u : PortUnit) : PortUnit := if u.addressed then u.advance else u

/-- The two-wire port holds SCL for a pending hand-over (R164), and no byte can be given. -/
def PortUnit.sclHeldForHandOver (u : PortUnit) : Bool := u.phase != .IDLE && u.phase != .CUT && u.handOver.isSome

/-- A place in an enabled store window, whose line a fetch brings. -/
def Place.fetched : Place → Bool
  | .store _ _ _ => true
  | .control _ _ | .disabled => false

/-- The two-wire port holds SCL for a line fetch that waits at the arbiter, is in service, or waits in the port unit; a line
of the control window and a fill line are in hand at once (R165). -/
def PortUnit.sclHeldForLine (t : Translator) (u : PortUnit) : Bool :=
  u.phase == .DATA && u.dir == some .read && (u.ownFetch || (u.asking && (t.translate u.pointer).fetched))

/-- SCL is held low by port `p` (R164, R165). -/
def sclHeld (s : State) (p : TwoWirePort) : Bool :=
  s.running && (s.ports[p.port].sclHeldForHandOver || s.ports[p.port].sclHeldForLine s.translators[p.port])

/-! ## Beginning -/

/-- The address byte names the port's target address (R162). -/
def State.namesPort (s : State) (p : Port) (target : BitVec 7) : Bool :=
  target == Config.targetBase + s.device.asValue[p].setWidth 7

/-- An acknowledged address byte: the transaction begins, its mode latched; a read needs the line at the pointer at once
(R42, R162, R163, R165). -/
def State.beginTwoWire (p : Port) (d : Direction) (s : State) : State :=
  let m := s.translators[p].mode
  match d with
  | .write => s.modPort p fun u => (u.begin .ADDRESS (some .write) m).respond p true
  | .read => (s.modPort p fun u => ((u.begin .DATA (some .read) m).respond p true).ask).obtain false p

/-- A START or repeated START with its address byte: it ends a transaction in progress (R53, R162; log 14). It is carried out
while the port holds SCL low too, where the manual lets none come: the model's choice (log 40). -/
def State.start (p : Port) (target : BitVec 7) (d : Direction) (s : State) : State :=
  let s' := (s.endTransaction p).settle p
  if s'.namesPort p target then s'.beginTwoWire p d else s'.modPort p (PortUnit.respond p false)

/-- TWO_WIRE_START (R162): during a reset or the start-up clear the port does not acknowledge. -/
def execTwoWireStart (p : TwoWirePort) (target : BitVec 7) (d : Direction) (s : State) :
    Host.Outcome State Fault Refusal :=
  .next (if s.running then s.busEvent p.port (State.start p.port target d)
    else s.modPort p.port (PortUnit.respond p.port false))

/-- CS_N falls: an SPI transaction begins (R53, R166). -/
def State.csFall (s : State) : State :=
  s.modPort spi fun u => (u.begin .ADDRESS none s.translators[spi].mode).respond spi false

/-- SPI_CS_FALL (R166): during a reset or the clear the transaction is ignored until CS_N rises. -/
def execSpiCsFall (s : State) : Host.Outcome State Fault Refusal :=
  .next (if s.device.csLow then s
    else (s.setDevice { s.device with csLow := true }).busEvent spi State.csFall)

/-! ## SPI opcodes (R166 to R169) -/

/-- The next byte is the opcode of an SPI transaction. -/
def PortUnit.awaitsOpcode (u : PortUnit) : Bool := u.phase == .ADDRESS && u.dir.isNone

/-- The table of opcodes (R166): 3Ah is WRITE, 3Bh READ, 3Ch STATUS, and any other byte is unknown. -/
def opcodeDir (op : Byte) : Option TxDir :=
  if op = Config.opWrite then some .write
  else if op = Config.opRead then some .read
  else if op = Config.opStatus then some .status
  else none

/-- The command that stands for the opcode byte `op` on the bus: the table of spec/opcode_table.json has a row for each of the
three opcodes and one for the others. -/
def opcodeCommand (op : Byte) : Instr :=
  match opcodeDir op with
  | some .write => .spiWrite
  | some .read => .spiRead
  | some .status => .spiStatus
  | none => .spiUnknownOpcode op

/-- The first byte after CS_N falls is taken as the opcode, and MISO carries 0FFh during it. A known one fixes the direction,
and STATUS has no address bytes; an unknown one voids the transaction with kind STORE_READ (R53, R56, R166 to R169). -/
def PortUnit.opcode (op : Byte) (u : PortUnit) : PortUnit :=
  if u.awaitsOpcode then
    match opcodeDir op with
    | some .status => { u.respond spi false with dir := some .status, phase := .DATA }
    | some d => { u.respond spi false with dir := some d }
    | none => { (u.void .BAD_ADDRESS).respond spi false with kind := .STORE_READ }
  else u

/-- SPI_WRITE (R167): the opcode byte 3Ah. -/
def execSpiWrite (s : State) : Host.Outcome State Fault Refusal :=
  .next (s.busEvent spi fun s => s.modPort spi (PortUnit.opcode Config.opWrite))

/-- SPI_READ (R168): the opcode byte 3Bh. -/
def execSpiRead (s : State) : Host.Outcome State Fault Refusal :=
  .next (s.busEvent spi fun s => s.modPort spi (PortUnit.opcode Config.opRead))

/-- The opcode byte 3Ch, or a later slot of a STATUS transaction: a freshly formed status byte, 0FFh once cut
(R169, R170; log 29). -/
def State.spiStatus (s : State) : State :=
  let u := s.ports[spi]
  if u.awaitsOpcode then s.modPort spi (PortUnit.opcode Config.opStatus)
  else if u.dir = some .status then
    s.modPort spi (PortUnit.drive (if u.phase = .DATA then statusByte s else Config.fill))
  else s

/-- SPI_STATUS (R169). -/
def execSpiStatus (s : State) : Host.Outcome State Fault Refusal := .next (s.busEvent spi State.spiStatus)

/-- An opcode byte that is in no row of the table (R56, R166); a known one has a command of its own (log 5). -/
def State.unknownOpcode (op : Byte) (s : State) : State :=
  if (opcodeDir op).isSome then s else s.modPort spi (PortUnit.opcode op)

/-- SPI_UNKNOWN_OPCODE (R166). -/
def execSpiUnknownOpcode (op : Byte) (s : State) : Host.Outcome State Fault Refusal :=
  .next (s.busEvent spi (State.unknownOpcode op))

/-! ## Address bytes (R163, R167, R168) -/

/-- A two-wire port holds SCL for the pending hand-over; the SPI port takes its address bytes meanwhile (R60, R164). -/
def PortUnit.heldAt (p : Port) (u : PortUnit) : Bool := p != spi && u.sclHeldForHandOver

/-- The transaction has a direction that has address bytes, or is voided or cut. -/
def PortUnit.refusing (u : PortUnit) : Bool := u.phase == .VOIDED || u.phase == .CUT

/-- The address high byte (R163). -/
def PortUnit.highByte (p : Port) (b : Byte) (u : PortUnit) : PortUnit :=
  if u.heldAt p then u
  else if u.refusing then u.respond p false
  else if u.phase = .ADDRESS ∧ u.dir.isSome ∧ u.addrHigh.isNone then
    let r := u.takeHigh b
    r.1.respond p r.2
  else u

/-- ADDRESS_HIGH_BYTE (R163). -/
def execAddressHighByte (p : Port) (b : Byte) (s : State) : Host.Outcome State Fault Refusal :=
  .next (s.busEvent p fun s => s.modPort p (PortUnit.highByte p b))

/-- The address low byte (R163). -/
def PortUnit.lowByte (p : Port) (b : Byte) (u : PortUnit) : PortUnit :=
  if u.heldAt p then u
  else if u.refusing then u.respond p false
  else match u.phase, u.addrHigh with
    | .ADDRESS, some hi => (u.takeLow hi b).respond p true
    | _, _ => u

/-- ADDRESS_LOW_BYTE (R163). -/
def execAddressLowByte (p : Port) (b : Byte) (s : State) : Host.Outcome State Fault Refusal :=
  .next (s.busEvent p fun s => s.modPort p (PortUnit.lowByte p b))

/-! ## Data bytes -/

/-- A written data byte on a two-wire port (R164). -/
def PortUnit.writeByte (p : Port) (t : Translator) (b : Byte) (u : PortUnit) : PortUnit :=
  if u.heldAt p || u.dir != some .write then u
  else if u.refusing then u.skip.respond p false
  else if u.phase = .DATA then
    let r := u.takeData t b
    r.1.respond p r.2
  else u

/-- TWO_WIRE_WRITE_BYTE (R164). -/
def execTwoWireWriteByte (p : TwoWirePort) (b : Byte) (s : State) : Host.Outcome State Fault Refusal :=
  .next (s.busEvent p.port fun s => s.modPort p.port (PortUnit.writeByte p.port s.translators[p.port] b))

/-- A delivered byte: the pointer advances; without the master's acknowledge the port stops; with it, and the pointer past
the held line, the next line is needed (R40, R46, R165). -/
def PortUnit.afterRead (ack : Bool) (b : Byte) (u : PortUnit) : PortUnit :=
  let v := (u.drive b).advance
  if !ack then { v with stopped := true }
  else if v.endOfView || v.inHand.isSome then v
  else v.ask

/-- A read byte on a two-wire port: of the held line; 0FFh beyond the end of the view, and in phase CUT, where the pointer
advances over it (R40, R165, R170; log 25). A port that has stopped drives nothing, so SDA is released. While the port
holds SCL no byte is clocked (log 28). -/
def PortUnit.readByte (ack : Bool) (u : PortUnit) : PortUnit :=
  if u.dir ≠ some .read then u
  else match u.phase with
    | .CUT => (u.drive Config.fill).advance
    | .DATA =>
      if u.handOver.isSome then u
      else if u.stopped then u.drive Config.fill
      else if u.endOfView then { u.drive Config.fill with stopped := !ack }
      else match u.inHand with
        | some h => u.afterRead ack h.bytes[byteOf u.pointer]
        | none => u
    | .IDLE | .ADDRESS | .VOIDED => u

/-- TWO_WIRE_READ_BYTE (R165). -/
def execTwoWireReadByte (p : TwoWirePort) (ack : Bool) (s : State) : Host.Outcome State Fault Refusal :=
  .next (s.busEvent p.port fun s => (s.modPort p.port (PortUnit.readByte ack)).obtain false p.port)

/-- A slot in which the SPI port drives 0FFh: the pointer advances over it in a transaction whose address was complete
(R40, R170; log 25). -/
def PortUnit.fillSlot (u : PortUnit) : PortUnit := u.skip.drive Config.fill

/-- A data slot of an SPI WRITE. Once cut it carries 0FFh and its byte is discarded. While a hand-over is pending it carries
WAIT and its byte is not taken, in a WRITE voided at its address too. Else its byte is taken, judged or discarded, and MISO
carries A5h. The pointer advances over a byte that is taken or discarded (R40, R167, R170; logs 24, 25). -/
def PortUnit.writeSlot (t : Translator) (b : Byte) (u : PortUnit) : PortUnit :=
  if u.dir ≠ some .write then u
  else match u.phase with
    | .CUT => u.fillSlot
    | .VOIDED => if u.handOver.isSome then u.drive Config.spiWait else u.skip.drive Config.spiReady
    | .DATA =>
      if u.handOver.isSome then u.drive Config.spiWait
      else (u.takeData t b).1.drive Config.spiReady
    | .IDLE | .ADDRESS => u

/-- SPI_WRITE_SLOT (R167). -/
def execSpiWriteSlot (b : Byte) (s : State) : Host.Outcome State Fault Refusal :=
  .next (s.busEvent spi fun s => s.modPort spi (PortUnit.writeSlot s.translators[spi] b))

/-- The slot of an SPI READ whose line is in hand: READY first, then its bytes (R168). -/
def PortUnit.readyOrByte (h : HeldLine) (u : PortUnit) : PortUnit :=
  if h.ready then (u.drive h.bytes[byteOf u.pointer]).advance
  else { u.drive Config.spiReady with held := some { h with ready := true } }

/-- The slot of an SPI READ: 0FFh beyond the end of the view; else READY or a byte of the line in hand, or WAIT. -/
def PortUnit.readSlot (u : PortUnit) : PortUnit :=
  if u.endOfView then u.drive Config.fill
  else match u.inHand with
    | some h => u.readyOrByte h
    | none => u.drive Config.spiWait

/-- An SPI READ needs the line at its pointer: its fetch is not on its way, and no hand-over is pending (R60, R168). In a READ
that waited for a hand-over this is found at the start of the next slot, not when the hand-over is made: the model's
choice (log 37). -/
def PortUnit.needsLine (u : PortUnit) : Bool :=
  u.phase == .DATA && u.dir == some .read && !u.endOfView && !u.stopped && u.handOver.isNone && !u.ownFetch &&
    u.inHand.isNone

/-- At the start of a slot the SPI port obtains the line it needs (R168). -/
def State.obtainAtSlot (s : State) : State :=
  if s.ports[spi].needsLine then (s.modPort spi PortUnit.ask).obtain true spi else s

/-- A slot of an SPI READ, or of a transaction that drives 0FFh until CS_N rises (R166, R168, R170). -/
def State.readSlot (s : State) : State :=
  let u := s.ports[spi]
  if u.phase = .CUT ∨ (u.phase = .VOIDED ∧ u.dir ≠ some .write) then s.modPort spi PortUnit.fillSlot
  else if u.phase = .DATA ∧ u.dir = some .read then s.obtainAtSlot.modPort spi PortUnit.readSlot
  else s

/-- SPI_READ_SLOT (R168). -/
def execSpiReadSlot (s : State) : Host.Outcome State Fault Refusal := .next (s.busEvent spi State.readSlot)

/-! ## Ending -/

/-- The level of CS_N after the transaction of `p` has ended: high for P3 (R166). -/
def Device.afterEnd (p : Port) (d : Device) : Device := if p = spi then { d with csLow := false } else d

/-- STOP, or CS_N rises: the transaction ends and the bus is released (R53, R57, R63, R65). A STOP is carried out while the
port holds SCL low too: the model's choice (log 40). -/
def State.stop (p : Port) (s : State) : State := (s.endTransaction p).modPort p (PortUnit.respond p false)

/-- TRANSACTION_END (R57). A repeated START ends a transaction within TWO_WIRE_START (log 14). -/
def execTransactionEnd (p : Port) (s : State) : Host.Outcome State Fault Refusal :=
  .next ((s.setDevice (s.device.afterEnd p)).busEvent p (State.stop p))

end Sys2Proof.Machine
end

