-- ==== Sys2Proof/Machine/Service.lean ====
section
/-! DEFINITION. The services of the store controller and what comes of them: LINE_FETCH, COMMIT, PAGE_TRANSFER,
COPY_TRANSFER_OUTCOME. A service is one step (R2); the arbiter chose its requester before. -/

namespace Sys2Proof.Machine

/-- The store controller is serving this requester. -/
def State.serving (s : State) (r : Requester) : Bool := s.running && s.arbiter.inService == some r

/-- Serves port `p`'s line fetch: the line and its outcome go to the port unit (R9, R63). -/
def State.serveFetch (p : Port) (o : ReadOutcome) (f : Fetch) (s : State) : State :=
  let r := s.store.serveFetch s.holds p f.page f.line o
  (s.setStore r.1).deliver p f r.2

/-- LINE_FETCH (R9): the fetch in service, with the outcome of its read. -/
def State.lineFetch (p : Port) (o : ReadOutcome) (s : State) : State :=
  match s.ports[p].outstanding with
  | some (.fetch f) => (s.serveFetch p o f).endPortService
  | _ => s

/-- LINE_FETCH (R9). -/
def execLineFetch (p : Port) (o : ReadOutcome) (s : State) : Host.Outcome State Fault Refusal :=
  .next (if s.serving (portRequester p) then s.lineFetch p o else s)

/-- A posting is handed to the notice unit and its events are raised (R77, R81). -/
def State.postAll (ws : List PageWrite) (s : State) : State :=
  (s.setNotice (s.notice.post ws).1).raiseAll (s.notice.post ws).2

/-- Serves port `p`'s commit: the store, the posting, the record (R11, R58). -/
def State.serveCommit (p : Port) (es : List Entry) (reads : List ReadOutcome) (s : State) : State :=
  let r := s.store.serveCommit s.device.supervisor s.holds p es reads
  ((s.setStore r.1).postAll r.2.posting).returnCommit p r.2.record

/-- COMMIT (R11): the commit in service, with the outcomes of its merge reads. -/
def State.commit (p : Port) (reads : List ReadOutcome) (s : State) : State :=
  match s.ports[p].outstanding with
  | some (.commit es) => (s.serveCommit p es reads).endPortService
  | _ => s

/-- COMMIT (R11). -/
def execCommit (p : Port) (reads : List ReadOutcome) (s : State) : Host.Outcome State Fault Refusal :=
  .next (if s.serving (portRequester p) then s.commit p reads else s)

/-- Serves the copy engine's page transfer: the store, the posting, the outcome returned (R14, R129, R131). -/
def State.serveTransfer (src dst : Page) (q : Port) (reads : List ReadOutcome) (s : State) : State :=
  let r := s.store.serveTransfer s.device.supervisor s.holds q src dst reads
  ((s.setStore r.1).postAll r.2.2).setCopy { s.copy with transfer := .returned r.2.1 }

/-- PAGE_TRANSFER (R14): the transfer in service, with the outcomes of its reads. -/
def State.pageTransfer (reads : List ReadOutcome) (s : State) : State :=
  match s.copy.transfer with
  | .issued src dst q => (s.serveTransfer src dst q reads).endService
  | _ => s

/-- PAGE_TRANSFER (R14). -/
def execPageTransfer (reads : List ReadOutcome) (s : State) : Host.Outcome State Fault Refusal :=
  .next (if s.serving copyEngine then s.pageTransfer reads else s)

/-- The copy engine takes the outcome of its transfer, if one has been returned; a transfer it then issues is seen by the
arbiter (R69, R132). -/
def State.copyOutcome (s : State) : State :=
  match s.copy.transfer with
  | .returned _ => s.takeOutcome.arbitrate
  | _ => s

/-- COPY_TRANSFER_OUTCOME (R132). -/
def execCopyTransferOutcome (s : State) : Host.Outcome State Fault Refusal := .next (s.whenRunning State.copyOutcome)

end Sys2Proof.Machine
end

