-- ==== Sys2Proof/Machine/Commands.lean ====
section
/-! DEFINITION. The commands of chapter 10 at their owners: CONTROL_COMMIT, BAD_COMMAND, HOLD, RENEW, RELEASE, WATCH, COPY,
COPY_CANCEL, SIGNAL, PORT_SIGNAL, PAGE_INFO, MAP, MAP_TRANSLATOR_TAKE, MAP_QUERY, PORT_CONFIG, ATTN_CONFIG, POLICY,
DAMAGE_QUERY, DAMAGE_CLEAR. -/

namespace Sys2Proof.Machine

/-- CONTROL_COMMIT (R67): a read that waited behind it goes on. -/
def execControlCommit (p : Port) (s : State) : Host.Outcome State Fault Refusal :=
  .next (s.whenRunning fun s => ((s.takeReadyControl p).obtain false p).arbitrate)

/-- BAD_COMMAND (R153, R171). -/
def execBadCommand (p : Port) (s : State) : Host.Outcome State Fault Refusal :=
  .next (s.whenRunning (State.examineFirst (badAtUnit p)))

/-! ## The hold controller -/

/-- HOLD (R95, R96, R112 to R115). -/
def execHold (p : Port) (s : State) : Host.Outcome State Fault Refusal :=
  .next (s.whenRunning (State.betweenRequests (.claim p cHOLD)))

/-- RENEW (R103). -/
def execRenew (p : Port) (s : State) : Host.Outcome State Fault Refusal :=
  .next (s.whenRunning (State.betweenRequests (.claim p cRENEW)))

/-- RELEASE (R104, R121). -/
def execRelease (p : Port) (s : State) : Host.Outcome State Fault Refusal :=
  .next (s.whenRunning (State.betweenRequests (.claim p cRELEASE)))

/-! ## The store controller -/

/-- PAGE_INFO (R32, R33). -/
def execPageInfo (p : Port) (s : State) : Host.Outcome State Fault Refusal :=
  .next (s.whenRunning (State.betweenRequests (.claim p cPAGE_INFO)))

/-- POLICY (R25 to R28). -/
def execPolicy (p : Port) (s : State) : Host.Outcome State Fault Refusal :=
  .next (s.whenRunning (State.betweenRequests (.claim p cPOLICY)))

/-- DAMAGE_QUERY (R15). -/
def execDamageQuery (p : Port) (s : State) : Host.Outcome State Fault Refusal :=
  .next (s.whenRunning (State.betweenRequests (.claim p cDAMAGE_QUERY)))

/-- DAMAGE_CLEAR (R16). -/
def execDamageClear (p : Port) (s : State) : Host.Outcome State Fault Refusal :=
  .next (s.whenRunning (State.betweenRequests (.claim p cDAMAGE_CLEAR)))

/-! ## The notice unit and the copy engine -/

/-- The notice unit takes a WATCH claim (R74). -/
def State.watchAct (p : Port) (s : State) : State :=
  s.takeOwned p cWATCH fun c s =>
    let r := s.notice.takeWatch s.store.pages p (c.arg 1).toNat (c.arg 2).toNat (c.arg 3)
    (s.setNotice r.1, r.2)

/-- WATCH (R74). -/
def execWatch (p : Port) (s : State) : Host.Outcome State Fault Refusal := .next (s.whenRunning (State.watchAct p))

/-- The copy engine takes a COPY claim (R127, R128). -/
def State.copyAct (p : Port) (s : State) : State :=
  s.takeOwned p cCOPY fun c s =>
    let r := s.copy.takeCopy p (c.arg 1).toNat (c.arg 2).toNat (c.arg 3).toNat
    (s.setCopy r.1, r.2)

/-- COPY (R127): a transfer it issues is seen by the arbiter (R69). -/
def execCopy (p : Port) (s : State) : Host.Outcome State Fault Refusal :=
  .next (s.whenRunning fun s => (s.copyAct p).arbitrate)

/-- The copy engine takes a COPY_CANCEL claim (R134). -/
def State.copyCancelAct (p : Port) (s : State) : State :=
  s.takeOwned p cCOPY_CANCEL fun _ s =>
    let r := s.copy.takeCancel p
    ((s.setCopy r.1).raiseAll r.2.1, r.2.2)

/-- COPY_CANCEL (R134). -/
def execCopyCancel (p : Port) (s : State) : Host.Outcome State Fault Refusal :=
  .next (s.whenRunning (State.copyCancelAct p))

/-! ## Signals, maps, configuration -/

/-- SIGNAL (R147): the command unit's test. -/
def execSignal (p : Port) (s : State) : Host.Outcome State Fault Refusal :=
  .next (s.whenRunning (State.examine p cSIGNAL))

/-- PORT_SIGNAL (R147): the attention unit of `target` takes `issuer`'s SIGNAL. -/
def execPortSignal (target issuer : Port) (s : State) : Host.Outcome State Fault Refusal :=
  .next (s.whenRunning (State.takeShared issuer target cSIGNAL (signalAct target) signalAnswer))

/-- MAP (R49): the command unit's tests. -/
def execMap (p : Port) (s : State) : Host.Outcome State Fault Refusal := .next (s.whenRunning (State.examine p cMAP))

/-- MAP_TRANSLATOR_TAKE (R50): the translator of `target` takes `issuer`'s MAP. -/
def execMapTranslatorTake (target issuer : Port) (s : State) : Host.Outcome State Fault Refusal :=
  .next (s.whenRunning fun s => (s.takeShared issuer target cMAP (mapAct target) mapAnswer).arbitrate)

/-- The translator answers a MAP_QUERY that passed its tests (R52). -/
def State.mapQueryAct (p : Port) (s : State) : State :=
  s.takeOwned p cMAP_QUERY fun c s => (s, mapQueryAnswer c s)

/-- MAP_QUERY (R52): the tests, then the translator's answer. -/
def execMapQuery (p : Port) (s : State) : Host.Outcome State Fault Refusal :=
  .next (s.whenRunning fun s => (s.examine p cMAP_QUERY).mapQueryAct p)

/-- PORT_CONFIG (R155): the tests, then the named owners' halves (log 26). -/
def execPortConfig (p : Port) (half : ConfigHalf) (s : State) : Host.Outcome State Fault Refusal :=
  .next (s.whenRunning fun s => (s.examine p cPORT_CONFIG).takeHalves p half)

/-- The attention unit takes an ATTN_CONFIG claim (R145). -/
def State.attnConfigAct (p : Port) (s : State) : State :=
  s.takeOwned p cATTN_CONFIG fun c s =>
    let r := s.attn[p].config (c.arg 1) (c.arg 2) (c.arg 3)
    (s.modAttn p fun _ => r.1, r.2)

/-- ATTN_CONFIG (R145). -/
def execAttnConfig (p : Port) (s : State) : Host.Outcome State Fault Refusal :=
  .next (s.whenRunning (State.attnConfigAct p))

end Sys2Proof.Machine
end

