-- ==== Sys2Proof/Machine/PortReset.lean ====
section
/-! DEFINITION. PORT_RESET, PORT_RESET_BEGIN and the six parts of a port reset (R158 to R161), and the acts of an attention
unit and a notice unit that a line brings about: TAKE, DONE, POP. -/

namespace Sys2Proof.Machine

/-- PORT_RESET (R158): the issuing command unit's tests. -/
def execPortReset (p : Port) (s : State) : Host.Outcome State Fault Refusal :=
  .next (s.whenRunning (State.examine p cPORT_RESET))

/-- PORT_RESET_BEGIN (R158): `target`'s command unit takes `issuer`'s begin claim. -/
def execPortResetBegin (target issuer : Port) (s : State) : Host.Outcome State Fault Refusal :=
  .next (s.whenRunning (State.takeBegin target issuer))

/-! ## The parts (R159) -/

/-- HOLD_RESET_PART (R108, R124). -/
def execHoldResetPart (p : Port) (s : State) : Host.Outcome State Fault Refusal :=
  .next (s.whenRunning (State.betweenRequests (.holdReset p)))

/-- A part of `p`'s reset, if the reset has come to it: its act, and the reset goes on to the next part (R159). The
executed command has been examined, at the latest, before it (R153). -/
def State.resetPart (p : Port) (st nextStage : ResetStage) (act : State → State) (s : State) : State :=
  if s.cmds[p].atStage st then (act (s.examineAll p)).modCmd p (CommandUnit.toStage nextStage) else s

/-- The notice unit's part: a WATCH not yet taken is discarded (R87). -/
def State.noticeResetAct (p : Port) (s : State) : State :=
  (s.discardOwned p [cWATCH]).setNotice (s.notice.resetPart p)

/-- NOTICE_RESET_PART (R87). -/
def execNoticeResetPart (p : Port) (s : State) : Host.Outcome State Fault Refusal :=
  .next (s.whenRunning (State.resetPart p .notice .copy (State.noticeResetAct p)))

/-- The copy engine's part: a COPY or COPY_CANCEL not yet taken is discarded (R136). -/
def State.copyResetAct (p : Port) (s : State) : State :=
  (s.discardOwned p [cCOPY, cCOPY_CANCEL]).setCopy (s.copy.resetPart p)

/-- COPY_RESET_PART (R136). -/
def execCopyResetPart (p : Port) (s : State) : Host.Outcome State Fault Refusal :=
  .next (s.whenRunning (State.resetPart p .copy .attention (State.copyResetAct p)))

/-- The attention unit's part: an ATTN_CONFIG and the attention half of a PORT_CONFIG not yet taken are discarded
(R150, R159). A DONE that it has not taken is dropped, the model's choice (log 42). -/
def State.attentionResetAct (p : Port) (s : State) : State :=
  let s' := (s.discardOwned p [cATTN_CONFIG]).modAttn p AttnUnit.resetPart
  s'.setClaims (s'.claims.filterMap (Claim.dropOutputHalf p))

/-- ATTENTION_RESET_PART (R150). -/
def execAttentionResetPart (p : Port) (s : State) : Host.Outcome State Fault Refusal :=
  .next (s.whenRunning (State.resetPart p .attention .command (State.attentionResetAct p)))

/-- The detail of a PORT_RESET result: target, issuer, the code of the command in flight (R160, R161, R172; log 23). -/
def resetDetail (p : Port) (r : ResetRun) : List Byte := [portByte p, portByte r.issuer, r.code]

/-- Step 5 at the command unit: the line is zeroed, the flag cleared, the result written whole (R160). -/
def CommandUnit.resetPart (p : Port) (r : ResetRun) (c : CommandUnit) : CommandUnit :=
  { c with
    line := Line.zero
    inFlight := false
    result := ⟨cPORT_RESET, .OK, c.result.sequence + 1, detailOf (resetDetail p r)⟩ }

/-- `p`'s own PORT_RESET, not yet taken when another reset of `p` comes to step 5: its command unit, whose
reset-in-progress flag is set, answers it BUSY (R158; log 22). -/
def isOwnBegin (p : Port) (c : Claim) : Bool := isBegin p p c

/-- Answers `p`'s own begin claim BUSY, if there is one. -/
def State.answerOwnBegin (p : Port) (s : State) : State :=
  match takeFirst (isOwnBegin p) s.claims with
  | none => s
  | some (c, rest) => { s with claims := rest }.answer c (refusal .BUSY)

/-- The answers of `p`'s claims still with their owners come after step 5 and are discarded (R159). -/
def State.orphanClaims (p : Port) (s : State) : State :=
  s.setClaims (s.claims.map fun c => if c.issuer = p then { c with orphan := true } else c)

/-- HOLD_ENDED with cause EVICTED (R160). -/
def evictedEvent (p : Port) : Event := ⟨p, sHOLD_ENDED, .holdEnded none .EVICTED⟩

/-- The command unit's part: step 5 of the reset (R160). -/
def State.commandResetAct (p : Port) (s : State) : State :=
  let s' := s.answerOwnBegin p
  match s'.cmds[p].resetRun with
  | none => s'
  | some r =>
    let s'' := (s'.orphanClaims p).modCmd p (CommandUnit.resetPart p r)
    if r.issuer = p then s'' else s''.raise (evictedEvent p)

/-- COMMAND_RESET_PART (R160). -/
def execCommandResetPart (p : Port) (s : State) : Host.Outcome State Fault Refusal :=
  .next (s.whenRunning (State.resetPart p .command .portUnit (State.commandResetAct p)))

/-- The port unit's part: the transaction is cut, the pointer set to 000h, hand-overs and kept records discarded (R71). -/
def PortUnit.resetPart (u : PortUnit) : PortUnit :=
  { u.cut with pointer := 0, handOver := none, keptVoid := none, replaced := 0 }

/-- The reset is complete: its flag is cleared and an eviction's issuer gets its result (R161). -/
def State.completeReset (p : Port) (r : ResetRun) (s : State) : State :=
  let s' := s.modCmd p fun c => { c with resetRun := none }
  if r.issuer = p then s' else s'.recordAnswer r.issuer cPORT_RESET (.OK, resetDetail p r)

/-- Step 6 of the reset: the port unit's part, the completion, and the record of a discarded hand-over (R71, R161; log
35). -/
def State.portUnitResetAct (p : Port) (r : ResetRun) (s : State) : State :=
  let s' := (s.modPort p PortUnit.resetPart).completeReset p r
  match s.ports[p].handOver.bind HandOver.cutRecord with
  | some t => s'.writeRecord p t
  | none => s'

/-- The port unit's part, if the reset of `p` has come to it. -/
def State.lastResetPart (p : Port) (s : State) : State :=
  match s.cmds[p].resetRun with
  | some r => if r.stage = .portUnit then ((s.settle p).portUnitResetAct p r).arbitrate else s
  | none => s

/-- PORT_UNIT_RESET_PART (R71, R161). -/
def execPortUnitResetPart (p : Port) (s : State) : Host.Outcome State Fault Refusal :=
  .next (s.whenRunning (State.lastResetPart p))

/-! ## TAKE, DONE, POP -/

/-- Port `p` is obtaining line `ln` of the control window: a two-wire port from the moment it needs it, the SPI port at the
start of a slot (R165, R168). -/
def State.obtainsLine (p : Port) (ln : Fin 16) (s : State) : Bool :=
  let u := s.ports[p]
  windowOf u.pointer == 0 && lineOf u.pointer == ln && (u.obtaining || (p == spi && u.needsLine))

/-- The port obtains the line it needs now. -/
def State.obtainNow (p : Port) (s : State) : State := (s.modPort p PortUnit.ask).obtain true p

/-- TAKE (R143): the port obtains the ATTENTION line (log 13). A DONE that has been handed to the unit may still be untaken
then: the command that comes first is taken first, the model's choice (log 39). -/
def execAttnTake (p : Port) (s : State) : Host.Outcome State Fault Refusal :=
  .next (s.whenRunning fun s => if s.obtainsLine p 2 then s.obtainNow p else s)

/-- POP (R82, R83): the port obtains the NOTICE line (log 13). -/
def execNoticePop (p : Port) (s : State) : Host.Outcome State Fault Refusal :=
  .next (s.whenRunning fun s => if s.obtainsLine p 4 then s.obtainNow p else s)

/-- The attention unit takes one DONE handed to it, if there is one (R144). -/
def AttnUnit.takeOneDone (u : AttnUnit) : AttnUnit := if u.doneDue = 0 then u else u.takeDone

/-- DONE (R144): before or after a TAKE, as the commands come (log 39). -/
def execAttnDone (p : Port) (s : State) : Host.Outcome State Fault Refusal :=
  .next (s.whenRunning (State.modAttn p AttnUnit.takeOneDone))

end Sys2Proof.Machine
end

