-- ==== Sys2Proof/Machine/Dispatch.lean ====
section
/-! DEFINITION. The effect of each command on everything but the queue: one arm per row of spec/opcode_table.json. -/

namespace Sys2Proof.Machine

/-- The effect of a command. -/
def exec (i : Instr) (s : State) : Host.Outcome State Fault Refusal :=
  match i with
  | .powerOnReset straps => Sys2Proof.Machine.execPowerOnReset straps s
  | .startUpClearEnd => Sys2Proof.Machine.execStartUpClearEnd s
  | .resetNFall completed reads => Sys2Proof.Machine.execResetNFall completed reads s
  | .resetNRelease straps => Sys2Proof.Machine.execResetNRelease straps s
  | .alertIn => Sys2Proof.Machine.execAlertIn s
  | .tick => Sys2Proof.Machine.execTick s
  | .leaseExpiry p k => Sys2Proof.Machine.execLeaseExpiry p k s
  | .waitExpiry p k => Sys2Proof.Machine.execWaitExpiry p k s
  | .twoWireStart p target dir => Sys2Proof.Machine.execTwoWireStart p target dir s
  | .addressHighByte p b => Sys2Proof.Machine.execAddressHighByte p b s
  | .addressLowByte p b => Sys2Proof.Machine.execAddressLowByte p b s
  | .twoWireWriteByte p b => Sys2Proof.Machine.execTwoWireWriteByte p b s
  | .twoWireReadByte p ack => Sys2Proof.Machine.execTwoWireReadByte p ack s
  | .spiCsFall => Sys2Proof.Machine.execSpiCsFall s
  | .spiWrite => Sys2Proof.Machine.execSpiWrite s
  | .spiRead => Sys2Proof.Machine.execSpiRead s
  | .spiStatus => Sys2Proof.Machine.execSpiStatus s
  | .spiUnknownOpcode op => Sys2Proof.Machine.execSpiUnknownOpcode op s
  | .spiWriteSlot b => Sys2Proof.Machine.execSpiWriteSlot b s
  | .spiReadSlot => Sys2Proof.Machine.execSpiReadSlot s
  | .transactionEnd p => Sys2Proof.Machine.execTransactionEnd p s
  | .lineFetch p read => Sys2Proof.Machine.execLineFetch p read s
  | .commit p reads => Sys2Proof.Machine.execCommit p reads s
  | .pageTransfer reads => Sys2Proof.Machine.execPageTransfer reads s
  | .controlCommit p => Sys2Proof.Machine.execControlCommit p s
  | .badCommand p => Sys2Proof.Machine.execBadCommand p s
  | .hold p => Sys2Proof.Machine.execHold p s
  | .renew p => Sys2Proof.Machine.execRenew p s
  | .release p => Sys2Proof.Machine.execRelease p s
  | .watch p => Sys2Proof.Machine.execWatch p s
  | .copy p => Sys2Proof.Machine.execCopy p s
  | .copyCancel p => Sys2Proof.Machine.execCopyCancel p s
  | .copyTransferOutcome => Sys2Proof.Machine.execCopyTransferOutcome s
  | .signal p => Sys2Proof.Machine.execSignal p s
  | .portSignal target issuer => Sys2Proof.Machine.execPortSignal target issuer s
  | .pageInfo p => Sys2Proof.Machine.execPageInfo p s
  | .map p => Sys2Proof.Machine.execMap p s
  | .mapTranslatorTake target issuer => Sys2Proof.Machine.execMapTranslatorTake target issuer s
  | .mapQuery p => Sys2Proof.Machine.execMapQuery p s
  | .portConfig p half => Sys2Proof.Machine.execPortConfig p half s
  | .attnConfig p => Sys2Proof.Machine.execAttnConfig p s
  | .policy p => Sys2Proof.Machine.execPolicy p s
  | .damageQuery p => Sys2Proof.Machine.execDamageQuery p s
  | .damageClear p => Sys2Proof.Machine.execDamageClear p s
  | .portReset p => Sys2Proof.Machine.execPortReset p s
  | .portResetBegin target issuer => Sys2Proof.Machine.execPortResetBegin target issuer s
  | .holdResetPart p => Sys2Proof.Machine.execHoldResetPart p s
  | .noticeResetPart p => Sys2Proof.Machine.execNoticeResetPart p s
  | .copyResetPart p => Sys2Proof.Machine.execCopyResetPart p s
  | .attentionResetPart p => Sys2Proof.Machine.execAttentionResetPart p s
  | .commandResetPart p => Sys2Proof.Machine.execCommandResetPart p s
  | .portUnitResetPart p => Sys2Proof.Machine.execPortUnitResetPart p s
  | .attnTake p => Sys2Proof.Machine.execAttnTake p s
  | .attnDone p => Sys2Proof.Machine.execAttnDone p s
  | .noticePop p => Sys2Proof.Machine.execNoticePop p s
  | .alertInNRise => Sys2Proof.Machine.execAlertInNRise s

end Sys2Proof.Machine
end

