-- ==== Sys2Proof/Machine/Step.lean ====
section
/-! DEFINITION. One step of the block: the command at the front of the queue. -/

namespace Sys2Proof.Machine

/-- Takes the command at the front of the queue and carries it out on the state with the queue's rest; on an empty queue
the block idles (logs 4, 32). -/
def step (s : State) : Host.Outcome State Fault Refusal :=
  match s.pending with
  | [] => .next s.idle
  | c :: rest => exec c (s.setPending rest)

/-- `s` with the command that a word spells at the front of its queue; the table's rows have no bits, so no word spells
one and `s` is unchanged. -/
def State.withFetchWord (s : State) (nbits w : Nat) : State :=
  match decodeTableWord nbits w with
  | some c => s.setPending (c :: s.pending)
  | none => s

end Sys2Proof.Machine
end

