-- ==== Sys2Proof/Safety.lean ====
section
/-! DEFINITION. What the statements are about: the parts of the state and which of them each command may touch; when
nothing of a port is left to be done at once; the oldest claim of a kind; and the invariants of the device. -/

namespace Sys2Proof.Safety

open Sys2Proof.Machine

/-! ## Frames -/

/-- The parts of the state. -/
inductive Part where
  /-- The queue of waiting commands. -/
  | pending
  /-- RESET_N, ALERT_IN_N, CS_N and whether the start-up clear runs. -/
  | pins
  /-- The sampled straps. -/
  | straps
  /-- The store's bytes and whether its check codes are written. -/
  | bytes
  /-- The corrected count, the damaged-line list, the overflow flag. -/
  | damage
  /-- The policy and owner of every page. -/
  | policies
  /-- The version of every page. -/
  | versions
  | arbiter
  | holds
  /-- The watch sets. -/
  | watch
  /-- A port's notice queue with its lost count and last-lost page. -/
  | notices (q : Port)
  | copy
  | translator (q : Port)
  | unit (q : Port)
  | command (q : Port)
  | claims
  | attention (q : Port)
  /-- The number of the next free value. -/
  | free
deriving DecidableEq, Repr

/-- `t` has this part of `s`. -/
def Part.kept (s t : State) : Part → Prop
  | .pending => t.pending = s.pending
  | .pins => t.device.resetLow = s.device.resetLow ∧ t.device.clearing = s.device.clearing ∧
      t.device.alertLow = s.device.alertLow ∧ t.device.csLow = s.device.csLow
  | .straps => t.device.supervisor = s.device.supervisor ∧ t.device.asValue = s.device.asValue
  | .bytes => t.store.bytes = s.store.bytes ∧ t.store.codesFresh = s.store.codesFresh
  | .damage => t.store.corrected = s.store.corrected ∧ t.store.damaged = s.store.damaged ∧
      t.store.overflow = s.store.overflow
  | .policies => ∀ pg : Page,
      t.store.pages[pg].policy = s.store.pages[pg].policy ∧ t.store.pages[pg].owner = s.store.pages[pg].owner
  | .versions => ∀ pg : Page, t.store.pages[pg].version = s.store.pages[pg].version
  | .arbiter => t.arbiter = s.arbiter
  | .holds => t.holds = s.holds
  | .watch => t.notice.watch = s.notice.watch
  | .notices q => t.notice.queues[q] = s.notice.queues[q]
  | .copy => t.copy = s.copy
  | .translator q => t.translators[q] = s.translators[q]
  | .unit q => t.ports[q] = s.ports[q]
  | .command q => t.cmds[q] = s.cmds[q]
  | .claims => t.claims = s.claims
  | .attention q => t.attn[q] = s.attn[q]
  | .free => t.freeIndex = s.freeIndex

/-- `t` differs from `s` in no part outside `T`. -/
def Touches (T : Part → Bool) (s t : State) : Prop := ∀ x : Part, T x = false → x.kept s t

/-- What a bus event of port `p` may touch, with what the port does at once before it: its port unit, its command unit and
claims, its attention unit and its notice queue, the number of the next free value, and the arbiter, which may choose the
request the port issues. -/
def busParts (p : Port) (x : Part) : Bool :=
  [Part.unit p, .command p, .claims, .attention p, .notices p, .free, .arbiter].contains x

/-- What the acts that became due during a service may touch (R3, R94): the claims of the hold controller and of the store
controller, ticks, and the hold controller's part of a port reset. -/
def dueParts (x : Part) : Bool :=
  match x with
  | .holds | .claims | .policies | .damage | .watch | .arbiter | .command _ | .attention _ => true
  | _ => false

/-- The parts of the state a command may touch. The page-table claims and the acts of the hold controller may also only
become due, in the arbiter. -/
def touchedBy (i : Instr) (x : Part) : Bool :=
  match i with
  | .powerOnReset _ => x != .pending && x != .free
  | .startUpClearEnd => x == .pins || x == .bytes
  | .resetNFall completed _ =>
    x != .pending && x != .free && x != .straps && (completed || (x != .bytes && x != .versions))
  | .resetNRelease _ => x == .pins || x == .straps
  | .alertIn => x == .pins || allPorts.any fun q => x == .attention q
  | .alertInNRise => x == .pins
  | .tick | .leaseExpiry _ _ | .waitExpiry _ _ =>
    x == .holds || x == .arbiter || allPorts.any fun q => x == .attention q
  | .twoWireStart p _ _ | .twoWireWriteByte p _ | .twoWireReadByte p _ => busParts p.port x
  | .addressHighByte p _ | .addressLowByte p _ => busParts p x
  | .spiCsFall => x == .pins || busParts spi x
  | .spiWrite | .spiRead | .spiStatus | .spiUnknownOpcode _ | .spiWriteSlot _ | .spiReadSlot => busParts spi x
  | .transactionEnd p => (x == .pins && p == spi) || busParts p x
  | .lineFetch p _ => x == .unit p || x == .copy || dueParts x
  | .commit p _ =>
    x == .unit p || x == .bytes || x == .versions || x == .copy || (allPorts.any fun q => x == .notices q) || dueParts x
  | .pageTransfer _ =>
    x == .copy || x == .bytes || x == .versions || (allPorts.any fun q => x == .notices q) || dueParts x
  | .copyTransferOutcome => x == .copy || x == .arbiter || allPorts.any fun q => x == .attention q
  | .controlCommit p => [Part.unit p, .command p, .claims, .attention p, .arbiter].contains x
  | .badCommand p | .signal p | .map p | .mapQuery p | .portReset p => [Part.command p, .claims].contains x
  | .hold p | .renew p => [Part.holds, .command p, .claims, .arbiter].contains x
  | .release p => [Part.holds, .command p, .claims, .arbiter].contains x || allPorts.any fun q => x == .attention q
  | .watch p => [Part.watch, .command p, .claims].contains x
  | .copy p => [Part.copy, .command p, .claims, .arbiter].contains x
  | .copyCancel p => [Part.copy, .command p, .claims, .attention p].contains x
  | .portSignal t p => [Part.attention t, .command p, .claims].contains x
  | .pageInfo p | .damageQuery p => [Part.command p, .claims, .arbiter].contains x
  | .mapTranslatorTake t p => [Part.translator t, .unit t, .command p, .claims, .arbiter].contains x
  | .portConfig p _ => [Part.translator p, .attention p, .command p, .claims].contains x
  | .attnConfig p => [Part.attention p, .command p, .claims].contains x
  | .policy p => [Part.policies, .watch, .command p, .claims, .arbiter].contains x
  | .damageClear p => [Part.damage, .command p, .claims, .arbiter].contains x
  | .portResetBegin t p => [Part.command t, .command p, .claims].contains x
  | .holdResetPart p =>
    [Part.holds, .command p, .claims, .arbiter].contains x || allPorts.any fun q => x == .attention q
  | .noticeResetPart p => [Part.watch, .notices p, .command p, .claims].contains x
  | .copyResetPart p => [Part.copy, .command p, .claims].contains x
  | .attentionResetPart p | .commandResetPart p => [Part.attention p, .command p, .claims].contains x
  | .portUnitResetPart p => busParts p x || allPorts.any fun q => x == .command q
  | .attnTake p => [Part.unit p, .attention p].contains x
  | .attnDone p => x == .attention p
  | .noticePop p => [Part.unit p, .notices p].contains x

/-! ## A port with nothing left to do at once -/

/-- Nothing of port `p`'s is left to be done at once (log 12): no control commit that can be taken, no command to be examined,
no DONE to be taken, no PORT STATE line to be gathered, and a line that the port unit still has to obtain waits behind a
hand-over or an outstanding request (R59, R60). -/
structure Settled (p : Port) (s : State) : Prop where
  running : s.running = true
  noControl : ∀ es, s.ports[p].handOver = some (.command es) →
    s.ports[p].endedRead ≠ none ∨ ∃ x, s.ports[p].outstanding = some (.commit x)
  examined : ∀ c ∈ s.claims, anyAtUnit p c = false
  noDone : s.attn[p].doneDue = 0
  obtained : s.ports[p].asking = true → s.ports[p].handOver ≠ none ∨ (s.ports[p].outstanding ≠ none ∧
    ∃ pg off ac, s.translators[p].translate s.ports[p].pointer = .store pg off ac)
  gathered : s.ports[p].gathering = false

/-- `c` is the oldest claim that satisfies `f`; `rest` are the others. -/
def Oldest (f : Claim → Bool) (c : Claim) (rest : List Claim) (s : State) : Prop :=
  ∃ before after, s.claims = before ++ c :: after ∧ rest = before ++ after ∧ (∀ x ∈ before, f x = false) ∧ f c = true

/-- The device runs, and `c` is `p`'s oldest claim with this code that waits for its owner; `rest` are the others. -/
structure Waits (p : Port) (code : Byte) (c : Claim) (rest : List Claim) (s : State) : Prop where
  running : s.running = true
  oldest : Oldest (isOwned p code) c rest s

/-- The same, and the store controller is free (R3, R94). -/
structure Takes (p : Port) (code : Byte) (c : Claim) (rest : List Claim) (s : State) : Prop where
  waits : Waits p code c rest s
  free : s.arbiter.inService = none

/-- The device runs, and `c` is the oldest claim that satisfies `f`; `rest` are the others. -/
structure Finds (f : Claim → Bool) (c : Claim) (rest : List Claim) (s : State) : Prop where
  running : s.running = true
  oldest : Oldest f c rest s

/-- The claim `c` is over and its answer recorded (R154); `rest` are the claims left. -/
def answered (c : Claim) (rest : List Claim) (a : Answer) (s : State) : State := (s.setClaims rest).answer c a

/-- All 128 pages, ascending. -/
def allPages : List Page := List.finRange 128

/-- Port `p` needs the line at its pointer now: a two-wire port from the moment it is obtaining it, the SPI port at the start
of a slot (R165, R168). -/
def NeedsLineNow (p : Port) (s : State) : Prop :=
  (s.ports[p].asking = true ∧ s.ports[p].phase = .DATA ∧ s.ports[p].handOver = none) ∨
    (p = spi ∧ s.ports[p].needsLine = true)

/-! ## Commits and page transfers as chapters 1 and 8 speak of them -/

/-- The commit gives line `ln` of page `pg` at least one byte and not all sixteen (R12, R13). -/
def partLine (es : List Entry) (pg : Page) (ln : Fin 16) : Bool := touchesLine es pg ln && !coversLine es pg ln

/-- How many lines of these pages the commit writes in part, each of which is read to merge (R13). -/
def partLines (es : List Entry) (pgs : List Page) : Nat :=
  (pgs.flatMap fun pg => allLines.filter (partLine es pg)).length

/-- A port other than `q` holds a GRANTED slot covering the page, in either mode (R98). -/
def HeldByOther (h : HoldCtl) (q : Port) (pg : Page) : Prop :=
  ∃ r : SlotRef, r.1 ≠ q ∧ (h.slot r).state = .GRANTED ∧ (h.slot r).covers pg = true

/-- A port other than `q` holds a GRANTED slot in FULL mode covering the page (R99). -/
def FullByOther (h : HoldCtl) (q : Port) (pg : Page) : Prop :=
  ∃ r : SlotRef, r.1 ≠ q ∧ (h.slot r).state = .GRANTED ∧ (h.slot r).mode = .FULL ∧ (h.slot r).covers pg = true

/-- The first `n` lines read are not uncorrectable. -/
def ReadsPass (reads : List ReadOutcome) (n : Nat) : Prop := ∀ j < n, reads[j]? ≠ some .uncorrectable

/-- The policy and hold checks of a commit of port `q` pass on a page (R11). -/
def PagePasses (s : State) (q : Port) (pg : Page) : Prop :=
  s.store.pages[pg].writable s.device.supervisor q = true ∧ ¬ HeldByOther s.holds q pg

/-- On these pages the policy and hold checks of the commit pass, and no line it writes in part is listed (R11, R12). -/
def PagesPass (s : State) (q : Port) (es : List Entry) (pgs : List Page) : Prop :=
  ∀ pg ∈ pgs, PagePasses s q pg ∧ ∀ ln, partLine es pg ln = true → lineNo pg ln ∉ s.store.damaged

/-- The store as it is but for what reads of lines did: the corrected count (R6). -/
def StoreKept (st st' : StoreCtl) : Prop :=
  st'.bytes = st.bytes ∧ st'.codesFresh = st.codesFresh ∧ st'.pages = st.pages ∧ st'.damaged = st.damaged ∧
    st'.overflow = st.overflow

/-- A commit of port `p` has been served: the store it leaves, its posting, its record; then what waits behind it goes on,
and the service of a port's request ends. -/
def afterCommit (p : Port) (st : StoreCtl) (ws : List PageWrite) (r : TxStatus) (s : State) : State :=
  ((((((s.setStore st).setNotice (s.notice.post ws).1).raiseAll (s.notice.post ws).2).modPort p fun u =>
    { u with outstanding := none }).writeRecord p r).makeHandOver p |>.obtain false p).endPortService

/-- A saturating 16-bit count raised by `n`. -/
def RaisedBy (n : Nat) (old new : Half) : Prop := new.toNat = min 65535 (old.toNat + n)

/-- A line found uncorrectable has been entered (R7). -/
def Entered (l : LineNo) (st st' : StoreCtl) : Prop :=
  if l ∈ st.damaged then st'.damaged = st.damaged ∧ st'.overflow = st.overflow
  else if st.damaged.length < 8 then st'.damaged = st.damaged ++ [l] ∧ st'.overflow = st.overflow
  else st'.damaged = st.damaged ∧ st'.overflow = true

/-! ## Holds as chapters 6 and 7 speak of them -/

/-- Port `q` has a GRANTED slot that shares a page with `c` pages from `f`. -/
def GrantedOn (h : HoldCtl) (q : Port) (f c : Nat) : Prop :=
  ∃ k, (h.slot (q, k)).state = .GRANTED ∧ (h.slot (q, k)).meets f c = true

/-- A request for `c` pages from `f` of port `p` is blocked, `older` being the requests before it: another port's GRANTED
slot, or an older request, shares a page with it (R96, R118). -/
def Blocked (h : HoldCtl) (older : List SlotRef) (p : Port) (f c : Nat) : Prop :=
  (∃ q, q ≠ p ∧ GrantedOn h q f c) ∨ ∃ r ∈ older, (h.slot r).meets f c = true

/-- A request of port `p` for `c` pages from `f`, made behind the requests `older`, would wait on port `q` (R113). -/
def WouldWaitOn (h : HoldCtl) (older : List SlotRef) (p : Port) (f c : Nat) (q : Port) : Prop :=
  q ≠ p ∧ (GrantedOn h q f c ∨ ∃ r ∈ older, r.1 = q ∧ (h.slot r).meets f c = true)

/-- The arguments of a HOLD pass test 1 of R95, with this mode and wait flag. -/
structure HoldArgsOk (a : HoldArgs) (m : HoldMode) (w : Bool) : Prop where
  mode : a.mode = some m
  wait : a.wait = some w
  least : 1 ≤ a.count
  most : a.count ≤ 8
  last : a.first + a.count ≤ 128

/-- Port `p` has write rights on every page of the range (R22, test 2 of R95). -/
def HoldRights (s : State) (p : Port) (f c : Nat) : Prop :=
  ∀ pg, inRange f c pg = true → s.store.pages[pg].writable s.device.supervisor p = true

/-- A HOLD passes the five tests of R95, and `k` is the port's lowest-numbered FREE slot (R96). -/
structure HoldPasses (s : State) (p : Port) (a : HoldArgs) (m : HoldMode) (w : Bool) (k : SlotNo) : Prop where
  args : HoldArgsOk a m w
  rights : HoldRights s p a.first a.count
  apart : ¬ GrantedOn s.holds p a.first a.count
  notWaiting : ∀ j, (s.holds.slot (p, j)).state ≠ .WAITING
  slot : (s.holds.slot (p, k)).state = .FREE
  lowest : ∀ j < k, (s.holds.slot (p, j)).state ≠ .FREE

/-- Port `q` is reached from port `p` along waits-on edges (R113, R114). -/
inductive Reaches (h : HoldCtl) : Port → Port → Prop where
  | here (p : Port) : Reaches h p p
  | step {p q r : Port} : q ∈ h.waitsOn p → Reaches h q r → Reaches h p r

/-! ## Invariants -/

/-- The hold table and the hold queue (R91 to R93, R111):
a FREE slot's fields are zero; the slots of the queue are the WAITING ones, each once;
a port has at most one WAITING slot;
no two GRANTED slots share a page;
a WAITING slot shares no page with a GRANTED slot of its own port. -/
structure HoldsOk (h : HoldCtl) : Prop where
  free : ∀ r, (h.slot r).state = .FREE → h.slot r = Slot.free
  queued : ∀ r, r ∈ h.queue ↔ (h.slot r).state = .WAITING
  once : h.queue.Nodup
  oneWaiting : ∀ p k k', (h.slot (p, k)).state = .WAITING → (h.slot (p, k')).state = .WAITING → k = k'
  disjoint : ∀ r r', r ≠ r' → (h.slot r).state = .GRANTED → (h.slot r').state = .GRANTED →
    (h.slot r).meets (h.slot r').first.val (h.slot r').count = false
  apart : ∀ p k k', (h.slot (p, k)).state = .WAITING → (h.slot (p, k')).state = .GRANTED →
    (h.slot (p, k)).meets (h.slot (p, k')).first.val (h.slot (p, k')).count = false

/-- No request in the queue could be granted (R118): each is blocked by another port's GRANTED slot or by an older
request. -/
def Scanned (h : HoldCtl) : Prop :=
  ∀ before r after, h.queue = before ++ r :: after → h.blocked before r = true

/-- The waits-on relation has no cycle (R116). -/
def Acyclic (h : HoldCtl) : Prop := ∀ p q, q ∈ h.waitsOn p → ¬ Reaches h q p

/-- The damaged-line list holds at most 8 line numbers, none twice (R8). -/
def DamagedOk (st : StoreCtl) : Prop := st.damaged.length ≤ 8 ∧ st.damaged.Nodup

/-- A notice queue holds at most 16 records, no two for one page, and none of a write by its own port (R76). -/
def NoticesOk (n : NoticeUnit) : Prop :=
  ∀ p : Port, n.queues[p].records.length ≤ 16 ∧ (n.queues[p].records.map Notice.page).Nodup ∧
    ∀ r ∈ n.queues[p].records, r.writer ≠ .port p

/-- The copy queue holds at most one request of each port, and the engine has a transfer outstanding exactly while it has
an active copy (R126, R128). -/
def CopyOk (e : CopyEngine) : Prop :=
  (e.queue.map CopyReq.requester).Nodup ∧ (e.transfer = .none ↔ e.queue = []) ∧ ∀ a ∈ e.queue, a.pagesDone < a.count

/-- The entries of a commit: at least one, at most 64, on one page or two (R45, R55, R57). -/
def CommitOk (es : List Entry) : Prop := es ≠ [] ∧ es.length ≤ 64 ∧ (touchedPages es).length ≤ 2

/-- A port unit's staging buffer and the commits formed from it (R44, R45, R55, R57):
bytes are staged in phase DATA of a write of a decided kind alone;
a store write stages at most 64 entries, on at most two pages;
a control transaction stages at most 16, no more than the place of the pointer in line 0 or line 3 while it is there;
a line is obtained in phase DATA of reads alone, and a write is never a store read;
a commit that is outstanding or held has from 1 to 64 entries on one page or two. -/
structure StagingOk (u : PortUnit) : Prop where
  data : u.staging ≠ [] → u.phase = .DATA ∧ u.dir = some .write ∧ (u.kind = .STORE_WRITE ∨ u.kind = .CONTROL_WRITE)
  store : u.kind = .STORE_WRITE → u.staging.length ≤ 64 ∧ (touchedPages u.staging).length ≤ 2
  control : u.kind = .CONTROL_WRITE → u.staging.length ≤ 16
  place : u.kind = .CONTROL_WRITE → windowOf u.pointer = 0 → (lineOf u.pointer = 0 ∨ lineOf u.pointer = 3) →
    u.endOfView = false → u.staging.length ≤ (byteOf u.pointer).val
  asking : u.asking = true → u.dir = some .read ∧ u.phase = .DATA
  writes : u.dir = some .write → u.kind ≠ .STORE_READ
  undecided : u.phase = .ADDRESS → u.kind = .NONE
  outstanding : ∀ es, u.outstanding = some (.commit es) → CommitOk es
  handOver : ∀ es, u.handOver = some (.commit es) → CommitOk es

/-! ## Resets -/

/-- Every block but the store controller is at the values of power-on reset and of device reset (R38, R40, R42, R54, R65,
R70, R88, R109, R126, R139, R152). -/
structure BlocksReset (t : State) : Prop where
  arbiter : t.arbiter = ⟨0, none, []⟩
  slots : ∀ r, t.holds.slot r = ⟨.FREE, 0, 0, .WRITE, 0, 0, 0, 0⟩
  holdQueue : t.holds.queue = []
  watch : ∀ pg : Page, t.notice.watch[pg] = 0
  notices : ∀ q : Port, t.notice.queues[q] = ⟨[], 0, 0⟩
  copyQueue : t.copy.queue = []
  transfer : t.copy.transfer = .none
  lastCopy : ∀ q : Port, t.copy.last[q] = ⟨.NONE, .none, 0⟩
  map : ∀ (q : Port) (w : Fin 15), t.translators[q].map[w] = ⟨false, 0, .RW⟩
  mode : ∀ q : Port, t.translators[q].mode = .LINEAR
  unit : ∀ q : Port, t.ports[q].pointer = 0 ∧ t.ports[q].phase = .IDLE ∧ t.ports[q].staging = [] ∧ t.ports[q].held = none ∧
    t.ports[q].outstanding = none ∧ t.ports[q].handOver = none ∧ t.ports[q].keptVoid = none ∧ t.ports[q].replaced = 0
  line : ∀ q : Port, t.cmds[q].line = Line.zero
  result : ∀ q : Port, t.cmds[q].result = ⟨0, .OK, 0, detailOf []⟩
  flags : ∀ q : Port, t.cmds[q].inFlight = false ∧ t.cmds[q].resetRun = none
  txStatus : ∀ q : Port, t.cmds[q].txStatus = ⟨.NONE, .OK, .none, 0, 0, 0, 0⟩
  claims : t.claims = []
  sources : ∀ (q : Port) (i : SourceNo), t.attn[q].sources[i] = ⟨.IDLE, .zero, 0, false, i⟩
  output : ∀ q : Port, t.attn[q].outputEnable = false ∧ t.attn[q].doneDue = 0

end Sys2Proof.Safety
end

