-- ==== Sys2Proof/Certificates/Slice0/Obligations.lean ====
section
/-! DEFINITION. The statements for the provers, chapter by chapter. -/

open Sys2Proof Sys2Proof.Machine Sys2Proof.Safety

/-! ## The queue of waiting commands; frames -/

/-- A step takes the command at the front of the queue and is its effect on the state with the queue's rest. On an empty
queue the block idles: parts of PORT STATE lines that are being gathered may be taken (PortStateLine), and nothing happens
where none is. This is the model's choice, logs 4 and 32. -/
def Obligations.StepTakesFrontCommandOrIdles : Prop :=
  (∀ (c : Instr) (rest : List Instr) (s : State), step (s.setPending (c :: rest)) = exec c (s.setPending rest)) ∧
  (∀ s : State, s.pending = [] →
     step s = .next ((((s.takeParts 0).takeParts 1).takeParts 2).takeParts 3) ∧
     ((∀ p : Port, s.ports[p].gathering = false) → step s = .next s))

/-- Every command answers a next state, and it touches no part of the state but those that touchedBy lists for it. -/
def Obligations.EveryCommandKeepsWhatItDoesNotTouch : Prop :=
  ∀ (i : Instr) (s : State), ∃ t, exec i s = .next t ∧ Touches (touchedBy i) s t

/-- While RESET_N is low, and during the start-up clear, no block takes a command (R17, R72): a START is not acknowledged,
CS_N only changes its level, ALERT_IN_N only changes its level, and every other command of the blocks changes nothing. -/
def Obligations.NothingIsTakenDuringResetOrClear : Prop :=
  ∀ s : State, s.running = false →
    (∀ p target d, exec (.twoWireStart p target d) s = .next (s.modPort p.port (PortUnit.respond p.port false))) ∧
    exec .spiCsFall s = .next (s.setDevice { s.device with csLow := true }) ∧
    (∀ p, exec (.transactionEnd p) s = .next (s.setDevice (s.device.afterEnd p))) ∧
    exec .alertIn s = .next (s.setDevice { s.device with alertLow := true }) ∧
    ∀ i : Instr, (match i with
      | .powerOnReset _ | .startUpClearEnd | .resetNFall _ _ | .resetNRelease _ | .alertIn | .alertInNRise
      | .twoWireStart _ _ _ | .spiCsFall | .transactionEnd _ => False
      | _ => True) → exec i s = .next s

/-! ## Resets, straps, ALERT_IN (chapters 1, 2, 9) -/

/-- POWER_ON_RESET puts every block at its reset values, starts the clear and samples the straps. That it is one step,
and that RESET_N and the other input pins keep their levels, is the model's choice (logs 3, 16). START_UP_CLEAR_END:
every byte of the store reads zero with a fresh check code and nothing else changes; while RESET_N is low the clear is
stopped and has no end. -/
def Obligations.PowerOnResetAndStartUpClear : Prop :=
  (∀ (x : Straps) (s : State), ∃ t, exec (.powerOnReset x) s = .next t ∧ BlocksReset t ∧ t.pending = s.pending ∧
     t.device.clearing = true ∧ t.device.supervisor = x.supv ∧
     t.device.asValue[(0 : Port)] = x.as0 ∧ t.device.asValue[(1 : Port)] = x.as1 ∧ t.device.asValue[(2 : Port)] = x.as2 ∧
     t.device.resetLow = s.device.resetLow ∧ t.device.alertLow = s.device.alertLow ∧ t.device.csLow = s.device.csLow ∧
     (∀ a, Memory.read t.store.bytes a = 0) ∧ t.store.corrected = 0 ∧ t.store.damaged = [] ∧ t.store.overflow = false ∧
     ∀ pg : Page, t.store.pages[pg] = ⟨.OPEN, 0, 0⟩) ∧
  (∀ s : State, s.device.clearing = true →
     (s.device.resetLow = false → ∃ t, exec .startUpClearEnd s = .next t ∧ t.running = true ∧
       (∀ a, Memory.read t.store.bytes a = 0) ∧ t.store.codesFresh = true ∧ t = { s with
         device := { s.device with clearing := false }
         store := { s.store with bytes := t.store.bytes, codesFresh := true } }) ∧
     (s.device.resetLow = true → exec .startUpClearEnd s = .next s))

/-- The state State.reset is that right after power-on reset, the start-up clear running. Its pin levels and strap
values are the model's choice (logs 1 to 3). The invariants hold in State.reset. -/
def Obligations.ResetStateHoldsResetValuesAndInvariants : Prop :=
  (BlocksReset State.reset ∧ State.reset.pending = [] ∧ State.reset.device.clearing = true ∧
     (∀ a, Memory.read State.reset.store.bytes a = 0) ∧ State.reset.store.corrected = 0 ∧
     State.reset.store.damaged = [] ∧ State.reset.store.overflow = false ∧
     ∀ pg : Page, State.reset.store.pages[pg] = ⟨.OPEN, 0, 0⟩) ∧
  (Memory.wf State.reset.store.bytes = true ∧ HoldsOk State.reset.holds ∧ Scanned State.reset.holds ∧
     Acyclic State.reset.holds ∧ DamagedOk State.reset.store ∧ NoticesOk State.reset.notice ∧ CopyOk State.reset.copy ∧
     ∀ p : Port, StagingOk State.reset.ports[p])

/-- RESET_N_FALL with no request completed: every block at its reset values, the list empty and the counts zero, policy
OPEN and owner P0; the bytes, the check codes and the versions are kept, and so are the straps until the release.
RESET_N_FALL that completes the request in service leaves the bytes and the versions that its service would have left,
and otherwise what a device reset leaves (R19). Which of the two happens is an operand (log 15). RESET_N_RELEASE samples
the straps; the AS value of P3 reads 0. -/
def Obligations.DeviceResetKeepsBytesAndVersions : Prop :=
  (∀ s : State, s.device.resetLow = false → ∃ t, exec (.resetNFall false []) s = .next t ∧ BlocksReset t ∧
     t.pending = s.pending ∧ t.device = { s.device with resetLow := true } ∧
     t.store.bytes = s.store.bytes ∧ t.store.codesFresh = s.store.codesFresh ∧
     t.store.corrected = 0 ∧ t.store.damaged = [] ∧ t.store.overflow = false ∧
     ∀ pg : Page, t.store.pages[pg] = ⟨.OPEN, 0, s.store.pages[pg].version⟩) ∧
  (∀ (s : State) (reads : List ReadOutcome), s.running = true →
     let asServed (i : Instr) : Prop := ∃ t u, exec (.resetNFall true reads) s = .next t ∧ exec i s = .next u ∧
       t.store.bytes = u.store.bytes ∧ BlocksReset t ∧ t.device = { s.device with resetLow := true } ∧
       t.store.corrected = 0 ∧ t.store.damaged = [] ∧ t.store.overflow = false ∧
       ∀ pg : Page, t.store.pages[pg] = ⟨.OPEN, 0, u.store.pages[pg].version⟩
     (∀ p es, s.arbiter.inService = some (portRequester p) → s.ports[p].outstanding = some (.commit es) →
       asServed (.commit p reads)) ∧
     (∀ src dst q, s.arbiter.inService = some copyEngine → s.copy.transfer = .issued src dst q →
       asServed (.pageTransfer reads))) ∧
  (∀ (x : Straps) (s : State), s.device.resetLow = true → ∃ t, exec (.resetNRelease x) s = .next t ∧
     t.device.resetLow = false ∧ t.device.supervisor = x.supv ∧ t.device.asValue[(0 : Port)] = x.as0 ∧
     t.device.asValue[(1 : Port)] = x.as1 ∧ t.device.asValue[(2 : Port)] = x.as2 ∧ t.device.asValue[spi] = 0 ∧
     t.device.clearing = s.device.clearing ∧ t = s.setDevice t.device)

/-- ALERT_IN: a falling edge raises ALERT_IN, detail zero, at each of the four units; a pin held low raises nothing;
ALERT_IN_N_RISE only lets the next fall be an edge. -/
def Obligations.AlertEdgeReachesEveryUnit : Prop :=
  ∀ s : State,
    (s.running = true → s.device.alertLow = false → ∃ t, exec .alertIn s = .next t ∧
      (∀ q : Port, t.attn[q] = s.attn[q].arrive 7 .zero) ∧
      t = { s with device := { s.device with alertLow := true }, attn := t.attn }) ∧
    (s.device.alertLow = true → exec .alertIn s = .next s) ∧
    exec .alertInNRise s = .next (s.setDevice { s.device with alertLow := false })

/-! ## Attention units (chapter 9) -/

/-- An event arrives at a source: the table of R141. The source's enable and level play no part and are kept. -/
def Obligations.EventArrivesByTheTable : Prop :=
  ∀ (d : Detail) (x : Source),
    (x.arrive d).detail = d ∧ (x.arrive d).enabled = x.enabled ∧ (x.arrive d).level = x.level ∧
    (x.state = .IDLE → (x.arrive d).state = .PENDING ∧ (x.arrive d).lost = x.lost) ∧
    (x.state = .ACTIVE → (x.arrive d).state = .ACTIVE_REPEND ∧ (x.arrive d).lost = x.lost) ∧
    ((x.state = .PENDING ∨ x.state = .ACTIVE_REPEND) → (x.arrive d).state = x.state ∧
      (x.arrive d).lost.toNat = min 255 (x.lost.toNat + 1))

/-- A source is eligible exactly when it is enabled, PENDING, and of a level greater than that of every source in ACTIVE
or ACTIVE_REPEND, whether those are enabled or not. ATTNn_N is low exactly when the output is enabled, no reset or clear
is in progress, and some source is eligible. -/
def Obligations.EligibleSourceAndOutput : Prop :=
  (∀ (u : AttnUnit) (i : SourceNo), u.eligible i = true ↔
     u.sources[i].enabled = true ∧ u.sources[i].state = .PENDING ∧
       ∀ j : SourceNo, (u.sources[j].state = .ACTIVE ∨ u.sources[j].state = .ACTIVE_REPEND) →
         u.sources[j].level < u.sources[i].level) ∧
  (∀ (s : State) (p : Port), attnLow s p = true ↔
     s.attn[p].outputEnable = true ∧ s.device.resetLow = false ∧ s.device.clearing = false ∧
       ∃ i, s.attn[p].eligible i = true)

/-- TAKE chooses, of the eligible sources, the one of the highest level and of the lowest number at that level; it goes
to ACTIVE with lost count 0, its detail kept, the line tells of it, and no source is eligible afterwards. With no
eligible source the line reads NONE with the summaries and nothing changes. TAKE as a command: a port that is obtaining
the ATTENTION line makes it and holds the line that answers. That a DONE handed to the unit may still be untaken then is
the model's choice (log 39). -/
def Obligations.TakeChoosesTheMostUrgent : Prop :=
  (∀ (u v : AttnUnit) (l : Line), u.take = (v, l) →
     (∀ i : SourceNo, u.eligible i = true →
       (∀ j, u.eligible j = true → u.sources[j].level < u.sources[i].level ∨
         (u.sources[j].level = u.sources[i].level ∧ i ≤ j)) →
       v = { u with sources := u.sources.set i { u.sources[i] with state := .ACTIVE, lost := 0 } } ∧
       (∀ j, v.eligible j = false) ∧
       l = Line.ofList ([0x01, byteN i.val, byteN u.sources[i].level.val, u.sources[i].lost,
         v.pendingSummary, v.activeSummary] ++ u.sources[i].detail.bytes)) ∧
     ((∀ i, u.eligible i = false) → v = u ∧ l = Line.ofList [0x00, 0, 0, 0, u.pendingSummary, u.activeSummary]) ∧
     ∀ i : SourceNo,
       (v.pendingSummary.getLsbD i.val = true ↔
         v.sources[i].state = .PENDING ∨ v.sources[i].state = .ACTIVE_REPEND) ∧
       (v.activeSummary.getLsbD i.val = true ↔
         v.sources[i].state = .ACTIVE ∨ v.sources[i].state = .ACTIVE_REPEND)) ∧
  (∀ (p : Port) (s : State), s.running = true → windowOf s.ports[p].pointer = 0 → lineOf s.ports[p].pointer = 2 →
     NeedsLineNow p s →
     exec (.attnTake p) s = .next ((s.modAttn p fun _ => s.attn[p].take.1).modPort p fun u =>
       { u with held := some ⟨0, 2, s.attn[p].take.2, false⟩, asking := false }))

/-- DONE acts on the active source of the highest level, of the lowest number at that level: ACTIVE goes to IDLE with detail
zero, ACTIVE_REPEND to PENDING with its detail and lost count; without an active source only the hand-over is used up. -/
def Obligations.DoneFinishesTheInnermost : Prop :=
  ∀ (p : Port) (s : State), s.running = true → s.attn[p].doneDue ≠ 0 →
    let u := s.attn[p]
    let active (i : SourceNo) : Prop := u.sources[i].state = .ACTIVE ∨ u.sources[i].state = .ACTIVE_REPEND
    (∀ i : SourceNo, active i →
      (∀ j, active j → u.sources[j].level < u.sources[i].level ∨
        (u.sources[j].level = u.sources[i].level ∧ i ≤ j)) →
      exec (.attnDone p) s = .next (s.modAttn p fun u =>
        { u with
          doneDue := u.doneDue - 1
          sources := u.sources.set i (if u.sources[i].state = .ACTIVE then
            { u.sources[i] with state := .IDLE, detail := .zero } else { u.sources[i] with state := .PENDING }) })) ∧
    ((∀ i, ¬ active i) → exec (.attnDone p) s = .next (s.modAttn p fun u => { u with doneDue := u.doneDue - 1 }))

/-- ATTN_CONFIG: its three tests, and its effect on every source of the set. -/
def Obligations.AttnConfigSetsTheSources : Prop :=
  ∀ (p : Port) (c : Claim) (rest : List Claim) (s : State), Waits p cATTN_CONFIG c rest s →
    ((c.arg 1 = 0 ∨ 2 < (c.arg 2).toNat ∨ (7 < (c.arg 3).toNat ∧ c.arg 3 ≠ 0xFF)) →
      exec (.attnConfig p) s = .next (answered c rest (.BAD_ARGUMENT, []) s)) ∧
    (c.arg 1 ≠ 0 → (c.arg 2).toNat ≤ 2 → ((c.arg 3).toNat ≤ 7 ∨ c.arg 3 = 0xFF) → ∃ v : AttnUnit,
      exec (.attnConfig p) s = .next (answered c rest (.OK,
        v.summary (fun x => x.enabled) :: allSources.map fun i => byteN v.sources[i].level.val)
          (s.modAttn p fun _ => v)) ∧
      v.outputEnable = s.attn[p].outputEnable ∧ v.doneDue = s.attn[p].doneDue ∧
      ∀ i : SourceNo, v.sources[i] = if (c.arg 1).getLsbD i.val = true then
        { s.attn[p].sources[i] with
          enabled := if c.arg 2 = 1 then true else if c.arg 2 = 2 then false else s.attn[p].sources[i].enabled
          level := if c.arg 3 = 0xFF then s.attn[p].sources[i].level else Fin.ofNat 8 (c.arg 3).toNat }
        else s.attn[p].sources[i])

/-! ## Notices (chapter 5) -/

/-- A page entry of a posting at a watching port's queue: merged into the record of its page, appended, or dropped. A
page entry reaches exactly the queues of the ports of its page's watch set other than the writer, and raises, for each
queue that appended or dropped, that port's event once, with the page as detail; no watch set changes. A posting is its
page entries one after another, each entry's events before the next one's; the entries of a commit are in ascending page
order. -/
def Obligations.PostingReachesTheWatchers : Prop :=
  (∀ (w : PageWrite) (q : NoticeQueue),
     ((∃ n ∈ q.records, n.page = w.page) → q.post w = ({ q with records := q.records.map fun n =>
       if n.page = w.page then
         { n with
           writer := if n.writer = .port w.writer then n.writer else .MULTIPLE
           firstOff := if w.firstOff < n.firstOff then w.firstOff else n.firstOff
           lastOff := if n.lastOff < w.lastOff then w.lastOff else n.lastOff
           version := w.version
           merges := if n.merges = 15 then 15 else n.merges + 1 }
       else n }, none)) ∧
     ((∀ n ∈ q.records, n.page ≠ w.page) → q.records.length < 16 →
       q.post w = ({ q with records := q.records ++ [⟨w.page, .port w.writer, w.firstOff, w.lastOff, w.version, 0⟩] },
         some sNOTICE_NEW)) ∧
     ((∀ n ∈ q.records, n.page ≠ w.page) → 16 ≤ q.records.length →
       q.post w = ({ q with lost := if q.lost = 255 then 255 else q.lost + 1, lastLost := w.page }, some sNOTICE_LOST))) ∧
  (∀ (w : PageWrite) (n m : NoticeUnit) (es : List Event), NoticeUnit.postPage (n, []) w = (m, es) →
     m.watch = n.watch ∧
     (∀ p : Port, PortSet.has n.watch[w.page] p = true → p ≠ w.writer →
       m.queues[p] = (n.queues[p].post w).1 ∧
       es.filter (fun e => decide (e.port = p)) = match (n.queues[p].post w).2 with
         | some i => [⟨p, i, .page w.page⟩]
         | none => []) ∧
     ∀ p : Port, (PortSet.has n.watch[w.page] p = false ∨ p = w.writer) →
       m.queues[p] = n.queues[p] ∧ ∀ e ∈ es, e.port ≠ p) ∧
  (∀ n : NoticeUnit, n.post [] = (n, [])) ∧
  (∀ (w : PageWrite) (ws : List PageWrite) (n m k : NoticeUnit) (es fs : List Event),
     NoticeUnit.postPage (n, []) w = (m, es) → m.post ws = (k, fs) → n.post (w :: ws) = (k, es ++ fs)) ∧
  (∀ (sup : Port) (h : HoldCtl) (q : Port) (es : List Entry) (reads : List ReadOutcome) (st : StoreCtl),
     ((st.serveCommit sup h q es reads).2.posting.map PageWrite.page).Pairwise (· < ·))

/-- POP: the oldest record leaves and the line tells of it; an empty queue answers EMPTY; either way the lost count and the
last-lost page are reported and set to 0. -/
def Obligations.PopAnswersTheNoticeLine : Prop :=
  ∀ (p : Port) (s : State), s.running = true → windowOf s.ports[p].pointer = 0 → lineOf s.ports[p].pointer = 4 →
    NeedsLineNow p s →
    let q := s.notice.queues[p]
    let popped (rs : List Notice) (l : List Byte) : State :=
      (s.setNotice { s.notice with queues := s.notice.queues.set p ⟨rs, 0, 0⟩ }).modPort p fun u =>
        { u with held := some ⟨0, 4, Line.ofList l, false⟩, asking := false }
    (∀ n rs, q.records = n :: rs → exec (.noticePop p) s = .next (popped rs
      ([0x01, byteN n.page.val, n.writer.code, n.firstOff, n.lastOff] ++ bytes2 n.version ++
        [n.merges.setWidth 8, q.lost, byteN q.lastLost.val, byteN rs.length]))) ∧
    (q.records = [] →
      exec (.noticePop p) s = .next (popped [] [0x00, 0, 0, 0, 0, 0, 0, 0, q.lost, byteN q.lastLost.val, 0]))

/-- WATCH: its three tests in order, and its effect on every page of the range. -/
def Obligations.WatchJoinsOrLeaves : Prop :=
  ∀ (p : Port) (c : Claim) (rest : List Claim) (s : State), Waits p cWATCH c rest s →
    let first := (c.arg 1).toNat
    let count := (c.arg 2).toNat
    let inside : Prop := 1 ≤ count ∧ first + count ≤ 128
    let readable : Prop := ∀ pg, inRange first count pg = true → s.store.pages[pg].readable p = true
    ((¬ inside ∨ 1 < (c.arg 3).toNat) → exec (.watch p) s = .next (answered c rest (.BAD_ARGUMENT, []) s)) ∧
    (inside → c.arg 3 = 1 → ¬ readable → exec (.watch p) s = .next (answered c rest (.POLICY, []) s)) ∧
    (inside → (c.arg 3 = 0 ∨ (c.arg 3 = 1 ∧ readable)) → ∃ n : NoticeUnit,
      exec (.watch p) s = .next (answered c rest (.OK, [c.arg 1, c.arg 2, c.arg 3,
        byteN ((allPages.filter fun pg => n.watch[pg] != s.notice.watch[pg]).length)]) (s.setNotice n)) ∧
      n.queues = s.notice.queues ∧
      ∀ (pg : Page) (q : Port), PortSet.has n.watch[pg] q =
        if inRange first count pg = true ∧ q = p then decide (c.arg 3 = 1) else PortSet.has s.notice.watch[pg] q)

/-! ## The store controller's services (chapters 1, 2, 6, 8) -/

/-- The rights of R22. A line fetch: policy, holds, damage, then the read with its three outcomes. -/
def Obligations.RightsAndLineFetchChecks : Prop :=
  (∀ (e : PageEntry) (sup q : Port),
     (e.readable q = true ↔ (e.policy = .PRIVATE → e.owner = q)) ∧
     (e.writable sup q = true ↔
       (e.policy = .OPEN ∨ (e.policy = .OWNER ∧ e.owner = q) ∨ (e.policy = .FIXED ∧ sup = q) ∨
         (e.policy = .PRIVATE ∧ e.owner = q)))) ∧
  (∀ (h : HoldCtl) (q : Port) (pg : Page) (ln : Fin 16) (o : ReadOutcome) (st : StoreCtl),
     let passes : Prop := st.pages[pg].readable q = true ∧ ¬ FullByOther h q pg ∧ lineNo pg ln ∉ st.damaged
     let fill : Line := Vector.replicate 16 0xFF
     (st.pages[pg].readable q = false → st.serveFetch h q pg ln o = (st, ⟨fill, .POLICY⟩)) ∧
     (st.pages[pg].readable q = true → FullByOther h q pg → st.serveFetch h q pg ln o = (st, ⟨fill, .HELD⟩)) ∧
     (st.pages[pg].readable q = true → ¬ FullByOther h q pg → lineNo pg ln ∈ st.damaged →
       st.serveFetch h q pg ln o = (st, ⟨fill, .DAMAGED⟩)) ∧
     (passes → o ≠ .uncorrectable → ∃ st' b, st.serveFetch h q pg ln o = (st', ⟨b, .none⟩) ∧ StoreKept st st' ∧
       RaisedBy (if o = .corrected then 1 else 0) st.corrected st'.corrected ∧
       ∀ i : Fin 16, b[i] = Memory.read st.bytes (pg.val * 256 + ln.val * 16 + i.val)) ∧
     (passes → o = .uncorrectable → ∃ st', st.serveFetch h q pg ln o = (st', ⟨fill, .DAMAGED⟩) ∧
       Entered (lineNo pg ln) st st' ∧ st'.bytes = st.bytes ∧ st'.codesFresh = st.codesFresh ∧ st'.pages = st.pages ∧
       st'.corrected = st.corrected))

/-- LINE_FETCH: the fetch in service is served; the line goes to the transaction that issued it, whose first fault it may
be, or to the record of a read that has ended, or is dropped. What waits behind it goes on (LineIsObtainedAndHandOverMade),
and the service of the port's request ends (ArbiterAndDueActs). -/
def Obligations.LineFetchReturns : Prop :=
  ∀ (p : Port) (o : ReadOutcome) (f : Fetch) (s : State) (st : StoreCtl) (r : FetchReply),
    s.running = true → s.arbiter.inService = some (portRequester p) → s.ports[p].outstanding = some (.fetch f) →
    s.store.serveFetch s.holds p f.page f.line o = (st, r) →
    let note : Option FaultNote := if r.outcome = .none then none
      else some ⟨r.outcome, byteN f.page.val, BitVec.ofNat 16 (f.page.val * 16 + f.line.val)⟩
    let first (x : Option FaultNote) : Option FaultNote := if x = none then note else x
    let onward (t : State) : State := ((t.makeHandOver p).obtain false p).endPortService
    (s.ports[p].endedRead = none → f.discard = false → exec (.lineFetch p o) s = .next (onward
      ((s.setStore st).modPort p fun u => { u with
        outstanding := none, held := some ⟨f.window, f.tag, r.bytes, false⟩, asking := false
        firstFault := first u.firstFault }))) ∧
    (s.ports[p].endedRead = none → f.discard = true → exec (.lineFetch p o) s = .next (onward
      ((s.setStore st).modPort p fun u => { u with outstanding := none }))) ∧
    (∀ x, s.ports[p].endedRead = some x → exec (.lineFetch p o) s = .next (onward
      (((s.setStore st).modPort p fun u => { u with outstanding := none, endedRead := none }).writeRecord p
        (match first x with
          | none => ⟨.STORE_READ, .OK, .none, 0, 0, 0, 0⟩
          | some n => ⟨.STORE_READ, .FAULTED, n.reason, n.page, n.line, 0, 0⟩))))

/-- COMMIT whose checks all pass: the staged bytes in staged order, every other byte kept, the repairs, one version increase
on each touched page, the posting, the record. -/
def Obligations.CommitIsApplied : Prop :=
  ∀ (p : Port) (reads : List ReadOutcome) (es : List Entry) (s : State),
    s.running = true → s.arbiter.inService = some (portRequester p) → s.ports[p].outstanding = some (.commit es) →
    Memory.wf s.store.bytes = true → es ≠ [] → PagesPass s p es (touchedPages es) → ReadsPass reads (partLines es (touchedPages es)) →
    ∃ (st : StoreCtl) (ws : List PageWrite) (low : Page),
      exec (.commit p reads) s = .next (afterCommit p st ws
        ⟨.STORE_WRITE, .OK, .none, 0, 0, byteN es.length, st.pages[low].version⟩ s) ∧
      ((∃ e ∈ es, e.page = low) ∧ ∀ e ∈ es, low ≤ e.page) ∧
      (∀ before e after, es = before ++ e :: after →
        (∀ x ∈ after, ¬ (x.page = e.page ∧ x.offset = e.offset)) →
        Memory.read st.bytes (storeAddr e.page e.offset) = e.value) ∧
      (∀ a, (∀ e ∈ es, storeAddr e.page e.offset ≠ a) → Memory.read st.bytes a = Memory.read s.store.bytes a) ∧
      (∀ pg : Page, st.pages[pg] = if ∃ e ∈ es, e.page = pg then
        { s.store.pages[pg] with version := s.store.pages[pg].version + 1 } else s.store.pages[pg]) ∧
      st.damaged = s.store.damaged.filter (fun l => !touchesLine es (linePage l) (lineInPage l)) ∧
      st.overflow = s.store.overflow ∧ st.codesFresh = s.store.codesFresh ∧
      RaisedBy ((reads.take (partLines es (touchedPages es))).count .corrected) s.store.corrected st.corrected ∧
      (ws.map PageWrite.page).Pairwise (· < ·) ∧ (∀ pg, pg ∈ ws.map PageWrite.page ↔ ∃ e ∈ es, e.page = pg) ∧
      ∀ w ∈ ws, w.writer = p ∧ w.version = st.pages[w.page].version ∧
        (∃ e ∈ es, e.page = w.page ∧ e.offset = w.firstOff) ∧ (∃ e ∈ es, e.page = w.page ∧ e.offset = w.lastOff) ∧
        ∀ e ∈ es, e.page = w.page → w.firstOff ≤ e.offset ∧ e.offset ≤ w.lastOff

/-- COMMIT refused at the first failing check, pages ascending and, on each, policy, holds and damage: nothing is written, no
version changes, nothing is posted, and the record names the reason, the page and, for damage, the line. -/
def Obligations.CommitIsRefused : Prop :=
  ∀ (p : Port) (reads : List ReadOutcome) (es : List Entry) (s : State) (before after : List Page) (pg : Page),
    s.running = true → s.arbiter.inService = some (portRequester p) → s.ports[p].outstanding = some (.commit es) →
    touchedPages es = before ++ pg :: after → PagesPass s p es before → ReadsPass reads (partLines es before) →
    let refused (st : StoreCtl) (r : Reason) (line : Half) : Prop :=
      exec (.commit p reads) s = .next (afterCommit p st []
        ⟨.STORE_WRITE, .REFUSED, r, byteN pg.val, line, byteN es.length, 0⟩ s)
    (s.store.pages[pg].writable s.device.supervisor p = false →
      ∃ st, refused st .POLICY 0x0FFF ∧ StoreKept s.store st ∧
        RaisedBy ((reads.take (partLines es before)).count .corrected) s.store.corrected st.corrected) ∧
    (s.store.pages[pg].writable s.device.supervisor p = true → HeldByOther s.holds p pg →
      ∃ st, refused st .HELD 0x0FFF ∧ StoreKept s.store st ∧
        RaisedBy ((reads.take (partLines es before)).count .corrected) s.store.corrected st.corrected) ∧
    (PagePasses s p pg → ∀ ln : Fin 16, partLine es pg ln = true →
      (∀ l < ln, partLine es pg l = true → lineNo pg l ∉ s.store.damaged) →
      let n := partLines es before + (allLines.filter fun l => decide (l < ln) && partLine es pg l).length
      ReadsPass reads n →
      (lineNo pg ln ∈ s.store.damaged → ∃ st, refused st .DAMAGED (BitVec.ofNat 16 (pg.val * 16 + ln.val)) ∧
        StoreKept s.store st ∧ RaisedBy ((reads.take n).count .corrected) s.store.corrected st.corrected) ∧
      (lineNo pg ln ∉ s.store.damaged → reads[n]? = some .uncorrectable →
        ∃ st, refused st .DAMAGED (BitVec.ofNat 16 (pg.val * 16 + ln.val)) ∧ Entered (lineNo pg ln) s.store st ∧
          st.bytes = s.store.bytes ∧ st.codesFresh = s.store.codesFresh ∧ st.pages = s.store.pages ∧
          RaisedBy ((reads.take n).count .corrected) s.store.corrected st.corrected))

/-- PAGE_TRANSFER: the five checks in their order, then the copy of all 256 bytes, the repairs of the destination page, its
version, the posting with the requester as writer. A transfer that fails writes nothing and posts nothing. -/
def Obligations.PageTransferIsServed : Prop :=
  ∀ (reads : List ReadOutcome) (src dst : Page) (q : Port) (s : State),
    s.running = true → s.arbiter.inService = some copyEngine → s.copy.transfer = .issued src dst q →
    let ends (st : StoreCtl) (ws : List PageWrite) (r : Reason) : Prop := exec (.pageTransfer reads) s = .next
      ((((s.setStore st).setNotice (s.notice.post ws).1).raiseAll (s.notice.post ws).2).setCopy
        { s.copy with transfer := .returned r }).endService
    let sourceRights : Prop := s.store.pages[src].readable q = true
    let destRights : Prop := s.store.pages[dst].writable s.device.supervisor q = true
    let listed : Prop := ∃ ln, lineNo src ln ∈ s.store.damaged
    (¬ sourceRights → ends s.store [] .POLICY) ∧
    (sourceRights → FullByOther s.holds q src → ends s.store [] .HELD) ∧
    (sourceRights → ¬ FullByOther s.holds q src → ¬ destRights → ends s.store [] .POLICY) ∧
    (sourceRights → ¬ FullByOther s.holds q src → destRights → HeldByOther s.holds q dst → ends s.store [] .HELD) ∧
    (sourceRights → ¬ FullByOther s.holds q src → destRights → ¬ HeldByOther s.holds q dst →
      (listed → ends s.store [] .DAMAGED) ∧
      (¬ listed → ∀ ln : Fin 16, reads[ln.val]? = some .uncorrectable → ReadsPass reads ln.val →
        ∃ st, ends st [] .DAMAGED ∧ Entered (lineNo src ln) s.store st ∧ st.bytes = s.store.bytes ∧
          st.codesFresh = s.store.codesFresh ∧ st.pages = s.store.pages ∧
          RaisedBy ((reads.take ln.val).count .corrected) s.store.corrected st.corrected) ∧
      (¬ listed → ReadsPass reads 16 → Memory.wf s.store.bytes = true → ∃ st, ends st [⟨dst, q, 0x00, 0xFF, st.pages[dst].version⟩] .none ∧
        (∀ off : Byte, Memory.read st.bytes (storeAddr dst off) = Memory.read s.store.bytes (storeAddr src off)) ∧
        (∀ a, (∀ off : Byte, storeAddr dst off ≠ a) → Memory.read st.bytes a = Memory.read s.store.bytes a) ∧
        (∀ pg : Page, st.pages[pg] = if pg = dst then
          { s.store.pages[pg] with version := s.store.pages[pg].version + 1 } else s.store.pages[pg]) ∧
        st.damaged = s.store.damaged.filter (fun l => linePage l != dst) ∧ st.overflow = s.store.overflow ∧
        st.codesFresh = s.store.codesFresh ∧
        RaisedBy ((reads.take 16).count .corrected) s.store.corrected st.corrected))

/-- While a port holds a GRANTED slot on a page, no COMMIT of another port and no PAGE_TRANSFER for another port changes any
byte of that page. -/
def Obligations.HeldPageKeepsItsBytes : Prop :=
  ∀ (s t : State) (r : SlotRef) (pg : Page), (s.holds.slot r).state = .GRANTED → (s.holds.slot r).covers pg = true →
    (∀ q reads, q ≠ r.1 → exec (.commit q reads) s = .next t → ∀ off : Byte,
      Memory.read t.store.bytes (storeAddr pg off) = Memory.read s.store.bytes (storeAddr pg off)) ∧
    (∀ src dst q reads, q ≠ r.1 → s.copy.transfer = .issued src dst q → exec (.pageTransfer reads) s = .next t →
      ∀ off : Byte, Memory.read t.store.bytes (storeAddr pg off) = Memory.read s.store.bytes (storeAddr pg off))

/-- A step but power-on reset and the end of the start-up clear leaves each page's version as it was or one higher, and a
page any byte of which it changed is one higher. Power-on reset sets every version to zero (R30). The end of the clear,
which leaves every byte zero, keeps the versions. -/
def Obligations.VersionsCountWrites : Prop :=
  (∀ (s t : State), step s = .next t → (∀ x, s.pending.head? ≠ some (.powerOnReset x)) →
    s.pending.head? ≠ some .startUpClearEnd → ∀ pg : Page,
      (t.store.pages[pg].version = s.store.pages[pg].version ∨
        t.store.pages[pg].version = s.store.pages[pg].version + 1) ∧
      ∀ off : Byte, Memory.read t.store.bytes (storeAddr pg off) ≠ Memory.read s.store.bytes (storeAddr pg off) →
        t.store.pages[pg].version = s.store.pages[pg].version + 1) ∧
  (∀ (s t : State) (x : Straps), step s = .next t → s.pending.head? = some (.powerOnReset x) →
    ∀ pg : Page, t.store.pages[pg].version = 0) ∧
  (∀ (s t : State), step s = .next t → s.pending.head? = some .startUpClearEnd →
    ∀ pg : Page, t.store.pages[pg].version = s.store.pages[pg].version)

/-! ## The store arbiter; claims and acts between two requests (chapters 1, 4, 6) -/

/-- The arbiter looks: with the controller free it chooses the first requester that has a request waiting, from the
pointer round the ring, hands its request over, and points to the requester after it; otherwise it changes nothing. A
requester that waits is chosen, or the pointer comes nearer to it, so at most four others are served before it (R69). A
claim of the store controller or of the hold controller, a tick, and the hold controller's part of a port reset are
taken at once while the controller is free, after which the arbiter looks; during a service they become due, and they
are taken when it ends, before the next request. That the claims of the store controller and the acts of the hold
controller that wait for one service are taken in one order, that of their commands, and that a claim becomes due once, is
the model's choice (log 10). The end of the service of a port's request first takes an outcome that the copy engine has
not taken (R128); when is the model's choice (log 38). -/
def Obligations.ArbiterAndDueActs : Prop :=
  (∀ s : State, s.running = true →
     let waiting (r : Requester) : Prop := (∃ p, r = portRequester p ∧ s.ports[p].outstanding ≠ none) ∨
       (r = copyEngine ∧ ∃ src dst q, s.copy.transfer = .issued src dst q)
     (s.arbiter.inService ≠ none → s.arbitrate = s) ∧
     (s.arbiter.inService = none → (∀ r, ¬ waiting r) → s.arbitrate = s) ∧
     (s.arbiter.inService = none → ∀ d : Fin 5, waiting (s.arbiter.pointer + d) →
       (∀ e < d, ¬ waiting (s.arbiter.pointer + e)) →
       s.arbitrate = s.setArbiter ⟨s.arbiter.pointer + d + 1, some (s.arbiter.pointer + d), s.arbiter.due⟩) ∧
     (s.arbiter.inService = none → ∀ r, waiting r → s.arbitrate.arbiter.inService = some r ∨
       (r - s.arbitrate.arbiter.pointer).val < (r - s.arbiter.pointer).val)) ∧
  ((∀ (s : State) (i : Instr) (a : DueAct), s.running = true → (match i with
       | .hold p => a = .claim p cHOLD
       | .renew p => a = .claim p cRENEW
       | .release p => a = .claim p cRELEASE
       | .pageInfo p => a = .claim p cPAGE_INFO
       | .policy p => a = .claim p cPOLICY
       | .damageQuery p => a = .claim p cDAMAGE_QUERY
       | .damageClear p => a = .claim p cDAMAGE_CLEAR
       | .tick => a = .tick
       | .holdResetPart p => a = .holdReset p
       | _ => False) →
     (s.arbiter.inService = none → exec i s = .next (s.runDue a).arbitrate) ∧
     (s.arbiter.inService ≠ none → s.mayBecomeDue a = true →
       exec i s = .next (s.setArbiter { s.arbiter with due := s.arbiter.due ++ [a] })) ∧
     (s.arbiter.inService ≠ none → s.mayBecomeDue a = false → exec i s = .next s)) ∧
   (∀ s : State, s.mayBecomeDue .tick = true ∧ ∀ p : Port,
     (∀ code, s.mayBecomeDue (.claim p code) = true ↔
       s.arbiter.due.count (.claim p code) < s.claims.countP (isOwned p code)) ∧
     (s.mayBecomeDue (.holdReset p) = true ↔
       (∃ r, s.cmds[p].resetRun = some r ∧ r.stage = .hold) ∧ DueAct.holdReset p ∉ s.arbiter.due)) ∧
   (∀ s : State, s.endService = (s.arbiter.due.foldl (fun t a => t.runDue a)
     (s.setArbiter { s.arbiter with inService := none, due := [] })).arbitrate) ∧
   (∀ s t : State, s.running = true → s.arbiter.inService ≠ none → exec .copyTransferOutcome s = .next t →
     s.endPortService = t.endService) ∧
   (∀ (p : Port) (s t : State), s.running = true → s.arbiter.inService = some (portRequester p) →
     (((∃ f, s.ports[p].outstanding = some (.fetch f)) ∧ ∃ o, exec (.lineFetch p o) s = .next t) ∨
       ((∃ es, s.ports[p].outstanding = some (.commit es)) ∧ ∃ reads, exec (.commit p reads) s = .next t)) →
     ∀ r, t.copy.transfer ≠ .returned r) ∧
   ∀ (s : State) (a : DueAct), (s.runDue a).arbiter = s.arbiter ∧ (s.runDue a).ports = s.ports ∧
     (s.runDue a).store.bytes = s.store.bytes)

/-! ## Holds (chapters 6 and 7) -/

/-- HOLD refused: the five tests of R95 in order. A refused HOLD changes nothing in the hold table. -/
def Obligations.HoldIsRefused : Prop :=
  ∀ (p : Port) (c : Claim) (rest : List Claim) (s : State), Takes p cHOLD c rest s →
    let a := c.holdArgs
    let refused (st : Status) (l : List Byte) : Prop :=
      exec (.hold p) s = .next (answered c rest (st, l) s).arbitrate
    let covers (k : SlotNo) : Prop := (s.holds.slot (p, k)).state = .GRANTED ∧
      (s.holds.slot (p, k)).meets a.first a.count = true
    ((a.count = 0 ∨ 8 < a.count ∨ 127 < a.first ∨ 128 < a.first + a.count ∨ a.mode = none ∨ a.wait = none) →
      refused .BAD_ARGUMENT []) ∧
    ∀ m w, HoldArgsOk a m w →
      (¬ HoldRights s p a.first a.count → refused .POLICY []) ∧
      (HoldRights s p a.first a.count →
        (∀ k, covers k → (∀ j < k, ¬ covers j) → refused .OVERLAP [byteN k.val]) ∧
        (¬ GrantedOn s.holds p a.first a.count →
          ((∃ k, (s.holds.slot (p, k)).state = .WAITING) → refused .ALREADY_WAITING []) ∧
          ((∀ k, (s.holds.slot (p, k)).state = .GRANTED) → refused .NO_SLOT [])))

/-- HOLD that passes its tests: granted at once in the lowest FREE slot when nothing blocks it; else, without the wait flag,
BUSY and nothing changes. -/
def Obligations.HoldIsGrantedOrBusy : Prop :=
  ∀ (p : Port) (c : Claim) (rest : List Claim) (s : State) (m : HoldMode) (w : Bool) (k : SlotNo),
    Takes p cHOLD c rest s → HoldPasses s p c.holdArgs m w k →
    let a := c.holdArgs
    (¬ Blocked s.holds s.holds.queue p a.first a.count → exec (.hold p) s = .next (answered c rest
      (.OK, [byteN k.val, c.arg 1, c.arg 2, m.code, c.arg 4, c.arg 5])
      (s.setHolds (s.holds.setSlot (p, k)
        ⟨.GRANTED, pageOf a.first, a.count, m, a.lease, a.lease, 0, 0⟩))).arbitrate) ∧
    (Blocked s.holds s.holds.queue p a.first a.count → w = false →
      exec (.hold p) s = .next (answered c rest (.BUSY, []) s).arbitrate)

/-- The waits-on relation: a port with no WAITING request waits on nobody; else its request waits on the other ports
that hold a GRANTED slot overlapping its range or have an older overlapping request. HOLD that passes its tests, is
blocked and has the wait flag: CYCLE exactly when the port is reached along waits-on edges from a port the request would
wait on; else it waits as the newest of the queue, and its answer gives its position and the ports it waits on. -/
def Obligations.HoldWaitsUnlessItClosesACycle : Prop :=
  (∀ (h : HoldCtl) (p : Port),
     ((∀ r ∈ h.queue, r.1 ≠ p) → h.waitsOn p = []) ∧
     ∀ before k after, h.queue = before ++ (p, k) :: after → (∀ r ∈ before, r.1 ≠ p) → ∀ q, q ∈ h.waitsOn p ↔
       WouldWaitOn h before p (h.slot (p, k)).first.val (h.slot (p, k)).count q) ∧
  (∀ (p : Port) (c : Claim) (rest : List Claim) (s : State) (m : HoldMode) (k : SlotNo),
     Takes p cHOLD c rest s → HoldPasses s p c.holdArgs m true k →
     let a := c.holdArgs
     let waitsOn (q : Port) : Prop := WouldWaitOn s.holds s.holds.queue p a.first a.count q
     Blocked s.holds s.holds.queue p a.first a.count →
     ((∃ q, waitsOn q ∧ Reaches s.holds q p) →
       exec (.hold p) s = .next (answered c rest (.CYCLE, []) s).arbitrate) ∧
     ((∀ q, waitsOn q → ¬ Reaches s.holds q p) → ∀ ps : PortSet, (∀ q, PortSet.has ps q = true ↔ waitsOn q) →
       exec (.hold p) s = .next (answered c rest
         (.WAITING, [byteN k.val, c.arg 1, c.arg 2, m.code, c.arg 4, c.arg 5, c.arg 7, c.arg 8,
           byteN (s.holds.queue.length + 1), setByte ps])
         (s.setHolds { s.holds.setSlot (p, k) ⟨.WAITING, pageOf a.first, a.count, m, a.lease, 0, a.limit, a.limit⟩ with
           queue := s.holds.queue ++ [(p, k)] })).arbitrate))

/-- RENEW: its tests, and the new lease; nothing else of the slot changes and there is no scan. -/
def Obligations.RenewSetsTheLease : Prop :=
  ∀ (p : Port) (c : Claim) (rest : List Claim) (s : State), Takes p cRENEW c rest s →
    let lease := half (c.arg 2) (c.arg 3)
    (3 < (c.arg 1).toNat → exec (.renew p) s = .next (answered c rest (.BAD_ARGUMENT, []) s).arbitrate) ∧
    ∀ k : SlotNo, (c.arg 1).toNat = k.val →
      ((s.holds.slot (p, k)).state ≠ .GRANTED →
        exec (.renew p) s = .next (answered c rest (.NO_HOLD, []) s).arbitrate) ∧
      ((s.holds.slot (p, k)).state = .GRANTED → exec (.renew p) s = .next (answered c rest
        (.OK, [c.arg 1, c.arg 2, c.arg 3, c.arg 2, c.arg 3])
        (s.setHolds (s.holds.setSlot (p, k)
          { s.holds.slot (p, k) with lease := lease, leaseLeft := lease }))).arbitrate)

/-- RELEASE: its tests; a GRANTED or WAITING slot becomes FREE and leaves the queue, then the queue is scanned and the
HOLD_GRANTED events raised before the answer is recorded. -/
def Obligations.ReleaseFreesTheSlot : Prop :=
  ∀ (p : Port) (c : Claim) (rest : List Claim) (s : State), Takes p cRELEASE c rest s →
    (3 < (c.arg 1).toNat → exec (.release p) s = .next (answered c rest (.BAD_ARGUMENT, []) s).arbitrate) ∧
    ∀ k : SlotNo, (c.arg 1).toNat = k.val →
      ((s.holds.slot (p, k)).state = .FREE →
        exec (.release p) s = .next (answered c rest (.NO_HOLD, []) s).arbitrate) ∧
      ((s.holds.slot (p, k)).state ≠ .FREE →
        let freed : HoldCtl := { s.holds.setSlot (p, k) ⟨.FREE, 0, 0, .WRITE, 0, 0, 0, 0⟩ with
          queue := s.holds.queue.filter fun r => r != (p, k) }
        exec (.release p) s = .next (answered c rest
          (.OK, [c.arg 1, if (s.holds.slot (p, k)).state = .GRANTED then 2 else 1])
          ((s.setHolds freed.scan.1).raiseAll freed.scan.2)).arbitrate)

/-- TICK: each lease and wait that runs goes down by one; those that come to their end end in ascending order of port and
slot, each with HOLD_ENDED and its cause; then, if one ended, one scan. LEASE_EXPIRY and WAIT_EXPIRY are the tick that
brings about this end (log 9). -/
def Obligations.TickCountsAndExpires : Prop :=
  ∀ s : State, s.running = true → s.arbiter.inService = none → ∃ (h : HoldCtl) (ended : List SlotRef),
    (∀ r, h.slot r = match (s.holds.slot r).state with
      | .FREE => s.holds.slot r
      | .GRANTED => if (s.holds.slot r).lease = 0 then s.holds.slot r
          else { s.holds.slot r with leaseLeft := (s.holds.slot r).leaseLeft - 1 }
      | .WAITING => if (s.holds.slot r).waitLimit = 0 then s.holds.slot r
          else { s.holds.slot r with waitLeft := (s.holds.slot r).waitLeft - 1 }) ∧
    h.queue = s.holds.queue ∧
    ended.Pairwise (fun r r' => r.1 < r'.1 ∨ (r.1 = r'.1 ∧ r.2 < r'.2)) ∧
    (∀ r, r ∈ ended ↔ ((h.slot r).state = .GRANTED ∧ (h.slot r).lease ≠ 0 ∧ (h.slot r).leaseLeft = 0) ∨
      ((h.slot r).state = .WAITING ∧ (h.slot r).waitLimit ≠ 0 ∧ (h.slot r).waitLeft = 0)) ∧
    (ended = [] → exec .tick s = .next (s.setHolds h).arbitrate) ∧
    (ended ≠ [] → ∃ freed : HoldCtl,
      (∀ r, freed.slot r = if r ∈ ended then ⟨.FREE, 0, 0, .WRITE, 0, 0, 0, 0⟩ else h.slot r) ∧
      freed.queue = h.queue.filter (fun r => decide (r ∉ ended)) ∧
      exec .tick s = .next ((s.setHolds freed.scan.1).raiseAll ((ended.map fun r =>
        ⟨r.1, 3, .holdEnded (some r.2) (if (h.slot r).state = .GRANTED then .LEASE else .WAIT_TIMEOUT)⟩) ++
          freed.scan.2)).arbitrate) ∧
    ∀ p k, (((p, k) ∈ ended ∧ (h.slot (p, k)).state = .GRANTED) → exec (.leaseExpiry p k) s = exec .tick s) ∧
      (((p, k) ∈ ended ∧ (h.slot (p, k)).state = .WAITING) → exec (.waitExpiry p k) s = exec .tick s)

/-- The scan of a hold table in order: it grants a request exactly when, at its turn, no other port's GRANTED slot and no
older request still WAITING overlaps its range; a grant starts the lease, ends the wait, and raises HOLD_GRANTED; the
others wait on in their order, and none of them could be granted when the scan ends. That a slot granted from the queue
keeps its wait limit is the model's choice (log 30). -/
def Obligations.ScanGrantsWhatIsNotBlocked : Prop :=
  ∀ (h : HoldCtl), HoldsOk h → ∃ granted : List SlotRef,
    granted.Sublist h.queue ∧
    h.scan.2 = granted.map (fun r => ⟨r.1, 2, .slot r.2⟩) ∧
    h.scan.1.queue = h.queue.filter (fun r => decide (r ∉ granted)) ∧
    (∀ r, h.scan.1.slot r = if r ∈ granted then
      { h.slot r with state := .GRANTED, leaseLeft := (h.slot r).lease, waitLeft := 0 } else h.slot r) ∧
    (∀ before r after, h.queue = before ++ r :: after → r ∈ granted →
      ∀ o ∈ before, o ∉ granted → (h.slot o).meets (h.slot r).first.val (h.slot r).count = false) ∧
    HoldsOk h.scan.1 ∧ Scanned h.scan.1

/-! ## Answers (chapter 10) -/

/-- An answer is recorded: the result line is written whole, its sequence one higher, and the flag cleared, unless a
reset of the port is in progress; the answer to a claim whose port has passed step 5 of a reset is discarded. That a
recording between steps 5 and 6 finds the flag clear is the model's choice (log 21). The TRANSACTION STATUS line is
written whole, and ACCESS_FAULT with the reason is raised with it exactly for the outcomes VOIDED, REFUSED and FAULTED.
-/
def Obligations.AnswersAndRecordsAreWritten : Prop :=
  (∀ (c : Claim) (st : Status) (l : List Byte) (s : State),
     (c.orphan = true → s.answer c (st, l) = s) ∧
     (c.orphan = false → s.answer c (st, l) = s.modCmd c.issuer fun u => { u with
       result := ⟨c.arg 0, st, u.result.sequence + 1, detailOf l⟩
       inFlight := u.inFlight && (match u.resetRun with
         | some r => r.stage != .portUnit
         | none => false) })) ∧
  (∀ (p : Port) (r : TxStatus) (s : State),
     let written := s.modCmd p fun u => { u with txStatus := r }
     ((r.outcome = .OK ∨ r.outcome = .PENDING) → s.writeRecord p r = written) ∧
     ((r.outcome = .VOIDED ∨ r.outcome = .REFUSED ∨ r.outcome = .FAULTED) →
       s.writeRecord p r = written.modAttn p fun a => a.arrive 5 (.fault r.reason)))

/-- The RESULT line (in-flight read live), the TRANSACTION STATUS line and the IDENTITY line, byte by byte. -/
def Obligations.LinesOfTheCommandUnit : Prop :=
  ∀ (s : State) (p : Port),
    let u := s.cmds[p]
    controlLine s p 0 = u.line ∧
    controlLine s p 1 = Line.ofList ([u.result.code, u.result.status.code, u.result.sequence,
      if u.inFlight then 1 else 0] ++ u.result.detail.toList) ∧
    controlLine s p 3 = Line.zero ∧
    controlLine s p 6 = Line.ofList [u.txStatus.kind.code, u.txStatus.outcome.code, u.txStatus.reason.code,
      u.txStatus.page, u.txStatus.line.setWidth 8, (u.txStatus.line >>> 8).setWidth 8, u.txStatus.count,
      u.txStatus.version.setWidth 8, (u.txStatus.version >>> 8).setWidth 8] ∧
    controlLine s p 7 = Line.ofList [0x54, 0x41, 0x01, byteN p.val, byteN s.device.supervisor.val,
      s.device.asValue[p].setWidth 8] ∧
    ∀ ln : Fin 16, 8 ≤ ln.val → controlLine s p ln = Line.zero

/-- The PORT STATE line: its 128 bits are, from the highest down, the last copy's pages done and status, the copy state, the
output enable, the increment mode, the active and the pending summary, the lost count and the depth of the notice queue,
the lease codes of slots 3 to 0, and the records of slots 3 to 0. Its five parts, slots, notices, copy, attention and
configuration, come from five blocks, so two parts may straddle an event (R156). While the line is being gathered, each part
of the held line may be taken as a whole, as it stands then, at every step on an empty queue and once more when the gathering
ends; else it stays as it was taken before, first when the line was obtained. Which parts are taken is a free value, and the
statement holds for every value of it. Nothing else changes but the flag and the number of the next free value. That the
gathering ends with the port's next bus event (BusEventsFollowWhatIsDue) is the model's choice (log 32). -/
def Obligations.PortStateLine : Prop :=
  (∀ (s : State) (p : Port), s.notice.queues[p].records.length ≤ 16 → (∀ a ∈ s.copy.queue, a.pagesDone ≤ 16) →
    s.copy.last[p].pagesDone ≤ 16 →
    let slot (k : SlotNo) : BitVec 13 :=
      let x := s.holds.slot (p, k)
      BitVec.ofNat 7 x.first.val ++ BitVec.ofNat 3 (x.count - 1) ++ BitVec.ofBool (x.mode == .FULL) ++
        (match x.state with | .FREE => 0#2 | .WAITING => 1#2 | .GRANTED => 2#2)
    let lease (k : SlotNo) : BitVec 8 :=
      let n := (s.holds.slot (p, k)).leaseLeft.toNat
      if (s.holds.slot (p, k)).state ≠ .GRANTED then 0 else if n < 128 then BitVec.ofNat 8 n
      else BitVec.ofNat 8 (127 + (n + 511) / 512)
    let copy : BitVec 5 :=
      match s.copy.queue with
      | [] => 0
      | a :: rest => if a.requester = p then BitVec.ofNat 5 (2 + a.pagesDone)
          else if ∃ x ∈ rest, x.requester = p then 1 else 0
    let last : BitVec 3 :=
      match s.copy.last[p].status, s.copy.last[p].reason with
      | .NONE, _ => 0
      | .OK, _ => 1
      | .CANCELLED, _ => 2
      | .FAULT, .HELD => 4
      | .FAULT, .DAMAGED => 5
      | .FAULT, _ => 3
    let bits : BitVec 128 :=
      BitVec.ofNat 5 s.copy.last[p].pagesDone ++ last ++ copy ++ BitVec.ofBool s.attn[p].outputEnable ++
        BitVec.ofBool (s.translators[p].mode == .WINDOW_WRAP) ++ s.attn[p].activeSummary ++ s.attn[p].pendingSummary ++
        s.notice.queues[p].lost ++ BitVec.ofNat 5 s.notice.queues[p].records.length ++
        lease 3 ++ lease 2 ++ lease 1 ++ lease 0 ++ slot 3 ++ slot 2 ++ slot 1 ++ slot 0
    ∀ i : Fin 16, (controlLine s p 5)[i] = (bits >>> (8 * i.val)).setWidth 8) ∧
  (∀ (s : State) (p : Port),
    (s.ports[p].gathering = false → s.takeParts p = s ∧ s.gather p = s) ∧
    (s.ports[p].gathering = true → s.gather p = (s.takeParts p).modPort p fun u => { u with gathering := false }) ∧
    ∀ h, s.ports[p].gathering = true → s.ports[p].held = some h → ∃ bytes : Line,
      s.takeParts p = (s.modPort p fun u => { u with held := some { h with bytes := bytes } }).setFree (s.freeIndex + 1) ∧
      ∀ (i : Fin 16) (j : Fin 8),
        let n := 8 * i.val + j.val
        let part : Nat := if n < 84 then 0 else if n < 97 then 1 else if 115 ≤ n then 2 else if n = 113 then 4 else 3
        bytes[i].getLsbD j.val = if (Config.lateParts s.freeIndex).getLsbD part = true
          then (controlLine s p 5)[i].getLsbD j.val else h.bytes[i].getLsbD j.val)

/-! ## The store's commands (chapters 1 and 2) -/

/-- PAGE_INFO: a page above 127 is refused; else the page's entry, its watch set and its holder, or none. It changes
nothing. DAMAGE_QUERY: an index above 7 is refused; else the entry or 0FFFh, the count, the flag and the corrected
count. It changes nothing. -/
def Obligations.PageInfoAndDamageQueryReport : Prop :=
  (∀ (p : Port) (c : Claim) (rest : List Claim) (s : State), Takes p cPAGE_INFO c rest s →
     (127 < (c.arg 1).toNat → exec (.pageInfo p) s = .next (answered c rest (.BAD_ARGUMENT, []) s).arbitrate) ∧
     ∀ pg : Page, (c.arg 1).toNat = pg.val →
       let e := s.store.pages[pg]
       let told (l : List Byte) : Prop := exec (.pageInfo p) s = .next (answered c rest (.OK,
         [c.arg 1, e.policy.code, byteN e.owner.val, s.notice.watch[pg].setWidth 8, e.version.setWidth 8,
           (e.version >>> 8).setWidth 8] ++ l) s).arbitrate
       (∀ r : SlotRef, (s.holds.slot r).state = .GRANTED → (s.holds.slot r).covers pg = true →
         (∀ r', (s.holds.slot r').state = .GRANTED → (s.holds.slot r').covers pg = true → r' = r) →
         told [byteN r.1.val, byteN r.2.val, (s.holds.slot r).mode.code]) ∧
       ((∀ r, (s.holds.slot r).state = .GRANTED → (s.holds.slot r).covers pg = false) → told [0xFF, 0xFF, 0xFF])) ∧
  (∀ (p : Port) (c : Claim) (rest : List Claim) (s : State), Takes p cDAMAGE_QUERY c rest s →
     (7 < (c.arg 1).toNat → exec (.damageQuery p) s = .next (answered c rest (.BAD_ARGUMENT, []) s).arbitrate) ∧
     ((c.arg 1).toNat ≤ 7 → ∀ entry : Half,
       (∀ l, s.store.damaged[(c.arg 1).toNat]? = some l → entry = BitVec.ofNat 16 l.val) →
       (s.store.damaged.length ≤ (c.arg 1).toNat → entry = 0x0FFF) →
       exec (.damageQuery p) s = .next (answered c rest (.OK, [entry.setWidth 8, (entry >>> 8).setWidth 8,
         byteN s.store.damaged.length, if s.store.overflow = true then 1 else 0, s.store.corrected.setWidth 8,
         (s.store.corrected >>> 8).setWidth 8]) s).arbitrate))

/-- POLICY: its three tests in order; then every page of the range takes the policy and the owner, no version changes, and
for PRIVATE every port but the owner leaves the watch sets of the range. -/
def Obligations.PolicyIsSet : Prop :=
  ∀ (p : Port) (c : Claim) (rest : List Claim) (s : State), Takes p cPOLICY c rest s →
    let first := (c.arg 1).toNat
    let count := (c.arg 2).toNat
    let inside : Prop := 1 ≤ count ∧ first + count ≤ 128
    (p ≠ s.device.supervisor → exec (.policy p) s = .next (answered c rest (.NOT_SUPERVISOR, []) s).arbitrate) ∧
    (p = s.device.supervisor → (¬ inside ∨ 3 < (c.arg 3).toNat ∨ 3 < (c.arg 4).toNat) →
      exec (.policy p) s = .next (answered c rest (.BAD_ARGUMENT, []) s).arbitrate) ∧
    ∀ (pol : Policy) (owner : Port), p = s.device.supervisor → inside → c.arg 3 = pol.code →
      (c.arg 4).toNat = owner.val → ∃ (pages : Vector PageEntry 128) (n : NoticeUnit),
      let removed : Half := BitVec.ofNat 16 ((allPages.map fun pg =>
        (allPorts.filter fun q => PortSet.has s.notice.watch[pg] q && !PortSet.has n.watch[pg] q).length).sum)
      exec (.policy p) s = .next (answered c rest
        (.OK, [c.arg 1, c.arg 2, removed.setWidth 8, (removed >>> 8).setWidth 8])
        ((s.setStore { s.store with pages := pages }).setNotice n)).arbitrate ∧
      (∀ pg : Page, pages[pg] = if inRange first count pg = true then
        { s.store.pages[pg] with policy := pol, owner := owner } else s.store.pages[pg]) ∧
      n.queues = s.notice.queues ∧
      ∀ (pg : Page) (q : Port), PortSet.has n.watch[pg] q =
        (PortSet.has s.notice.watch[pg] q && !decide (pol = .PRIVATE ∧ inRange first count pg = true ∧ q ≠ owner))

/-- DAMAGE_CLEAR: its tests in order; 0FFFh clears the overflow flag; a listed line leaves the list, the others keeping their
order; the store's bytes stay. -/
def Obligations.DamageClearRemoves : Prop :=
  ∀ (p : Port) (c : Claim) (rest : List Claim) (s : State), Takes p cDAMAGE_CLEAR c rest s →
    let line := half (c.arg 1) (c.arg 2)
    let done (st : StoreCtl) (r : Status) : Prop := exec (.damageClear p) s = .next (answered c rest
      (r, [byteN st.damaged.length, if st.overflow = true then 1 else 0]) (s.setStore st)).arbitrate
    (p ≠ s.device.supervisor →
      exec (.damageClear p) s = .next (answered c rest (.NOT_SUPERVISOR, []) s).arbitrate) ∧
    (p = s.device.supervisor →
      (2047 < line.toNat → line ≠ 0x0FFF →
        exec (.damageClear p) s = .next (answered c rest (.BAD_ARGUMENT, []) s).arbitrate) ∧
      (line = 0x0FFF → done { s.store with overflow := false } .OK) ∧
      ∀ l : LineNo, line.toNat = l.val →
        (l ∈ s.store.damaged → done { s.store with damaged := s.store.damaged.filter fun x => x != l } .OK) ∧
        (l ∉ s.store.damaged → done s.store .NOT_FOUND))

/-! ## The copy engine (chapter 8) -/

/-- COPY: its three tests in order; then the request joins the queue, and in an empty queue it is active at once and its
first transfer issued. COPY_CANCEL: the active copy is marked, a queued one withdrawn with its record and COPY_DONE, and
with neither it is refused. -/
def Obligations.CopyJoinsOrIsCancelled : Prop :=
  (∀ (p : Port) (c : Claim) (rest : List Claim) (s : State), Waits p cCOPY c rest s →
     let src := (c.arg 1).toNat
     let dst := (c.arg 2).toNat
     let count := (c.arg 3).toNat
     let ranges : Prop := 1 ≤ count ∧ count ≤ 16 ∧ src + count ≤ 128 ∧ dst + count ≤ 128
     let apart : Prop := ∀ pg : Page, ¬ (inRange src count pg = true ∧ inRange dst count pg = true)
     let free : Prop := ∀ a ∈ s.copy.queue, a.requester ≠ p
     let request : CopyReq := ⟨p, pageOf src, pageOf dst, count, 0, false, false⟩
     let ends (a : Answer) (e : CopyEngine) : Prop :=
       exec (.copy p) s = .next (answered c rest a (s.setCopy e)).arbitrate
     (¬ ranges → ends (.BAD_ARGUMENT, []) s.copy) ∧
     (ranges → ¬ apart → ends (.OVERLAP, []) s.copy) ∧
     (ranges → apart → ¬ free → ends (.BUSY, []) s.copy) ∧
     (ranges → apart → free → s.copy.queue ≠ [] →
       ends (.OK, [c.arg 1, c.arg 2, c.arg 3, 1, byteN (s.copy.queue.length + 1)])
         { s.copy with queue := s.copy.queue ++ [request] }) ∧
     (ranges → apart → s.copy.queue = [] → ends (.OK, [c.arg 1, c.arg 2, c.arg 3, 2, 1])
       { s.copy with queue := [request], transfer := .issued (pageOf src) (pageOf dst) p })) ∧
  (∀ (p : Port) (c : Claim) (rest : List Claim) (s : State), Waits p cCOPY_CANCEL c rest s →
     let ends (a : Answer) (e : CopyEngine) (es : List Event) : Prop :=
       exec (.copyCancel p) s = .next (answered c rest a ((s.setCopy e).raiseAll es))
     ((∀ a ∈ s.copy.queue, a.requester ≠ p) → ends (.NOT_FOUND, []) s.copy []) ∧
     ∀ a q, s.copy.queue = a :: q →
       (a.requester = p → ends (.OK, [2, byteN a.pagesDone])
         { s.copy with queue := { a with cancel := if a.silent = true then a.cancel else true } :: q } []) ∧
       (a.requester ≠ p → (∃ x ∈ q, x.requester = p) → ends (.OK, [1, 0])
         { s.copy with queue := a :: q.filter (fun x => x.requester != p), last := s.copy.last.set p ⟨.CANCELLED, .none, 0⟩ }
         [⟨p, 4, .copyDone .CANCELLED .none 0⟩]))

/-- COPY_TRANSFER_OUTCOME: the table of R132, the ending of a copy (R133), and the transfer issued next. -/
def Obligations.CopyGoesOnOrEnds : Prop :=
  ∀ (s : State) (r : Reason) (a : CopyReq) (rest : List CopyReq), s.running = true →
    s.copy.transfer = .returned r → s.copy.queue = a :: rest →
    let next (l : Vector LastCopy 4) (q : List CopyReq) : CopyEngine := ⟨q, l, match q with
      | [] => .none
      | b :: _ => .issued (pageOf (b.src.val + b.pagesDone)) (pageOf (b.dst.val + b.pagesDone)) b.requester⟩
    let ends (st : CopyStatus) (r : Reason) (n : Nat) : Prop := exec .copyTransferOutcome s = .next
      ((s.setCopy (next (s.copy.last.set a.requester ⟨st, r, n⟩) rest)).raise
        ⟨a.requester, 4, .copyDone st r n⟩).arbitrate
    (a.silent = true → exec .copyTransferOutcome s = .next (s.setCopy (next s.copy.last rest)).arbitrate) ∧
    (a.silent = false →
      (r ≠ .none → ends .FAULT r a.pagesDone) ∧
      (r = .none → a.pagesDone + 1 = a.count → ends .OK .none (a.pagesDone + 1)) ∧
      (r = .none → a.pagesDone + 1 ≠ a.count → a.cancel = true → ends .CANCELLED .none (a.pagesDone + 1)) ∧
      (r = .none → a.pagesDone + 1 ≠ a.count → a.cancel = false → exec .copyTransferOutcome s =
        .next (s.setCopy (next s.copy.last ({ a with pagesDone := a.pagesDone + 1 } :: rest))).arbitrate))

/-! ## Control commits and the commands the command unit tests (chapters 3, 4, 9, 10) -/

/-- CONTROL_COMMIT: refused COMMAND_BUSY while a command is in flight, the line kept; else the staged bytes are written
into the line, the others kept; and with byte 0 among them the command is executed: the flag is set, and the claim waits
with the line as it then stands. After it come the events of the replaced records and the kept record (R60), and a read of
the port that waited behind it obtains its line (LineIsObtainedAndHandOverMade). Where no control commit can be taken, none is. BAD_COMMAND: the code 00h and any code
above 10h is answered at once with the code as written. -/
def Obligations.ControlCommitWritesTheLine : Prop :=
  (∀ (p : Port) (es : List Entry) (s : State), s.running = true → s.ports[p].handOver = some (.command es) →
     s.ports[p].endedRead = none → (∀ x, s.ports[p].outstanding ≠ some (.commit x)) →
     let taken := s.modPort p fun u => { u with handOver := none }
     let flushed (t : State) : State := match s.ports[p].keptVoid with
       | none => t
       | some r => ((t.raiseAll (List.replicate s.ports[p].replaced ⟨p, 5, .fault .BAD_ADDRESS⟩)).modPort p fun v =>
           { v with keptVoid := none, replaced := 0 }).writeRecord p r
     let ends (t : State) : Prop := s.takeReadyControl p = flushed t ∧
       exec (.controlCommit p) s = .next ((flushed t).obtain false p).arbitrate
     (s.cmds[p].inFlight = true →
       ends (taken.writeRecord p ⟨.CONTROL_WRITE, .REFUSED, .COMMAND_BUSY, 0xFF, 0x0FFF, byteN es.length, 0⟩)) ∧
     (s.cmds[p].inFlight = false → ∃ l : Line,
       (∀ before e after, es = before ++ e :: after → ∀ i : Fin 16, e.offset.toNat % 16 = i.val →
         (∀ x ∈ after, x.offset.toNat % 16 ≠ i.val) → l[i] = e.value) ∧
       (∀ i : Fin 16, (∀ e ∈ es, e.offset.toNat % 16 ≠ i.val) → l[i] = s.cmds[p].line[i]) ∧
       let written := taken.modCmd p fun u => { u with line := l }
       let recorded (t : State) : Prop :=
         ends (t.modCmd p fun u => { u with txStatus := ⟨.CONTROL_WRITE, .OK, .none, 0, 0, byteN es.length, 0⟩ })
       ((∀ e ∈ es, e.offset ≠ 0) → recorded written) ∧
       ((∃ e ∈ es, e.offset = 0) → ∃ st : Stage, (st = .owner ∨ st = .commandUnit) ∧
         (st = .commandUnit ↔ l[(0 : Fin 16)] ∈ [cSIGNAL, cMAP, cMAP_QUERY, cPORT_CONFIG, cPORT_RESET] ∨
           l[(0 : Fin 16)] = 0 ∨ 16 < l[(0 : Fin 16)].toNat) ∧
         recorded ((written.modCmd p fun u => { u with inFlight := true }).setClaims
           (s.claims ++ [⟨p, l, st, false⟩]))))) ∧
  (∀ (p : Port) (s : State), (∀ es, s.ports[p].handOver = some (.command es) →
     s.ports[p].endedRead ≠ none ∨ ∃ x, s.ports[p].outstanding = some (.commit x)) → s.takeReadyControl p = s) ∧
  (∀ (p : Port) (c : Claim) (rest : List Claim) (s : State), Finds (badAtUnit p) c rest s →
     exec (.badCommand p) s = .next (answered c rest (.BAD_COMMAND, []) s) ∧
     ((c.arg 0).toNat = 0 ∨ 16 < (c.arg 0).toNat))

/-- SIGNAL: an empty set is refused; a set of the issuer alone is answered at once; else the claim goes to the units of
the ports that remain when the issuer is removed. PORT_SIGNAL: the target's unit raises PORT_SIGNAL with the sender and
the code; the answer is recorded when it was the last of the set. -/
def Obligations.SignalReachesEveryPortOfItsSet : Prop :=
  (∀ (p : Port) (c : Claim) (rest : List Claim) (s : State), Finds (atUnit p cSIGNAL) c rest s →
     let named (q : Port) : Prop := (c.arg 1).getLsbD q.val = true
     ((∀ q, ¬ named q) → exec (.signal p) s = .next (answered c rest (.BAD_ARGUMENT, []) s)) ∧
     ((∃ q, named q) → (∀ q, named q → q = p) →
       exec (.signal p) s = .next (answered c rest (.OK, [0, c.arg 2]) s)) ∧
     ((∃ q, named q ∧ q ≠ p) → ∀ ps : PortSet, (∀ q, PortSet.has ps q = true ↔ named q ∧ q ≠ p) →
       exec (.signal p) s = .next (s.setClaims (rest ++ [{ c with stage := .ports ps }])))) ∧
  (∀ (t p : Port) (c : Claim) (rest : List Claim) (s : State) (ps : PortSet), Finds (isWith p t cSIGNAL) c rest s →
     c.stage = .ports ps →
     ((∀ q, PortSet.has ps q = true → q = t) → ∀ told : PortSet,
       (∀ q, PortSet.has told q = true ↔ (c.arg 1).getLsbD q.val = true ∧ q ≠ p) →
       exec (.portSignal t p) s = .next
         (((s.setClaims rest).raise ⟨t, 6, .signal p (c.arg 2)⟩).answer c (.OK, [setByte told, c.arg 2]))) ∧
     ((∃ q, PortSet.has ps q = true ∧ q ≠ t) → ∀ left : PortSet,
       (∀ q, PortSet.has left q = true ↔ PortSet.has ps q = true ∧ q ≠ t) →
       ∃ claims, exec (.portSignal t p) s = .next ((s.setClaims claims).raise ⟨t, 6, .signal p (c.arg 2)⟩) ∧
         ∀ before after, s.claims = before ++ c :: after → rest = before ++ after →
           (∀ x ∈ before, isWith p t cSIGNAL x = false) →
           claims = before ++ { c with stage := .ports left } :: after))

/-- The tests of MAP (R49): an empty set; a set other than the issuer alone from a port that is not the supervisor; a
window, page, flag or access that is no defined value. A MAP that passes goes to the translators of the set.
MAP_TRANSLATOR_TAKE: the three fields of the named window's entry are written; the answer is recorded when the target
was the last of the set. A line that the target's port still has to obtain is then obtained by the new map (log 17).
MAP_QUERY: the tests of R52, and the answer of the translator of the highest-numbered port named. It changes no map. A
MAP_QUERY that has been examined before is answered in the same way; behind one that is still with its translator (an
orphan of a port reset, R159) the newer is examined first and the older answered (log 11). -/
def Obligations.MapIsTestedTakenAndReported : Prop :=
  (∀ (p : Port) (c : Claim) (rest : List Claim) (s : State), Finds (atUnit p cMAP) c rest s →
     let named (q : Port) : Prop := (c.arg 1).getLsbD q.val = true
     let mayName : Prop := p = s.device.supervisor ∨ ∀ q, named q ↔ q = p
     let defined : Prop := 1 ≤ (c.arg 2).toNat ∧ (c.arg 2).toNat ≤ 15 ∧ (c.arg 4).toNat ≤ 127 ∧
       (c.arg 3).toNat ≤ 1 ∧ (c.arg 5).toNat ≤ 1
     ((∀ q, ¬ named q) → exec (.map p) s = .next (answered c rest (.BAD_ARGUMENT, []) s)) ∧
     ((∃ q, named q) → ¬ mayName → exec (.map p) s = .next (answered c rest (.NOT_SUPERVISOR, []) s)) ∧
     ((∃ q, named q) → mayName → ¬ defined → exec (.map p) s = .next (answered c rest (.BAD_ARGUMENT, []) s)) ∧
     ((∃ q, named q) → mayName → defined → exec (.map p) s =
       .next (s.setClaims (rest ++ [{ c with stage := .ports ((c.arg 1).setWidth 4) }])))) ∧
  (∀ (t p : Port) (c : Claim) (rest : List Claim) (s : State) (ps : PortSet) (w : Fin 15) (pg : Page) (en : Bool)
     (ac : Access), Finds (isWith p t cMAP) c rest s → c.stage = .ports ps → (c.arg 2).toNat = w.val + 1 →
     (c.arg 4).toNat = pg.val → c.arg 3 = (if en = true then 1 else 0) → c.arg 5 = ac.code →
     let mapped (claims : List Claim) : State := ((s.setClaims claims).modTranslator t fun x =>
       { x with map := x.map.set w ⟨en, pg, ac⟩ }).obtain false t
     ((∀ q, PortSet.has ps q = true → q = t) → exec (.mapTranslatorTake t p) s = .next ((mapped rest).answer c
       (.OK, [((c.arg 1).setWidth 4 : PortSet).setWidth 8, c.arg 2, c.arg 3, c.arg 4, c.arg 5])).arbitrate) ∧
     ((∃ q, PortSet.has ps q = true ∧ q ≠ t) → ∀ left : PortSet,
       (∀ q, PortSet.has left q = true ↔ PortSet.has ps q = true ∧ q ≠ t) →
       ∃ claims, exec (.mapTranslatorTake t p) s = .next (mapped claims).arbitrate ∧
         ∀ before after, s.claims = before ++ c :: after → rest = before ++ after →
           (∀ x ∈ before, isWith p t cMAP x = false) →
           claims = before ++ { c with stage := .ports left } :: after)) ∧
  (∀ (p : Port) (c : Claim) (rest : List Claim) (s : State), Finds (atUnit p cMAP_QUERY) c rest s →
     (∀ x ∈ rest, isOwned p cMAP_QUERY x = false) →
     let named (q : Port) : Prop := (c.arg 1).getLsbD q.val = true
     let mayName : Prop := p = s.device.supervisor ∨ ∀ q, named q ↔ q = p
     let refused (st : Status) : Prop := exec (.mapQuery p) s = .next (answered c rest (st, []) s)
     ((∀ q, ¬ named q) → refused .BAD_ARGUMENT) ∧
     ((∃ q, named q) → ¬ mayName → refused .NOT_SUPERVISOR) ∧
     ((∃ q, named q) → mayName → ((c.arg 2).toNat = 0 ∨ 15 < (c.arg 2).toNat) → refused .BAD_ARGUMENT) ∧
     (mayName → ∀ q : Port, named q → (∀ j, named j → j ≤ q) → ∀ w : Fin 15, (c.arg 2).toNat = w.val + 1 →
       let e := s.translators[q].map[w]
       exec (.mapQuery p) s = .next (answered c rest
         (.OK, [byteN q.val, c.arg 2, if e.enabled = true then 1 else 0, byteN e.page.val, e.access.code]) s))) ∧
  (∀ (p : Port) (c : Claim) (rest : List Claim) (s : State), Finds (isOwned p cMAP_QUERY) c rest s →
     let named (q : Port) : Prop := (c.arg 1).getLsbD q.val = true
     ((∀ x ∈ s.claims, atUnit p cMAP_QUERY x = false) → ∀ q : Port, named q → (∀ j, named j → j ≤ q) →
       ∀ w : Fin 15, (c.arg 2).toNat = w.val + 1 → let e := s.translators[q].map[w]
       exec (.mapQuery p) s = .next (answered c rest
         (.OK, [byteN q.val, c.arg 2, if e.enabled = true then 1 else 0, byteN e.page.val, e.access.code]) s)) ∧
     ∀ d left, Oldest (atUnit p cMAP_QUERY) d left s → (∀ x ∈ left, atUnit p cMAP_QUERY x = false) →
       let named (q : Port) : Prop := (d.arg 1).getLsbD q.val = true
       let mayName : Prop := p = s.device.supervisor ∨ ∀ q, named q ↔ q = p
       let window : Prop := 1 ≤ (d.arg 2).toNat ∧ (d.arg 2).toNat ≤ 15
       let after (t : State) : Prop := exec (.mapQuery p) s = exec (.mapQuery p) t
       ((∀ q, ¬ named q) → after (answered d left (.BAD_ARGUMENT, []) s)) ∧
       ((∃ q, named q) → ¬ mayName → after (answered d left (.NOT_SUPERVISOR, []) s)) ∧
       ((∃ q, named q) → mayName → ¬ window → after (answered d left (.BAD_ARGUMENT, []) s)) ∧
       ((∃ q, named q) → mayName → window → after (s.setClaims (left ++ [{ d with stage := .owner }]))))

/-- PORT_CONFIG: an undefined action is refused; the translator's and the attention unit's halves set their values unless the
action is keep; the answer gives both and is recorded with the second half. Each owner takes its half of the port's oldest
PORT_CONFIG whose half is due, whatever stands before it: with the other half taken the answer is recorded, with the
attention half discarded by a port reset there is none (R159), and else the claim waits for the other owner. That the halves
may be taken by one command or by two is the model's choice (log 26). -/
def Obligations.PortConfigSetsItsHalves : Prop :=
  (∀ (p : Port) (c : Claim) (rest : List Claim) (s : State), Finds (atUnit p cPORT_CONFIG) c rest s →
    (∀ x ∈ rest, atUnit p cPORT_CONFIG x = false ∧ modeDue p x = false ∧ outputDue p x = false) →
    let mode : IncMode := if c.arg 1 = 1 then .LINEAR else if c.arg 1 = 2 then .WINDOW_WRAP else s.translators[p].mode
    let out : Bool := if c.arg 2 = 1 then true else if c.arg 2 = 2 then false else s.attn[p].outputEnable
    let modeSet (u : State) : State := u.modTranslator p fun x => { x with mode := mode }
    let outSet (u : State) : State := u.modAttn p fun x => { x with outputEnable := out }
    let answer : Answer := (.OK, [if mode = .LINEAR then 1 else 2, if out = true then 1 else 0])
    (∀ half, (2 < (c.arg 1).toNat ∨ 2 < (c.arg 2).toNat) →
      exec (.portConfig p half) s = .next (answered c rest (.BAD_ARGUMENT, []) s)) ∧
    ((c.arg 1).toNat ≤ 2 → (c.arg 2).toNat ≤ 2 →
      exec (.portConfig p .both) s = .next (answered c rest answer (outSet (modeSet s))) ∧
      ∃ u v, exec (.portConfig p .translator) s = .next u ∧
        u = (modeSet s).setClaims (rest ++ [{ c with stage := .halves (.taken mode) .due }]) ∧
        exec (.portConfig p .attention) u = .next (answered c rest answer (outSet (modeSet s))) ∧
        exec (.portConfig p .attention) s = .next v ∧
        v = (outSet s).setClaims (rest ++ [{ c with stage := .halves .due (.taken out) }]) ∧
        exec (.portConfig p .translator) v = .next (answered c rest answer (outSet (modeSet s))))) ∧
  (∀ (p : Port) (c : Claim) (before after : List Claim) (s : State), s.running = true →
    (∀ x ∈ s.claims, atUnit p cPORT_CONFIG x = false) → s.claims = before ++ c :: after → isHalves p c = true →
    (c.arg 1).toNat ≤ 2 → (c.arg 2).toNat ≤ 2 →
    let mode : IncMode := if c.arg 1 = 1 then .LINEAR else if c.arg 1 = 2 then .WINDOW_WRAP else s.translators[p].mode
    let out : Bool := if c.arg 2 = 1 then true else if c.arg 2 = 2 then false else s.attn[p].outputEnable
    let modeSet := s.modTranslator p fun x => { x with mode := mode }
    let outSet := s.modAttn p fun x => { x with outputEnable := out }
    let answer (m : IncMode) (o : Bool) : Answer := (.OK, [if m = .LINEAR then 1 else 2, if o = true then 1 else 0])
    let now (st : Stage) : List Claim := before ++ { c with stage := st } :: after
    ((∀ x ∈ before, modeDue p x = false) →
      let ends (t : State) : Prop := exec (.portConfig p .translator) s = .next t
      (∀ o, c.stage = .halves .due (.taken o) → ends (answered c (before ++ after) (answer mode o) modeSet)) ∧
      (c.stage = .halves .due .discarded → ends (modeSet.setClaims (before ++ after))) ∧
      (c.stage = .halves .due .due → ends (modeSet.setClaims (now (.halves (.taken mode) .due))))) ∧
    ((∀ x ∈ before, outputDue p x = false) →
      let ends (t : State) : Prop := exec (.portConfig p .attention) s = .next t
      (∀ m, c.stage = .halves (.taken m) .due → ends (answered c (before ++ after) (answer m out) outSet)) ∧
      (c.stage = .halves .due .due → ends (outSet.setClaims (now (.halves .due (.taken out)))))))

/-! ## Port reset (chapter 10) -/

/-- PORT_RESET's tests, and PORT_RESET_BEGIN at the target: BUSY while a reset of it is in progress; else the reset begins,
both flags are set, and the code of the command in flight is kept. That this code is byte 0 of the command line is the
model's choice (log 34). -/
def Obligations.PortResetBegins : Prop :=
  ∀ (p : Port) (c : Claim) (rest : List Claim) (s : State),
    (Finds (atUnit p cPORT_RESET) c rest s →
      (3 < (c.arg 1).toNat → exec (.portReset p) s = .next (answered c rest (.BAD_ARGUMENT, []) s)) ∧
      ∀ t : Port, (c.arg 1).toNat = t.val →
        (t ≠ p → p ≠ s.device.supervisor →
          exec (.portReset p) s = .next (answered c rest (.NOT_SUPERVISOR, []) s)) ∧
        ((t = p ∨ p = s.device.supervisor) →
          exec (.portReset p) s = .next (s.setClaims (rest ++ [{ c with stage := .begin t }])))) ∧
    ∀ t : Port, Finds (isBegin p t) c rest s →
      (s.cmds[t].resetRun ≠ none → exec (.portResetBegin t p) s = .next (answered c rest (.BUSY, []) s)) ∧
      (s.cmds[t].resetRun = none → exec (.portResetBegin t p) s = .next ((s.setClaims rest).modCmd t fun u =>
        { u with
          resetRun := some ⟨.hold, p, if u.inFlight = true then u.line[(0 : Fin 16)] else 0⟩
          inFlight := true }))

/-- The parts of a port reset at the hold controller, the notice unit and the copy engine: the port's slots become FREE
and the queue is scanned; the port leaves every watch set and its notice queue is emptied; its queued copy is withdrawn
or its active one marked silent. A claim of the port that the block has not taken is discarded. The attention unit's
part: every source IDLE, its enable and level kept; an ATTN_CONFIG and the attention half of a PORT_CONFIG that the unit
has not taken are discarded, and one whose attention half an earlier reset discarded is kept for its translator. That a DONE
that the unit has not taken is dropped is the model's choice (log 42). -/
def Obligations.ResetPartsOfHoldNoticeCopyAttention : Prop :=
  (∀ (p : Port) (s : State) (r : ResetRun), s.running = true → s.cmds[p].resetRun = some r →
     let without (codes : List Byte) : List Claim :=
       s.claims.filter fun c => decide (¬ (c.issuer = p ∧ c.arg 0 ∈ codes ∧ c.stage = .owner))
     let goesTo (st : ResetStage) (t : State) : State := t.modCmd p fun u => { u with resetRun := some { r with stage := st } }
     (r.stage = .hold → s.arbiter.inService = none → ∃ h : HoldCtl,
       (∀ x, h.slot x = if x.1 = p then ⟨.FREE, 0, 0, .WRITE, 0, 0, 0, 0⟩ else s.holds.slot x) ∧
       h.queue = s.holds.queue.filter (fun x => x.1 != p) ∧
       exec (.holdResetPart p) s = .next (goesTo .notice
         (((s.setClaims (without [cHOLD, cRENEW, cRELEASE])).setHolds h.scan.1).raiseAll h.scan.2)).arbitrate) ∧
     ((∀ c ∈ s.claims, anyAtUnit p c = false) →
       (r.stage = .notice → ∃ n : NoticeUnit,
         (∀ (pg : Page) (q : Port), PortSet.has n.watch[pg] q = (PortSet.has s.notice.watch[pg] q && q != p)) ∧
         n.queues = s.notice.queues.set p ⟨[], 0, 0⟩ ∧
         exec (.noticeResetPart p) s = .next (goesTo .copy ((s.setClaims (without [cWATCH])).setNotice n))) ∧
       (r.stage = .copy → ∃ e : CopyEngine,
         e.last = s.copy.last.set p ⟨.NONE, .none, 0⟩ ∧ e.transfer = s.copy.transfer ∧
         (s.copy.queue = [] → e.queue = []) ∧
         (∀ a q, s.copy.queue = a :: q → e.queue =
           { a with silent := a.silent || a.requester == p } :: q.filter (fun x => x.requester != p)) ∧
         exec (.copyResetPart p) s =
           .next (goesTo .attention ((s.setClaims (without [cCOPY, cCOPY_CANCEL])).setCopy e))))) ∧
  (∀ (p : Port) (s : State) (r : ResetRun), s.running = true → s.cmds[p].resetRun = some r → r.stage = .attention →
     (∀ c ∈ s.claims, anyAtUnit p c = false) → ∃ (v : AttnUnit) (half : Claim → Option Claim),
       (∀ i : SourceNo, v.sources[i] = { s.attn[p].sources[i] with state := .IDLE, detail := .zero, lost := 0 }) ∧
       v.outputEnable = s.attn[p].outputEnable ∧ v.doneDue = 0 ∧
       (∀ c, isHalves p c = false → half c = some c) ∧
       (∀ c, isHalves p c = true →
         (c.stage = .halves .due .due → half c = some { c with stage := .halves .due .discarded }) ∧
         (∀ m, c.stage = .halves (.taken m) .due → half c = none) ∧
         (∀ m, c.stage = .halves m .discarded → half c = some c) ∧
         (∀ m o, c.stage = .halves m (.taken o) → half c = some c)) ∧
       exec (.attentionResetPart p) s = .next (((s.setClaims ((s.claims.filter fun c =>
         decide (¬ (c.issuer = p ∧ c.arg 0 = cATTN_CONFIG ∧ c.stage = .owner))).filterMap half)).modAttn p fun _ => v).modCmd p
           fun u => { u with resetRun := some { r with stage := .command } }))

/-- The command unit's part (step 5): the line zeroed, the flag cleared, the result line written whole with PORT_RESET,
OK, the next sequence number and target, issuer and code; for an eviction HOLD_ENDED (0FFh, EVICTED) is raised; answers
still to come are discarded. The port's own PORT_RESET, if it has not been taken, is answered BUSY first (log 22). The
port unit's part (step 6): a transaction in progress is cut, the pointer 000h, the pending hand-over and the kept record
discarded, the outstanding request kept; the reset is complete, and an eviction's issuer gets its result; a discarded
commit or control commit is recorded VOIDED, CUT_BY_RESET. The model's choices are that the issuer's port stands in its
result too (log 23), the flag of an issuer that is between these steps itself (log 21), that the record of an ended read
is kept (log 18), when the record of a discarded hand-over is written while a commit is outstanding (log 35), and that a
commit held behind a line fetch is a pending hand-over, which the reset discards (log 36). -/
def Obligations.ResetPartsOfCommandAndPortUnit : Prop :=
  (∀ (p : Port) (s : State) (r : ResetRun), s.running = true → s.cmds[p].resetRun = some r → r.stage = .command →
     (∀ c ∈ s.claims, anyAtUnit p c = false) →
     let part (n : Byte) (cs : List Claim) : State := (s.setClaims (cs.map fun c =>
         if c.issuer = p then { c with orphan := true } else c)).modCmd p fun u => { u with
           line := Line.zero, inFlight := false, resetRun := some { r with stage := .portUnit }
           result := ⟨0x0E, .OK, u.result.sequence + n, detailOf [byteN p.val, byteN r.issuer.val, r.code]⟩ }
     let told (t : State) : State := if r.issuer = p then t else t.raise ⟨p, 3, .holdEnded none .EVICTED⟩
     ((∀ c ∈ s.claims, isBegin p p c = false) → exec (.commandResetPart p) s = .next (told (part 1 s.claims))) ∧
     (∀ c rest, Oldest (isBegin p p) c rest s → c.orphan = false →
       exec (.commandResetPart p) s = .next (told (part 2 rest)))) ∧
  (∀ (p : Port) (s : State) (r : ResetRun), Settled p s → s.cmds[p].resetRun = some r → r.stage = .portUnit →
     ∃ (v : PortUnit) (t : State), exec (.portUnitResetPart p) s = .next t.arbitrate ∧
       ((s.ports[p].phase = .IDLE ∨ s.ports[p].phase = .CUT) →
         v = { s.ports[p] with pointer := 0, handOver := none, keptVoid := none, replaced := 0 }) ∧
       (s.ports[p].phase ≠ .IDLE → s.ports[p].phase ≠ .CUT →
         v = { s.ports[p] with
           phase := .CUT, voidReason := some .CUT_BY_RESET, staging := [], held := none, asking := false
           counted := if s.ports[p].phase = .VOIDED then s.ports[p].counted else s.ports[p].staging.length
           outstanding := v.outstanding, pointer := 0, handOver := none, keptVoid := none, replaced := 0 } ∧
         (∀ es, s.ports[p].outstanding = some (.commit es) → v.outstanding = some (.commit es)) ∧
         (∀ f, s.ports[p].outstanding = some (.fetch f) → v.outstanding = some (.fetch { f with discard := true })) ∧
         (s.ports[p].outstanding = none → v.outstanding = none)) ∧
       let unit := (s.modPort p fun _ => v).modCmd p fun u => { u with resetRun := none }
       let told := if r.issuer = p then unit else unit.modCmd r.issuer fun u => { u with
         result := ⟨0x0E, .OK, u.result.sequence + 1, detailOf [byteN p.val, byteN r.issuer.val, r.code]⟩
         inFlight := u.inFlight && (match u.resetRun with
           | some x => x.stage != .portUnit
           | none => false) }
       (∀ es, s.ports[p].handOver = some (.commit es) → t = told.writeRecord p
         ⟨.STORE_WRITE, .VOIDED, .CUT_BY_RESET, 0xFF, 0x0FFF, byteN es.length, 0⟩) ∧
       (∀ es, s.ports[p].handOver = some (.command es) → t = told.writeRecord p
         ⟨.CONTROL_WRITE, .VOIDED, .CUT_BY_RESET, 0xFF, 0x0FFF, byteN es.length, 0⟩) ∧
       (∀ n, s.ports[p].handOver = some (.done n) → t = told.writeRecord p
         ⟨.CONTROL_WRITE, .VOIDED, .CUT_BY_RESET, 0xFF, 0x0FFF, n, 0⟩) ∧
       ((s.ports[p].handOver = none ∨ ∃ x, s.ports[p].handOver = some (.record x)) → t = told))

/-! ## Views and pointers (chapter 3) -/

/-- The translation of a view address: a line and byte of the control window, the store location of an enabled window's
entry, or a disabled window. The pointer advances after a data byte: in LINEAR mode up to FFFh, where it stays and the
end of the view is reached; in WINDOW_WRAP mode within its window. -/
def Obligations.ViewAddressAndPointer : Prop :=
  (∀ (t : Translator) (w ln b : Fin 16),
     let a : ViewAddr := BitVec.ofNat 12 (w.val * 256 + ln.val * 16 + b.val)
     (w = 0 → t.translate a = .control ln b) ∧
     ∀ i : Fin 15, w.val = i.val + 1 →
       (t.map[i].enabled = true →
         t.translate a = .store t.map[i].page (BitVec.ofNat 8 (ln.val * 16 + b.val)) t.map[i].access) ∧
       (t.map[i].enabled = false → t.translate a = .disabled)) ∧
  (∀ (u : PortUnit) (w : Fin 16) (off : Fin 256), u.pointer.toNat = w.val * 256 + off.val →
     (u.mode = .LINEAR → u.pointer ≠ 0xFFF → u.advance = { u with pointer := u.pointer + 1 }) ∧
     (u.mode = .LINEAR → u.pointer = 0xFFF → u.advance = { u with endOfView := true }) ∧
     (u.mode = .WINDOW_WRAP →
       u.advance = { u with pointer := BitVec.ofNat 12 (w.val * 256 + (off.val + 1) % 256) }))

/-! ## Transactions on the bus (chapters 4 and 11) -/

/-- What a port has to do at once comes before its next bus event, the end of a transaction and the fall of CS_N among them:
the command is that on the state after it. What is done: the pending control commit that can be taken is taken, as by
CONTROL_COMMIT (ControlCommitWritesTheLine); each claim at the command unit, the oldest first, is answered or passed on by
its tests, as by the command of its code; each DONE handed over is taken, as by DONE; the line needed is obtained,
ATTENTION as by TAKE and NOTICE as by POP; and the gathering of a PORT STATE line ends (PortStateLine). Then nothing is
left to be done at once, where a line is asked for in phase DATA alone (StepKeepsStaging). That all this comes there at the
latest, in this order, is the model's choice (logs 12, 32, 39). -/
def Obligations.BusEventsFollowWhatIsDue : Prop :=
  (∀ (p : Port) (s : State), s.running = true → ∀ i : Instr, (match i with
      | .addressHighByte q _ | .addressLowByte q _ | .transactionEnd q => q = p
      | .twoWireWriteByte q _ | .twoWireReadByte q _ | .twoWireStart q _ _ => q.port = p
      | .spiWrite | .spiRead | .spiStatus | .spiUnknownOpcode _ | .spiWriteSlot _ | .spiReadSlot => spi = p
      | .spiCsFall => spi = p ∧ s.device.csLow = false
      | _ => False) → exec i s = exec i (s.settle p)) ∧
  (∀ (p : Port) (s : State), s.running = true → ∃ (examine done : State → State),
     let a := s.takeReadyControl p
     let b := examine^[a.claims.countP (anyAtUnit p)] a
     let c := done^[b.attn[p].doneDue] b
     s.settle p = (c.obtain true p).gather p ∧
     (∀ t : State, (∀ x ∈ t.claims, anyAtUnit p x = false) → examine t = t) ∧
     (∀ (t : State) (x : Claim) (rest : List Claim), t.running = true → Oldest (anyAtUnit p) x rest t →
       (examine t = match x.verdict t.device.supervisor with
         | .answered r => answered x rest r t
         | .passed st => t.setClaims (rest ++ [{ x with stage := st }])) ∧
       (((x.arg 0).toNat = 0 ∨ 16 < (x.arg 0).toNat) → exec (.badCommand p) t = .next (examine t)) ∧
       (x.arg 0 = cSIGNAL → exec (.signal p) t = .next (examine t)) ∧
       (x.arg 0 = cMAP → exec (.map p) t = .next (examine t)) ∧
       (x.arg 0 = cPORT_RESET → exec (.portReset p) t = .next (examine t)) ∧
       ((∀ y ∈ rest, anyAtUnit p y = false) →
         (x.arg 0 = cMAP_QUERY → exec (.mapQuery p) t = exec (.mapQuery p) (examine t)) ∧
         (x.arg 0 = cPORT_CONFIG → ∀ half, exec (.portConfig p half) t = exec (.portConfig p half) (examine t)))) ∧
     (∀ t : State, exec (.attnDone p) t = .next (done t)) ∧
     ((c.ports[p].asking = false ∨ c.ports[p].phase ≠ .DATA ∨ c.ports[p].handOver ≠ none) → c.obtain true p = c) ∧
     (c.ports[p].asking = true → c.ports[p].phase = .DATA → c.ports[p].handOver = none →
       windowOf c.ports[p].pointer = 0 →
       (lineOf c.ports[p].pointer = 2 → exec (.attnTake p) c = .next (c.obtain true p)) ∧
       (lineOf c.ports[p].pointer = 4 → exec (.noticePop p) c = .next (c.obtain true p)))) ∧
  (∀ (p : Port) (s : State), s.running = true → (s.ports[p].asking = true → s.ports[p].phase = .DATA) →
     Settled p (s.settle p))

/-- TWO_WIRE_START: it ends the transaction in progress; then, where the address byte names the port, a transaction
begins, its mode latched, a read needing its first line at once; at any other address the port does not acknowledge. The
address bytes: a high byte with an upper bit set voids the transaction and the pointer keeps its value; else the two
bytes set the pointer and phase DATA begins. A two-wire port acknowledges the good bytes alone. That a START is carried out
while the port holds SCL low too is the model's choice (log 40). -/
def Obligations.StartAndAddressBytes : Prop :=
  (∀ (p : TwoWirePort) (target : BitVec 7) (s : State), Settled p.port s →
     let t := (s.endTransaction p.port).settle p.port
     let begun (ph : Phase) (d : TxDir) (ask : Bool) : State := t.modPort p.port fun u => { u with
       phase := ph, dir := some d, kind := .NONE, addrHigh := none, addressed := ask, asking := ask, endOfView := false
       mode := t.translators[p.port].mode, voidReason := none, counted := 0, staging := [], held := none
       stopped := false, firstFault := none, ackOut := true, dataOut := 0xFF }
     (s.ports[p.port].phase = .IDLE → s.endTransaction p.port = s.modPort p.port PortUnit.toIdle) ∧
     (target = 0x34 + t.device.asValue[p.port].setWidth 7 →
       exec (.twoWireStart p target .write) s = .next (begun .ADDRESS .write false).arbitrate ∧
       exec (.twoWireStart p target .read) s = .next ((begun .DATA .read true).obtain false p.port).arbitrate) ∧
     (target ≠ 0x34 + t.device.asValue[p.port].setWidth 7 → ∀ d,
       exec (.twoWireStart p target d) s =
         .next (t.modPort p.port fun u => { u with ackOut := false, dataOut := 0xFF }).arbitrate)) ∧
  (∀ (p : Port) (b : Byte) (s : State), Settled p s → s.ports[p].phase = .ADDRESS → s.ports[p].dir ≠ none →
     (p ≠ spi → s.ports[p].handOver = none) →
     let ends (i : Instr) (v : PortUnit) (ack : Bool) : Prop := exec i s =
       .next (s.modPort p fun _ => { v with ackOut := ack && p != spi, dataOut := 0xFF }).arbitrate
     let u := s.ports[p]
     (u.addrHigh = none →
       (16 ≤ b.toNat → ends (.addressHighByte p b)
         { u with phase := .VOIDED, voidReason := some .BAD_ADDRESS, counted := u.staging.length, staging := [] } false) ∧
       (b.toNat < 16 → ends (.addressHighByte p b) { u with addrHigh := some (BitVec.ofNat 4 b.toNat) } true)) ∧
     (∀ hi, u.addrHigh = some hi → ends (.addressLowByte p b)
       { u with pointer := hi ++ b, addrHigh := none, phase := .DATA, addressed := true } true))

/-- A data byte of a write in phase DATA: the rows of R44, the two-page limit, the count, in this order. An accepted byte is
staged with the place captured for it; a byte that voids ends the staging. The pointer advances either way. A two-wire
port acknowledges an accepted byte alone; the SPI port drives A5h for either. -/
def Obligations.WrittenByteIsJudged : Prop :=
  ∀ (p : Port) (b : Byte) (s : State), Settled p s → s.ports[p].phase = .DATA → s.ports[p].dir = some .write →
    s.ports[p].handOver = none → (touchedPages s.ports[p].staging).length ≤ 2 →
    let u := s.ports[p]
    let ends (v : PortUnit) (ack : Bool) : Prop :=
      (∀ q : TwoWirePort, q.port = p → exec (.twoWireWriteByte q b) s =
        .next (s.modPort p fun _ => { v.advance with ackOut := ack, dataOut := 0xFF }).arbitrate) ∧
      (p = spi → exec (.spiWriteSlot b) s =
        .next (s.modPort p fun _ => { v.advance with dataOut := 0xA5 }).arbitrate)
    let accepts (k : TxKind) (e : Entry) : Prop := ends { u with kind := k, staging := u.staging ++ [e] } true
    let voids (k : TxKind) (r : Reason) : Prop := ends { u with
      kind := k, phase := .VOIDED, voidReason := some r, counted := u.staging.length, staging := [] } false
    let control : Prop := u.kind = .CONTROL_WRITE ∨ (u.kind = .NONE ∧ windowOf u.pointer = 0)
    let store : Prop := (u.kind = .STORE_WRITE ∨ u.kind = .NONE) ∧ windowOf u.pointer ≠ 0
    (control →
      ((u.endOfView = true ∨ windowOf u.pointer ≠ 0) → voids .CONTROL_WRITE .VIEW_END) ∧
      (u.endOfView = false → windowOf u.pointer = 0 →
        ((lineOf u.pointer = 0 ∨ lineOf u.pointer = 3) →
          accepts .CONTROL_WRITE ⟨pageOf (lineOf u.pointer).val, byteN (byteOf u.pointer).val, b⟩) ∧
        (lineOf u.pointer ≠ 0 → lineOf u.pointer ≠ 3 → voids .CONTROL_WRITE .CONTROL_READ_ONLY))) ∧
    (store →
      (u.endOfView = true → voids .STORE_WRITE .VIEW_END) ∧
      (u.endOfView = false →
        (s.translators[p].translate u.pointer = .disabled → voids .STORE_WRITE .DISABLED_WINDOW) ∧
        ∀ pg off,
          (s.translators[p].translate u.pointer = .store pg off .RO → voids .STORE_WRITE .READ_ONLY_WINDOW) ∧
          (s.translators[p].translate u.pointer = .store pg off .RW →
            let third : Prop := (∀ e ∈ u.staging, e.page ≠ pg) ∧ ∃ e ∈ u.staging, ∃ e' ∈ u.staging, e.page ≠ e'.page
            ((third ∨ 64 ≤ u.staging.length) → voids .STORE_WRITE .STAGING_FULL) ∧
            (¬ third → u.staging.length < 64 → accepts .STORE_WRITE ⟨pg, off, b⟩))))

/-- Bytes of a write that is voided or cut are refused: a two-wire port does not acknowledge them; the SPI port drives
A5h for a voided and 0FFh for a cut one. The pointer advances over the refused bytes of a transaction whose address is
complete; that it stays where the address is not, and that it advances in a cut transaction, is the model's choice (logs
24, 25). While a hand-over is pending, a two-wire port holds SCL and takes no byte, and a data slot of an SPI WRITE, voided
or not, carries WAIT and its byte is not taken. That the held commands leave the state is log 28. -/
def Obligations.BytesNotTaken : Prop :=
  (∀ (p : Port) (b : Byte) (s : State), Settled p s → s.ports[p].dir = some .write →
     let u := s.ports[p]
     let skipped : PortUnit := if u.addressed = true then u.advance else u
     ((u.phase = .CUT ∨ (u.phase = .VOIDED ∧ u.handOver = none)) →
       (∀ q : TwoWirePort, q.port = p → exec (.twoWireWriteByte q b) s =
         .next (s.modPort p fun _ => { skipped with ackOut := false, dataOut := 0xFF }).arbitrate) ∧
       (p ≠ spi → exec (.addressHighByte p b) s =
         .next (s.modPort p fun u => { u with ackOut := false, dataOut := 0xFF }).arbitrate ∧
         exec (.addressLowByte p b) s =
         .next (s.modPort p fun u => { u with ackOut := false, dataOut := 0xFF }).arbitrate)) ∧
     (p = spi → u.phase = .CUT →
       exec (.spiWriteSlot b) s = .next (s.modPort p fun _ => { skipped with dataOut := 0xFF }).arbitrate) ∧
     (p = spi → u.phase = .VOIDED → u.handOver = none →
       exec (.spiWriteSlot b) s = .next (s.modPort p fun _ => { skipped with dataOut := 0xA5 }).arbitrate)) ∧
  (∀ (p : Port) (s : State), Settled p s → s.ports[p].handOver ≠ none →
     (∀ (q : TwoWirePort) b, q.port = p → s.ports[p].phase ≠ .IDLE → s.ports[p].phase ≠ .CUT →
       sclHeld s q = true ∧ exec (.twoWireWriteByte q b) s = .next s.arbitrate ∧
       exec (.addressHighByte p b) s = .next s.arbitrate ∧ exec (.addressLowByte p b) s = .next s.arbitrate ∧
       ∀ ack, exec (.twoWireReadByte q ack) s = .next s.arbitrate) ∧
     (∀ b, p = spi → (s.ports[p].phase = .DATA ∨ s.ports[p].phase = .VOIDED) → s.ports[p].dir = some .write →
       exec (.spiWriteSlot b) s = .next (s.modPort p fun u => { u with dataOut := 0x00 }).arbitrate))

/-- A two-wire read byte: driven from the held line at the pointer, which then advances; acknowledged, with the pointer out of
the held line, the next line is needed at once; not acknowledged, the port stops, and a further byte finds SDA released.
Beyond the end of the view it is 0FFh. A cut read drives 0FFh, and that its pointer advances is the model's choice (log
25). SCL is held exactly for a pending hand-over, and in a read while a line fetch waits at the arbiter, is in service, or
waits in the port unit; it is not held for a line of the control window or a fill line (R165). No byte is given then: that
the command leaves the state is log 28. -/
def Obligations.TwoWireReadByteIsDriven : Prop :=
  (∀ (q : TwoWirePort) (ack : Bool) (s : State), Settled q.port s →
    let u := s.ports[q.port]
    u.dir = some .read →
    let ends (v : PortUnit) : Prop :=
      exec (.twoWireReadByte q ack) s = .next ((s.modPort q.port fun _ => v).obtain false q.port).arbitrate
    (u.phase = .DATA → u.handOver = none →
      (u.stopped = true → ends { u with dataOut := 0xFF }) ∧
      (u.stopped = false →
        (∀ h, u.endOfView = false → u.held = some h → h.window = windowOf u.pointer → h.line = lineOf u.pointer →
          let v := { u.advance with dataOut := h.bytes[byteOf u.pointer] }
          (ack = false → ends { v with stopped := true }) ∧
          (ack = true → (v.endOfView = true ∨ (h.window = windowOf v.pointer ∧ h.line = lineOf v.pointer)) → ends v) ∧
          (ack = true → v.endOfView = false → ¬ (h.window = windowOf v.pointer ∧ h.line = lineOf v.pointer) →
            ends { v with asking := true })) ∧
        (u.endOfView = true → ends { u with dataOut := 0xFF, stopped := !ack }) ∧
        (u.endOfView = false → (∀ h, u.held = some h → ¬ (h.window = windowOf u.pointer ∧ h.line = lineOf u.pointer)) →
          exec (.twoWireReadByte q ack) s = .next s.arbitrate))) ∧
    (u.phase = .CUT → ends { u.advance with dataOut := 0xFF })) ∧
  (∀ (q : TwoWirePort) (s : State), s.running = true →
    let u := s.ports[q.port]
    sclHeld s q = true ↔ (u.phase ≠ .IDLE ∧ u.phase ≠ .CUT ∧ u.handOver ≠ none) ∨
      (u.phase = .DATA ∧ u.dir = some .read ∧ ((∃ f, u.outstanding = some (.fetch f) ∧ f.discard = false) ∨
        (u.asking = true ∧ ∃ pg off ac, s.translators[q.port].translate u.pointer = .store pg off ac))))

/-- Obtaining the line at the pointer: a line of the control window is held at once, PORT STATE with parts that may still be
taken (PortStateLine), ATTENTION and NOTICE by TAKE and POP; a disabled window gives a held line of fill and a fault if it is the first; an enabled one a fetch, once no request
of the port is outstanding. The pending hand-over is made when the outstanding request has returned: a record is
written, a DONE handed over, a commit issued with PENDING; a control commit waits for its command unit. Then one
ACCESS_FAULT, BAD_ADDRESS, for each replaced record, and the kept record is written; behind a commit it waits for that
commit (log 20). -/
def Obligations.LineIsObtainedAndHandOverMade : Prop :=
  (∀ (p : Port) (acts : Bool) (s : State), s.ports[p].asking = true → s.ports[p].phase = .DATA →
     s.ports[p].handOver = none →
     let u := s.ports[p]
     let w := windowOf u.pointer
     let ln := lineOf u.pointer
     (∀ b, s.translators[p].translate u.pointer = .control ln b → ln ≠ 2 → ln ≠ 4 →
       s.obtain acts p = s.modPort p fun u => { u with
         held := some ⟨0, ln, controlLine s p ln, false⟩, asking := false, gathering := ln == 5 }) ∧
     (s.translators[p].translate u.pointer = .control 2 (byteOf u.pointer) → s.obtain acts p = if acts = true then
       (s.modAttn p fun _ => s.attn[p].take.1).modPort p fun u =>
         { u with held := some ⟨0, 2, s.attn[p].take.2, false⟩, asking := false } else s) ∧
     (s.translators[p].translate u.pointer = .control 4 (byteOf u.pointer) → s.obtain acts p = if acts = true then
       (s.setNotice (s.notice.pop p).1).modPort p fun u =>
         { u with held := some ⟨0, 4, (s.notice.pop p).2, false⟩, asking := false } else s) ∧
     (s.translators[p].translate u.pointer = .disabled → s.obtain acts p = s.modPort p fun u => { u with
       held := some ⟨w, ln, Vector.replicate 16 0xFF, false⟩, asking := false, kind := .STORE_READ
       firstFault := if u.firstFault = none then some ⟨.DISABLED_WINDOW, 0xFF, 0x0FFF⟩ else u.firstFault }) ∧
     (∀ pg off ac, s.translators[p].translate u.pointer = .store pg off ac →
       (u.outstanding = none → s.obtain acts p = s.modPort p fun u => { u with
         outstanding := some (.fetch ⟨w, ln, pg, ln, false⟩), asking := false, kind := .STORE_READ }) ∧
       (u.outstanding ≠ none → s.obtain acts p = s))) ∧
  (∀ (p : Port) (s : State), s.ports[p].endedRead = none → s.ports[p].outstanding = none →
     let u := s.ports[p]
     let made := s.modPort p fun v => { v with handOver := none }
     let replaced (t : State) : State := t.raiseAll (List.replicate u.replaced ⟨p, 5, .fault .BAD_ADDRESS⟩)
     let flushed (t : State) : State := match u.keptVoid with
       | none => t
       | some r => ((replaced t).modPort p fun v => { v with keptVoid := none, replaced := 0 }).writeRecord p r
     ((u.handOver = none ∨ ∃ es, u.handOver = some (.command es)) → s.makeHandOver p = s) ∧
     (∀ r, u.handOver = some (.record r) → s.makeHandOver p = flushed (made.writeRecord p r)) ∧
     (∀ n, u.handOver = some (.done n) → s.makeHandOver p = flushed
       ((made.writeRecord p ⟨.CONTROL_WRITE, .OK, .none, 0, 0, n, 0⟩).modAttn p fun v => { v with doneDue := v.doneDue + 1 })) ∧
     (∀ es, u.handOver = some (.commit es) → s.makeHandOver p = ((replaced made).modPort p fun v => { v with
       handOver := u.keptVoid.map .record, keptVoid := none, replaced := 0
       outstanding := some (.commit es) }).writeRecord p ⟨.STORE_WRITE, .PENDING, .none, 0, 0, byteN es.length, 0⟩))

/-- SPI_CS_FALL and the opcodes: a transaction begins with its mode latched; the next byte is the opcode, 3Ah WRITE, 3Bh
READ, 3Ch STATUS, any other unknown (R166); WRITE and READ fix the direction; STATUS enters phase DATA; an unknown opcode voids it with BAD_ADDRESS and kind STORE_READ. MISO carries 0FFh. A slot of a
STATUS transaction carries the status byte formed at its start, and once cut 0FFh; bit by bit. That later slots are
further SPI_STATUS commands is log 29. -/
def Obligations.SpiOpcodesAndStatusByte : Prop :=
  (∀ s : State, Settled spi s →
     let u := s.ports[spi]
     (s.device.csLow = false → exec .spiCsFall s = .next
       ((s.setDevice { s.device with csLow := true }).modPort spi fun u => { u with
         phase := .ADDRESS, dir := none, kind := .NONE, addrHigh := none, addressed := false, asking := false
         mode := s.translators[spi].mode, voidReason := none, counted := 0, endOfView := false, staging := []
         held := none, stopped := false, firstFault := none, ackOut := false, dataOut := 0xFF }).arbitrate) ∧
     (u.phase = .ADDRESS → u.dir = none →
       let ends (i : Instr) (v : PortUnit) : Prop := exec i s =
         .next (s.modPort spi fun _ => { v with ackOut := false, dataOut := 0xFF }).arbitrate
       ends .spiWrite { u with dir := some .write } ∧ ends .spiRead { u with dir := some .read } ∧
       ends .spiStatus { u with dir := some .status, phase := .DATA } ∧
       ∀ op : Byte, op ≠ 0x3A → op ≠ 0x3B → op ≠ 0x3C → ends (.spiUnknownOpcode op)
         { u with phase := .VOIDED, voidReason := some .BAD_ADDRESS, counted := u.staging.length, staging := []
                  kind := .STORE_READ }) ∧
     ∀ op : Byte, u.phase = .ADDRESS → u.dir = none →
       exec (opcodeCommand op) s = .next (s.modPort spi (PortUnit.opcode op)).arbitrate) ∧
  (opcodeCommand 0x3A = .spiWrite ∧ opcodeCommand 0x3B = .spiRead ∧ opcodeCommand 0x3C = .spiStatus ∧
     ∀ op : Byte, op ≠ 0x3A → op ≠ 0x3B → op ≠ 0x3C → opcodeCommand op = .spiUnknownOpcode op) ∧
  (∀ s : State, Settled spi s → s.ports[spi].dir = some .status → (s.ports[spi].phase = .DATA ∨ s.ports[spi].phase = .CUT) →
     ∃ b : Byte, exec .spiStatus s = .next (s.modPort spi fun u => { u with dataOut := b }).arbitrate ∧
       (s.ports[spi].phase = .CUT → b = 0xFF) ∧
       (s.ports[spi].phase = .DATA →
         (b.getLsbD 0 = true ↔ ∃ i, s.attn[spi].eligible i = true) ∧
         (b.getLsbD 1 = true ↔ s.cmds[spi].inFlight = true) ∧
         (b.getLsbD 2 = true ↔ s.cmds[spi].txStatus.outcome = .OK) ∧
         (b.getLsbD 3 = true ↔ s.notice.queues[spi].records ≠ []) ∧
         (b.getLsbD 4 = true ↔ ∃ k, (s.holds.slot (spi, k)).state = .WAITING) ∧
         b.getLsbD 5 = false ∧ b.getLsbD 6 = false ∧ b.getLsbD 7 = false))

/-- A slot of an SPI READ: with a hand-over pending WAIT; else the line at the pointer is obtained at the start of the slot if
it is not on its way; the slot carries READY when that line is in hand and WAIT when not; after READY the bytes of the
line, over which the pointer advances; 0FFh beyond the end of the view. A cut slot, and a slot of a voided transaction
that is no WRITE, carries 0FFh; that the pointer advances over it where the address was complete is the model's choice
(log 25). That a READ which waited for a hand-over obtains its line at the start of its next slot is log 37. -/
def Obligations.SpiReadSlotCarries : Prop :=
  ∀ s : State, Settled spi s →
    let u := s.ports[spi]
    let ends (t : State) (v : PortUnit) : Prop := exec .spiReadSlot s = .next (t.modPort spi fun _ => v).arbitrate
    let inHand (v : PortUnit) (h : HeldLine) : Prop :=
      v.held = some h ∧ h.window = windowOf v.pointer ∧ h.line = lineOf v.pointer
    let skipped : PortUnit := if u.addressed = true then u.advance else u
    ((u.phase = .CUT ∨ (u.phase = .VOIDED ∧ u.dir ≠ some .write)) → ends s { skipped with dataOut := 0xFF }) ∧
    (u.phase = .DATA → u.dir = some .read →
      (u.endOfView = true → ends s { u with dataOut := 0xFF }) ∧
      (u.endOfView = false →
        (∀ h, inHand u h → h.ready = false →
          ends s { u with dataOut := 0xA5, held := some { h with ready := true } }) ∧
        (∀ h, inHand u h → h.ready = true → ends s { u.advance with dataOut := h.bytes[byteOf u.pointer] }) ∧
        ((∀ h, ¬ inHand u h) →
          ((u.handOver ≠ none ∨ ∃ f, u.outstanding = some (.fetch f) ∧ f.discard = false) →
            ends s { u with dataOut := 0x00 }) ∧
          (u.handOver = none → u.stopped = false →
            (∀ f, u.outstanding = some (.fetch f) → f.discard = true) →
            let t := (s.modPort spi fun u => { u with asking := true }).obtain true spi
            (∀ h, inHand t.ports[spi] h → h.ready = false →
              ends t { t.ports[spi] with dataOut := 0xA5, held := some { h with ready := true } }) ∧
            ((∀ h, ¬ inHand t.ports[spi] h) → ends t { t.ports[spi] with dataOut := 0x00 })))))

/-- The end of a transaction. In phase DATA a store write with staged entries forms a commit, issued with PENDING or held while
a request of the port is outstanding; a control transaction's bytes for line 0 become the pending hand-over to the command
unit, those for line 3 one DONE, held behind an outstanding commit; a store read hands over its record, or waits for the
fetch it has issued; a voided and a cut transaction hand over their records; a transaction without a kind records
nothing. The model's choices: hand-overs also wait behind a read that has ended and whose fetch has not returned (log 18);
a line whose fetch has not been issued is dropped, and a read that obtained none records nothing (log 19); a commit held
behind a fetch is a pending hand-over (log 36); a transaction can end while its port holds SCL low (log 40). -/
def Obligations.TransactionEndsByItsKind : Prop :=
  ∀ (p : Port) (s : State), Settled p s →
    let u := s.ports[p]
    let idle (v : PortUnit) : PortUnit := { v with
      phase := .IDLE, dir := none, kind := .NONE, addrHigh := none, addressed := false, asking := false, stopped := false
      voidReason := none, counted := 0, endOfView := false, staging := [], held := none, firstFault := none
      ackOut := false, dataOut := 0xFF }
    let s₀ : State := s.setDevice (if p = spi then { s.device with csLow := false } else s.device)
    let ends (t : State) : Prop := exec (.transactionEnd p) s = .next (t.modPort p idle).arbitrate
    let n := byteN u.staging.length
    let held (x : HandOver) : State := s₀.modPort p fun v => { v with handOver := some x }
    let waits : Prop := u.endedRead ≠ none ∨ ∃ es, u.outstanding = some (.commit es)
    let records (r : TxStatus) : Prop :=
      (u.handOver = none → ¬ waits → ends (s₀.writeRecord p r)) ∧
      (u.handOver = none → waits → ends (held (.record r))) ∧
      (u.handOver ≠ none → ends (s₀.modPort p fun v => { v with
        keptVoid := some r, replaced := if v.keptVoid = none then v.replaced else v.replaced + 1 }))
    let readEnds (f : Option FaultNote) : TxStatus := match f with
      | none => ⟨.STORE_READ, .OK, .none, 0, 0, 0, 0⟩
      | some f => ⟨.STORE_READ, .FAULTED, f.reason, f.page, f.line, 0, 0⟩
    let voided (k : TxKind) (r : Reason) : TxStatus := ⟨k, .VOIDED, r, 0xFF, 0x0FFF, byteN u.counted, 0⟩
    let kind : TxKind := if u.kind = .NONE then (if u.dir = some .write then .STORE_WRITE else .STORE_READ) else u.kind
    ((u.phase = .IDLE ∨ u.phase = .ADDRESS) → ends s₀) ∧
    (u.phase = .DATA → u.dir = some .write →
      (u.staging = [] → ends s₀) ∧
      (u.staging ≠ [] → u.kind = .STORE_WRITE →
        (u.outstanding = none → u.endedRead = none → ends ((s₀.modPort p fun v => { v with
          outstanding := some (.commit u.staging) }).writeRecord p ⟨.STORE_WRITE, .PENDING, .none, 0, 0, n, 0⟩)) ∧
        ((u.outstanding ≠ none ∨ u.endedRead ≠ none) → ends (held (.commit u.staging)))) ∧
      (u.kind = .CONTROL_WRITE → ∀ e es, u.staging = e :: es →
        (e.page = 0 → ends (held (.command u.staging))) ∧
        (e.page = 3 → ¬ waits → ends ((s₀.writeRecord p ⟨.CONTROL_WRITE, .OK, .none, 0, 0, n, 0⟩).modAttn p fun v =>
          { v with doneDue := v.doneDue + 1 })) ∧
        (e.page = 3 → waits → ends (held (.done n))))) ∧
    (u.phase = .DATA → u.dir = some .read →
      (u.kind = .STORE_READ →
        (∀ f, u.outstanding = some (.fetch f) → f.discard = false → ends (s₀.modPort p fun v => { v with
          outstanding := some (.fetch { f with discard := true }), endedRead := some u.firstFault })) ∧
        ((∀ f, u.outstanding = some (.fetch f) → f.discard = true) → records (readEnds u.firstFault))) ∧
      (u.kind ≠ .STORE_READ → ends s₀)) ∧
    (u.phase = .DATA → u.dir = some .status → u.kind = .NONE → ends s₀) ∧
    (u.phase = .VOIDED → ∀ r, u.voidReason = some r → records (voided kind r)) ∧
    (u.phase = .CUT →
      ((u.dir = some .status ∨ (u.dir = none ∧ u.kind = .NONE)) → ends s₀) ∧
      (u.dir ≠ some .status → (u.dir ≠ none ∨ u.kind ≠ .NONE) → records (voided kind .CUT_BY_RESET)))

/-! ## Invariants -/

/-- Every step keeps the store's bytes in their canonical form. Every step keeps the damaged-line list (R8), the notice
queues (R76) and the copy queue (R126, R128). -/
def Obligations.StepKeepsMemoryListsAndQueues : Prop :=
  (∀ s t : State, Memory.wf s.store.bytes = true → step s = .next t → Memory.wf t.store.bytes = true) ∧
  (∀ s t : State, step s = .next t →
     (DamagedOk s.store → DamagedOk t.store) ∧ (NoticesOk s.notice → NoticesOk t.notice) ∧ (CopyOk s.copy → CopyOk t.copy))

/-- Every step keeps the hold table: at most one GRANTED slot covers any one page (R93), the queue holds the WAITING slots,
one for each port at most (R92, R111), and a FREE slot's fields are zero (R91). -/
def Obligations.StepKeepsHoldsDisjoint : Prop := ∀ s t : State, HoldsOk s.holds → step s = .next t → HoldsOk t.holds

/-- Every step keeps that no request in the hold queue could be granted (R118). -/
def Obligations.StepLeavesNothingToGrant : Prop :=
  ∀ s t : State, HoldsOk s.holds → Scanned s.holds → step s = .next t → Scanned t.holds

/-- Every step keeps the waits-on relation free of cycles (R116). -/
def Obligations.StepKeepsWaitsOnAcyclic : Prop :=
  ∀ s t : State, HoldsOk s.holds → Acyclic s.holds → step s = .next t → Acyclic t.holds

/-- Every step keeps what the staging buffers and the commits formed from them hold (R44, R45, R55, R57), and that a line is
asked for in phase DATA of a read alone (R46). -/
def Obligations.StepKeepsStaging : Prop :=
  ∀ s t : State, (∀ p : Port, StagingOk s.ports[p]) → step s = .next t → ∀ p : Port, StagingOk t.ports[p]
end

