-- ==== Sys2Proof/Laws/State.lean ====
section
/-! SUPPORT. The fields of the state after each update: one lemma for each, so that no proof unfolds an update; and the
entries of a vector after upd. -/

namespace Sys2Proof.Machine

/-! ## Vectors -/

theorem upd_getElem {α : Type} {n : Nat} (v : Vector α n) (i : Fin n) (f : α → α) (j : Nat) (hj : j < n) :
    (upd v i f)[j] = if i.val = j then f v[j] else v[j] := by
  simp only [upd, Vector.getElem_set]
  split
  · next h => subst h; rfl
  · rfl

@[simp] theorem upd_at {α : Type} {n : Nat} (v : Vector α n) (i : Fin n) (f : α → α) :
    (upd v i f)[i.val] = f v[i.val] := by
  rw [upd_getElem, if_pos rfl]

theorem upd_self {α : Type} {n : Nat} (v : Vector α n) (i : Fin n) (f : α → α) : (upd v i f)[i] = f v[i] :=
  upd_at v i f

theorem upd_get {α : Type} {n : Nat} (v : Vector α n) (i j : Fin n) (f : α → α) :
    (upd v i f)[j] = if i = j then f v[j] else v[j] := by
  have h := upd_getElem v i f j.val j.isLt
  simpa [Fin.ext_iff] using h

theorem upd_other {α : Type} {n : Nat} (v : Vector α n) {i j : Fin n} (f : α → α) (h : i ≠ j) :
    (upd v i f)[j] = v[j] := by
  rw [upd_get, if_neg h]

@[simp] theorem upd_id {α : Type} {n : Nat} (v : Vector α n) (i : Fin n) : upd v i (fun x => x) = v := by
  ext j hj
  rw [upd_getElem]
  split <;> rfl

@[simp] theorem upd_upd {α : Type} {n : Nat} (v : Vector α n) (i : Fin n) (f g : α → α) :
    upd (upd v i f) i g = upd v i (fun x => g (f x)) := by
  ext j hj
  simp only [upd_getElem]
  split <;> rfl

theorem upd_comm {α : Type} {n : Nat} (v : Vector α n) {i j : Fin n} (f g : α → α) (h : i ≠ j) :
    upd (upd v i f) j g = upd (upd v j g) i f := by
  ext k hk
  have h' : ¬ i.val = j.val := fun e => h (Fin.ext e)
  simp only [upd_getElem]
  split <;> split <;> first | rfl | (exfalso; omega)

/-! ## Fields after an update -/

@[simp] theorem modPort_pending (p : Port) (f : PortUnit → PortUnit) (s : State) : (s.modPort p f).pending = s.pending := rfl
@[simp] theorem modPort_device (p : Port) (f : PortUnit → PortUnit) (s : State) : (s.modPort p f).device = s.device := rfl
@[simp] theorem modPort_store (p : Port) (f : PortUnit → PortUnit) (s : State) : (s.modPort p f).store = s.store := rfl
@[simp] theorem modPort_arbiter (p : Port) (f : PortUnit → PortUnit) (s : State) : (s.modPort p f).arbiter = s.arbiter := rfl
@[simp] theorem modPort_holds (p : Port) (f : PortUnit → PortUnit) (s : State) : (s.modPort p f).holds = s.holds := rfl
@[simp] theorem modPort_notice (p : Port) (f : PortUnit → PortUnit) (s : State) : (s.modPort p f).notice = s.notice := rfl
@[simp] theorem modPort_copy (p : Port) (f : PortUnit → PortUnit) (s : State) : (s.modPort p f).copy = s.copy := rfl
@[simp] theorem modPort_translators (p : Port) (f : PortUnit → PortUnit) (s : State) : (s.modPort p f).translators = s.translators := rfl
@[simp] theorem modPort_ports (p : Port) (f : PortUnit → PortUnit) (s : State) : (s.modPort p f).ports = upd s.ports p f := rfl
@[simp] theorem modPort_cmds (p : Port) (f : PortUnit → PortUnit) (s : State) : (s.modPort p f).cmds = s.cmds := rfl
@[simp] theorem modPort_claims (p : Port) (f : PortUnit → PortUnit) (s : State) : (s.modPort p f).claims = s.claims := rfl
@[simp] theorem modPort_attn (p : Port) (f : PortUnit → PortUnit) (s : State) : (s.modPort p f).attn = s.attn := rfl
@[simp] theorem modPort_freeIndex (p : Port) (f : PortUnit → PortUnit) (s : State) : (s.modPort p f).freeIndex = s.freeIndex := rfl

@[simp] theorem modCmd_pending (p : Port) (f : CommandUnit → CommandUnit) (s : State) : (s.modCmd p f).pending = s.pending := rfl
@[simp] theorem modCmd_device (p : Port) (f : CommandUnit → CommandUnit) (s : State) : (s.modCmd p f).device = s.device := rfl
@[simp] theorem modCmd_store (p : Port) (f : CommandUnit → CommandUnit) (s : State) : (s.modCmd p f).store = s.store := rfl
@[simp] theorem modCmd_arbiter (p : Port) (f : CommandUnit → CommandUnit) (s : State) : (s.modCmd p f).arbiter = s.arbiter := rfl
@[simp] theorem modCmd_holds (p : Port) (f : CommandUnit → CommandUnit) (s : State) : (s.modCmd p f).holds = s.holds := rfl
@[simp] theorem modCmd_notice (p : Port) (f : CommandUnit → CommandUnit) (s : State) : (s.modCmd p f).notice = s.notice := rfl
@[simp] theorem modCmd_copy (p : Port) (f : CommandUnit → CommandUnit) (s : State) : (s.modCmd p f).copy = s.copy := rfl
@[simp] theorem modCmd_translators (p : Port) (f : CommandUnit → CommandUnit) (s : State) : (s.modCmd p f).translators = s.translators := rfl
@[simp] theorem modCmd_ports (p : Port) (f : CommandUnit → CommandUnit) (s : State) : (s.modCmd p f).ports = s.ports := rfl
@[simp] theorem modCmd_cmds (p : Port) (f : CommandUnit → CommandUnit) (s : State) : (s.modCmd p f).cmds = upd s.cmds p f := rfl
@[simp] theorem modCmd_claims (p : Port) (f : CommandUnit → CommandUnit) (s : State) : (s.modCmd p f).claims = s.claims := rfl
@[simp] theorem modCmd_attn (p : Port) (f : CommandUnit → CommandUnit) (s : State) : (s.modCmd p f).attn = s.attn := rfl
@[simp] theorem modCmd_freeIndex (p : Port) (f : CommandUnit → CommandUnit) (s : State) : (s.modCmd p f).freeIndex = s.freeIndex := rfl

@[simp] theorem modAttn_pending (p : Port) (f : AttnUnit → AttnUnit) (s : State) : (s.modAttn p f).pending = s.pending := rfl
@[simp] theorem modAttn_device (p : Port) (f : AttnUnit → AttnUnit) (s : State) : (s.modAttn p f).device = s.device := rfl
@[simp] theorem modAttn_store (p : Port) (f : AttnUnit → AttnUnit) (s : State) : (s.modAttn p f).store = s.store := rfl
@[simp] theorem modAttn_arbiter (p : Port) (f : AttnUnit → AttnUnit) (s : State) : (s.modAttn p f).arbiter = s.arbiter := rfl
@[simp] theorem modAttn_holds (p : Port) (f : AttnUnit → AttnUnit) (s : State) : (s.modAttn p f).holds = s.holds := rfl
@[simp] theorem modAttn_notice (p : Port) (f : AttnUnit → AttnUnit) (s : State) : (s.modAttn p f).notice = s.notice := rfl
@[simp] theorem modAttn_copy (p : Port) (f : AttnUnit → AttnUnit) (s : State) : (s.modAttn p f).copy = s.copy := rfl
@[simp] theorem modAttn_translators (p : Port) (f : AttnUnit → AttnUnit) (s : State) : (s.modAttn p f).translators = s.translators := rfl
@[simp] theorem modAttn_ports (p : Port) (f : AttnUnit → AttnUnit) (s : State) : (s.modAttn p f).ports = s.ports := rfl
@[simp] theorem modAttn_cmds (p : Port) (f : AttnUnit → AttnUnit) (s : State) : (s.modAttn p f).cmds = s.cmds := rfl
@[simp] theorem modAttn_claims (p : Port) (f : AttnUnit → AttnUnit) (s : State) : (s.modAttn p f).claims = s.claims := rfl
@[simp] theorem modAttn_attn (p : Port) (f : AttnUnit → AttnUnit) (s : State) : (s.modAttn p f).attn = upd s.attn p f := rfl
@[simp] theorem modAttn_freeIndex (p : Port) (f : AttnUnit → AttnUnit) (s : State) : (s.modAttn p f).freeIndex = s.freeIndex := rfl

@[simp] theorem modTranslator_pending (p : Port) (f : Translator → Translator) (s : State) : (s.modTranslator p f).pending = s.pending := rfl
@[simp] theorem modTranslator_device (p : Port) (f : Translator → Translator) (s : State) : (s.modTranslator p f).device = s.device := rfl
@[simp] theorem modTranslator_store (p : Port) (f : Translator → Translator) (s : State) : (s.modTranslator p f).store = s.store := rfl
@[simp] theorem modTranslator_arbiter (p : Port) (f : Translator → Translator) (s : State) : (s.modTranslator p f).arbiter = s.arbiter := rfl
@[simp] theorem modTranslator_holds (p : Port) (f : Translator → Translator) (s : State) : (s.modTranslator p f).holds = s.holds := rfl
@[simp] theorem modTranslator_notice (p : Port) (f : Translator → Translator) (s : State) : (s.modTranslator p f).notice = s.notice := rfl
@[simp] theorem modTranslator_copy (p : Port) (f : Translator → Translator) (s : State) : (s.modTranslator p f).copy = s.copy := rfl
@[simp] theorem modTranslator_translators (p : Port) (f : Translator → Translator) (s : State) : (s.modTranslator p f).translators = upd s.translators p f := rfl
@[simp] theorem modTranslator_ports (p : Port) (f : Translator → Translator) (s : State) : (s.modTranslator p f).ports = s.ports := rfl
@[simp] theorem modTranslator_cmds (p : Port) (f : Translator → Translator) (s : State) : (s.modTranslator p f).cmds = s.cmds := rfl
@[simp] theorem modTranslator_claims (p : Port) (f : Translator → Translator) (s : State) : (s.modTranslator p f).claims = s.claims := rfl
@[simp] theorem modTranslator_attn (p : Port) (f : Translator → Translator) (s : State) : (s.modTranslator p f).attn = s.attn := rfl
@[simp] theorem modTranslator_freeIndex (p : Port) (f : Translator → Translator) (s : State) : (s.modTranslator p f).freeIndex = s.freeIndex := rfl

@[simp] theorem setHolds_pending (h : HoldCtl) (s : State) : (s.setHolds h).pending = s.pending := rfl
@[simp] theorem setHolds_device (h : HoldCtl) (s : State) : (s.setHolds h).device = s.device := rfl
@[simp] theorem setHolds_store (h : HoldCtl) (s : State) : (s.setHolds h).store = s.store := rfl
@[simp] theorem setHolds_arbiter (h : HoldCtl) (s : State) : (s.setHolds h).arbiter = s.arbiter := rfl
@[simp] theorem setHolds_holds (h : HoldCtl) (s : State) : (s.setHolds h).holds = h := rfl
@[simp] theorem setHolds_notice (h : HoldCtl) (s : State) : (s.setHolds h).notice = s.notice := rfl
@[simp] theorem setHolds_copy (h : HoldCtl) (s : State) : (s.setHolds h).copy = s.copy := rfl
@[simp] theorem setHolds_translators (h : HoldCtl) (s : State) : (s.setHolds h).translators = s.translators := rfl
@[simp] theorem setHolds_ports (h : HoldCtl) (s : State) : (s.setHolds h).ports = s.ports := rfl
@[simp] theorem setHolds_cmds (h : HoldCtl) (s : State) : (s.setHolds h).cmds = s.cmds := rfl
@[simp] theorem setHolds_claims (h : HoldCtl) (s : State) : (s.setHolds h).claims = s.claims := rfl
@[simp] theorem setHolds_attn (h : HoldCtl) (s : State) : (s.setHolds h).attn = s.attn := rfl
@[simp] theorem setHolds_freeIndex (h : HoldCtl) (s : State) : (s.setHolds h).freeIndex = s.freeIndex := rfl

@[simp] theorem setStore_pending (st : StoreCtl) (s : State) : (s.setStore st).pending = s.pending := rfl
@[simp] theorem setStore_device (st : StoreCtl) (s : State) : (s.setStore st).device = s.device := rfl
@[simp] theorem setStore_store (st : StoreCtl) (s : State) : (s.setStore st).store = st := rfl
@[simp] theorem setStore_arbiter (st : StoreCtl) (s : State) : (s.setStore st).arbiter = s.arbiter := rfl
@[simp] theorem setStore_holds (st : StoreCtl) (s : State) : (s.setStore st).holds = s.holds := rfl
@[simp] theorem setStore_notice (st : StoreCtl) (s : State) : (s.setStore st).notice = s.notice := rfl
@[simp] theorem setStore_copy (st : StoreCtl) (s : State) : (s.setStore st).copy = s.copy := rfl
@[simp] theorem setStore_translators (st : StoreCtl) (s : State) : (s.setStore st).translators = s.translators := rfl
@[simp] theorem setStore_ports (st : StoreCtl) (s : State) : (s.setStore st).ports = s.ports := rfl
@[simp] theorem setStore_cmds (st : StoreCtl) (s : State) : (s.setStore st).cmds = s.cmds := rfl
@[simp] theorem setStore_claims (st : StoreCtl) (s : State) : (s.setStore st).claims = s.claims := rfl
@[simp] theorem setStore_attn (st : StoreCtl) (s : State) : (s.setStore st).attn = s.attn := rfl
@[simp] theorem setStore_freeIndex (st : StoreCtl) (s : State) : (s.setStore st).freeIndex = s.freeIndex := rfl

@[simp] theorem setNotice_pending (n : NoticeUnit) (s : State) : (s.setNotice n).pending = s.pending := rfl
@[simp] theorem setNotice_device (n : NoticeUnit) (s : State) : (s.setNotice n).device = s.device := rfl
@[simp] theorem setNotice_store (n : NoticeUnit) (s : State) : (s.setNotice n).store = s.store := rfl
@[simp] theorem setNotice_arbiter (n : NoticeUnit) (s : State) : (s.setNotice n).arbiter = s.arbiter := rfl
@[simp] theorem setNotice_holds (n : NoticeUnit) (s : State) : (s.setNotice n).holds = s.holds := rfl
@[simp] theorem setNotice_notice (n : NoticeUnit) (s : State) : (s.setNotice n).notice = n := rfl
@[simp] theorem setNotice_copy (n : NoticeUnit) (s : State) : (s.setNotice n).copy = s.copy := rfl
@[simp] theorem setNotice_translators (n : NoticeUnit) (s : State) : (s.setNotice n).translators = s.translators := rfl
@[simp] theorem setNotice_ports (n : NoticeUnit) (s : State) : (s.setNotice n).ports = s.ports := rfl
@[simp] theorem setNotice_cmds (n : NoticeUnit) (s : State) : (s.setNotice n).cmds = s.cmds := rfl
@[simp] theorem setNotice_claims (n : NoticeUnit) (s : State) : (s.setNotice n).claims = s.claims := rfl
@[simp] theorem setNotice_attn (n : NoticeUnit) (s : State) : (s.setNotice n).attn = s.attn := rfl
@[simp] theorem setNotice_freeIndex (n : NoticeUnit) (s : State) : (s.setNotice n).freeIndex = s.freeIndex := rfl

@[simp] theorem setCopy_pending (c : CopyEngine) (s : State) : (s.setCopy c).pending = s.pending := rfl
@[simp] theorem setCopy_device (c : CopyEngine) (s : State) : (s.setCopy c).device = s.device := rfl
@[simp] theorem setCopy_store (c : CopyEngine) (s : State) : (s.setCopy c).store = s.store := rfl
@[simp] theorem setCopy_arbiter (c : CopyEngine) (s : State) : (s.setCopy c).arbiter = s.arbiter := rfl
@[simp] theorem setCopy_holds (c : CopyEngine) (s : State) : (s.setCopy c).holds = s.holds := rfl
@[simp] theorem setCopy_notice (c : CopyEngine) (s : State) : (s.setCopy c).notice = s.notice := rfl
@[simp] theorem setCopy_copy (c : CopyEngine) (s : State) : (s.setCopy c).copy = c := rfl
@[simp] theorem setCopy_translators (c : CopyEngine) (s : State) : (s.setCopy c).translators = s.translators := rfl
@[simp] theorem setCopy_ports (c : CopyEngine) (s : State) : (s.setCopy c).ports = s.ports := rfl
@[simp] theorem setCopy_cmds (c : CopyEngine) (s : State) : (s.setCopy c).cmds = s.cmds := rfl
@[simp] theorem setCopy_claims (c : CopyEngine) (s : State) : (s.setCopy c).claims = s.claims := rfl
@[simp] theorem setCopy_attn (c : CopyEngine) (s : State) : (s.setCopy c).attn = s.attn := rfl
@[simp] theorem setCopy_freeIndex (c : CopyEngine) (s : State) : (s.setCopy c).freeIndex = s.freeIndex := rfl

@[simp] theorem setArbiter_pending (a : Arbiter) (s : State) : (s.setArbiter a).pending = s.pending := rfl
@[simp] theorem setArbiter_device (a : Arbiter) (s : State) : (s.setArbiter a).device = s.device := rfl
@[simp] theorem setArbiter_store (a : Arbiter) (s : State) : (s.setArbiter a).store = s.store := rfl
@[simp] theorem setArbiter_arbiter (a : Arbiter) (s : State) : (s.setArbiter a).arbiter = a := rfl
@[simp] theorem setArbiter_holds (a : Arbiter) (s : State) : (s.setArbiter a).holds = s.holds := rfl
@[simp] theorem setArbiter_notice (a : Arbiter) (s : State) : (s.setArbiter a).notice = s.notice := rfl
@[simp] theorem setArbiter_copy (a : Arbiter) (s : State) : (s.setArbiter a).copy = s.copy := rfl
@[simp] theorem setArbiter_translators (a : Arbiter) (s : State) : (s.setArbiter a).translators = s.translators := rfl
@[simp] theorem setArbiter_ports (a : Arbiter) (s : State) : (s.setArbiter a).ports = s.ports := rfl
@[simp] theorem setArbiter_cmds (a : Arbiter) (s : State) : (s.setArbiter a).cmds = s.cmds := rfl
@[simp] theorem setArbiter_claims (a : Arbiter) (s : State) : (s.setArbiter a).claims = s.claims := rfl
@[simp] theorem setArbiter_attn (a : Arbiter) (s : State) : (s.setArbiter a).attn = s.attn := rfl
@[simp] theorem setArbiter_freeIndex (a : Arbiter) (s : State) : (s.setArbiter a).freeIndex = s.freeIndex := rfl

@[simp] theorem setClaims_pending (cs : List Claim) (s : State) : (s.setClaims cs).pending = s.pending := rfl
@[simp] theorem setClaims_device (cs : List Claim) (s : State) : (s.setClaims cs).device = s.device := rfl
@[simp] theorem setClaims_store (cs : List Claim) (s : State) : (s.setClaims cs).store = s.store := rfl
@[simp] theorem setClaims_arbiter (cs : List Claim) (s : State) : (s.setClaims cs).arbiter = s.arbiter := rfl
@[simp] theorem setClaims_holds (cs : List Claim) (s : State) : (s.setClaims cs).holds = s.holds := rfl
@[simp] theorem setClaims_notice (cs : List Claim) (s : State) : (s.setClaims cs).notice = s.notice := rfl
@[simp] theorem setClaims_copy (cs : List Claim) (s : State) : (s.setClaims cs).copy = s.copy := rfl
@[simp] theorem setClaims_translators (cs : List Claim) (s : State) : (s.setClaims cs).translators = s.translators := rfl
@[simp] theorem setClaims_ports (cs : List Claim) (s : State) : (s.setClaims cs).ports = s.ports := rfl
@[simp] theorem setClaims_cmds (cs : List Claim) (s : State) : (s.setClaims cs).cmds = s.cmds := rfl
@[simp] theorem setClaims_claims (cs : List Claim) (s : State) : (s.setClaims cs).claims = cs := rfl
@[simp] theorem setClaims_attn (cs : List Claim) (s : State) : (s.setClaims cs).attn = s.attn := rfl
@[simp] theorem setClaims_freeIndex (cs : List Claim) (s : State) : (s.setClaims cs).freeIndex = s.freeIndex := rfl

@[simp] theorem setDevice_pending (d : Device) (s : State) : (s.setDevice d).pending = s.pending := rfl
@[simp] theorem setDevice_device (d : Device) (s : State) : (s.setDevice d).device = d := rfl
@[simp] theorem setDevice_store (d : Device) (s : State) : (s.setDevice d).store = s.store := rfl
@[simp] theorem setDevice_arbiter (d : Device) (s : State) : (s.setDevice d).arbiter = s.arbiter := rfl
@[simp] theorem setDevice_holds (d : Device) (s : State) : (s.setDevice d).holds = s.holds := rfl
@[simp] theorem setDevice_notice (d : Device) (s : State) : (s.setDevice d).notice = s.notice := rfl
@[simp] theorem setDevice_copy (d : Device) (s : State) : (s.setDevice d).copy = s.copy := rfl
@[simp] theorem setDevice_translators (d : Device) (s : State) : (s.setDevice d).translators = s.translators := rfl
@[simp] theorem setDevice_ports (d : Device) (s : State) : (s.setDevice d).ports = s.ports := rfl
@[simp] theorem setDevice_cmds (d : Device) (s : State) : (s.setDevice d).cmds = s.cmds := rfl
@[simp] theorem setDevice_claims (d : Device) (s : State) : (s.setDevice d).claims = s.claims := rfl
@[simp] theorem setDevice_attn (d : Device) (s : State) : (s.setDevice d).attn = s.attn := rfl
@[simp] theorem setDevice_freeIndex (d : Device) (s : State) : (s.setDevice d).freeIndex = s.freeIndex := rfl

@[simp] theorem setPending_pending (cs : List Instr) (s : State) : (s.setPending cs).pending = cs := rfl
@[simp] theorem setPending_device (cs : List Instr) (s : State) : (s.setPending cs).device = s.device := rfl
@[simp] theorem setPending_store (cs : List Instr) (s : State) : (s.setPending cs).store = s.store := rfl
@[simp] theorem setPending_arbiter (cs : List Instr) (s : State) : (s.setPending cs).arbiter = s.arbiter := rfl
@[simp] theorem setPending_holds (cs : List Instr) (s : State) : (s.setPending cs).holds = s.holds := rfl
@[simp] theorem setPending_notice (cs : List Instr) (s : State) : (s.setPending cs).notice = s.notice := rfl
@[simp] theorem setPending_copy (cs : List Instr) (s : State) : (s.setPending cs).copy = s.copy := rfl
@[simp] theorem setPending_translators (cs : List Instr) (s : State) : (s.setPending cs).translators = s.translators := rfl
@[simp] theorem setPending_ports (cs : List Instr) (s : State) : (s.setPending cs).ports = s.ports := rfl
@[simp] theorem setPending_cmds (cs : List Instr) (s : State) : (s.setPending cs).cmds = s.cmds := rfl
@[simp] theorem setPending_claims (cs : List Instr) (s : State) : (s.setPending cs).claims = s.claims := rfl
@[simp] theorem setPending_attn (cs : List Instr) (s : State) : (s.setPending cs).attn = s.attn := rfl
@[simp] theorem setPending_freeIndex (cs : List Instr) (s : State) : (s.setPending cs).freeIndex = s.freeIndex := rfl

@[simp] theorem setFree_freeIndex (n : Nat) (s : State) : (s.setFree n).freeIndex = n := rfl
@[simp] theorem setFree_pending (n : Nat) (s : State) : (s.setFree n).pending = s.pending := rfl
@[simp] theorem setFree_device (n : Nat) (s : State) : (s.setFree n).device = s.device := rfl
@[simp] theorem setFree_store (n : Nat) (s : State) : (s.setFree n).store = s.store := rfl
@[simp] theorem setFree_arbiter (n : Nat) (s : State) : (s.setFree n).arbiter = s.arbiter := rfl
@[simp] theorem setFree_holds (n : Nat) (s : State) : (s.setFree n).holds = s.holds := rfl
@[simp] theorem setFree_notice (n : Nat) (s : State) : (s.setFree n).notice = s.notice := rfl
@[simp] theorem setFree_copy (n : Nat) (s : State) : (s.setFree n).copy = s.copy := rfl
@[simp] theorem setFree_translators (n : Nat) (s : State) : (s.setFree n).translators = s.translators := rfl
@[simp] theorem setFree_ports (n : Nat) (s : State) : (s.setFree n).ports = s.ports := rfl
@[simp] theorem setFree_cmds (n : Nat) (s : State) : (s.setFree n).cmds = s.cmds := rfl
@[simp] theorem setFree_claims (n : Nat) (s : State) : (s.setFree n).claims = s.claims := rfl
@[simp] theorem setFree_attn (n : Nat) (s : State) : (s.setFree n).attn = s.attn := rfl

/-! ## Whether the blocks act -/

@[simp] theorem modPort_running (p : Port) (f : PortUnit → PortUnit) (s : State) : (s.modPort p f).running = s.running := rfl
@[simp] theorem modCmd_running (p : Port) (f : CommandUnit → CommandUnit) (s : State) : (s.modCmd p f).running = s.running := rfl
@[simp] theorem modAttn_running (p : Port) (f : AttnUnit → AttnUnit) (s : State) : (s.modAttn p f).running = s.running := rfl
@[simp] theorem modTranslator_running (p : Port) (f : Translator → Translator) (s : State) : (s.modTranslator p f).running = s.running := rfl
@[simp] theorem setHolds_running (h : HoldCtl) (s : State) : (s.setHolds h).running = s.running := rfl
@[simp] theorem setStore_running (st : StoreCtl) (s : State) : (s.setStore st).running = s.running := rfl
@[simp] theorem setNotice_running (n : NoticeUnit) (s : State) : (s.setNotice n).running = s.running := rfl
@[simp] theorem setCopy_running (c : CopyEngine) (s : State) : (s.setCopy c).running = s.running := rfl
@[simp] theorem setArbiter_running (a : Arbiter) (s : State) : (s.setArbiter a).running = s.running := rfl
@[simp] theorem setClaims_running (cs : List Claim) (s : State) : (s.setClaims cs).running = s.running := rfl
@[simp] theorem setPending_running (cs : List Instr) (s : State) : (s.setPending cs).running = s.running := rfl
@[simp] theorem setFree_running (n : Nat) (s : State) : (s.setFree n).running = s.running := rfl

end Sys2Proof.Machine
end

