-- ==== Sys2Proof/Laws/Attention.lean ====
section
/-! SUPPORT. The choice of an attention source, which TAKE and DONE share, and the bits of the summaries. -/

namespace Sys2Proof.Machine

theorem mem_allSources (i : SourceNo) : i ∈ allSources := by
  revert i
  decide

/-- `i` comes before `j` in the order of TAKE and DONE: a higher level, or the same level and no higher number. -/
def AttnUnit.atLeast (u : AttnUnit) (i j : SourceNo) : Prop :=
  u.sources[j].level < u.sources[i].level ∨ (u.sources[j].level = u.sources[i].level ∧ i ≤ j)

theorem atLeast_refl (u : AttnUnit) (i : SourceNo) : u.atLeast i i := .inr ⟨rfl, le_refl i⟩

theorem atLeast_trans {u : AttnUnit} {i j k : SourceNo} (h : u.atLeast i j) (h' : u.atLeast j k) : u.atLeast i k := by
  rcases h with h | ⟨h, l⟩ <;> rcases h' with h' | ⟨h', l'⟩
  · exact .inl (lt_trans h' h)
  · exact .inl (lt_of_eq_of_lt h' h)
  · exact .inl (lt_of_lt_of_eq h' h)
  · exact .inr ⟨h'.trans h, l.trans l'⟩

theorem atLeast_antisymm {u : AttnUnit} {i j : SourceNo} (h : u.atLeast i j) (h' : u.atLeast j i) : i = j := by
  rcases h with h | ⟨h, l⟩ <;> rcases h' with h' | ⟨h', l'⟩
  · exact absurd h' (lt_asymm h)
  · exact absurd h'.symm (ne_of_lt h)
  · exact absurd h.symm (ne_of_lt h')
  · exact le_antisymm l l'

/-- One step of the choice keeps the better of what it has and the next source, which has a higher number. -/
theorem better_some {u : AttnUnit} {ok : SourceNo → Bool} {best : Option SourceNo} {a k : SourceNo}
    (hb : ∀ b, best = some b → b < a) (h : u.better ok best a = some k) :
    (best = some k ∨ (k = a ∧ ok a = true)) ∧ (∀ b, best = some b → u.atLeast k b) ∧ (ok a = true → u.atLeast k a) := by
  unfold AttnUnit.better at h
  split at h
  · next ha =>
    cases best with
    | none =>
      obtain rfl : a = k := Option.some.inj h
      exact ⟨.inr ⟨rfl, ha⟩, by simp, fun _ => atLeast_refl u a⟩
    | some b =>
      dsimp only at h
      split at h
      · next l =>
        obtain rfl : a = k := Option.some.inj h
        refine ⟨.inr ⟨rfl, ha⟩, fun b' e => ?_, fun _ => atLeast_refl u a⟩
        obtain rfl : b = b' := Option.some.inj e
        exact .inl l
      · next l =>
        obtain rfl : b = k := Option.some.inj h
        refine ⟨.inl rfl, fun b' e => ?_, fun _ => ?_⟩
        · obtain rfl : b = b' := Option.some.inj e
          exact atLeast_refl u b
        · rcases lt_or_eq_of_le (not_lt.mp l) with l' | l'
          · exact .inl l'
          · exact .inr ⟨l', (hb b rfl).le⟩
  · next ha =>
    refine ⟨.inl h, fun b e => ?_, fun ha' => absurd ha' ha⟩
    obtain rfl : b = k := Option.some.inj (e.symm.trans h)
    exact atLeast_refl u b

theorem better_none {u : AttnUnit} {ok : SourceNo → Bool} {best : Option SourceNo} {a : SourceNo}
    (h : u.better ok best a = none) : best = none ∧ ok a = false := by
  unfold AttnUnit.better at h
  split at h
  · cases best with
    | none => exact absurd h (by simp)
    | some b =>
      dsimp only at h
      split at h <;> exact absurd h (by simp)
  · next ha => exact ⟨h, by simpa using ha⟩

/-- The choice over ascending sources that all have higher numbers than what is already chosen. -/
theorem foldl_better (u : AttnUnit) (ok : SourceNo → Bool) (l : List SourceNo) (best : Option SourceNo)
    (hl : l.Pairwise (· < ·)) (hb : ∀ b, best = some b → ∀ x ∈ l, b < x) :
    (∀ i, l.foldl (u.better ok) best = some i → (best = some i ∨ (i ∈ l ∧ ok i = true)) ∧
      (∀ b, best = some b → u.atLeast i b) ∧ ∀ j ∈ l, ok j = true → u.atLeast i j) ∧
    (l.foldl (u.better ok) best = none → best = none ∧ ∀ j ∈ l, ok j = false) := by
  induction l generalizing best with
  | nil =>
    refine ⟨fun i h => ⟨.inl h, fun b e => ?_, by simp⟩, fun h => ⟨h, by simp⟩⟩
    obtain rfl : b = i := Option.some.inj (e.symm.trans h)
    exact atLeast_refl u b
  | cons a l ih =>
    rw [List.pairwise_cons] at hl
    have first (b : SourceNo) (e : best = some b) : b < a := hb b e a List.mem_cons_self
    obtain ⟨h1, h2⟩ := ih (u.better ok best a) hl.2 fun k e x hx => by
      rcases (better_some first e).1 with e' | ⟨rfl, _⟩
      · exact hb k e' x (List.mem_cons_of_mem _ hx)
      · exact hl.1 x hx
    refine ⟨fun i h => ?_, fun h => ?_⟩
    · obtain ⟨c1, c2, c3⟩ := h1 i h
      cases e : u.better ok best a with
      | none =>
        obtain ⟨e', ha⟩ := better_none e
        have c1 : i ∈ l ∧ ok i = true := c1.resolve_left (by rw [e]; simp)
        refine ⟨.inr ⟨List.mem_cons_of_mem _ c1.1, c1.2⟩, fun b t => absurd (e'.symm.trans t) (by simp), fun j hj hok => ?_⟩
        rcases List.mem_cons.mp hj with rfl | hj
        · exact absurd (ha.symm.trans hok) (by simp)
        · exact c3 j hj hok
      | some k =>
        obtain ⟨d1, d2, d3⟩ := better_some first e
        have ik : u.atLeast i k := c2 k e
        refine ⟨?_, fun b t => atLeast_trans ik (d2 b t), fun j hj hok => ?_⟩
        · rcases c1 with c1 | c1
          · obtain rfl : k = i := Option.some.inj (e.symm.trans c1)
            rcases d1 with d1 | ⟨rfl, d1⟩
            · exact .inl d1
            · exact .inr ⟨List.mem_cons_self, d1⟩
          · exact .inr ⟨List.mem_cons_of_mem _ c1.1, c1.2⟩
        · rcases List.mem_cons.mp hj with rfl | hj
          · exact atLeast_trans ik (d3 hok)
          · exact c3 j hj hok
    · obtain ⟨c1, c2⟩ := h2 h
      obtain ⟨e, ha⟩ := better_none c1
      refine ⟨e, fun j hj => ?_⟩
      rcases List.mem_cons.mp hj with rfl | hj
      · exact ha
      · exact c2 j hj

/-- What `pick` answers satisfies its test, and comes before every source that does. -/
theorem pick_some {u : AttnUnit} {ok : SourceNo → Bool} {i : SourceNo} (h : u.pick ok = some i) :
    ok i = true ∧ ∀ j, ok j = true → u.atLeast i j := by
  obtain ⟨h1, -⟩ := foldl_better u ok allSources none (by decide) (by simp)
  obtain ⟨c1, -, c3⟩ := h1 i h
  exact ⟨(c1.resolve_left (by simp)).2, fun j hj => c3 j (mem_allSources j) hj⟩

/-- `pick` answers the one source that satisfies its test and comes before all that do. -/
theorem pick_of_first {u : AttnUnit} {ok : SourceNo → Bool} {i : SourceNo} (hi : ok i = true)
    (h : ∀ j, ok j = true → u.atLeast i j) : u.pick ok = some i := by
  cases e : u.pick ok with
  | none =>
    obtain ⟨-, h2⟩ := foldl_better u ok allSources none (by decide) (by simp)
    exact absurd (((h2 e).2 i (mem_allSources i)).symm.trans hi) (by simp)
  | some k =>
    obtain ⟨hk, hm⟩ := pick_some e
    rw [atLeast_antisymm (hm i hi) (h k hk)]

theorem pick_of_none {u : AttnUnit} {ok : SourceNo → Bool} (h : ∀ i, ok i = false) : u.pick ok = none := by
  cases e : u.pick ok with
  | none => rfl
  | some k => exact absurd ((h k).symm.trans (pick_some e).1) (by simp)

/-- Bit `i` of a summary is source `i`'s flag. -/
theorem summary_bit (u : AttnUnit) (f : Source → Bool) (i : SourceNo) :
    (u.summary f).getLsbD i.val = f u.sources[i] := by
  have bits : ∀ (a b c d e f g h : Bool) (i : Fin 8),
      BitVec.getLsbD (
        let x : Byte := 0
        let x := if a then x ||| BitVec.twoPow 8 0 else x
        let x := if b then x ||| BitVec.twoPow 8 1 else x
        let x := if c then x ||| BitVec.twoPow 8 2 else x
        let x := if d then x ||| BitVec.twoPow 8 3 else x
        let x := if e then x ||| BitVec.twoPow 8 4 else x
        let x := if f then x ||| BitVec.twoPow 8 5 else x
        let x := if g then x ||| BitVec.twoPow 8 6 else x
        if h then x ||| BitVec.twoPow 8 7 else x) i.val = (#v[a, b, c, d, e, f, g, h])[i] := by decide
  refine Eq.trans ?_ ((bits (f u.sources[0]) (f u.sources[1]) (f u.sources[2]) (f u.sources[3]) (f u.sources[4])
    (f u.sources[5]) (f u.sources[6]) (f u.sources[7]) i).trans ?_)
  · rfl
  · fin_cases i <;> rfl

end Sys2Proof.Machine
end

