-- ==== Sys2Proof/Laws/Claims.lean ====
section
/-! SUPPORT. Finding a claim: takeFirst finds the oldest claim that satisfies its test. -/

namespace Sys2Proof.Machine

theorem takeFirst_some {f : Claim → Bool} {cs : List Claim} {c : Claim} {rest : List Claim}
    (h : takeFirst f cs = some (c, rest)) :
    ∃ before after, cs = before ++ c :: after ∧ rest = before ++ after ∧ (∀ x ∈ before, f x = false) ∧ f c = true := by
  induction cs generalizing rest with
  | nil => exact absurd h (by simp [takeFirst])
  | cons a cs ih =>
    unfold takeFirst at h
    split at h
    · next ha =>
      obtain ⟨rfl, rfl⟩ : a = c ∧ cs = rest := by simpa using h
      exact ⟨[], cs, rfl, rfl, by simp, ha⟩
    · next ha =>
      simp only [Option.map_eq_some_iff] at h
      obtain ⟨⟨c', r'⟩, h', e⟩ := h
      obtain ⟨rfl, rfl⟩ : c' = c ∧ a :: r' = rest := by simpa using e
      obtain ⟨b, af, rfl, rfl, hb, hc⟩ := ih h'
      exact ⟨a :: b, af, rfl, rfl, by simpa [ha] using hb, hc⟩

theorem takeFirst_none {f : Claim → Bool} {cs : List Claim} (h : ∀ c ∈ cs, f c = false) : takeFirst f cs = none := by
  induction cs with
  | nil => rfl
  | cons a cs ih => simp_all [takeFirst]

theorem takeFirst_eq_none {f : Claim → Bool} {cs : List Claim} (h : takeFirst f cs = none) : ∀ c ∈ cs, f c = false := by
  induction cs with
  | nil => simp
  | cons a cs ih =>
    unfold takeFirst at h
    split at h
    · exact absurd h (by simp)
    · next ha =>
      simp only [Option.map_eq_none_iff] at h
      intro c hc
      rcases List.mem_cons.1 hc with rfl | hc
      · simpa using ha
      · exact ih h c hc

theorem takeFirst_append {f : Claim → Bool} {before after : List Claim} {c : Claim} (hb : ∀ x ∈ before, f x = false)
    (hc : f c = true) : takeFirst f (before ++ c :: after) = some (c, before ++ after) := by
  induction before with
  | nil => simp [takeFirst, hc]
  | cons a b ih => simp_all [takeFirst]

theorem replaceFirst_append {f : Claim → Bool} {g : Claim → Option Claim} {before after : List Claim} {c d : Claim}
    (hb : ∀ x ∈ before, f x = false) (hc : f c = true) (hg : g c = some d) :
    replaceFirst f g (before ++ c :: after) = before ++ d :: after := by
  induction before with
  | nil => simp [replaceFirst, hc, hg]
  | cons a b ih => simp_all [replaceFirst]

theorem takeFirst_of_oldest {f : Claim → Bool} {c : Claim} {rest : List Claim} {s : State}
    (h : Safety.Oldest f c rest s) : takeFirst f s.claims = some (c, rest) := by
  obtain ⟨b, a, e, rfl, hb, hc⟩ := h
  rw [e]
  exact takeFirst_append hb hc

theorem takeFirst_test {f : Claim → Bool} {cs : List Claim} {c : Claim} {rest : List Claim}
    (h : takeFirst f cs = some (c, rest)) : f c = true := by
  obtain ⟨_, _, _, _, _, hc⟩ := takeFirst_some h
  exact hc

theorem issuer_of_owned {p : Port} {code : Byte} {c : Claim} (h : isOwned p code c = true) : c.issuer = p := by
  simp only [isOwned, Bool.and_eq_true, beq_iff_eq] at h
  exact h.1.1

theorem issuer_of_unit {p : Port} {c : Claim} (h : anyAtUnit p c = true) : c.issuer = p := by
  simp only [anyAtUnit, Bool.and_eq_true, beq_iff_eq] at h
  exact h.1

theorem issuer_of_atUnit {p : Port} {code : Byte} {c : Claim} (h : atUnit p code c = true) : c.issuer = p := by
  simp only [atUnit, Bool.and_eq_true, beq_iff_eq] at h
  exact h.1.1

theorem issuer_of_bad {p : Port} {c : Claim} (h : badAtUnit p c = true) : c.issuer = p := by
  simp only [badAtUnit, Bool.and_eq_true] at h
  exact issuer_of_unit h.1

theorem issuer_of_with {p t : Port} {code : Byte} {c : Claim} (h : isWith p t code c = true) : c.issuer = p := by
  simp only [isWith, Bool.and_eq_true, beq_iff_eq] at h
  exact h.1.1

theorem issuer_of_halves {p : Port} {c : Claim} (h : isHalves p c = true) : c.issuer = p := by
  simp only [isHalves, Bool.and_eq_true, beq_iff_eq] at h
  exact h.1.1

theorem issuer_of_modeDue {p : Port} {c : Claim} (h : modeDue p c = true) : c.issuer = p := by
  simp only [modeDue, Bool.and_eq_true] at h
  exact issuer_of_halves h.1

theorem issuer_of_outputDue {p : Port} {c : Claim} (h : outputDue p c = true) : c.issuer = p := by
  simp only [outputDue, Bool.and_eq_true] at h
  exact issuer_of_halves h.1

theorem issuer_of_begin {p t : Port} {c : Claim} (h : isBegin p t c = true) : c.issuer = p := by
  simp only [isBegin, Bool.and_eq_true, beq_iff_eq] at h
  exact h.1

end Sys2Proof.Machine
end

