-- ==== Sys2Proof/Laws/Frames.lean ====
section
/-! SUPPORT. What the shared operations touch. Each lemma says: if `s` differs from `s₀` in no part outside `T`, and `T` has
the parts the operation touches, the operation's result differs from `s₀` in no part outside `T`. They are simp lemmas, so
that a frame is proved by simp. -/

namespace Sys2Proof.Machine

open Sys2Proof.Safety

@[simp] theorem Touches.refl (T : Part → Bool) (s : State) : Touches T s s := by
  intro x _
  cases x <;> simp [Part.kept]

theorem Touches.trans {T : Part → Bool} {s t u : State} (h : Touches T s t) (h' : Touches T t u) : Touches T s u := by
  intro x hx
  have a := h x hx
  have b := h' x hx
  cases x <;> simp_all [Part.kept]

theorem Touches.mono {A T : Part → Bool} {s t : State} (h : Touches A s t) (hT : ∀ x, T x = false → A x = false) :
    Touches T s t := fun x hx => h x (hT x hx)

/-! ## The updates -/

@[simp] theorem modPort_touches {T : Part → Bool} {s₀ s : State} (p : Port) (f : PortUnit → PortUnit)
    (hT : T (.unit p) = true) (h : Touches T s₀ s) : Touches T s₀ (s.modPort p f) := by
  refine Touches.trans h fun x hx => ?_
  cases x <;> simp only [Part.kept, modPort_pending, modPort_device, modPort_store, modPort_arbiter, modPort_holds,
    modPort_notice, modPort_copy, modPort_translators, modPort_cmds, modPort_claims, modPort_freeIndex, modPort_attn, and_self,
    implies_true, modPort_ports]
  next q =>
    refine upd_other _ _ fun e => ?_
    rw [← e, hT] at hx
    exact absurd hx (by decide)

@[simp] theorem modCmd_touches {T : Part → Bool} {s₀ s : State} (p : Port) (f : CommandUnit → CommandUnit)
    (hT : T (.command p) = true) (h : Touches T s₀ s) : Touches T s₀ (s.modCmd p f) := by
  refine Touches.trans h fun x hx => ?_
  cases x <;> simp only [Part.kept, modCmd_pending, modCmd_device, modCmd_store, modCmd_arbiter, modCmd_holds,
    modCmd_notice, modCmd_copy, modCmd_translators, modCmd_ports, modCmd_claims, modCmd_freeIndex, modCmd_attn, and_self,
    implies_true, modCmd_cmds]
  next q =>
    refine upd_other _ _ fun e => ?_
    rw [← e, hT] at hx
    exact absurd hx (by decide)

@[simp] theorem modAttn_touches {T : Part → Bool} {s₀ s : State} (p : Port) (f : AttnUnit → AttnUnit)
    (hT : T (.attention p) = true) (h : Touches T s₀ s) : Touches T s₀ (s.modAttn p f) := by
  refine Touches.trans h fun x hx => ?_
  cases x <;> simp only [Part.kept, modAttn_pending, modAttn_device, modAttn_store, modAttn_arbiter, modAttn_holds,
    modAttn_notice, modAttn_copy, modAttn_translators, modAttn_ports, modAttn_claims, modAttn_freeIndex, modAttn_cmds, and_self,
    implies_true, modAttn_attn]
  next q =>
    refine upd_other _ _ fun e => ?_
    rw [← e, hT] at hx
    exact absurd hx (by decide)

@[simp] theorem modTranslator_touches {T : Part → Bool} {s₀ s : State} (p : Port) (f : Translator → Translator)
    (hT : T (.translator p) = true) (h : Touches T s₀ s) : Touches T s₀ (s.modTranslator p f) := by
  refine Touches.trans h fun x hx => ?_
  cases x <;> simp only [Part.kept, modTranslator_pending, modTranslator_device, modTranslator_store,
    modTranslator_arbiter, modTranslator_holds, modTranslator_notice, modTranslator_copy, modTranslator_attn,
    modTranslator_ports, modTranslator_claims, modTranslator_freeIndex, modTranslator_cmds, and_self, implies_true, modTranslator_translators]
  next q =>
    refine upd_other _ _ fun e => ?_
    rw [← e, hT] at hx
    exact absurd hx (by decide)

@[simp] theorem setHolds_touches {T : Part → Bool} {s₀ s : State} (x : HoldCtl) (hT : T .holds = true)
    (h : Touches T s₀ s) : Touches T s₀ (s.setHolds x) :=
  Touches.trans h fun y hy => by cases y <;> simp_all [Part.kept]

@[simp] theorem setCopy_touches {T : Part → Bool} {s₀ s : State} (x : CopyEngine) (hT : T .copy = true)
    (h : Touches T s₀ s) : Touches T s₀ (s.setCopy x) :=
  Touches.trans h fun y hy => by cases y <;> simp_all [Part.kept]

@[simp] theorem setArbiter_touches {T : Part → Bool} {s₀ s : State} (x : Arbiter) (hT : T .arbiter = true)
    (h : Touches T s₀ s) : Touches T s₀ (s.setArbiter x) :=
  Touches.trans h fun y hy => by cases y <;> simp_all [Part.kept]

@[simp] theorem setClaims_touches {T : Part → Bool} {s₀ s : State} (x : List Claim) (hT : T .claims = true)
    (h : Touches T s₀ s) : Touches T s₀ (s.setClaims x) :=
  Touches.trans h fun y hy => by cases y <;> simp_all [Part.kept]

@[simp] theorem claims_touches {T : Part → Bool} {s₀ s : State} (cs : List Claim) (hT : T .claims = true)
    (h : Touches T s₀ s) : Touches T s₀ { s with claims := cs } := setClaims_touches cs hT h

@[simp] theorem setFree_touches {T : Part → Bool} {s₀ s : State} (n : Nat) (hT : T .free = true)
    (h : Touches T s₀ s) : Touches T s₀ (s.setFree n) :=
  Touches.trans h fun y hy => by cases y <;> simp_all [Part.kept]

@[simp] theorem setPins_touches {T : Part → Bool} {s₀ s : State} (x : Device) (hT : T .pins = true)
    (hs : x.supervisor = s.device.supervisor) (ha : x.asValue = s.device.asValue)
    (h : Touches T s₀ s) : Touches T s₀ (s.setDevice x) :=
  Touches.trans h fun y hy => by cases y <;> simp_all [Part.kept]

/-- Another store: what is not in `T` is the same. -/
theorem setStore_touches {T : Part → Bool} {s₀ s : State} (x : StoreCtl)
    (hx : ∀ y, T y = false → y.kept s (s.setStore x)) (h : Touches T s₀ s) : Touches T s₀ (s.setStore x) :=
  Touches.trans h hx

/-- Other watch sets and notice queues: what is not in `T` is the same. -/
theorem setNotice_touches {T : Part → Bool} {s₀ s : State} (x : NoticeUnit)
    (hw : T .watch = false → x.watch = s.notice.watch)
    (hq : ∀ q : Port, T (.notices q) = false → x.queues[q] = s.notice.queues[q])
    (h : Touches T s₀ s) : Touches T s₀ (s.setNotice x) :=
  Touches.trans h fun y hy => by
    cases y <;> first | exact hw hy | exact hq _ hy | simp [Part.kept]

/-! ## The operations -/

/-! ### What the store controller's services keep of its state -/

theorem readCheck_keeps (l : LineNo) (o : ReadOutcome) (st : StoreCtl) :
    (st.readCheck l o).1.bytes = st.bytes ∧ (st.readCheck l o).1.codesFresh = st.codesFresh ∧
      (st.readCheck l o).1.pages = st.pages := by
  unfold StoreCtl.readCheck StoreCtl.enterDamaged
  cases o <;> simp only [] <;> (repeat' split) <;> simp

theorem serveFetch_keeps (h : HoldCtl) (q : Port) (pg : Page) (ln : Fin 16) (o : ReadOutcome) (st : StoreCtl) :
    (st.serveFetch h q pg ln o).1.bytes = st.bytes ∧ (st.serveFetch h q pg ln o).1.codesFresh = st.codesFresh ∧
      (st.serveFetch h q pg ln o).1.pages = st.pages := by
  unfold StoreCtl.serveFetch
  have := readCheck_keeps (lineNo pg ln) o st
  (repeat' split) <;> simp_all

theorem damageCheck_keeps (es : List Entry) (pg : Page) (lns : List (Fin 16)) (st : StoreCtl) (reads : List ReadOutcome) :
    (st.damageCheck es pg reads lns).1.bytes = st.bytes ∧ (st.damageCheck es pg reads lns).1.codesFresh = st.codesFresh ∧
      (st.damageCheck es pg reads lns).1.pages = st.pages := by
  induction lns generalizing st reads with
  | nil => simp [StoreCtl.damageCheck]
  | cons ln lns ih =>
    have := readCheck_keeps (lineNo pg ln) (reads.headD .good) st
    unfold StoreCtl.damageCheck
    simp only []
    split
    · exact ih st reads
    · split
      · exact ⟨rfl, rfl, rfl⟩
      · split
        · have := ih (st.readCheck (lineNo pg ln) (reads.headD .good)).1 reads.tail
          simp_all
        · exact this

theorem commitCheck_keeps (sup : Port) (h : HoldCtl) (q : Port) (es : List Entry) (pgs : List Page) (st : StoreCtl)
    (reads : List ReadOutcome) :
    (st.commitCheck sup h q es reads pgs).1.bytes = st.bytes ∧
      (st.commitCheck sup h q es reads pgs).1.codesFresh = st.codesFresh ∧
      (st.commitCheck sup h q es reads pgs).1.pages = st.pages := by
  induction pgs generalizing st reads with
  | nil => simp [StoreCtl.commitCheck]
  | cons pg pgs ih =>
    have := damageCheck_keeps es pg allLines st reads
    unfold StoreCtl.commitCheck
    simp only []
    split
    · exact ⟨rfl, rfl, rfl⟩
    · split
      · exact ⟨rfl, rfl, rfl⟩
      · split
        · exact this
        · have := ih (st.damageCheck es pg reads allLines).1 (st.damageCheck es pg reads allLines).2.1
          simp_all

theorem readSource_keeps (src : Page) (lns : List (Fin 16)) (st : StoreCtl) (reads : List ReadOutcome) :
    (st.readSource src reads lns).1.bytes = st.bytes ∧ (st.readSource src reads lns).1.codesFresh = st.codesFresh ∧
      (st.readSource src reads lns).1.pages = st.pages := by
  induction lns generalizing st reads with
  | nil => simp [StoreCtl.readSource]
  | cons ln lns ih =>
    have := readCheck_keeps (lineNo src ln) (reads.headD .good) st
    unfold StoreCtl.readSource
    simp only []
    split <;> simp_all

/-- The entry of a page after the versions of the selected pages have been increased. -/
theorem bumpVersions_get (f : Page → Bool) (pages : Vector PageEntry 128) (pg : Page) :
    (bumpVersions f pages)[pg] = if f pg then { pages[pg] with version := pages[pg].version + 1 } else pages[pg] := by
  simp [bumpVersions]

theorem serveCommit_policies (sup : Port) (h : HoldCtl) (q : Port) (es : List Entry) (reads : List ReadOutcome)
    (st : StoreCtl) (pg : Page) :
    (st.serveCommit sup h q es reads).1.pages[pg].policy = st.pages[pg].policy ∧
      (st.serveCommit sup h q es reads).1.pages[pg].owner = st.pages[pg].owner := by
  have := commitCheck_keeps sup h q es (touchedPages es) st reads
  unfold StoreCtl.serveCommit
  simp only []
  split
  · simp_all
  · simp only [StoreCtl.applyCommit, StoreCtl.undamage, bumpVersions_get]
    split <;> simp_all

/-- Increasing versions keeps policies and owners. -/
theorem bumpVersions_policies (f : Page → Bool) (pages : Vector PageEntry 128) (pg : Page) :
    (bumpVersions f pages)[pg].policy = pages[pg].policy ∧ (bumpVersions f pages)[pg].owner = pages[pg].owner := by
  rw [bumpVersions_get]
  split <;> exact ⟨rfl, rfl⟩

/-- Everything a page transfer's service can do: a check fails and the store is as it was; a read fails and only the damage
record may have changed; or the transfer is applied. -/
theorem serveTransfer_cases (sup : Port) (h : HoldCtl) (q : Port) (src dst : Page) (reads : List ReadOutcome)
    (st : StoreCtl) :
    (∃ r, r ≠ Reason.none ∧ st.serveTransfer sup h q src dst reads = (st, r, [])) ∨
      st.serveTransfer sup h q src dst reads = ((st.readSource src reads allLines).1, .DAMAGED, []) ∨
      (st.pages[dst].writable sup q = true ∧ h.heldByOther q dst = false ∧
        st.serveTransfer sup h q src dst reads = ((st.readSource src reads allLines).1.applyTransfer src dst, .none,
          [⟨dst, q, 0x00, 0xFF, ((st.readSource src reads allLines).1.applyTransfer src dst).pages[dst].version⟩])) := by
  unfold StoreCtl.serveTransfer
  simp only []
  by_cases h1 : st.pages[src].readable q <;> simp only [h1, Bool.not_true, Bool.not_false, if_true, Bool.false_eq_true, if_false]
  · by_cases h2 : h.fullByOther q src <;> simp only [h2, if_true, Bool.false_eq_true, if_false]
    · exact .inl ⟨_, by decide, rfl⟩
    · by_cases h3 : st.pages[dst].writable sup q <;>
        simp only [h3, Bool.not_true, Bool.not_false, if_true, Bool.false_eq_true, if_false]
      · by_cases h4 : h.heldByOther q dst <;> simp only [h4, if_true, Bool.false_eq_true, if_false]
        · exact .inl ⟨_, by decide, rfl⟩
        · split
          · exact .inl ⟨_, by decide, rfl⟩
          · split
            · exact .inr (.inr ⟨trivial, trivial, rfl⟩)
            · exact .inr (.inl rfl)
      · exact .inl ⟨_, by decide, rfl⟩
  · exact .inl ⟨_, by decide, rfl⟩

theorem serveTransfer_policies (sup : Port) (h : HoldCtl) (q : Port) (src dst : Page) (reads : List ReadOutcome)
    (st : StoreCtl) (pg : Page) :
    (st.serveTransfer sup h q src dst reads).1.pages[pg].policy = st.pages[pg].policy ∧
      (st.serveTransfer sup h q src dst reads).1.pages[pg].owner = st.pages[pg].owner := by
  have hk := (readSource_keeps src allLines st reads).2.2
  rcases serveTransfer_cases sup h q src dst reads st with ⟨r, _, e⟩ | e | ⟨_, _, e⟩ <;> simp only [e]
  · simp
  · simp [hk]
  · have := bumpVersions_policies (fun pg => pg == dst) (st.readSource src reads allLines).1.pages pg
    simp only [hk] at this
    simpa [StoreCtl.applyTransfer, StoreCtl.undamage, hk] using this

theorem setPolicy_version (first count : Nat) (pol : Policy) (owner : Port) (pages : Vector PageEntry 128) (pg : Page) :
    (setPolicy first count pol owner pages)[pg].version = pages[pg].version := by
  simp only [setPolicy, Fin.getElem_fin, Vector.getElem_ofFn]
  split <;> rfl

theorem takePolicy_keeps (sup p : Port) (first count : Nat) (pol owner : Byte) (st : StoreCtl) (n : NoticeUnit) :
    (takePolicy sup p first count pol owner st n).1.bytes = st.bytes ∧
      (takePolicy sup p first count pol owner st n).1.codesFresh = st.codesFresh ∧
      (takePolicy sup p first count pol owner st n).1.corrected = st.corrected ∧
      (takePolicy sup p first count pol owner st n).1.damaged = st.damaged ∧
      (takePolicy sup p first count pol owner st n).1.overflow = st.overflow ∧
      (∀ pg : Page, (takePolicy sup p first count pol owner st n).1.pages[pg].version = st.pages[pg].version) ∧
      (takePolicy sup p first count pol owner st n).2.1.queues = n.queues := by
  unfold takePolicy
  (repeat' split) <;> try simp_all [NoticeUnit.removeWatchers, NoticeUnit.modRange]
  all_goals exact fun pg => setPolicy_version _ _ _ _ _ pg

theorem damageClear_keeps (sup p : Port) (line : Half) (st : StoreCtl) :
    (st.damageClear sup p line).1.bytes = st.bytes ∧ (st.damageClear sup p line).1.codesFresh = st.codesFresh ∧
      (st.damageClear sup p line).1.pages = st.pages := by
  unfold StoreCtl.damageClear StoreCtl.undamage
  simp only []
  (repeat' split) <;> exact ⟨rfl, rfl, rfl⟩

theorem takeWatch_queues (pages : Vector PageEntry 128) (p : Port) (first count : Nat) (a : Byte) (n : NoticeUnit) :
    (n.takeWatch pages p first count a).1.queues = n.queues := by
  unfold NoticeUnit.takeWatch NoticeUnit.modRange
  (repeat' split) <;> simp_all
  split <;> rfl

theorem takeCancel_events {p : Port} {e : CopyEngine} {x : Event} (h : x ∈ (e.takeCancel p).2.1) : x.port = p := by
  unfold CopyEngine.takeCancel at h
  (repeat' split at h) <;> simp_all [CopyEngine.report]

theorem post_watch (ws : List PageWrite) (n : NoticeUnit) : (n.post ws).1.watch = n.watch := by
  have h1 : ∀ (w : PageWrite) (x : NoticeUnit × List Event) (p : Port),
      (NoticeUnit.postPort w x p).1.watch = x.1.watch := by
    intro w x p; unfold NoticeUnit.postPort; split <;> rfl
  have h2 : ∀ (w : PageWrite) (ps : List Port) (x : NoticeUnit × List Event),
      (ps.foldl (NoticeUnit.postPort w) x).1.watch = x.1.watch := by
    intro w ps
    induction ps with
    | nil => intro x; rfl
    | cons p ps ih => intro x; exact (ih _).trans (h1 w x p)
  have h3 : ∀ (ws : List PageWrite) (x : NoticeUnit × List Event),
      (ws.foldl NoticeUnit.postPage x).1.watch = x.1.watch := by
    intro ws
    induction ws with
    | nil => intro x; rfl
    | cons w ws ih => intro x; exact (ih _).trans (h2 w allPorts x)
  exact h3 ws (n, [])

@[simp] theorem raise_touches {T : Part → Bool} {s₀ s : State} (e : Event) (h1 : T (.attention e.port) = true)
    (h : Touches T s₀ s) :
    Touches T s₀ (s.raise e) := by
  unfold State.raise
  try simp only []
  (repeat' split) <;> simp_all (maxDischargeDepth := 20)

@[simp] theorem raiseAll_touches {T : Part → Bool} {s₀ s : State} (es : List Event)
    (hT : ∀ e ∈ es, T (.attention e.port) = true) (h : Touches T s₀ s) :
    Touches T s₀ (s.raiseAll es) := by
  unfold State.raiseAll
  induction es generalizing s with
  | nil => exact h
  | cons e es ih => exact ih (fun x hx => hT x (by simp [hx])) (raise_touches e (hT e (by simp)) h)

@[simp] theorem recordAnswer_touches {T : Part → Bool} {s₀ s : State} (p : Port) (code : Byte) (a : Answer)
    (h1 : T (.command p) = true) (h : Touches T s₀ s) :
    Touches T s₀ (s.recordAnswer p code a) := by
  unfold State.recordAnswer
  try simp only []
  (repeat' split) <;> simp_all (maxDischargeDepth := 20)

@[simp] theorem answer_touches {T : Part → Bool} {s₀ s : State} (c : Claim) (a : Answer)
    (h1 : T (.command c.issuer) = true) (h : Touches T s₀ s) :
    Touches T s₀ (s.answer c a) := by
  unfold State.answer
  try simp only []
  (repeat' split) <;> simp_all (maxDischargeDepth := 20)

/-- An operation that an owner makes of port `p`'s claim touches the claims, `p`'s command unit and what its act
touches. -/
theorem takeOwned_touches {T : Part → Bool} {s₀ s : State} (p : Port) (code : Byte)
    (act : Claim → State → State × Answer) (hT : T .claims = true) (hc : T (.command p) = true)
    (ha : ∀ c t, Touches T s₀ t → Touches T s₀ (act c t).1) (h : Touches T s₀ s) :
    Touches T s₀ (s.takeOwned p code act) := by
  unfold State.takeOwned
  split
  · exact h
  · next c rest hf =>
    refine answer_touches _ _ ?_ (ha _ _ (claims_touches _ hT h))
    rw [issuer_of_owned (takeFirst_test hf)]
    exact hc

@[simp] theorem discardOwned_touches {T : Part → Bool} {s₀ s : State} (p : Port) (codes : List Byte)
    (h1 : T .claims = true) (h : Touches T s₀ s) :
    Touches T s₀ (s.discardOwned p codes) := by
  exact setClaims_touches _ h1 h

@[simp] theorem execute_touches {T : Part → Bool} {s₀ s : State} (p : Port) (h1 : T (.command p) = true)
    (h2 : T .claims = true) (h : Touches T s₀ s) :
    Touches T s₀ (s.execute p) := by
  unfold State.execute
  exact claims_touches _ h2 (modCmd_touches p _ h1 h)

@[simp] theorem accessFault_touches {T : Part → Bool} {s₀ s : State} (p : Port) (r : Reason)
    (h1 : T (.attention p) = true) (h : Touches T s₀ s) :
    Touches T s₀ (s.accessFault p r) := by
  unfold State.accessFault
  try simp only []
  (repeat' split) <;> simp_all (maxDischargeDepth := 20)

@[simp] theorem writeRecord_touches {T : Part → Bool} {s₀ s : State} (p : Port) (r : TxStatus)
    (h1 : T (.command p) = true) (h2 : T (.attention p) = true) (h : Touches T s₀ s) :
    Touches T s₀ (s.writeRecord p r) := by
  unfold State.writeRecord
  try simp only []
  (repeat' split) <;> simp_all (maxDischargeDepth := 20)

@[simp] theorem raiseReplaced_touches {T : Part → Bool} {s₀ s : State} (p : Port) (n : Nat)
    (h1 : T (.attention p) = true) (h : Touches T s₀ s) :
    Touches T s₀ (s.raiseReplaced p n) := by
  induction n generalizing s with
  | zero => exact h
  | succ n ih => exact ih (by simp_all)

@[simp] theorem flushKept_touches {T : Part → Bool} {s₀ s : State} (p : Port) (h1 : T (.unit p) = true)
    (h2 : T (.command p) = true) (h3 : T (.attention p) = true) (h : Touches T s₀ s) :
    Touches T s₀ (s.flushKept p) := by
  unfold State.flushKept
  try simp only []
  (repeat' split) <;> simp_all (maxDischargeDepth := 20)

@[simp] theorem handOverRecord_touches {T : Part → Bool} {s₀ s : State} (p : Port) (r : TxStatus)
    (h1 : T (.unit p) = true) (h2 : T (.command p) = true) (h3 : T (.attention p) = true) (h : Touches T s₀ s) :
    Touches T s₀ (s.handOverRecord p r) := by
  unfold State.handOverRecord
  try simp only []
  (repeat' split) <;> simp_all (maxDischargeDepth := 20)

@[simp] theorem issueCommit_touches {T : Part → Bool} {s₀ s : State} (p : Port) (es : List Entry)
    (h1 : T (.unit p) = true) (h2 : T (.command p) = true) (h3 : T (.attention p) = true) (h : Touches T s₀ s) :
    Touches T s₀ (s.issueCommit p es) := by
  unfold State.issueCommit
  try simp only []
  (repeat' split) <;> simp_all (maxDischargeDepth := 20)

@[simp] theorem handOverCommit_touches {T : Part → Bool} {s₀ s : State} (p : Port) (es : List Entry)
    (h1 : T (.unit p) = true) (h2 : T (.command p) = true) (h3 : T (.attention p) = true) (h : Touches T s₀ s) :
    Touches T s₀ (s.handOverCommit p es) := by
  unfold State.handOverCommit
  try simp only []
  (repeat' split) <;> simp_all (maxDischargeDepth := 20)

@[simp] theorem giveDone_touches {T : Part → Bool} {s₀ s : State} (p : Port) (n : Byte)
    (h1 : T (.command p) = true) (h2 : T (.attention p) = true) (h : Touches T s₀ s) :
    Touches T s₀ (s.giveDone p n) := by
  unfold State.giveDone
  try simp only []
  (repeat' split) <;> simp_all (maxDischargeDepth := 20)

@[simp] theorem handOverControl_touches {T : Part → Bool} {s₀ s : State} (p : Port) (es : List Entry)
    (h1 : T (.unit p) = true) (h2 : T (.command p) = true) (h3 : T (.attention p) = true) (h : Touches T s₀ s) :
    Touches T s₀ (s.handOverControl p es) := by
  unfold State.handOverControl
  try simp only []
  (repeat' split) <;> simp_all (maxDischargeDepth := 20)

@[simp] theorem issueHeld_touches {T : Part → Bool} {s₀ s : State} (p : Port) (es : List Entry)
    (h1 : T (.unit p) = true) (h2 : T (.command p) = true) (h3 : T (.attention p) = true) (h : Touches T s₀ s) :
    Touches T s₀ (s.issueHeld p es) := by
  unfold State.issueHeld
  try simp only []
  (repeat' split) <;> simp_all (maxDischargeDepth := 20)

@[simp] theorem makeHandOver_touches {T : Part → Bool} {s₀ s : State} (p : Port) (h1 : T (.unit p) = true)
    (h2 : T (.command p) = true) (h3 : T (.attention p) = true) (h : Touches T s₀ s) :
    Touches T s₀ (s.makeHandOver p) := by
  unfold State.makeHandOver
  try simp only []
  (repeat' split) <;> simp_all (maxDischargeDepth := 20)

@[simp] theorem takeControl_touches {T : Part → Bool} {s₀ s : State} (p : Port) (es : List Entry)
    (h1 : T (.command p) = true) (h2 : T (.attention p) = true) (h3 : T .claims = true) (h : Touches T s₀ s) :
    Touches T s₀ (s.takeControl p es) := by
  unfold State.takeControl
  try simp only []
  (repeat' split) <;> simp_all (maxDischargeDepth := 20)

@[simp] theorem takeReadyControl_touches {T : Part → Bool} {s₀ s : State} (p : Port) (h1 : T (.unit p) = true)
    (h2 : T (.command p) = true) (h3 : T (.attention p) = true) (h4 : T .claims = true) (h : Touches T s₀ s) :
    Touches T s₀ (s.takeReadyControl p) := by
  unfold State.takeReadyControl
  try simp only []
  (repeat' split) <;> simp_all (maxDischargeDepth := 20)

@[simp] theorem holdControl_touches {T : Part → Bool} {s₀ s : State} (p : Port) (ln : Fin 16) (b : Line)
    (h1 : T (.unit p) = true) (h : Touches T s₀ s) :
    Touches T s₀ (s.holdControl p ln b) := by
  unfold State.holdControl
  try simp only []
  (repeat' split) <;> simp_all (maxDischargeDepth := 20)

@[simp] theorem holdPlain_touches {T : Part → Bool} {s₀ s : State} (p : Port) (ln : Fin 16)
    (h1 : T (.unit p) = true) (h : Touches T s₀ s) :
    Touches T s₀ (s.holdPlain p ln) := modPort_touches _ _ h1 h

@[simp] theorem obtainAttention_touches {T : Part → Bool} {s₀ s : State} (p : Port) (h1 : T (.unit p) = true)
    (h2 : T (.attention p) = true) (h : Touches T s₀ s) :
    Touches T s₀ (s.obtainAttention p) := by
  unfold State.obtainAttention
  try simp only []
  (repeat' split) <;> simp_all (maxDischargeDepth := 20)

@[simp] theorem obtainNotice_touches {T : Part → Bool} {s₀ s : State} (p : Port) (h1 : T (.unit p) = true)
    (h2 : T (.notices p) = true) (h : Touches T s₀ s) :
    Touches T s₀ (s.obtainNotice p) := by
  unfold State.obtainNotice
  refine holdControl_touches _ _ _ h1 (setNotice_touches _ (fun _ => rfl) (fun q hq => ?_) h)
  have hne : p ≠ q := fun e => by rw [← e, h2] at hq; exact absurd hq (by decide)
  have hne' : ¬ p.val = q.val := fun e => hne (Fin.ext e)
  simp [NoticeUnit.pop, hne']

/-- Obtaining a line without TAKE and POP touches the port unit alone. -/
@[simp] theorem obtain_false_touches {T : Part → Bool} {s₀ s : State} (p : Port) (h1 : T (.unit p) = true)
    (h : Touches T s₀ s) : Touches T s₀ (s.obtain false p) := by
  unfold State.obtain
  simp only []
  (repeat' split) <;> simp_all (maxDischargeDepth := 20)

@[simp] theorem obtain_touches {T : Part → Bool} {s₀ s : State} (acts : Bool) (p : Port) (h1 : T (.unit p) = true)
    (h2 : T (.attention p) = true) (h3 : T (.notices p) = true) (h : Touches T s₀ s) :
    Touches T s₀ (s.obtain acts p) := by
  unfold State.obtain
  try simp only []
  (repeat' split) <;> simp_all (maxDischargeDepth := 20)

@[simp] theorem endRead_touches {T : Part → Bool} {s₀ s : State} (p : Port) (u : PortUnit)
    (h1 : T (.unit p) = true) (h2 : T (.command p) = true) (h3 : T (.attention p) = true) (h : Touches T s₀ s) :
    Touches T s₀ (s.endRead p u) := by
  unfold State.endRead
  try simp only []
  (repeat' split) <;> simp_all (maxDischargeDepth := 20)

@[simp] theorem endTransaction_touches {T : Part → Bool} {s₀ s : State} (p : Port) (h1 : T (.unit p) = true)
    (h2 : T (.command p) = true) (h3 : T (.attention p) = true) (h : Touches T s₀ s) :
    Touches T s₀ (s.endTransaction p) := by
  unfold State.endTransaction
  try simp only []
  (repeat' split) <;> simp_all (maxDischargeDepth := 20)

@[simp] theorem deliver_touches {T : Part → Bool} {s₀ s : State} (p : Port) (f : Fetch) (r : FetchReply)
    (h1 : T (.unit p) = true) (h2 : T (.command p) = true) (h3 : T (.attention p) = true) (h : Touches T s₀ s) :
    Touches T s₀ (s.deliver p f r) := by
  unfold State.deliver
  try simp only []
  (repeat' split) <;> simp_all (maxDischargeDepth := 20)

@[simp] theorem returnCommit_touches {T : Part → Bool} {s₀ s : State} (p : Port) (r : TxStatus)
    (h1 : T (.unit p) = true) (h2 : T (.command p) = true) (h3 : T (.attention p) = true) (h : Touches T s₀ s) :
    Touches T s₀ (s.returnCommit p r) := by
  unfold State.returnCommit
  try simp only []
  (repeat' split) <;> simp_all (maxDischargeDepth := 20)

@[simp] theorem examineFirst_touches {T : Part → Bool} {s₀ s : State} (f : Claim → Bool) (h1 : T .claims = true)
    (h2 : ∀ c, f c = true → T (.command c.issuer) = true) (h : Touches T s₀ s) : Touches T s₀ (s.examineFirst f) := by
  unfold State.examineFirst
  split
  · exact h
  · next c rest hf =>
    have hi := h2 _ (takeFirst_test hf)
    split <;> simp_all

@[simp] theorem examine_touches {T : Part → Bool} {s₀ s : State} (p : Port) (code : Byte) (h1 : T .claims = true)
    (h2 : T (.command p) = true) (h : Touches T s₀ s) : Touches T s₀ (s.examine p code) :=
  examineFirst_touches _ h1 (fun c hc => by rw [issuer_of_atUnit hc]; exact h2) h

@[simp] theorem examineAll_touches {T : Part → Bool} {s₀ s : State} (p : Port) (h1 : T .claims = true)
    (h2 : T (.command p) = true) (h : Touches T s₀ s) : Touches T s₀ (s.examineAll p) := by
  unfold State.examineAll
  generalize s.claims.countP (anyAtUnit p) = n
  induction n generalizing s with
  | zero => exact h
  | succ n ih => exact ih (examineFirst_touches _ h1 (fun c hc => by rw [issuer_of_unit hc]; exact h2) h)

theorem halfTaken_touches {T : Part → Bool} {s₀ s : State} {f : Claim → Bool} {c : Claim} {rest : List Claim}
    {m : HalfClaim IncMode} {o : HalfClaim Bool} (h1 : T .claims = true) (h2 : T (.command c.issuer) = true)
    (h : Touches T s₀ s) : Touches T s₀ (s.halfTaken f c rest m o) := by
  unfold State.halfTaken
  split
  · exact answer_touches _ _ h2 (setClaims_touches _ h1 h)
  · exact setClaims_touches _ h1 h
  · exact setClaims_touches _ h1 h

@[simp] theorem takeModeHalf_touches {T : Part → Bool} {s₀ s : State} (p : Port) (h1 : T .claims = true)
    (h2 : T (.command p) = true) (h3 : T (.translator p) = true) (h : Touches T s₀ s) :
    Touches T s₀ (s.takeModeHalf p) := by
  unfold State.takeModeHalf
  split
  · exact h
  · next c rest hc =>
    have hi := issuer_of_modeDue (takeFirst_test hc)
    split
    · exact halfTaken_touches h1 (by rw [hi]; exact h2) (modTranslator_touches p _ h3 h)
    · exact h

@[simp] theorem takeOutputHalf_touches {T : Part → Bool} {s₀ s : State} (p : Port) (h1 : T .claims = true)
    (h2 : T (.command p) = true) (h3 : T (.attention p) = true) (h : Touches T s₀ s) :
    Touches T s₀ (s.takeOutputHalf p) := by
  unfold State.takeOutputHalf
  split
  · exact h
  · next c rest hc =>
    have hi := issuer_of_outputDue (takeFirst_test hc)
    split
    · exact halfTaken_touches h1 (by rw [hi]; exact h2) (modAttn_touches p _ h3 h)
    · exact h

@[simp] theorem takeHalves_touches {T : Part → Bool} {s₀ s : State} (p : Port) (half : ConfigHalf)
    (h1 : T .claims = true) (h2 : T (.command p) = true) (h3 : T (.translator p) = true)
    (h4 : T (.attention p) = true) (h : Touches T s₀ s) :
    Touches T s₀ (s.takeHalves p half) := by
  cases half
  · exact takeModeHalf_touches p h1 h2 h3 h
  · exact takeOutputHalf_touches p h1 h2 h4 h
  · exact takeOutputHalf_touches p h1 h2 h4 (takeModeHalf_touches p h1 h2 h3 h)

@[simp] theorem takeBegin_touches {T : Part → Bool} {s₀ s : State} (target p : Port) (h1 : T .claims = true)
    (h2 : T (.command target) = true) (h3 : T (.command p) = true) (h : Touches T s₀ s) :
    Touches T s₀ (s.takeBegin target p) := by
  unfold State.takeBegin
  split
  · exact h
  · next c rest hc =>
    have hi := issuer_of_begin (takeFirst_test hc)
    simp only []
    split <;> simp_all (maxDischargeDepth := 20)

@[simp] theorem takeShared_touches {T : Part → Bool} {s₀ s : State} (p target : Port) (code : Byte)
    (act : Claim → State → State) (ans : Claim → Answer) (h1 : T .claims = true) (h2 : T (.command p) = true)
    (ha : ∀ c t, Touches T s₀ t → Touches T s₀ (act c t)) (h : Touches T s₀ s) :
    Touches T s₀ (s.takeShared p target code act ans) := by
  unfold State.takeShared
  split
  · exact h
  · next c rest hf =>
    have hi := issuer_of_with (takeFirst_test hf)
    simp only []
    split
    · exact answer_touches _ _ (by rw [hi]; exact h2) (ha _ _ (claims_touches _ h1 h))
    · exact ha _ _ (claims_touches _ h1 h)

@[simp] theorem arbitrate_touches {T : Part → Bool} {s₀ s : State} (h1 : T .arbiter = true) (h : Touches T s₀ s) :
    Touches T s₀ (s.arbitrate) := by
  unfold State.arbitrate
  try simp only []
  (repeat' split) <;> simp_all (maxDischargeDepth := 20)

@[simp] theorem holdAct_touches {T : Part → Bool} {s₀ s : State} (p : Port) (h1 : T .holds = true)
    (h2 : T .claims = true) (h3 : T (.command p) = true) (h : Touches T s₀ s) :
    Touches T s₀ (s.holdAct p) := by
  unfold State.holdAct
  exact takeOwned_touches _ _ _ (by simp_all) (by simp_all) (fun _ _ _ => by simp_all (maxDischargeDepth := 20)) h

@[simp] theorem renewAct_touches {T : Part → Bool} {s₀ s : State} (p : Port) (h1 : T .holds = true)
    (h2 : T .claims = true) (h3 : T (.command p) = true) (h : Touches T s₀ s) :
    Touches T s₀ (s.renewAct p) := by
  unfold State.renewAct
  exact takeOwned_touches _ _ _ (by simp_all) (by simp_all) (fun _ _ _ => by simp_all (maxDischargeDepth := 20)) h

@[simp] theorem releaseAct_touches {T : Part → Bool} {s₀ s : State} (p : Port) (h1 : T .holds = true)
    (h2 : T .claims = true) (h3 : T (.command p) = true) (h4 : ∀ q, T (.attention q) = true) (h : Touches T s₀ s) :
    Touches T s₀ (s.releaseAct p) := by
  unfold State.releaseAct
  exact takeOwned_touches _ _ _ (by simp_all) (by simp_all) (fun _ _ _ => by simp_all (maxDischargeDepth := 20)) h

@[simp] theorem pageInfoAct_touches {T : Part → Bool} {s₀ s : State} (p : Port) (h1 : T .claims = true)
    (h2 : T (.command p) = true) (h : Touches T s₀ s) :
    Touches T s₀ (s.pageInfoAct p) := by
  unfold State.pageInfoAct
  exact takeOwned_touches _ _ _ (by simp_all) (by simp_all) (fun _ _ _ => by simp_all (maxDischargeDepth := 20)) h

@[simp] theorem damageQueryAct_touches {T : Part → Bool} {s₀ s : State} (p : Port) (h1 : T .claims = true)
    (h2 : T (.command p) = true) (h : Touches T s₀ s) :
    Touches T s₀ (s.damageQueryAct p) := by
  unfold State.damageQueryAct
  exact takeOwned_touches _ _ _ (by simp_all) (by simp_all) (fun _ _ _ => by simp_all (maxDischargeDepth := 20)) h

@[simp] theorem policyAct_touches {T : Part → Bool} {s₀ s : State} (p : Port) (h1 : T .policies = true)
    (h2 : T .watch = true) (h3 : T .claims = true) (h4 : T (.command p) = true) (h : Touches T s₀ s) :
    Touches T s₀ (s.policyAct p) := by
  unfold State.policyAct
  refine takeOwned_touches p cPOLICY _ (by simp_all) (by simp_all) (fun c t ht => ?_) h
  simp only []
  have hs := takePolicy_keeps t.device.supervisor p (c.arg 1).toNat (c.arg 2).toNat (c.arg 3) (c.arg 4) t.store t.notice
  refine setNotice_touches _ (fun hw => by simp_all) (fun q _ => by simp [hs]) (setStore_touches _ (fun y hy => ?_) ht)
  cases y <;> simp_all [Part.kept]

@[simp] theorem damageClearAct_touches {T : Part → Bool} {s₀ s : State} (p : Port) (h1 : T .damage = true)
    (h2 : T .claims = true) (h3 : T (.command p) = true) (h : Touches T s₀ s) :
    Touches T s₀ (s.damageClearAct p) := by
  unfold State.damageClearAct
  refine takeOwned_touches p cDAMAGE_CLEAR _ (by simp_all) (by simp_all) (fun c t ht => ?_) h
  simp only []
  have hs := damageClear_keeps t.device.supervisor p (c.arg2 1 2) t.store
  refine setStore_touches _ (fun y hy => ?_) ht
  cases y <;> simp_all [Part.kept]

@[simp] theorem claimAct_touches {T : Part → Bool} {s₀ s : State} (p : Port) (code : Byte) (h1 : T .holds = true)
    (h2 : T .claims = true) (h3 : T .policies = true) (h4 : T .damage = true) (h5 : T .watch = true)
    (h6 : ∀ q, T (.command q) = true) (h7 : ∀ q, T (.attention q) = true) (h : Touches T s₀ s) :
    Touches T s₀ (s.claimAct p code) := by
  unfold State.claimAct
  try simp only []
  (repeat' split) <;> simp_all (maxDischargeDepth := 20)

@[simp] theorem tickAct_touches {T : Part → Bool} {s₀ s : State} (h1 : T .holds = true)
    (h2 : ∀ q, T (.attention q) = true) (h : Touches T s₀ s) :
    Touches T s₀ (s.tickAct) := by
  unfold State.tickAct
  try simp only []
  (repeat' split) <;> simp_all (maxDischargeDepth := 20)

@[simp] theorem holdResetAct_touches {T : Part → Bool} {s₀ s : State} (p : Port) (h1 : T .holds = true)
    (h2 : ∀ q, T (.attention q) = true) (h3 : T .claims = true) (h4 : T (.command p) = true) (h : Touches T s₀ s) :
    Touches T s₀ (s.holdResetAct p) := by
  unfold State.holdResetAct
  try simp only []
  (repeat' split) <;> simp_all (maxDischargeDepth := 20)

@[simp] theorem runDue_touches {T : Part → Bool} {s₀ s : State} (a : DueAct) (h1 : T .holds = true)
    (h2 : T .claims = true) (h3 : T .policies = true) (h4 : T .damage = true) (h5 : T .watch = true)
    (h6 : ∀ q, T (.command q) = true) (h7 : ∀ q, T (.attention q) = true) (h : Touches T s₀ s) :
    Touches T s₀ (s.runDue a) := by
  unfold State.runDue
  try simp only []
  (repeat' split) <;> simp_all (maxDischargeDepth := 20)

@[simp] theorem endService_touches {T : Part → Bool} {s₀ s : State} (h1 : T .holds = true) (h2 : T .claims = true)
    (h3 : T .policies = true) (h4 : T .damage = true) (h5 : T .watch = true) (h6 : ∀ q, T (.command q) = true)
    (h7 : ∀ q, T (.attention q) = true) (h8 : T .arbiter = true) (h : Touches T s₀ s) :
    Touches T s₀ (s.endService) := by
  have hd : ∀ (due : List DueAct) (s : State), Touches T s₀ s → Touches T s₀ (due.foldl (fun s a => s.runDue a) s) := by
    intro due
    induction due with
    | nil => intro s h; exact h
    | cons a due ih => intro s h; exact ih _ (by simp_all)
  unfold State.endService
  exact arbitrate_touches h8
    (hd s.arbiter.due _ (setArbiter_touches { s.arbiter with inService := none, due := [] } h8 h))

@[simp] theorem takeOutcome_touches {T : Part → Bool} {s₀ s : State} (h1 : T .copy = true)
    (h2 : ∀ q, T (.attention q) = true) (h : Touches T s₀ s) : Touches T s₀ s.takeOutcome := by
  unfold State.takeOutcome
  split
  · exact raiseAll_touches _ (fun _ _ => h2 _) (setCopy_touches _ h1 h)
  · exact h

@[simp] theorem endPortService_touches {T : Part → Bool} {s₀ s : State} (h1 : T .holds = true) (h2 : T .claims = true)
    (h3 : T .policies = true) (h4 : T .damage = true) (h5 : T .watch = true) (h6 : ∀ q, T (.command q) = true)
    (h7 : ∀ q, T (.attention q) = true) (h8 : T .arbiter = true) (h9 : T .copy = true) (h : Touches T s₀ s) :
    Touches T s₀ s.endPortService :=
  endService_touches h1 h2 h3 h4 h5 h6 h7 h8 (takeOutcome_touches h9 h7 h)

@[simp] theorem takeAllDones_touches {T : Part → Bool} {s₀ s : State} (p : Port) (h1 : T (.attention p) = true)
    (h : Touches T s₀ s) :
    Touches T s₀ (s.takeAllDones p) := by
  unfold State.takeAllDones
  try simp only []
  (repeat' split) <;> simp_all (maxDischargeDepth := 20)

@[simp] theorem takeParts_touches {T : Part → Bool} {s₀ s : State} (p : Port) (h1 : T (.unit p) = true)
    (h2 : T .free = true) (h : Touches T s₀ s) :
    Touches T s₀ (s.takeParts p) := by
  unfold State.takeParts
  split
  · exact setFree_touches _ h2 (modPort_touches _ _ h1 h)
  · exact h

/-- While no command comes port units and the number of the next free value alone are touched. -/
theorem idle_touches {T : Part → Bool} {s₀ s : State} (h1 : ∀ q, T (.unit q) = true) (h2 : T .free = true)
    (h : Touches T s₀ s) : Touches T s₀ s.idle := by
  have : ∀ (l : List Port) (t : State), Touches T s₀ t → Touches T s₀ (l.foldl (fun s p => s.takeParts p) t) := by
    intro l
    induction l with
    | nil => exact fun _ h => h
    | cons p l ih => exact fun t h => ih _ (takeParts_touches p (h1 p) h2 h)
  exact this _ _ h

@[simp] theorem gather_touches {T : Part → Bool} {s₀ s : State} (p : Port) (h1 : T (.unit p) = true)
    (h2 : T .free = true) (h : Touches T s₀ s) :
    Touches T s₀ (s.gather p) := by
  unfold State.gather
  split
  · exact modPort_touches _ _ h1 (takeParts_touches p h1 h2 h)
  · exact h

@[simp] theorem settle_touches {T : Part → Bool} {s₀ s : State} (p : Port) (h1 : T (.unit p) = true)
    (h2 : T (.command p) = true) (h3 : T (.attention p) = true) (h4 : T .claims = true)
    (h5 : T (.notices p) = true) (h6 : T .free = true) (h : Touches T s₀ s) :
    Touches T s₀ (s.settle p) := by
  unfold State.settle
  refine gather_touches p h1 h6 <| obtain_touches true p h1 h3 h5 (takeAllDones_touches p h3 (examineAll_touches p h4 h2 ?_))
  simp_all (maxDischargeDepth := 20)

@[simp] theorem watchAct_touches {T : Part → Bool} {s₀ s : State} (p : Port) (h1 : T .watch = true)
    (h2 : T .claims = true) (h3 : T (.command p) = true) (h : Touches T s₀ s) :
    Touches T s₀ (s.watchAct p) := by
  unfold State.watchAct
  refine takeOwned_touches p cWATCH _ (by simp_all) (by simp_all) (fun c t ht => ?_) h
  simp only []
  exact setNotice_touches _ (fun hw => by simp_all) (fun q _ => by simp [takeWatch_queues]) ht

@[simp] theorem copyAct_touches {T : Part → Bool} {s₀ s : State} (p : Port) (h1 : T .copy = true)
    (h2 : T .claims = true) (h3 : T (.command p) = true) (h : Touches T s₀ s) :
    Touches T s₀ (s.copyAct p) := by
  unfold State.copyAct
  exact takeOwned_touches _ _ _ (by simp_all) (by simp_all) (fun _ _ _ => by simp_all (maxDischargeDepth := 20)) h

@[simp] theorem copyCancelAct_touches {T : Part → Bool} {s₀ s : State} (p : Port) (h1 : T .copy = true)
    (h2 : T .claims = true) (h3 : T (.command p) = true) (h4 : T (.attention p) = true) (h : Touches T s₀ s) :
    Touches T s₀ (s.copyCancelAct p) := by
  unfold State.copyCancelAct
  refine takeOwned_touches p cCOPY_CANCEL _ (by simp_all) (by simp_all) (fun c t ht => ?_) h
  simp only []
  refine raiseAll_touches _ (fun e he => ?_) (setCopy_touches _ (by simp_all) ht)
  rw [takeCancel_events he]; simp_all

@[simp] theorem mapQueryAct_touches {T : Part → Bool} {s₀ s : State} (p : Port) (h1 : T .claims = true)
    (h2 : T (.command p) = true) (h : Touches T s₀ s) :
    Touches T s₀ (s.mapQueryAct p) := by
  unfold State.mapQueryAct
  exact takeOwned_touches _ _ _ (by simp_all) (by simp_all) (fun _ _ _ => by simp_all (maxDischargeDepth := 20)) h

@[simp] theorem attnConfigAct_touches {T : Part → Bool} {s₀ s : State} (p : Port) (h1 : T (.attention p) = true)
    (h2 : T .claims = true) (h3 : T (.command p) = true) (h : Touches T s₀ s) :
    Touches T s₀ (s.attnConfigAct p) := by
  unfold State.attnConfigAct
  exact takeOwned_touches _ _ _ (by simp_all) (by simp_all) (fun _ _ _ => by simp_all (maxDischargeDepth := 20)) h

@[simp] theorem beginTwoWire_touches {T : Part → Bool} {s₀ s : State} (p : Port) (d : Direction)
    (h1 : T (.unit p) = true) (h2 : T (.attention p) = true) (h3 : T (.notices p) = true) (h : Touches T s₀ s) :
    Touches T s₀ (s.beginTwoWire p d) := by
  unfold State.beginTwoWire
  try simp only []
  (repeat' split) <;> simp_all (maxDischargeDepth := 20)

@[simp] theorem start_touches {T : Part → Bool} {s₀ s : State} (p : Port) (t : BitVec 7) (d : Direction)
    (h1 : T (.unit p) = true) (h2 : T (.command p) = true) (h3 : T (.attention p) = true) (h4 : T .claims = true)
    (h5 : T (.notices p) = true) (h6 : T .free = true) (h : Touches T s₀ s) :
    Touches T s₀ (s.start p t d) := by
  unfold State.start
  try simp only []
  (repeat' split) <;> simp_all (maxDischargeDepth := 20)

@[simp] theorem csFall_touches {T : Part → Bool} {s₀ s : State} (h1 : T (.unit spi) = true) (h : Touches T s₀ s) :
    Touches T s₀ (s.csFall) := by
  unfold State.csFall
  try simp only []
  (repeat' split) <;> simp_all (maxDischargeDepth := 20)

@[simp] theorem spiStatus_touches {T : Part → Bool} {s₀ s : State} (h1 : T (.unit spi) = true)
    (h : Touches T s₀ s) :
    Touches T s₀ (s.spiStatus) := by
  unfold State.spiStatus
  try simp only []
  (repeat' split) <;> simp_all (maxDischargeDepth := 20)

@[simp] theorem unknownOpcode_touches {T : Part → Bool} {s₀ s : State} (op : Byte) (h1 : T (.unit spi) = true)
    (h : Touches T s₀ s) :
    Touches T s₀ (s.unknownOpcode op) := by
  unfold State.unknownOpcode
  try simp only []
  (repeat' split) <;> simp_all (maxDischargeDepth := 20)

@[simp] theorem obtainAtSlot_touches {T : Part → Bool} {s₀ s : State} (h1 : T (.unit spi) = true)
    (h2 : T (.attention spi) = true) (h3 : T (.notices spi) = true) (h : Touches T s₀ s) :
    Touches T s₀ (s.obtainAtSlot) := by
  unfold State.obtainAtSlot
  try simp only []
  (repeat' split) <;> simp_all (maxDischargeDepth := 20)

@[simp] theorem readSlot_touches {T : Part → Bool} {s₀ s : State} (h1 : T (.unit spi) = true)
    (h2 : T (.attention spi) = true) (h3 : T (.notices spi) = true) (h : Touches T s₀ s) :
    Touches T s₀ (s.readSlot) := by
  unfold State.readSlot
  try simp only []
  (repeat' split) <;> simp_all (maxDischargeDepth := 20)

@[simp] theorem stop_touches {T : Part → Bool} {s₀ s : State} (p : Port) (h1 : T (.unit p) = true)
    (h2 : T (.command p) = true) (h3 : T (.attention p) = true) (h : Touches T s₀ s) :
    Touches T s₀ (s.stop p) := by
  unfold State.stop
  try simp only []
  (repeat' split) <;> simp_all (maxDischargeDepth := 20)

@[simp] theorem postAll_touches {T : Part → Bool} {s₀ s : State} (ws : List PageWrite)
    (h1 : ∀ q, T (.notices q) = true) (h2 : ∀ q, T (.attention q) = true) (h : Touches T s₀ s) :
    Touches T s₀ (s.postAll ws) := by
  unfold State.postAll
  exact raiseAll_touches _ (fun e _ => h2 _) (setNotice_touches _ (fun _ => post_watch ws s.notice) (fun q hq => by simp_all) h)

@[simp] theorem serveFetch_touches {T : Part → Bool} {s₀ s : State} (p : Port) (o : ReadOutcome) (f : Fetch)
    (h1 : T .damage = true) (h2 : T (.unit p) = true) (h3 : T (.command p) = true) (h4 : T (.attention p) = true)
    (h : Touches T s₀ s) :
    Touches T s₀ (s.serveFetch p o f) := by
  unfold State.serveFetch
  have hs := serveFetch_keeps s.holds p f.page f.line o s.store
  refine deliver_touches _ _ _ h2 h3 h4 (setStore_touches _ (fun y hy => ?_) h)
  cases y <;> simp_all [Part.kept]

@[simp] theorem serveCommit_touches {T : Part → Bool} {s₀ s : State} (p : Port) (es : List Entry) (reads : List ReadOutcome)
    (h1 : T .damage = true) (h2 : T .bytes = true) (h3 : T .versions = true) (h4 : T (.unit p) = true)
    (h5 : T (.command p) = true) (h6 : T (.attention p) = true) (h7 : ∀ q, T (.notices q) = true)
    (h8 : ∀ q, T (.attention q) = true) (h : Touches T s₀ s) :
    Touches T s₀ (s.serveCommit p es reads) := by
  unfold State.serveCommit
  have hs := serveCommit_policies s.device.supervisor s.holds p es reads s.store
  refine returnCommit_touches _ _ h4 h5 h6 (postAll_touches _ h7 h8 (setStore_touches _ (fun y hy => ?_) h))
  cases y <;> simp_all [Part.kept]

@[simp] theorem serveTransfer_touches {T : Part → Bool} {s₀ s : State} (src dst : Page) (q : Port) (reads : List ReadOutcome)
    (h1 : T .damage = true) (h2 : T .bytes = true) (h3 : T .versions = true) (h4 : T .copy = true)
    (h5 : ∀ q, T (.notices q) = true) (h6 : ∀ q, T (.attention q) = true) (h : Touches T s₀ s) :
    Touches T s₀ (s.serveTransfer src dst q reads) := by
  unfold State.serveTransfer
  have hs := serveTransfer_policies s.device.supervisor s.holds q src dst reads s.store
  refine setCopy_touches _ h4 (postAll_touches _ h5 h6 (setStore_touches _ (fun y hy => ?_) h))
  cases y <;> simp_all [Part.kept]

@[simp] theorem noticeResetAct_touches {T : Part → Bool} {s₀ s : State} (p : Port) (h1 : T .claims = true)
    (h2 : T .watch = true) (h3 : T (.notices p) = true) (h : Touches T s₀ s) :
    Touches T s₀ (s.noticeResetAct p) := by
  unfold State.noticeResetAct
  refine setNotice_touches _ (fun hw => by simp_all) (fun q hq => ?_) (by simp_all)
  have hne : p ≠ q := fun e => by rw [← e, h3] at hq; exact absurd hq (by decide)
  have hne' : ¬ p.val = q.val := fun e => hne (Fin.ext e)
  simp [NoticeUnit.resetPart, State.discardOwned, hne']

@[simp] theorem copyResetAct_touches {T : Part → Bool} {s₀ s : State} (p : Port) (h1 : T .claims = true)
    (h2 : T .copy = true) (h : Touches T s₀ s) :
    Touches T s₀ (s.copyResetAct p) := by
  unfold State.copyResetAct
  try simp only []
  (repeat' split) <;> simp_all (maxDischargeDepth := 20)

@[simp] theorem attentionResetAct_touches {T : Part → Bool} {s₀ s : State} (p : Port) (h1 : T .claims = true)
    (h2 : T (.attention p) = true) (h : Touches T s₀ s) :
    Touches T s₀ (s.attentionResetAct p) := by
  unfold State.attentionResetAct
  try simp only []
  (repeat' split) <;> simp_all (maxDischargeDepth := 20)

@[simp] theorem answerOwnBegin_touches {T : Part → Bool} {s₀ s : State} (p : Port) (h1 : T .claims = true)
    (h2 : T (.command p) = true) (h : Touches T s₀ s) :
    Touches T s₀ (s.answerOwnBegin p) := by
  unfold State.answerOwnBegin
  split
  · exact h
  · next c rest hc =>
    have hi := issuer_of_begin (takeFirst_test hc)
    simp_all (maxDischargeDepth := 20)

@[simp] theorem orphanClaims_touches {T : Part → Bool} {s₀ s : State} (p : Port) (h1 : T .claims = true)
    (h : Touches T s₀ s) :
    Touches T s₀ (s.orphanClaims p) := by
  unfold State.orphanClaims
  try simp only []
  (repeat' split) <;> simp_all (maxDischargeDepth := 20)

@[simp] theorem commandResetAct_touches {T : Part → Bool} {s₀ s : State} (p : Port) (h1 : T .claims = true)
    (h2 : T (.command p) = true) (h3 : T (.attention p) = true) (h : Touches T s₀ s) :
    Touches T s₀ (s.commandResetAct p) := by
  unfold State.commandResetAct
  have g := answerOwnBegin_touches p h1 h2 h
  simp only []
  split
  · exact g
  · have g' (r : ResetRun) := modCmd_touches p (CommandUnit.resetPart p r) h2 (orphanClaims_touches p h1 g)
    split
    · exact g' _
    · exact raise_touches _ h3 (g' _)

@[simp] theorem completeReset_touches {T : Part → Bool} {s₀ s : State} (p : Port) (r : ResetRun)
    (h1 : T (.command p) = true) (h2 : T (.command r.issuer) = true) (h : Touches T s₀ s) :
    Touches T s₀ (s.completeReset p r) := by
  unfold State.completeReset
  try simp only []
  (repeat' split) <;> simp_all (maxDischargeDepth := 20)

@[simp] theorem portUnitResetAct_touches {T : Part → Bool} {s₀ s : State} (p : Port) (r : ResetRun)
    (h1 : T (.unit p) = true) (h2 : T (.command p) = true) (h3 : T (.attention p) = true)
    (h4 : T (.command r.issuer) = true) (h : Touches T s₀ s) :
    Touches T s₀ (s.portUnitResetAct p r) := by
  unfold State.portUnitResetAct
  try simp only []
  (repeat' split) <;> simp_all (maxDischargeDepth := 20)

@[simp] theorem lastResetPart_touches {T : Part → Bool} {s₀ s : State} (p : Port) (h1 : T (.unit p) = true)
    (h2 : ∀ q, T (.command q) = true) (h3 : T (.attention p) = true) (h4 : T .claims = true)
    (h5 : T (.notices p) = true) (h6 : T .arbiter = true) (h7 : T .free = true) (h : Touches T s₀ s) :
    Touches T s₀ (s.lastResetPart p) := by
  unfold State.lastResetPart
  try simp only []
  (repeat' split) <;> simp_all (maxDischargeDepth := 20)

@[simp] theorem obtainNow_touches {T : Part → Bool} {s₀ s : State} (p : Port) (h1 : T (.unit p) = true)
    (h2 : T (.attention p) = true) (h3 : T (.notices p) = true) (h : Touches T s₀ s) :
    Touches T s₀ (s.obtainNow p) := by
  unfold State.obtainNow
  try simp only []
  (repeat' split) <;> simp_all (maxDischargeDepth := 20)

/-- A step that happens only while the blocks act. -/
@[simp] theorem whenRunning_touches {T : Part → Bool} {s₀ s : State} (f : State → State) (hf : Touches T s₀ (f s))
    (h : Touches T s₀ s) : Touches T s₀ (s.whenRunning f) := by
  unfold State.whenRunning
  split <;> assumption

end Sys2Proof.Machine
end

