-- ==== Sys2Proof/Laws/Memory.lean ====
section
/-! SUPPORT. The store's bytes: what a byte reads as after each operation, and that each keeps the canonical form. -/

namespace Sys2Proof.Machine

theorem Memory.read_nil (x : Nat) : Memory.read [] x = 0 := rfl

theorem Memory.read_cons (a : Nat) (b : Byte) (m : Memory) (x : Nat) :
    Memory.read ((a, b) :: m) x = if a = x then b else Memory.read m x := rfl

/-! ## The canonical form -/

theorem Memory.wfFrom_cons (lo a : Nat) (b : Byte) (m : Memory) :
    Memory.wfFrom lo ((a, b) :: m) = true ↔
      lo ≤ a ∧ a < Config.storeBytes ∧ b ≠ 0 ∧ Memory.wfFrom (a + 1) m = true := by
  simp [Memory.wfFrom, and_assoc]

theorem Memory.wfFrom_of_le {lo hi : Nat} {m : Memory} (h : Memory.wfFrom hi m = true) (le : lo ≤ hi) :
    Memory.wfFrom lo m = true := by
  cases m with
  | nil => rfl
  | cons e m =>
    obtain ⟨a, b⟩ := e
    rw [Memory.wfFrom_cons] at h ⊢
    exact ⟨le.trans h.1, h.2⟩

/-- Below its first address a canonical list reads 00h. -/
theorem Memory.read_below {lo x : Nat} {m : Memory} (h : Memory.wfFrom lo m = true) (lt : x < lo) :
    Memory.read m x = 0 := by
  induction m generalizing lo with
  | nil => rfl
  | cons e m ih =>
    obtain ⟨a, b⟩ := e
    rw [Memory.wfFrom_cons] at h
    have ne : a ≠ x := by omega
    rw [Memory.read_cons, if_neg ne]
    exact ih h.2.2.2 (by omega)

/-! ## One write -/

theorem Memory.wfFrom_write {lo x : Nat} {m : Memory} (v : Byte) (h : Memory.wfFrom lo m = true) (le : lo ≤ x)
    (lt : x < Config.storeBytes) : Memory.wfFrom lo (Memory.write m x v) = true := by
  induction m generalizing lo with
  | nil =>
    by_cases hv : v = 0
    · simp [Memory.write, hv, Memory.wfFrom]
    · rw [Memory.write, if_neg hv, Memory.wfFrom_cons]
      exact ⟨le, lt, hv, rfl⟩
  | cons e m ih =>
    obtain ⟨a, b⟩ := e
    have h' := h
    rw [Memory.wfFrom_cons] at h'
    obtain ⟨h1, h2, h3, h4⟩ := h'
    rw [Memory.write]
    split_ifs with c1 hv c2 hv
    · exact h
    · rw [Memory.wfFrom_cons]
      exact ⟨le, lt, hv, (Memory.wfFrom_cons _ _ _ _).mpr ⟨c1, h2, h3, h4⟩⟩
    · exact Memory.wfFrom_of_le h4 (by omega)
    · rw [Memory.wfFrom_cons]
      exact ⟨le, lt, hv, by rw [c2]; exact h4⟩
    · rw [Memory.wfFrom_cons]
      exact ⟨h1, h2, h3, ih h4 (by omega)⟩

theorem Memory.read_write_from {lo : Nat} {m : Memory} (h : Memory.wfFrom lo m = true) (x y : Nat) (v : Byte) :
    Memory.read (Memory.write m x v) y = if y = x then v else Memory.read m y := by
  induction m generalizing lo with
  | nil =>
    by_cases hv : v = 0
    · subst hv
      simp [Memory.write, Memory.read_nil]
    · rw [Memory.write, if_neg hv, Memory.read_cons]
      by_cases e : y = x
      · rw [if_pos e, if_pos e.symm]
      · rw [if_neg e, if_neg (Ne.symm e)]
  | cons e m ih =>
    obtain ⟨a, b⟩ := e
    have h' := h
    rw [Memory.wfFrom_cons] at h'
    obtain ⟨-, h2, h3, h4⟩ := h'
    have below (t : x < a) : Memory.read ((a, b) :: m) x = 0 :=
      Memory.read_below (lo := a) ((Memory.wfFrom_cons _ _ _ _).mpr ⟨le_refl a, h2, h3, h4⟩) t
    have after (t : x = a) : Memory.read m x = 0 := Memory.read_below h4 (by omega)
    rw [Memory.write]
    by_cases e : y = x
    · rw [if_pos e, e]
      split_ifs with c1 hv c2 hv
      · rw [below c1, hv]
      · rw [Memory.read_cons, if_pos rfl]
      · rw [after c2, hv]
      · rw [Memory.read_cons, if_pos rfl]
      · have t := ih h4
        rw [if_pos e, e] at t
        rw [Memory.read_cons, if_neg (Ne.symm c2), t]
    · rw [if_neg e]
      split_ifs with c1 hv c2 hv
      · rfl
      · rw [Memory.read_cons, if_neg (Ne.symm e)]
      · rw [Memory.read_cons, if_neg (by omega)]
      · rw [Memory.read_cons, if_neg (Ne.symm e), Memory.read_cons, if_neg (by omega)]
      · rw [Memory.read_cons, ih h4, if_neg e, Memory.read_cons]

/-- A write changes no other byte, whatever the form of the list. -/
theorem Memory.read_write_ne (m : Memory) {x y : Nat} (v : Byte) (h : y ≠ x) :
    Memory.read (Memory.write m x v) y = Memory.read m y := by
  induction m with
  | nil =>
    rw [Memory.write]
    split_ifs
    · rfl
    · rw [Memory.read_cons, if_neg (Ne.symm h)]
  | cons e m ih =>
    obtain ⟨a, b⟩ := e
    rw [Memory.write]
    split_ifs with c1 hv c2 hv
    · rfl
    · rw [Memory.read_cons, if_neg (Ne.symm h)]
    · rw [Memory.read_cons, if_neg (by omega)]
    · rw [Memory.read_cons, if_neg (Ne.symm h), Memory.read_cons, if_neg (by omega)]
    · rw [Memory.read_cons, ih, Memory.read_cons]

/-- A write keeps the canonical form. -/
theorem Memory.wf_write {m : Memory} {x : Nat} (v : Byte) (h : Memory.wf m = true) (lt : x < Config.storeBytes) :
    Memory.wf (Memory.write m x v) = true := Memory.wfFrom_write v h (Nat.zero_le x) lt

/-- After a write the byte at its address reads the value, and every other byte reads as before. -/
theorem Memory.read_write {m : Memory} (h : Memory.wf m = true) (x y : Nat) (v : Byte) :
    Memory.read (Memory.write m x v) y = if y = x then v else Memory.read m y := Memory.read_write_from h x y v

/-- Equal contents are equal data. -/
theorem Memory.ext_of_wf {m n : Memory} (hm : Memory.wf m = true) (hn : Memory.wf n = true)
    (h : ∀ x, Memory.read m x = Memory.read n x) : m = n := by
  suffices key : ∀ (m n : Memory) (lo : Nat), Memory.wfFrom lo m = true → Memory.wfFrom lo n = true →
      (∀ x, Memory.read m x = Memory.read n x) → m = n from key m n 0 hm hn h
  intro m
  induction m with
  | nil =>
    intro n lo _ hn h
    cases n with
    | nil => rfl
    | cons e n =>
      obtain ⟨a, b⟩ := e
      rw [Memory.wfFrom_cons] at hn
      have := h a
      rw [Memory.read_nil, Memory.read_cons, if_pos rfl] at this
      exact absurd this.symm hn.2.2.1
  | cons e m ih =>
    obtain ⟨a, b⟩ := e
    intro n lo hm hn h
    cases n with
    | nil =>
      rw [Memory.wfFrom_cons] at hm
      have := h a
      rw [Memory.read_cons, Memory.read_nil, if_pos rfl] at this
      exact absurd this hm.2.2.1
    | cons e' n =>
      obtain ⟨a', b'⟩ := e'
      have hm' := hm
      have hn' := hn
      rw [Memory.wfFrom_cons] at hm hn
      have same : a = a' := by
        rcases Nat.lt_trichotomy a a' with lt | eq | gt
        · have t := h a
          rw [Memory.read_cons, if_pos rfl, Memory.read_cons, if_neg (by omega), Memory.read_below hn.2.2.2 (by omega)] at t
          exact absurd t hm.2.2.1
        · exact eq
        · have t := h a'
          rw [Memory.read_cons, if_neg (by omega), Memory.read_below hm.2.2.2 (by omega), Memory.read_cons, if_pos rfl] at t
          exact absurd t.symm hn.2.2.1
      subst same
      have value : b = b' := by
        have t := h a
        rwa [Memory.read_cons, if_pos rfl, Memory.read_cons, if_pos rfl] at t
      subst value
      have rest : m = n := by
        refine ih n (a + 1) hm.2.2.2 hn.2.2.2 fun x => ?_
        by_cases e : a = x
        · rw [Memory.read_below hm.2.2.2 (by omega), Memory.read_below hn.2.2.2 (by omega)]
        · have t := h x
          rwa [Memory.read_cons, if_neg e, Memory.read_cons, if_neg e] at t
      rw [rest]

/-! ## Addresses -/

theorem storeAddr_lt (pg : Page) (off : Byte) : storeAddr pg off < Config.storeBytes := by
  have h1 := pg.isLt
  have h2 := off.isLt
  show pg.val * 256 + off.toNat < 32768
  omega

theorem storeAddr_inj {pg pg' : Page} {off off' : Byte} :
    storeAddr pg off = storeAddr pg' off' ↔ pg = pg' ∧ off = off' := by
  have h1 := off.isLt
  have h2 := off'.isLt
  constructor
  · intro h
    unfold storeAddr at h
    exact ⟨Fin.ext (by omega), BitVec.eq_of_toNat_eq (by omega)⟩
  · rintro ⟨rfl, rfl⟩
    rfl

/-! ## The bytes of a commit -/

theorem Memory.wf_writeEntries (es : List Entry) {m : Memory} (h : Memory.wf m = true) :
    Memory.wf (Memory.writeEntries m es) = true := by
  induction es generalizing m with
  | nil => exact h
  | cons e es ih => exact ih (Memory.wf_write _ h (storeAddr_lt _ _))

theorem Memory.writeEntries_cons (m : Memory) (e : Entry) (es : List Entry) :
    Memory.writeEntries m (e :: es) = Memory.writeEntries (Memory.write m (storeAddr e.page e.offset) e.value) es := rfl

theorem Memory.writeEntries_append (m : Memory) (es es' : List Entry) :
    Memory.writeEntries m (es ++ es') = Memory.writeEntries (Memory.writeEntries m es) es' := List.foldl_append ..

/-- An address no entry names keeps its byte. -/
theorem Memory.read_writeEntries_of_not {es : List Entry} {m : Memory} {a : Nat}
    (no : ∀ e ∈ es, storeAddr e.page e.offset ≠ a) : Memory.read (Memory.writeEntries m es) a = Memory.read m a := by
  induction es generalizing m with
  | nil => rfl
  | cons e es ih =>
    rw [Memory.writeEntries_cons, ih fun x hx => no x (List.mem_cons_of_mem _ hx),
      Memory.read_write_ne _ _ (Ne.symm (no e List.mem_cons_self))]

/-- Of the entries for one place the last remains. -/
theorem Memory.read_writeEntries_last {before after : List Entry} {e : Entry} {m : Memory} (h : Memory.wf m = true)
    (no : ∀ x ∈ after, ¬ (x.page = e.page ∧ x.offset = e.offset)) :
    Memory.read (Memory.writeEntries m (before ++ e :: after)) (storeAddr e.page e.offset) = e.value := by
  have h1 := Memory.wf_writeEntries before h
  rw [Memory.writeEntries_append, Memory.writeEntries_cons,
    Memory.read_writeEntries_of_not fun x hx t => no x hx (storeAddr_inj.mp t),
    Memory.read_write h1, if_pos rfl]

/-! ## The copy of a page -/

/-- The first `n` bytes of a copy to the page at address `d`: the canonical form is kept, those bytes read as given, and
every other byte reads as before. -/
theorem Memory.writes_range (d : Nat) (f : Nat → Byte) {m : Memory} (h : Memory.wf m = true) (n : Nat)
    (lt : d + n ≤ Config.storeBytes) :
    Memory.wf ((List.range n).foldl (fun m' i => Memory.write m' (d + i) (f i)) m) = true ∧
      ∀ a, Memory.read ((List.range n).foldl (fun m' i => Memory.write m' (d + i) (f i)) m) a =
        if d ≤ a ∧ a < d + n then f (a - d) else Memory.read m a := by
  induction n with
  | zero =>
    refine ⟨h, fun a => ?_⟩
    rw [if_neg (by omega)]
    rfl
  | succ n ih =>
    obtain ⟨w, r⟩ := ih (by omega)
    rw [List.range_succ, List.foldl_append]
    refine ⟨Memory.wf_write _ w (by omega), fun a => ?_⟩
    rw [List.foldl_cons, List.foldl_nil, Memory.read_write w, r]
    by_cases e : a = d + n
    · rw [if_pos e, if_pos (by omega), e, Nat.add_sub_cancel_left]
    · rw [if_neg e]
      by_cases c : d ≤ a ∧ a < d + n
      · rw [if_pos c, if_pos (by omega)]
      · rw [if_neg c, if_neg (by omega)]

theorem pageBase_le (pg : Page) : pg.val * 256 + 256 ≤ Config.storeBytes := by
  have := pg.isLt
  show pg.val * 256 + 256 ≤ 32768
  omega

/-- The same without the canonical form: the bytes outside the range keep their value. -/
theorem Memory.writes_outside (d n : Nat) (f : Nat → Byte) (m : Memory) {a : Nat} (no : a < d ∨ d + n ≤ a) :
    Memory.read ((List.range n).foldl (fun m' i => Memory.write m' (d + i) (f i)) m) a = Memory.read m a := by
  induction n with
  | zero => rfl
  | succ n ih =>
    rw [List.range_succ, List.foldl_append, List.foldl_cons, List.foldl_nil, Memory.read_write_ne _ _ (by omega),
      ih (by omega)]

theorem Memory.wf_copyPage (src dst : Page) {m : Memory} (h : Memory.wf m = true) :
    Memory.wf (Memory.copyPage m src dst) = true := (Memory.writes_range _ _ h 256 (pageBase_le dst)).1

/-- After a copy the destination's bytes are those the source had, and every other byte reads as before. -/
theorem Memory.read_copyPage (src dst : Page) {m : Memory} (h : Memory.wf m = true) (a : Nat) :
    Memory.read (Memory.copyPage m src dst) a = if dst.val * 256 ≤ a ∧ a < dst.val * 256 + 256
      then Memory.read m (src.val * 256 + (a - dst.val * 256)) else Memory.read m a :=
  (Memory.writes_range _ _ h 256 (pageBase_le dst)).2 a

theorem Memory.read_copyPage_dst (src dst : Page) {m : Memory} (h : Memory.wf m = true) (off : Byte) :
    Memory.read (Memory.copyPage m src dst) (storeAddr dst off) = Memory.read m (storeAddr src off) := by
  have lt := off.isLt
  rw [Memory.read_copyPage src dst h, if_pos (by unfold storeAddr; omega)]
  unfold storeAddr
  rw [Nat.add_sub_cancel_left]

theorem Memory.read_copyPage_other (src dst : Page) (m : Memory) {a : Nat} (no : ∀ off : Byte, storeAddr dst off ≠ a) :
    Memory.read (Memory.copyPage m src dst) a = Memory.read m a := by
  apply Memory.writes_outside
  by_contra c
  refine no (BitVec.ofNat 8 (a - dst.val * 256)) ?_
  unfold storeAddr
  rw [BitVec.toNat_ofNat, Nat.mod_eq_of_lt (by omega)]
  omega

/-! ## Reset -/

/-- The bytes of State.reset are in canonical form. -/
theorem Memory.wf_reset : Memory.wf State.reset.store.bytes = true := rfl

end Sys2Proof.Machine
end

