-- ==== Sys2Proof/Laws/Store.lean ====
section
/-! SUPPORT. The checks of the store controller's services: the pages of a commit, the merge reads of a commit and the source
reads of a transfer while they pass, and the line at which they stop. -/

namespace Sys2Proof.Machine

open Safety

/-! ## The pages of a commit -/

theorem mem_insertPage {p x : Page} {l : List Page} : x ∈ insertPage p l ↔ x = p ∨ x ∈ l := by
  induction l with
  | nil => simp [insertPage]
  | cons a l ih =>
    unfold insertPage
    split_ifs with h1 h2
    · simp
    · subst h2
      simp
    · simp only [List.mem_cons, ih]
      tauto

theorem insertPage_sorted {p : Page} {l : List Page} (h : l.Pairwise (· < ·)) : (insertPage p l).Pairwise (· < ·) := by
  induction l with
  | nil => simp [insertPage]
  | cons a l ih =>
    rw [List.pairwise_cons] at h
    unfold insertPage
    split_ifs with h1 h2
    · rw [List.pairwise_cons]
      refine ⟨fun x hx => ?_, List.pairwise_cons.mpr h⟩
      rcases List.mem_cons.mp hx with rfl | hx
      · exact h1
      · exact lt_trans h1 (h.1 x hx)
    · exact List.pairwise_cons.mpr h
    · rw [List.pairwise_cons]
      refine ⟨fun x hx => ?_, ih h.2⟩
      rcases mem_insertPage.mp hx with rfl | hx
      · exact lt_of_le_of_ne (not_lt.mp h1) (Ne.symm h2)
      · exact h.1 x hx

/-- The touched pages are the pages of the entries. -/
theorem mem_touchedPages {es : List Entry} {pg : Page} : pg ∈ touchedPages es ↔ ∃ e ∈ es, e.page = pg := by
  induction es with
  | nil => simp [touchedPages]
  | cons e es ih =>
    have : touchedPages (e :: es) = insertPage e.page (touchedPages es) := rfl
    rw [this, mem_insertPage, ih, List.exists_mem_cons_iff]
    exact or_congr_left eq_comm

/-- The touched pages ascend, each once. -/
theorem touchedPages_sorted (es : List Entry) : (touchedPages es).Pairwise (· < ·) := by
  induction es with
  | nil => simp [touchedPages]
  | cons e es ih => exact insertPage_sorted ih

/-! ## Reads -/

theorem storeKept_refl (st : StoreCtl) : StoreKept st st := ⟨rfl, rfl, rfl, rfl, rfl⟩

theorem storeKept_trans {a b c : StoreCtl} (h : StoreKept a b) (h' : StoreKept b c) : StoreKept a c :=
  ⟨h'.1.trans h.1, h'.2.1.trans h.2.1, h'.2.2.1.trans h.2.2.1, h'.2.2.2.1.trans h.2.2.2.1, h'.2.2.2.2.trans h.2.2.2.2⟩

theorem raisedBy_zero (x : Half) : RaisedBy 0 x x := by
  have := x.isLt
  unfold RaisedBy
  omega

theorem raisedBy_add {m n : Nat} {x y z : Half} (h : RaisedBy m x y) (h' : RaisedBy n y z) : RaisedBy (m + n) x z := by
  unfold RaisedBy at *
  omega

theorem raisedBy_satInc (x : Half) : RaisedBy 1 x (satInc x) := by
  unfold RaisedBy satInc
  split
  · next h =>
    subst h
    decide
  · next h =>
    have : x.toNat ≠ 65535 := fun e => h (BitVec.eq_of_toNat_eq e)
    have := x.isLt
    rw [BitVec.toNat_add]
    show (x.toNat + 1) % 65536 = _
    omega

/-- A read that finds the line good or corrects it. -/
theorem readCheck_passes {l : LineNo} {o : ReadOutcome} (st : StoreCtl) (h : o ≠ .uncorrectable) :
    ∃ st', st.readCheck l o = (st', true) ∧ StoreKept st st' ∧
      RaisedBy (if o = .corrected then 1 else 0) st.corrected st'.corrected := by
  cases o with
  | good => exact ⟨st, rfl, storeKept_refl st, raisedBy_zero _⟩
  | corrected => exact ⟨_, rfl, ⟨rfl, rfl, rfl, rfl, rfl⟩, raisedBy_satInc _⟩
  | uncorrectable => exact absurd rfl h

/-- A line found uncorrectable is listed, or sets the overflow flag when the list is full (R7). -/
theorem enterDamaged_enters (l : LineNo) (st : StoreCtl) : Entered l st (st.enterDamaged l) := by
  unfold Entered StoreCtl.enterDamaged
  by_cases h : l ∈ st.damaged
  · rw [if_pos h, if_pos (by simpa using h)]
    exact ⟨rfl, rfl⟩
  · rw [if_neg h, if_neg (show ¬ st.damaged.contains l = true by simpa using h)]
    by_cases h8 : st.damaged.length < 8
    · rw [if_pos h8, if_pos (show st.damaged.length < Config.damagedEntries from h8)]
      exact ⟨rfl, rfl⟩
    · rw [if_neg h8, if_neg (show ¬ st.damaged.length < Config.damagedEntries from h8)]
      exact ⟨rfl, rfl⟩

theorem enterDamaged_keeps (l : LineNo) (st : StoreCtl) :
    (st.enterDamaged l).bytes = st.bytes ∧ (st.enterDamaged l).codesFresh = st.codesFresh ∧
      (st.enterDamaged l).pages = st.pages ∧ (st.enterDamaged l).corrected = st.corrected := by
  unfold StoreCtl.enterDamaged
  (repeat' split) <;> exact ⟨rfl, rfl, rfl, rfl⟩

theorem readsPass_head {reads : List ReadOutcome} {n : Nat} (h : ReadsPass reads (n + 1)) :
    reads.headD .good ≠ .uncorrectable := by
  have := h 0 (Nat.succ_pos n)
  cases reads with
  | nil => simp
  | cons o _ => simpa using this

theorem readsPass_tail {reads : List ReadOutcome} {n : Nat} (h : ReadsPass reads (n + 1)) : ReadsPass reads.tail n := by
  intro j hj
  have := h (j + 1) (by omega)
  cases reads with
  | nil => simp
  | cons o _ => simpa using this

/-- The corrected lines among the first reads, one by one. -/
theorem count_take_succ (reads : List ReadOutcome) (n : Nat) :
    (reads.take (n + 1)).count .corrected =
      (if reads.headD .good = .corrected then 1 else 0) + (reads.tail.take n).count .corrected := by
  cases reads with
  | nil => simp
  | cons o os =>
    rw [List.take_succ_cons, List.count_cons, List.headD_cons, List.tail_cons, Nat.add_comm]
    cases o <;> rfl

/-! ## The merge reads of a commit -/

/-- How many of these lines of the page the commit writes in part. -/
def partCount (es : List Entry) (pg : Page) (lns : List (Fin 16)) : Nat := (lns.filter (partLine es pg)).length

theorem partLines_eq (es : List Entry) (pgs : List Page) :
    partLines es pgs = (pgs.map fun pg => partCount es pg allLines).sum := by
  unfold partLines partCount
  rw [List.length_flatMap]

theorem partLine_skip (es : List Entry) (pg : Page) (ln : Fin 16) :
    (!touchesLine es pg ln || coversLine es pg ln) = !partLine es pg ln := by
  unfold partLine
  cases touchesLine es pg ln <;> cases coversLine es pg ln <;> rfl

/-- The lines pass: the reads are used up, and only the corrected count may have changed; the check goes on with what follows
them. -/
theorem damageCheck_append (es : List Entry) (pg : Page) (lns more : List (Fin 16)) (st : StoreCtl)
    (reads : List ReadOutcome) (hl : ∀ ln ∈ lns, partLine es pg ln = true → lineNo pg ln ∉ st.damaged)
    (hr : ReadsPass reads (partCount es pg lns)) :
    ∃ st', st.damageCheck es pg reads (lns ++ more) = st'.damageCheck es pg (reads.drop (partCount es pg lns)) more ∧
      StoreKept st st' ∧ RaisedBy ((reads.take (partCount es pg lns)).count .corrected) st.corrected st'.corrected := by
  induction lns generalizing st reads with
  | nil => exact ⟨st, rfl, storeKept_refl st, raisedBy_zero _⟩
  | cons ln lns ih =>
    rw [List.cons_append, StoreCtl.damageCheck, partLine_skip]
    by_cases hp : partLine es pg ln = true
    · have cnt : partCount es pg (ln :: lns) = partCount es pg lns + 1 := by simp [partCount, hp]
      rw [cnt] at hr ⊢
      have no : ¬ st.damaged.contains (lineNo pg ln) = true := by
        simpa using hl ln List.mem_cons_self hp
      obtain ⟨st₁, e₁, k₁, r₁⟩ := readCheck_passes (l := lineNo pg ln) st (readsPass_head hr)
      obtain ⟨st₂, e₂, k₂, r₂⟩ := ih st₁ reads.tail
        (fun l h h' => by rw [k₁.2.2.2.1]; exact hl l (List.mem_cons_of_mem _ h) h') (readsPass_tail hr)
      refine ⟨st₂, ?_, storeKept_trans k₁ k₂, ?_⟩
      · rw [if_neg (by rw [hp]; decide), if_neg no, e₁]
        dsimp only
        rw [if_pos rfl, e₂, List.drop_tail]
      · rw [count_take_succ]
        exact raisedBy_add r₁ r₂
    · have cnt : partCount es pg (ln :: lns) = partCount es pg lns := by simp [partCount, hp]
      rw [cnt] at hr ⊢
      rw [if_pos (by simpa using hp)]
      exact ih st reads (fun l h => hl l (List.mem_cons_of_mem _ h)) hr

/-- All lines pass. -/
theorem damageCheck_passes (es : List Entry) (pg : Page) (lns : List (Fin 16)) (st : StoreCtl) (reads : List ReadOutcome)
    (hl : ∀ ln ∈ lns, partLine es pg ln = true → lineNo pg ln ∉ st.damaged)
    (hr : ReadsPass reads (partCount es pg lns)) :
    ∃ st', st.damageCheck es pg reads lns = (st', reads.drop (partCount es pg lns), none) ∧ StoreKept st st' ∧
      RaisedBy ((reads.take (partCount es pg lns)).count .corrected) st.corrected st'.corrected := by
  obtain ⟨st', e, k, r⟩ := damageCheck_append es pg lns [] st reads hl hr
  rw [List.append_nil] at e
  exact ⟨st', e, k, r⟩

/-- The check stops at a line written in part that is listed, without reading it. -/
theorem damageCheck_listed {es : List Entry} {pg : Page} {ln : Fin 16} (lns : List (Fin 16)) {st : StoreCtl}
    (reads : List ReadOutcome) (hp : partLine es pg ln = true) (hl : lineNo pg ln ∈ st.damaged) :
    st.damageCheck es pg reads (ln :: lns) = (st, reads, some (lineNo pg ln)) := by
  rw [StoreCtl.damageCheck, partLine_skip, if_neg (by rw [hp]; decide), if_pos (by simpa using hl)]

/-- The check stops at a line whose merge read is uncorrectable, which is entered. -/
theorem damageCheck_uncorrectable {es : List Entry} {pg : Page} {ln : Fin 16} (lns : List (Fin 16)) {st : StoreCtl}
    {reads : List ReadOutcome} (hp : partLine es pg ln = true) (hl : lineNo pg ln ∉ st.damaged)
    (hr : reads.headD .good = .uncorrectable) :
    st.damageCheck es pg reads (ln :: lns) = (st.enterDamaged (lineNo pg ln), reads.tail, some (lineNo pg ln)) := by
  rw [StoreCtl.damageCheck, partLine_skip, if_neg (by rw [hp]; decide), if_neg (by simpa using hl), hr]
  rfl

/-! ## The checks of a commit, page by page -/

theorem mem_allPorts (p : Port) : p ∈ allPorts := by
  revert p
  decide

theorem mem_allSlots (k : SlotNo) : k ∈ allSlots := by
  revert k
  decide

theorem mem_allLines (ln : Fin 16) : ln ∈ allLines := by
  revert ln
  decide

theorem mem_allRefs (r : SlotRef) : r ∈ allRefs :=
  List.mem_flatMap.mpr ⟨r.1, mem_allPorts _, List.mem_map.mpr ⟨r.2, mem_allSlots _, rfl⟩⟩

theorem heldByOther_iff (h : HoldCtl) (q : Port) (pg : Page) : h.heldByOther q pg = true ↔ HeldByOther h q pg := by
  simp only [HoldCtl.heldByOther, HeldByOther, List.any_eq_true, Bool.and_eq_true, bne_iff_ne, beq_iff_eq]
  exact ⟨fun ⟨r, _, ⟨a, b⟩, c⟩ => ⟨r, a, b, c⟩, fun ⟨r, a, b, c⟩ => ⟨r, mem_allRefs r, ⟨a, b⟩, c⟩⟩

theorem fullByOther_iff (h : HoldCtl) (q : Port) (pg : Page) : h.fullByOther q pg = true ↔ FullByOther h q pg := by
  simp only [HoldCtl.fullByOther, FullByOther, List.any_eq_true, Bool.and_eq_true, bne_iff_ne, beq_iff_eq]
  exact ⟨fun ⟨r, _, ⟨⟨a, b⟩, c⟩, d⟩ => ⟨r, a, b, c, d⟩, fun ⟨r, a, b, c, d⟩ => ⟨r, mem_allRefs r, ⟨⟨a, b⟩, c⟩, d⟩⟩

theorem readsPass_split {reads : List ReadOutcome} {m n : Nat} (h : ReadsPass reads (m + n)) :
    ReadsPass reads m ∧ ReadsPass (reads.drop m) n :=
  ⟨fun j hj => h j (by omega), fun j hj => by rw [List.getElem?_drop]; exact h (m + j) (by omega)⟩

theorem count_take_add (reads : List ReadOutcome) (m n : Nat) :
    (reads.take (m + n)).count .corrected = (reads.take m).count .corrected + ((reads.drop m).take n).count .corrected := by
  rw [List.take_add, List.count_append]

/-- The pages pass: the check goes on with those that follow, with the reads left. -/
theorem commitCheck_append (sup : Port) (h : HoldCtl) (q : Port) (es : List Entry) (pgs more : List Page) (st : StoreCtl)
    (reads : List ReadOutcome)
    (hp : ∀ pg ∈ pgs, (st.pages[pg].writable sup q = true ∧ ¬ HeldByOther h q pg) ∧
      ∀ ln, partLine es pg ln = true → lineNo pg ln ∉ st.damaged)
    (hr : ReadsPass reads (partLines es pgs)) :
    ∃ st', st.commitCheck sup h q es reads (pgs ++ more) =
        st'.commitCheck sup h q es (reads.drop (partLines es pgs)) more ∧
      StoreKept st st' ∧ RaisedBy ((reads.take (partLines es pgs)).count .corrected) st.corrected st'.corrected := by
  induction pgs generalizing st reads with
  | nil => exact ⟨st, rfl, storeKept_refl st, raisedBy_zero _⟩
  | cons pg pgs ih =>
    have cnt : partLines es (pg :: pgs) = partCount es pg allLines + partLines es pgs := by
      rw [partLines_eq, partLines_eq, List.map_cons, List.sum_cons]
    rw [cnt] at hr ⊢
    obtain ⟨⟨hw, hh⟩, hd⟩ := hp pg List.mem_cons_self
    obtain ⟨r₁, r₂⟩ := readsPass_split hr
    obtain ⟨st₁, e₁, k₁, c₁⟩ := damageCheck_passes es pg allLines st reads (fun ln _ => hd ln) r₁
    obtain ⟨st₂, e₂, k₂, c₂⟩ := ih st₁ (reads.drop (partCount es pg allLines))
      (fun x hx => by rw [k₁.2.2.1, k₁.2.2.2.1]; exact hp x (List.mem_cons_of_mem _ hx)) r₂
    refine ⟨st₂, ?_, storeKept_trans k₁ k₂, ?_⟩
    · rw [List.cons_append, StoreCtl.commitCheck, if_neg (by rw [hw]; decide),
        if_neg (by rw [heldByOther_iff]; exact hh), e₁]
      dsimp only
      rw [e₂, List.drop_drop]
    · rw [count_take_add]
      exact raisedBy_add c₁ c₂

/-! ## The source reads of a transfer -/

/-- The lines pass. -/
theorem readSource_append (src : Page) (lns more : List (Fin 16)) (st : StoreCtl) (reads : List ReadOutcome)
    (hr : ReadsPass reads lns.length) :
    ∃ st', st.readSource src reads (lns ++ more) = st'.readSource src (reads.drop lns.length) more ∧ StoreKept st st' ∧
      RaisedBy ((reads.take lns.length).count .corrected) st.corrected st'.corrected := by
  induction lns generalizing st reads with
  | nil => exact ⟨st, rfl, storeKept_refl st, raisedBy_zero _⟩
  | cons ln lns ih =>
    rw [List.length_cons] at hr ⊢
    obtain ⟨st₁, e₁, k₁, r₁⟩ := readCheck_passes (l := lineNo src ln) st (readsPass_head hr)
    obtain ⟨st₂, e₂, k₂, r₂⟩ := ih st₁ reads.tail (readsPass_tail hr)
    refine ⟨st₂, ?_, storeKept_trans k₁ k₂, ?_⟩
    · rw [List.cons_append, StoreCtl.readSource, e₁]
      dsimp only
      rw [if_pos rfl, e₂, List.drop_tail]
    · rw [count_take_succ]
      exact raisedBy_add r₁ r₂

/-- The read of a line fails, and it is entered; no later one is read. -/
theorem readSource_uncorrectable {src : Page} {ln : Fin 16} (lns : List (Fin 16)) {st : StoreCtl}
    {reads : List ReadOutcome} (hr : reads.headD .good = .uncorrectable) :
    st.readSource src reads (ln :: lns) = (st.enterDamaged (lineNo src ln), false) := by
  rw [StoreCtl.readSource, hr]
  rfl

end Sys2Proof.Machine
end

