-- ==== Sys2Proof/Laws/Holds.lean ====
section
/-! SUPPORT. The hold table: its slots after an update, what blocks a request, the waits-on relation and the ports reached
along it, and the scan of the queue. -/

namespace Sys2Proof.Machine

open Safety

/-! ## Slots -/

theorem slot_setSlot (h : HoldCtl) (r r' : SlotRef) (x : Slot) :
    (h.setSlot r x).slot r' = if r = r' then x else h.slot r' := by
  obtain ⟨p, k⟩ := r
  obtain ⟨p', k'⟩ := r'
  show (upd h.slots p fun v => v.set k x)[p'][k'] = _
  rw [upd_get]
  by_cases hp : p = p'
  · subst hp
    rw [if_pos rfl]
    by_cases hk : k = k'
    · subst hk
      rw [if_pos rfl]
      exact Vector.getElem_set_self _
    · rw [if_neg (fun e => hk (Prod.mk.inj e).2)]
      exact Vector.getElem_set_ne _ _ (fun e => hk (Fin.ext e))
  · rw [if_neg hp, if_neg (fun e => hp (Prod.mk.inj e).1)]
    rfl

@[simp] theorem setSlot_queue (h : HoldCtl) (r : SlotRef) (x : Slot) : (h.setSlot r x).queue = h.queue := rfl

theorem slot_withQueue (h : HoldCtl) (q : List SlotRef) (r : SlotRef) : ({ h with queue := q } : HoldCtl).slot r = h.slot r :=
  rfl

/-- Two hold tables with the same slots and the same queue are the same. -/
theorem holds_ext {h h' : HoldCtl} (hs : ∀ r, h.slot r = h'.slot r) (hq : h.queue = h'.queue) : h = h' := by
  obtain ⟨s, q⟩ := h
  obtain ⟨s', q'⟩ := h'
  obtain rfl : q = q' := hq
  congr 1
  ext1 p hp
  ext1 k hk
  exact hs (⟨p, hp⟩, ⟨k, hk⟩)

theorem slot_free (h : HoldCtl) (r r' : SlotRef) : (h.free r).slot r' = if r = r' then Slot.free else h.slot r' :=
  slot_setSlot h r r' _

theorem queue_free (h : HoldCtl) (r : SlotRef) : (h.free r).queue = h.queue.filter fun x => x != r := rfl

theorem slot_countDown (h : HoldCtl) (r : SlotRef) : h.countDown.slot r = (h.slot r).countDown := by
  simp [HoldCtl.countDown, HoldCtl.slot]

/-- Freeing slots one after another. -/
theorem foldl_free (rs : List SlotRef) (h : HoldCtl) :
    (∀ r, (rs.foldl HoldCtl.free h).slot r = if r ∈ rs then Slot.free else h.slot r) ∧
      (rs.foldl HoldCtl.free h).queue = h.queue.filter fun r => decide (r ∉ rs) := by
  induction rs generalizing h with
  | nil => simp
  | cons a rs ih =>
    obtain ⟨h1, h2⟩ := ih (h.free a)
    constructor
    · intro r
      rw [List.foldl_cons, h1, slot_free]
      by_cases e : a = r
      · subst e
        simp
      · by_cases m : r ∈ rs
        · simp [m]
        · simp [m, e, Ne.symm e]
    · rw [List.foldl_cons, h2, queue_free, List.filter_filter]
      congr 1
      funext r
      by_cases e : r = a
      · subst e
        simp
      · simp [e]

/-! ## What blocks a request -/

theorem grantedMeets_iff (h : HoldCtl) (q : Port) (f c : Nat) : h.grantedMeets q f c = true ↔ GrantedOn h q f c := by
  simp only [HoldCtl.grantedMeets, GrantedOn, List.any_eq_true, Bool.and_eq_true, beq_iff_eq]
  exact ⟨fun ⟨k, _, x⟩ => ⟨k, x⟩, fun ⟨k, x⟩ => ⟨k, mem_allSlots k, x⟩⟩

theorem grantedByOther_iff (h : HoldCtl) (p : Port) (f c : Nat) :
    h.grantedByOther p f c = true ↔ ∃ q, q ≠ p ∧ GrantedOn h q f c := by
  simp only [HoldCtl.grantedByOther, List.any_eq_true, Bool.and_eq_true, bne_iff_ne, grantedMeets_iff]
  exact ⟨fun ⟨q, _, x⟩ => ⟨q, x⟩, fun ⟨q, x⟩ => ⟨q, mem_allPorts q, x⟩⟩

theorem blocked_iff (h : HoldCtl) (older : List SlotRef) (r : SlotRef) :
    h.blocked older r = true ↔ Blocked h older r.1 (h.slot r).first.val (h.slot r).count := by
  simp only [HoldCtl.blocked, Blocked, Bool.or_eq_true, grantedByOther_iff, List.any_eq_true]

theorem mem_blockers (h : HoldCtl) (older : List SlotRef) (p : Port) (f c : Nat) (q : Port) :
    q ∈ h.blockers older p f c ↔ WouldWaitOn h older p f c q := by
  simp only [HoldCtl.blockers, WouldWaitOn, List.mem_filter, Bool.and_eq_true, bne_iff_ne, Bool.or_eq_true,
    grantedMeets_iff, List.any_eq_true, beq_iff_eq, mem_allPorts, true_and]

/-! ## The waits-on relation -/

theorem splitAtPort_none {q : Port} {l : List SlotRef} (h : ∀ r ∈ l, r.1 ≠ q) : splitAtPort q l = none := by
  induction l with
  | nil => rfl
  | cons a l ih =>
    rw [splitAtPort, if_neg (h a List.mem_cons_self), ih fun r hr => h r (List.mem_cons_of_mem _ hr)]
    rfl

theorem splitAtPort_append {before after : List SlotRef} {r : SlotRef} (h : ∀ x ∈ before, x.1 ≠ r.1) :
    splitAtPort r.1 (before ++ r :: after) = some (before, r) := by
  induction before with
  | nil => rw [List.nil_append, splitAtPort, if_pos rfl]
  | cons a l ih =>
    rw [List.cons_append, splitAtPort, if_neg (h a List.mem_cons_self), ih fun x hx => h x (List.mem_cons_of_mem _ hx)]
    rfl

theorem Reaches_trans {h : HoldCtl} {p q r : Port} (a : Reaches h p q) (b : Reaches h q r) : Reaches h p r := by
  induction a with
  | here _ => exact b
  | step e _ ih => exact .step e (ih b)

theorem mem_reach_succ (h : HoldCtl) (n : Nat) (ps : List Port) (q : Port) :
    q ∈ h.reach (n + 1) ps ↔
      q ∈ h.reach n (allPorts.filter fun q => ps.contains q || ps.any fun x => (h.waitsOn x).contains q) := Iff.rfl

/-- What `reach` finds is reached. -/
theorem reach_sound {h : HoldCtl} {n : Nat} {ps : List Port} {q : Port} (m : q ∈ h.reach n ps) :
    ∃ p ∈ ps, Reaches h p q := by
  induction n generalizing ps with
  | zero => exact ⟨q, m, .here q⟩
  | succ n ih =>
    obtain ⟨x, hx, hr⟩ := ih m
    simp only [List.mem_filter, Bool.or_eq_true, List.contains_iff_mem, List.any_eq_true] at hx
    rcases hx.2 with hx | ⟨y, hy, hyx⟩
    · exact ⟨x, hx, hr⟩
    · exact ⟨y, hy, .step hyx hr⟩

/-- A chain of waits-on edges with its length. -/
inductive Chain (h : HoldCtl) : Nat → Port → Port → Prop where
  | here (p : Port) : Chain h 0 p p
  | step {n : Nat} {p q r : Port} : q ∈ h.waitsOn p → Chain h n q r → Chain h (n + 1) p r

theorem mem_reach_of_chain {h : HoldCtl} {n m : Nat} {ps : List Port} {p q : Port} (hp : p ∈ ps) (c : Chain h n p q)
    (le : n ≤ m) : q ∈ h.reach m ps := by
  induction m generalizing ps n p with
  | zero =>
    cases c with
    | here => exact hp
    | step _ _ => exact absurd le (by omega)
  | succ m ih =>
    rw [mem_reach_succ]
    cases c with
    | here =>
      refine ih (p := q) ?_ (.here q) (Nat.zero_le m)
      simp [mem_allPorts, hp]
    | step e c =>
      refine ih ?_ c (by omega)
      simp only [List.mem_filter, mem_allPorts, true_and, Bool.or_eq_true, List.any_eq_true, List.contains_iff_mem]
      exact .inr ⟨_, hp, e⟩

/-- A chain of waits-on edges that stays in a set of ports. -/
inductive Within (h : HoldCtl) (s : Finset Port) : Port → Port → Prop where
  | here {p : Port} : p ∈ s → Within h s p p
  | step {p q r : Port} : p ∈ s → q ∈ h.waitsOn p → Within h s q r → Within h s p r

theorem Within_mem {h : HoldCtl} {s : Finset Port} {p q : Port} (w : Within h s p q) : p ∈ s := by
  cases w <;> assumption

theorem Within_of_reaches {h : HoldCtl} {p q : Port} (r : Reaches h p q) : Within h Finset.univ p q := by
  induction r with
  | here p => exact .here (Finset.mem_univ p)
  | step e _ ih => exact .step (Finset.mem_univ _) e ih

/-- A chain passes a port `a` for the last time, or never. -/
theorem Within_avoid {h : HoldCtl} {s : Finset Port} {p q : Port} (a : Port) (w : Within h s p q) :
    Within h (s.erase a) p q ∨ a = q ∨ ∃ b ∈ h.waitsOn a, Within h (s.erase a) b q := by
  induction w with
  | @here p hp =>
    by_cases e : p = a
    · exact .inr (.inl e.symm)
    · exact .inl (.here (Finset.mem_erase.mpr ⟨e, hp⟩))
  | @step p b q hp hb _ ih =>
    rcases ih with ih | ih
    · by_cases e : p = a
      · subst e
        exact .inr (.inr ⟨b, hb, ih⟩)
      · exact .inl (.step (Finset.mem_erase.mpr ⟨e, hp⟩) hb ih)
    · exact .inr ih

/-- In a set of ports a chain needs fewer edges than the set has ports. -/
theorem chain_of_within {h : HoldCtl} {q : Port} (n : Nat) : ∀ (s : Finset Port) (p : Port), s.card = n →
    Within h s p q → ∃ m < n, Chain h m p q := by
  induction n with
  | zero =>
    intro s p hs w
    rw [Finset.card_eq_zero] at hs
    subst hs
    exact absurd (Within_mem w) (Finset.notMem_empty p)
  | succ n ih =>
    intro s p hs w
    rcases Within_avoid p w with w' | e | ⟨b, hb, w'⟩
    · exact absurd (Within_mem w') (Finset.notMem_erase p s)
    · subst e
      exact ⟨0, Nat.succ_pos n, .here p⟩
    · obtain ⟨m, lt, c⟩ := ih (s.erase p) b (by rw [Finset.card_erase_of_mem (Within_mem w), hs]; rfl) w'
      exact ⟨m + 1, by omega, .step hb c⟩

/-- A port that is reached is reached along at most three edges. -/
theorem chain_of_reaches {h : HoldCtl} {p q : Port} (r : Reaches h p q) : ∃ m < 4, Chain h m p q :=
  chain_of_within 4 Finset.univ p (by decide) (Within_of_reaches r)

/-- The cycle check of R114, as the ports that are reached. -/
theorem closesCycle_iff (h : HoldCtl) (p : Port) (f c : Nat) :
    h.closesCycle p f c = true ↔ ∃ q, WouldWaitOn h h.queue p f c q ∧ Reaches h q p := by
  rw [HoldCtl.closesCycle, List.contains_iff_mem]
  constructor
  · intro m
    obtain ⟨q, hq, r⟩ := reach_sound m
    exact ⟨q, (mem_blockers ..).mp hq, r⟩
  · rintro ⟨q, hq, r⟩
    obtain ⟨m, lt, c⟩ := chain_of_reaches r
    exact mem_reach_of_chain ((mem_blockers ..).mpr hq) c lt.le

/-! ## The scan -/

/-- What a grant makes of a slot. -/
def grantOf (x : Slot) : Slot := { x with state := .GRANTED, leaseLeft := x.lease, waitLeft := 0 }

theorem slot_grant (h : HoldCtl) (r r' : SlotRef) :
    (h.grant r).slot r' = if r = r' then grantOf (h.slot r') else h.slot r' := by
  rw [HoldCtl.grant, slot_setSlot]
  split
  · next e =>
    subst e
    rfl
  · rfl

/-- A grant keeps every slot's range. -/
theorem meets_grant (h : HoldCtl) (r r' : SlotRef) (f c : Nat) :
    ((h.grant r).slot r').meets f c = (h.slot r').meets f c := by
  rw [slot_grant]
  split <;> rfl

/-- A grant takes no GRANTED slot away. -/
theorem grantedOn_grant {h : HoldCtl} {r : SlotRef} {q : Port} {f c : Nat} (g : GrantedOn h q f c) :
    GrantedOn (h.grant r) q f c := by
  obtain ⟨k, hk, hm⟩ := g
  refine ⟨k, ?_, by rw [meets_grant]; exact hm⟩
  rw [slot_grant]
  split
  · rfl
  · exact hk

/-- The scan of the requests `rs` behind `older`: which are granted, which wait on, and what becomes of the slots. -/
theorem scanFrom_spec (h : HoldCtl) (older rs : List SlotRef) (nd : rs.Nodup) :
    (h.scanFrom older rs).2.2.Sublist rs ∧
      (h.scanFrom older rs).2.1 = older ++ rs.filter (fun r => decide (r ∉ (h.scanFrom older rs).2.2)) ∧
      (h.scanFrom older rs).1.queue = h.queue ∧
      ∀ r, (h.scanFrom older rs).1.slot r =
        if r ∈ (h.scanFrom older rs).2.2 then grantOf (h.slot r) else h.slot r := by
  induction rs generalizing h older with
  | nil => simp [HoldCtl.scanFrom]
  | cons a rs ih =>
    rw [List.nodup_cons] at nd
    by_cases b : h.blocked older a = true
    · have e : h.scanFrom older (a :: rs) = h.scanFrom (older ++ [a]) rs := by rw [HoldCtl.scanFrom, if_pos b]
      obtain ⟨i1, i2, i3, i4⟩ := ih h (older ++ [a]) nd.2
      rw [e]
      have no : a ∉ (h.scanFrom (older ++ [a]) rs).2.2 := fun m => nd.1 (i1.subset m)
      refine ⟨i1.cons a, ?_, i3, i4⟩
      rw [i2, List.filter_cons, if_pos (by simpa using no), List.append_assoc]
      rfl
    · have e : h.scanFrom older (a :: rs) = (((h.grant a).scanFrom older rs).1, ((h.grant a).scanFrom older rs).2.1,
          a :: ((h.grant a).scanFrom older rs).2.2) := by rw [HoldCtl.scanFrom, if_neg b]
      obtain ⟨i1, i2, i3, i4⟩ := ih (h.grant a) older nd.2
      rw [e]
      have no : a ∉ ((h.grant a).scanFrom older rs).2.2 := fun m => nd.1 (i1.subset m)
      refine ⟨i1.cons_cons a, ?_, i3, fun r => ?_⟩
      · dsimp only
        rw [i2, List.filter_cons, if_neg (by simp)]
        congr 1
        apply List.filter_congr
        intro r hr
        have : r ≠ a := fun x => nd.1 (x ▸ hr)
        simp [this]
      · dsimp only
        rw [i4, slot_grant]
        by_cases c : a = r
        · subst c
          simp [no]
        · simp [c, Ne.symm c]

end Sys2Proof.Machine
end

