-- ==== Sys2Proof/Laws/Steps.lean ====
section
/-! SUPPORT. What the shared operations do, once: a bus event of a settled port; a claim its owner takes; an act of the
store controller or the hold controller while the store controller is free; the look of the arbiter. -/

namespace Sys2Proof.Machine

open Safety

/-! ## Running, vectors of parts -/

theorem whenRunning_of {f : State → State} {s : State} (h : s.running = true) : s.whenRunning f = f s := by
  rw [State.whenRunning, if_pos h]

theorem modPort_self {p : Port} {f : PortUnit → PortUnit} {s : State} (h : f s.ports[p] = s.ports[p]) :
    s.modPort p f = s := by
  have e : upd s.ports p f = s.ports := by
    ext1 j hj
    rw [upd_getElem]
    split
    · next h' =>
      subst h'
      exact h
    · rfl
  show { s with ports := upd s.ports p f } = s
  rw [e]

theorem modAttn_self {p : Port} {f : AttnUnit → AttnUnit} {s : State} (h : f s.attn[p] = s.attn[p]) :
    s.modAttn p f = s := by
  have e : upd s.attn p f = s.attn := by
    ext1 j hj
    rw [upd_getElem]
    split
    · next h' =>
      subst h'
      exact h
    · rfl
  show { s with attn := upd s.attn p f } = s
  rw [e]

theorem modPort_const (p : Port) (f : PortUnit → PortUnit) (s : State) :
    s.modPort p f = s.modPort p (fun _ => f s.ports[p]) := rfl

theorem modAttn_const (p : Port) (f : AttnUnit → AttnUnit) (s : State) :
    s.modAttn p f = s.modAttn p (fun _ => f s.attn[p]) := rfl

theorem modPort_modPort (p : Port) (f g : PortUnit → PortUnit) (s : State) :
    (s.modPort p f).modPort p g = s.modPort p (fun u => g (f u)) := by
  show { s with ports := upd (upd s.ports p f) p g } = { s with ports := upd s.ports p fun u => g (f u) }
  rw [upd_upd]

theorem modCmd_modCmd (p : Port) (f g : CommandUnit → CommandUnit) (s : State) :
    (s.modCmd p f).modCmd p g = s.modCmd p (fun u => g (f u)) := by
  show { s with cmds := upd (upd s.cmds p f) p g } = { s with cmds := upd s.cmds p fun u => g (f u) }
  rw [upd_upd]

theorem modAttn_modAttn (p : Port) (f g : AttnUnit → AttnUnit) (s : State) :
    (s.modAttn p f).modAttn p g = s.modAttn p (fun u => g (f u)) := by
  show { s with attn := upd (upd s.attn p f) p g } = { s with attn := upd s.attn p fun u => g (f u) }
  rw [upd_upd]

/-! ## Bus events -/

/-- With no claim at the command unit there is none to examine. -/
theorem examineAll_of_examined {p : Port} {s : State} (h : ∀ c ∈ s.claims, anyAtUnit p c = false) :
    s.examineAll p = s := by
  have e : s.claims.countP (anyAtUnit p) = 0 := List.countP_eq_zero.2 fun c hc => by rw [h c hc]; exact Bool.false_ne_true
  rw [State.examineAll, e]
  rfl

/-- With no PORT STATE line to be gathered no part is taken. -/
theorem takeParts_of_gathered {p : Port} {s : State} (h : s.ports[p].gathering = false) : s.takeParts p = s := by
  rw [State.takeParts, h]
  rfl

/-- While no command comes and no PORT STATE line is being gathered nothing happens. -/
theorem idle_of_gathered {s : State} (h : ∀ p : Port, s.ports[p].gathering = false) : s.idle = s := by
  show (((s.takeParts 0).takeParts 1).takeParts 2).takeParts 3 = s
  rw [takeParts_of_gathered (h 0), takeParts_of_gathered (h 1), takeParts_of_gathered (h 2), takeParts_of_gathered (h 3)]

/-- With no PORT STATE line to be gathered nothing happens. -/
theorem gather_of_gathered {p : Port} {s : State} (h : s.ports[p].gathering = false) : s.gather p = s := by
  rw [State.gather, h]
  rfl

theorem settle_of_settled {p : Port} {s : State} (h : Settled p s) : s.settle p = s := by
  have h1 : s.takeReadyControl p = s := by
    unfold State.takeReadyControl PortUnit.readyCommand
    split
    · next es e =>
      exfalso
      split at e
      · next es' e' =>
        rcases h.noControl es' e' with hr | ⟨x, hx⟩
        · have : s.ports[p].endedRead.isSome = true := Option.isSome_iff_ne_none.2 hr
          simp [PortUnit.blocked, this, -Fin.getElem_fin] at e
        · simp [PortUnit.blocked, hx, -Fin.getElem_fin] at e
      · exact absurd e (by simp)
    · rfl
  have h2 : s.examineAll p = s := examineAll_of_examined h.examined
  have h3 : s.takeAllDones p = s := by
    apply modAttn_self
    rw [h.noDone]
    rfl
  have h4 : s.obtain true p = s := by
    unfold State.obtain
    dsimp only
    split
    · next ho =>
      simp only [PortUnit.obtaining, Bool.and_eq_true, Option.isNone_iff_eq_none, beq_iff_eq] at ho
      rcases h.obtained ho.1.1 with hn | ⟨hn, pg, off, ac, ht⟩
      · exact absurd ho.2 hn
      · rw [ht]
        have : s.ports[p].outstanding.isSome = true := Option.isSome_iff_ne_none.2 hn
        simp [this, -Fin.getElem_fin]
    · rfl
  have h5 : s.gather p = s := gather_of_gathered h.gathered
  rw [State.settle, h1, h2, h3, h4, h5]

theorem busEvent_of_settled {p : Port} {f : State → State} {s : State} (h : Settled p s) :
    s.busEvent p f = (f s).arbitrate := by
  rw [State.busEvent, whenRunning_of h.running, settle_of_settled h]

/-! ## Claims -/

theorem takeOwned_of_oldest {p : Port} {code : Byte} {act : Claim → State → State × Answer} {c : Claim}
    {rest : List Claim} {s : State} (h : Oldest (isOwned p code) c rest s) :
    s.takeOwned p code act = (act c (s.setClaims rest)).1.answer c (act c (s.setClaims rest)).2 := by
  unfold State.takeOwned
  rw [takeFirst_of_oldest h]
  rfl

theorem examineFirst_of_oldest {f : Claim → Bool} {c : Claim} {rest : List Claim} {s : State} (h : Oldest f c rest s) :
    s.examineFirst f = match c.verdict s.device.supervisor with
      | .answered a => answered c rest a s
      | .passed st => s.setClaims (rest ++ [{ c with stage := st }]) := by
  unfold State.examineFirst
  rw [takeFirst_of_oldest h]
  rfl

theorem Oldest.test {f : Claim → Bool} {c : Claim} {rest : List Claim} {s : State} (h : Oldest f c rest s) :
    f c = true := takeFirst_test (takeFirst_of_oldest h)

/-- An act of the store controller or of the hold controller, while the store controller is free (R3, R94). -/
theorem betweenRequests_free {a : DueAct} {s : State} (h : s.arbiter.inService = none) :
    s.betweenRequests a = (s.runDue a).arbitrate := by
  rw [State.betweenRequests, h]
  rfl

/-- The same, during a service: it becomes due. -/
theorem betweenRequests_busy {a : DueAct} {s : State} (h : s.arbiter.inService ≠ none) (hm : s.mayBecomeDue a = true) :
    s.betweenRequests a = s.setArbiter { s.arbiter with due := s.arbiter.due ++ [a] } := by
  have : s.arbiter.inService.isNone = false := by
    cases e : s.arbiter.inService with
    | none => exact absurd e h
    | some _ => rfl
  rw [State.betweenRequests, this, hm]
  rfl

/-! ## The arbiter -/

theorem arbitrate_busy {s : State} (h : s.arbiter.inService ≠ none) : s.arbitrate = s := by
  have : s.arbiter.inService.isSome = true := Option.isSome_iff_ne_none.2 h
  rw [State.arbitrate, this]
  rfl

theorem arbitrate_choice {s : State} {r : Requester} (hr : s.running = true) (h : s.arbiter.inService = none)
    (hf : (ringFrom s.arbiter.pointer).find? s.requests = some r) :
    s.arbitrate = s.setArbiter { s.arbiter with inService := some r, pointer := r + 1 } := by
  rw [State.arbitrate, h, hr, hf]
  rfl

theorem arbitrate_none {s : State} (hf : (ringFrom s.arbiter.pointer).find? s.requests = none) : s.arbitrate = s := by
  rw [State.arbitrate, hf]
  split <;> rfl

/-- Whatever the arbiter does, it changes its own state alone. -/
theorem arbitrate_cases (s : State) : s.arbitrate = s ∨ ∃ r, s.arbiter.inService = none ∧ s.requests r = true ∧
    s.arbitrate = s.setArbiter { s.arbiter with inService := some r, pointer := r + 1 } := by
  unfold State.arbitrate
  split
  · exact .inl rfl
  · next h =>
    split
    · exact .inl rfl
    · next r hr =>
      refine .inr ⟨r, ?_, List.find?_some hr, rfl⟩
      simp only [Bool.or_eq_true, not_or, Bool.not_eq_true, Option.isSome_eq_false_iff, Option.isNone_iff_eq_none] at h
      exact h.1

end Sys2Proof.Machine
end

