-- ==== Sys2Proof/Laws/Commands.lean ====
section
/-! SUPPORT. What the statements about commands need of the shared operations: updates of different parts commute with the
raising of events, bytes of two-byte fields, arguments as numbers, and one equation for a claim that is taken. -/

namespace Sys2Proof.Machine

open Sys2Proof.Safety

/-! ## Raising events commutes with changes of other parts -/

theorem raiseAll_setClaims (es : List Event) (cs : List Claim) (s : State) :
    (s.setClaims cs).raiseAll es = (s.raiseAll es).setClaims cs := by
  induction es generalizing s with
  | nil => rfl
  | cons e es ih => exact ih (s.raise e)

theorem raiseAll_setHolds (es : List Event) (h : HoldCtl) (s : State) :
    (s.setHolds h).raiseAll es = (s.raiseAll es).setHolds h := by
  induction es generalizing s with
  | nil => rfl
  | cons e es ih => exact ih (s.raise e)

theorem raiseAll_setCopy (es : List Event) (c : CopyEngine) (s : State) :
    (s.setCopy c).raiseAll es = (s.raiseAll es).setCopy c := by
  induction es generalizing s with
  | nil => rfl
  | cons e es ih => exact ih (s.raise e)

theorem raiseAll_append (es es' : List Event) (s : State) : s.raiseAll (es ++ es') = (s.raiseAll es).raiseAll es' :=
  List.foldl_append

/-! ## Arguments and two-byte fields -/

theorem bytes2_half (lo hi : Byte) : bytes2 (half lo hi) = [lo, hi] := by
  simp only [bytes2, loByte, hiByte, half]
  congr 1
  · exact BitVec.setWidth_append_eq_right
  · congr 1
    ext i hi'
    simp only [BitVec.getElem_setWidth, BitVec.getLsbD_ushiftRight, BitVec.getLsbD_append]
    rw [if_neg (by omega), BitVec.getLsbD_eq_getElem (by omega)]
    congr 1
    omega

theorem eq_byteN {b : Byte} {n : Nat} (h : b.toNat = n) : b = byteN n := by
  apply BitVec.eq_of_toNat_eq
  rw [h, byteN, BitVec.toNat_ofNat, Nat.mod_eq_of_lt (by omega)]

@[simp] theorem byteN_toNat (b : Byte) : byteN b.toNat = b := (eq_byteN rfl).symm

theorem slotOf_of {b : Byte} {k : SlotNo} (h : b.toNat = k.val) : slotOf b = some k := by
  have lt := k.isLt
  rw [slotOf, if_neg (by omega)]
  congr 1
  exact Fin.ext (by simp [h])

theorem badRange_false {m f c : Nat} (hc : 1 ≤ c) (hm : c ≤ m) (hl : f + c ≤ 128) : badRange m f c = false := by
  simp only [badRange, Bool.or_eq_false_iff, decide_eq_false_iff_not]
  omega

theorem badRange_true {m f c : Nat} (h : ¬ (1 ≤ c ∧ c ≤ m ∧ f + c ≤ 128)) : badRange m f c = true := by
  simp only [badRange, Bool.or_eq_true, decide_eq_true_eq]
  omega

theorem mem_rangePages {f c : Nat} (h : f + c ≤ 128) (pg : Page) : pg ∈ rangePages f c ↔ inRange f c pg = true := by
  simp only [rangePages, inRange, List.mem_map, List.mem_range, Bool.and_eq_true, decide_eq_true_eq]
  constructor
  · rintro ⟨i, hi, rfl⟩
    have : (pageOf (f + i)).val = f + i := Nat.mod_eq_of_lt (by omega)
    omega
  · intro ⟨h1, h2⟩
    refine ⟨pg.val - f, by omega, Fin.ext ?_⟩
    have : (pageOf (f + (pg.val - f))).val = f + (pg.val - f) := Nat.mod_eq_of_lt (by omega)
    omega

theorem pageOf_val {n : Nat} (h : n < 128) : (pageOf n).val = n := Nat.mod_eq_of_lt h

/-! ## A claim is taken -/

/-- A claim of the store controller or the hold controller, taken while the store controller is free. -/
theorem takes_free {p : Port} {code : Byte} {c : Claim} {rest : List Claim} {s : State} (h : Takes p code c rest s)
    {act : Claim → State → State × Answer} (hd : ∀ t, State.runDue (.claim p code) t = t.takeOwned p code act) :
    s.whenRunning (State.betweenRequests (.claim p code)) =
      ((act c (s.setClaims rest)).1.answer c (act c (s.setClaims rest)).2).arbitrate := by
  rw [whenRunning_of h.waits.running, betweenRequests_free h.free, hd, takeOwned_of_oldest h.waits.oldest]

/-- A claim of any other owner. -/
theorem waits_taken {p : Port} {code : Byte} {c : Claim} {rest : List Claim} {s : State} (h : Waits p code c rest s)
    (act : Claim → State → State × Answer) :
    s.whenRunning (State.takeOwned p code act) = (act c (s.setClaims rest)).1.answer c (act c (s.setClaims rest)).2 := by
  rw [whenRunning_of h.running, takeOwned_of_oldest h.oldest]

/-! ## Postings -/

/-- The events of a posting are appended to those before it. -/
theorem postPort_append (w : PageWrite) (n : NoticeUnit) (es : List Event) (p : Port) :
    NoticeUnit.postPort w (n, es) p =
      ((NoticeUnit.postPort w (n, []) p).1, es ++ (NoticeUnit.postPort w (n, []) p).2) := by
  unfold NoticeUnit.postPort
  split <;> simp

theorem postPage_append (w : PageWrite) (n : NoticeUnit) (es : List Event) :
    NoticeUnit.postPage (n, es) w = ((NoticeUnit.postPage (n, []) w).1, es ++ (NoticeUnit.postPage (n, []) w).2) := by
  unfold NoticeUnit.postPage
  induction allPorts generalizing n es with
  | nil => simp
  | cons p ps ih =>
    rw [List.foldl_cons, List.foldl_cons, postPort_append, ih, ih (NoticeUnit.postPort w (n, []) p).1
      (NoticeUnit.postPort w (n, []) p).2, List.append_assoc]

/-- A posting is its page entries one after another. -/
theorem post_cons (w : PageWrite) (ws : List PageWrite) (n : NoticeUnit) :
    n.post (w :: ws) = (((NoticeUnit.postPage (n, []) w).1.post ws).1,
      (NoticeUnit.postPage (n, []) w).2 ++ ((NoticeUnit.postPage (n, []) w).1.post ws).2) := by
  have h : ∀ (ws : List PageWrite) (n : NoticeUnit) (es : List Event),
      ws.foldl NoticeUnit.postPage (n, es) = ((n.post ws).1, es ++ (n.post ws).2) := by
    intro ws
    induction ws with
    | nil => simp [NoticeUnit.post]
    | cons w ws ih =>
      intro n es
      rw [NoticeUnit.post, List.foldl_cons, List.foldl_cons, postPage_append, ih, ih
        (NoticeUnit.postPage (n, []) w).1, List.append_assoc]
  exact h ws _ _

/-! ## Outcomes of transfers, replaced records -/

/-- Once the copy engine has taken it, no outcome waits. -/
theorem takeOutcome_taken (s : State) (r : Reason) : s.takeOutcome.copy.transfer ≠ .returned r := by
  have issue : ∀ e : CopyEngine, e.issue.transfer ≠ .returned r := by
    intro e
    unfold CopyEngine.issue
    split <;> simp
  have copy : ∀ (es : List Event) (t : State), (t.raiseAll es).copy = t.copy := by
    intro es
    induction es with
    | nil => exact fun _ => rfl
    | cons e es ih => exact fun t => ih (t.raise e)
  unfold State.takeOutcome
  split
  · rw [copy]
    show (s.copy.takeOutcome _).1.transfer ≠ _
    unfold CopyEngine.takeOutcome
    split
    · simp
    · dsimp only
      repeat' split
      all_goals exact issue _
  · next h => exact h r

/-- The events of the replaced records, raised one after another (R60). -/
theorem raiseReplaced_eq (p : Port) (n : Nat) (s : State) :
    State.raiseReplaced p n s = s.raiseAll (List.replicate n ⟨p, sACCESS_FAULT, .fault .BAD_ADDRESS⟩) := by
  induction n generalizing s with
  | zero => rfl
  | succ n ih => exact ih _

/-! ## Sets of ports -/

theorem PortSet.has_add (a : PortSet) (p q : Port) : PortSet.has (PortSet.add a p) q = (PortSet.has a q || p == q) := by
  revert a p q; decide

theorem PortSet.has_remove (a : PortSet) (p q : Port) :
    PortSet.has (PortSet.remove a p) q = (PortSet.has a q && p != q) := by
  revert a p q; decide

/-- Two sets with the same ports are equal. -/
theorem PortSet.eq_of_has {a b : PortSet} (h : ∀ q, PortSet.has a q = PortSet.has b q) : a = b := by
  revert a b; decide

theorem PortSet.has_ofList (l : List Port) (q : Port) : PortSet.has (PortSet.ofList l) q = l.contains q := by
  have : ∀ (l : List Port) (a : PortSet),
      PortSet.has (l.foldl PortSet.add a) q = (PortSet.has a q || l.contains q) := by
    intro l; induction l with
    | nil => simp
    | cons x l ih =>
      intro a; rw [List.foldl_cons, ih, PortSet.has_add, List.contains_cons, Bool.or_assoc]; congr 2
      rw [Bool.beq_comm]
  rw [PortSet.ofList, this]; simp [PortSet.has]

end Sys2Proof.Machine
end

