-- ==== Sys2Proof/Laws/HoldInvariants.lean ====
section
/-! SUPPORT. What each hold operation does to the form of the hold table, to the blocking of its queue and to the waits-on
relation: counting down, freeing slots, the scan, an immediate grant, and a request that is queued. -/

namespace Sys2Proof.Machine

open Sys2Proof.Safety

/-! ## The scan -/

theorem meets_symm (x y : Slot) : x.meets y.first.val y.count = y.meets x.first.val x.count := by
  simp only [Slot.meets, overlap]; rw [Bool.and_comm]

theorem gbo_grant {h : HoldCtl} {a : SlotRef} {p f c} (g : h.grantedByOther p f c = true) :
    (h.grant a).grantedByOther p f c = true := by
  rw [grantedByOther_iff] at *
  obtain ⟨q, h1, h2⟩ := g; exact ⟨q, h1, grantedOn_grant h2⟩

theorem blocked_grant {h : HoldCtl} {a r : SlotRef} {older} (b : h.blocked older r = true) :
    (h.grant a).blocked older r = true := by
  simp only [HoldCtl.blocked, Bool.or_eq_true, List.any_eq_true] at *
  have e1 : ((h.grant a).slot r).first = (h.slot r).first := by rw [slot_grant]; split <;> rfl
  have e2 : ((h.grant a).slot r).count = (h.slot r).count := by rw [slot_grant]; split <;> rfl
  rw [e1, e2]
  rcases b with b | ⟨o, h1, h2⟩
  · exact .inl (gbo_grant b)
  · exact .inr ⟨o, h1, by rw [meets_grant]; exact h2⟩

/-- Each request of the list is blocked by another port's GRANTED slot or by what precedes it. -/
def Pre (h : HoldCtl) (l : List SlotRef) : Prop := ∀ b r a, l = b ++ r :: a → h.blocked b r = true

theorem pre_grant {h : HoldCtl} {a l} (p : Pre h l) : Pre (h.grant a) l := fun b r x e => blocked_grant (p b r x e)
theorem pre_snoc {h : HoldCtl} {a l} (p : Pre h l) (b : h.blocked l a = true) : Pre h (l ++ [a]) := by
  intro x r y e
  rcases List.eq_nil_or_concat y with rfl | ⟨y', z, rfl⟩
  · have := List.append_inj' e rfl; obtain ⟨rfl, h2⟩ := this; simp at h2; subst h2; exact b
  · rw [List.concat_eq_append] at e
    have : l = x ++ r :: y' := by
      have e' : l ++ [a] = (x ++ r :: y') ++ [z] := by rw [e]; simp
      exact (List.append_inj' e' rfl).1
    exact p x r y' this

/-- What the scan leaves: the older requests stay blocked, and what it grants meets neither another port's GRANTED slot nor
an older request that stays. -/
theorem scan_more (h : HoldCtl) (older rs : List SlotRef) (nd : rs.Nodup) (pre : Pre h older) :
   let x := h.scanFrom older rs
   Pre x.1 x.2.1 ∧
   (∀ r ∈ x.2.2, ∀ y, y.1 ≠ r.1 → (x.1.slot y).state = .GRANTED → (h.slot y).meets (h.slot r).first.val (h.slot r).count = false) ∧
   (∀ before r after, rs = before ++ r :: after → r ∈ x.2.2 → ∀ o ∈ older ++ before, o ∉ x.2.2 → (h.slot o).meets (h.slot r).first.val (h.slot r).count = false) := by
  induction rs generalizing h older with
  | nil => refine ⟨pre, by simp [HoldCtl.scanFrom], by simp⟩
  | cons a rs ih =>
    rw [List.nodup_cons] at nd
    by_cases b : h.blocked older a = true
    · have e : h.scanFrom older (a :: rs) = h.scanFrom (older ++ [a]) rs := by rw [HoldCtl.scanFrom, if_pos b]
      obtain ⟨i1, i2, i3⟩ := ih h (older ++ [a]) nd.2 (pre_snoc pre b)
      have sp := scanFrom_spec h (older ++ [a]) rs nd.2
      have no : a ∉ (h.scanFrom (older ++ [a]) rs).2.2 := fun m => nd.1 (sp.1.subset m)
      intro x
      rw [show x = h.scanFrom (older ++ [a]) rs from e]
      refine ⟨i1, i2, ?_⟩
      intro bf r af eq hr o ho hno
      cases bf with
      | nil => simp at eq; exact absurd hr (eq.1 ▸ no)
      | cons z bf =>
        simp at eq
        apply i3 bf r af eq.2 hr o _ hno
        obtain ⟨rfl, _⟩ := eq
        simpa using ho
    · have e : h.scanFrom older (a :: rs) = (((h.grant a).scanFrom older rs).1, ((h.grant a).scanFrom older rs).2.1,
          a :: ((h.grant a).scanFrom older rs).2.2) := by rw [HoldCtl.scanFrom, if_neg b]
      obtain ⟨i1, i2, i3⟩ := ih (h.grant a) older nd.2 (pre_grant pre)
      have sp := scanFrom_spec (h.grant a) older rs nd.2
      have no : a ∉ ((h.grant a).scanFrom older rs).2.2 := fun m => nd.1 (sp.1.subset m)
      intro x
      rw [show x = _ from e]
      have fc : ∀ r, ((h.grant a).slot r).first = (h.slot r).first ∧ ((h.grant a).slot r).count = (h.slot r).count := by
        intro r; rw [slot_grant]; split <;> exact ⟨rfl, rfl⟩
      simp only [meets_grant, (fc _).1, (fc _).2] at i2 i3
      have nb : (∀ y : SlotRef, y.1 ≠ a.1 → (h.slot y).state = .GRANTED → (h.slot y).meets (h.slot a).first.val (h.slot a).count = false) ∧ ∀ o ∈ older,  (h.slot o).meets (h.slot a).first.val (h.slot a).count = false := by
        simp only [HoldCtl.blocked, Bool.or_eq_true, not_or, grantedByOther_iff] at b
        refine ⟨fun y h1 h2 => ?_, fun o ho => ?_⟩
        · rw [← Bool.not_eq_true]; intro h3; exact b.1 ⟨y.1, h1, y.2, h2, h3⟩
        · rw [← Bool.not_eq_true]; intro h3; exact b.2 (List.any_eq_true.mpr ⟨o, ho, h3⟩)
      have ag : ((((h.grant a).scanFrom older rs).1).slot a).state = .GRANTED := by
        rw [sp.2.2.2, if_neg no, slot_grant, if_pos rfl]; rfl
      refine ⟨i1, ?_, ?_⟩
      · intro r hr y hy hg
        rcases List.mem_cons.mp hr with rfl | hr
        · by_cases hyG : y ∈ ((h.grant r).scanFrom older rs).2.2
          · have h5 := i2 y hyG r (Ne.symm hy) ag
            rw [meets_symm]; exact h5
          · dsimp only at hg
            rw [sp.2.2.2, if_neg hyG, slot_grant, if_neg (by rintro rfl; exact hy rfl)] at hg
            exact nb.1 y hy hg
        · exact i2 r hr y hy hg
      · intro bf r af eq hr o ho hno
        dsimp only at hno
        rw [List.mem_cons, not_or] at hno
        cases bf with
        | nil => simp at eq; obtain ⟨rfl, _⟩ := eq; simp at ho; exact nb.2 o ho
        | cons z bf =>
          simp at eq; obtain ⟨rfl, rfl⟩ := eq
          rcases List.mem_cons.mp hr with rfl | hr
          · exact absurd (by simp) nd.1
          · apply i3 bf r af rfl hr o _ hno.2
            simp at ho ⊢
            rcases ho with h | h | h
            · exact .inl h
            · exact absurd h hno.1
            · exact .inr h

/-- The slots the scan grants, from the oldest request on (R118). -/
abbrev granted (h : HoldCtl) : List SlotRef := (h.scanFrom [] h.queue).2.2

theorem scan_slot {h : HoldCtl} (ok : HoldsOk h) (r : SlotRef) : h.scan.1.slot r =
    if r ∈ granted h then
      { h.slot r with state := .GRANTED, leaseLeft := (h.slot r).lease, waitLeft := 0 } else h.slot r :=
  (scanFrom_spec h [] h.queue ok.once).2.2.2 r

theorem scan_queue {h : HoldCtl} (ok : HoldsOk h) :
    h.scan.1.queue = h.queue.filter (fun r => decide (r ∉ granted h)) :=
  (scanFrom_spec h [] h.queue ok.once).2.1.trans (by simp)

theorem granted_sublist {h : HoldCtl} (ok : HoldsOk h) : (granted h).Sublist h.queue :=
  (scanFrom_spec h [] h.queue ok.once).1

theorem scan_state {h : HoldCtl} (ok : HoldsOk h) (r : SlotRef) :
    (h.scan.1.slot r).state = if r ∈ granted h then .GRANTED else (h.slot r).state := by
  rw [scan_slot ok]; split <;> rfl

theorem scan_range {h : HoldCtl} (ok : HoldsOk h) (r : SlotRef) :
    (h.scan.1.slot r).first = (h.slot r).first ∧ (h.scan.1.slot r).count = (h.slot r).count := by
  rw [scan_slot ok]; split <;> exact ⟨rfl, rfl⟩

theorem scan_meets {h : HoldCtl} (ok : HoldsOk h) (r : SlotRef) (f c : Nat) :
    (h.scan.1.slot r).meets f c = (h.slot r).meets f c := by
  simp only [Slot.meets, (scan_range ok r).1, (scan_range ok r).2]

/-- A granted request meets no older request that stays in the queue. -/
theorem granted_apart {h : HoldCtl} (ok : HoldsOk h) {before r after} (e : h.queue = before ++ r :: after)
    (hr : r ∈ granted h) {o} (ho : o ∈ before) (hno : o ∉ granted h) :
    (h.slot o).meets (h.slot r).first.val (h.slot r).count = false :=
  (scan_more h [] h.queue ok.once (by intro b r a e; simp at e)).2.2 before r after e hr o (by simpa using ho) hno

/-- The scan leaves no request that could be granted. -/
theorem scan_scanned {h : HoldCtl} (ok : HoldsOk h) : Scanned h.scan.1 :=
  (scan_more h [] h.queue ok.once (by intro b r a e; simp at e)).1

/-- The scan keeps the form of the hold table. -/
theorem scan_ok {h : HoldCtl} (ok : HoldsOk h) : HoldsOk h.scan.1 := by
  have m2 := (scan_more h [] h.queue ok.once (by intro b r a e; simp at e)).2.1
  have wait : ∀ r ∈ granted h, (h.slot r).state = .WAITING := fun r hr => (ok.queued r).mp ((granted_sublist ok).subset hr)
  refine ⟨?_, ?_, ?_, ?_, ?_, ?_⟩
  · intro r hr; rw [scan_state ok] at hr; split at hr
    · cases hr
    · next hn => rw [scan_slot ok, if_neg hn]; exact ok.free r hr
  · intro r; rw [scan_queue ok, scan_state ok, List.mem_filter, ok.queued]
    by_cases hr : r ∈ granted h <;> simp [hr]
  · rw [scan_queue ok]; exact ok.once.filter _
  · intro p k k' h1 h2; rw [scan_state ok] at h1 h2
    split at h1; · cases h1
    split at h2; · cases h2
    exact ok.oneWaiting p k k' h1 h2
  · intro r r' ne h1 h2
    rw [scan_meets ok, (scan_range ok r').1, (scan_range ok r').2]
    have h1' := h1; have h2' := h2
    rw [scan_state ok] at h1' h2'
    by_cases g1 : r ∈ granted h <;> by_cases g2 : r' ∈ granted h
    · by_cases hp : r.1 = r'.1
      · exfalso; apply ne; obtain ⟨p,k⟩ := r; obtain ⟨p',k'⟩ := r'; cases hp
        rw [ok.oneWaiting p k k' (wait _ g1) (wait _ g2)]
      · exact m2 r' g2 r hp h1
    · by_cases hp : r.1 = r'.1
      · obtain ⟨p,k⟩ := r; obtain ⟨p',k'⟩ := r'; cases hp; simp [g2] at h2'
        exact ok.apart p k k' (wait _ g1) h2'
      · rw [meets_symm]; exact m2 r g1 r' (Ne.symm hp) h2
    · by_cases hp : r.1 = r'.1
      · obtain ⟨p,k⟩ := r; obtain ⟨p',k'⟩ := r'; cases hp; simp [g1] at h1'
        rw [meets_symm]; exact ok.apart p k' k (wait _ g2) h1'
      · exact m2 r' g2 r hp h1
    · simp [g1] at h1'; simp [g2] at h2'; exact ok.disjoint r r' ne h1' h2'
  · intro p k k' h1 h2
    rw [scan_meets ok, (scan_range ok _).1, (scan_range ok _).2]
    rw [scan_state ok] at h1 h2
    split at h1; · cases h1
    split at h2
    · next hg =>
      have := ok.oneWaiting p k k' h1 (wait _ hg); subst this; contradiction
    · exact ok.apart p k k' h1 h2

/-! ## The waits-on relation -/

/-- What a port waits on, from its oldest request in the queue. -/
theorem waitsOn_iff {h : HoldCtl} {p q : Port} :
    q ∈ h.waitsOn p ↔ ∃ before k after, h.queue = before ++ (p, k) :: after ∧
      (∀ r ∈ before, r.1 ≠ p) ∧ WouldWaitOn h before p (h.slot (p, k)).first.val (h.slot (p, k)).count q := by
  constructor
  · intro hq
    by_cases hn : ∀ r ∈ h.queue, r.1 ≠ p
    · simp [HoldCtl.waitsOn, splitAtPort_none hn] at hq
    · push Not at hn
      have : ∃ before k after, h.queue = before ++ (p,k) :: after ∧ ∀ r ∈ before, r.1 ≠ p := by
        obtain ⟨r, hr, hp⟩ := hn
        clear hq
        revert hr
        generalize h.queue = l
        induction l with
        | nil => simp
        | cons x l ih =>
          intro hr
          by_cases hx : x.1 = p
          · exact ⟨[], x.2, l, by rw [← hx]; rfl, by simp⟩
          · rcases List.mem_cons.mp hr with rfl | hr
            · exact absurd hp hx
            · obtain ⟨b, k, a, e, hb⟩ := ih hr
              exact ⟨x :: b, k, a, by rw [e]; rfl, by intro r hr; rcases List.mem_cons.mp hr with rfl | hr; exacts [hx, hb r hr]⟩
      obtain ⟨b, k, a, e, hb⟩ := this
      refine ⟨b, k, a, e, hb, ?_⟩
      have := splitAtPort_append (before := b) (after := a) (r := (p,k)) hb
      simp only [HoldCtl.waitsOn, e, this] at hq
      exact (mem_blockers h b p _ _ q).mp hq
  · rintro ⟨b, k, a, e, hb, hw⟩
    have := splitAtPort_append (before := b) (after := a) (r := (p,k)) hb
    simp only [HoldCtl.waitsOn, e, this]
    exact (mem_blockers h b p _ _ q).mpr hw

theorem queued_once {h : HoldCtl} (ok : HoldsOk h) : ∀ p k k', (p,k) ∈ h.queue → (p,k') ∈ h.queue → k = k' :=
  fun p k k' h1 h2 => ok.oneWaiting p k k' ((ok.queued _).mp h1) ((ok.queued _).mp h2)

/-- What a waiting port waits on, from its one request in the queue. -/
theorem waitsOn_iff' {h : HoldCtl} (ok : HoldsOk h) {p q : Port} :
    q ∈ h.waitsOn p ↔ ∃ before k after, h.queue = before ++ (p, k) :: after ∧
      WouldWaitOn h before p (h.slot (p, k)).first.val (h.slot (p, k)).count q := by
  rw [waitsOn_iff]
  constructor
  · rintro ⟨b,k,a,e,_,w⟩; exact ⟨b,k,a,e,w⟩
  · rintro ⟨b,k,a,e,w⟩; refine ⟨b,k,a,e,?_,w⟩
    rintro ⟨p',k'⟩ hr rfl
    have h1 : (p', k') ∈ h.queue := by rw [e]; simp [hr]
    have h2 : (p', k) ∈ h.queue := by rw [e]; simp
    have := queued_once ok _ _ _ h1 h2; subst this
    have nd := ok.once; rw [e, List.nodup_append] at nd
    exact nd.2.2 _ hr _ (by simp) rfl

/-- A relation with no new edge has no new cycle. -/
theorem acyclic_mono {h h' : HoldCtl} (e : ∀ p q, q ∈ h'.waitsOn p → q ∈ h.waitsOn p) (a : Acyclic h) : Acyclic h' := by
  have : ∀ p q, Reaches h' p q → Reaches h p q := by
    intro p q r; induction r with
    | here => exact .here _
    | step m _ ih => exact .step (e _ _ m) ih
  intro p q m r; exact a p q (e _ _ m) (this _ _ r)

/-! ## Operations that keep ranges and states, and operations that free slots -/

/-- The two tables have the same queue, ranges and slot states. -/
structure Same (h h' : HoldCtl) : Prop where
  queue : h'.queue = h.queue
  state : ∀ r, (h'.slot r).state = (h.slot r).state
  first : ∀ r, (h'.slot r).first = (h.slot r).first
  count : ∀ r, (h'.slot r).count = (h.slot r).count
  free : ∀ r, (h'.slot r).state = .FREE → h'.slot r = h.slot r

theorem Same.meets {h h' : HoldCtl} (s : Same h h') (r f c) : (h'.slot r).meets f c = (h.slot r).meets f c := by
  simp only [Slot.meets, s.first, s.count]
theorem Same.ok {h h' : HoldCtl} (s : Same h h') (ok : HoldsOk h) : HoldsOk h' := by
  refine ⟨fun r hr => ?_, fun r => ?_, ?_, fun p k k' => ?_, fun r r' => ?_, fun p k k' => ?_⟩
  · rw [s.free r hr]; rw [s.state] at hr; exact ok.free r hr
  · rw [s.queue, s.state]; exact ok.queued r
  · rw [s.queue]; exact ok.once
  · rw [s.state, s.state]; exact ok.oneWaiting p k k'
  · rw [s.state, s.state, s.meets, s.first, s.count]; exact ok.disjoint r r'
  · rw [s.state, s.state, s.meets, s.first, s.count]; exact ok.apart p k k'
theorem Same.granted {h h' : HoldCtl} (s : Same h h') (q f c) : GrantedOn h' q f c ↔ GrantedOn h q f c := by
  simp only [GrantedOn, s.state, s.meets]
theorem Same.blocked {h h' : HoldCtl} (s : Same h h') (o r) : h'.blocked o r = true ↔ h.blocked o r = true := by
  simp only [HoldCtl.blocked, Bool.or_eq_true, grantedByOther_iff, s.granted, List.any_eq_true, s.meets, s.first, s.count]
theorem Same.scanned {h h' : HoldCtl} (s : Same h h') (ok : Scanned h) : Scanned h' := by
  intro b r a e; rw [s.blocked]; rw [s.queue] at e; exact ok b r a e
theorem Same.edges {h h' : HoldCtl} (s : Same h h') (ok : HoldsOk h) : ∀ p q, q ∈ h'.waitsOn p → q ∈ h.waitsOn p := by
  intro p q; rw [waitsOn_iff' ok, waitsOn_iff' (s.ok ok)]
  simp only [WouldWaitOn, s.queue, s.first, s.count, s.granted, s.meets]; exact id

/-- Counting down changes no range and no slot state. -/
theorem countDown_same (h : HoldCtl) : Same h h.countDown := by
  have : ∀ x : Slot, x.countDown.state = x.state ∧ x.countDown.first = x.first ∧ x.countDown.count = x.count ∧ (x.countDown.state = .FREE → x.countDown = x) := by
    intro x; simp only [Slot.countDown]; split <;> (try split) <;> simp_all
  refine ⟨rfl, ?_, ?_, ?_, ?_⟩ <;> intro r <;> rw [slot_countDown]
  exacts [(this _).1, (this _).2.1, (this _).2.2.1, (this _).2.2.2]

/-- The second table is the first with the slots of `f` freed and taken out of the queue. -/
structure Freed (f : SlotRef → Bool) (h h' : HoldCtl) : Prop where
  queue : h'.queue = h.queue.filter (fun r => !f r)
  slot : ∀ r, h'.slot r = if f r then Slot.free else h.slot r

theorem Freed.ok {f} {h h' : HoldCtl} (s : Freed f h h') (ok : HoldsOk h) : HoldsOk h' := by
  have st : ∀ r, (h'.slot r).state ≠ .FREE → f r = false ∧ h'.slot r = h.slot r := by
    intro r hr; rw [s.slot] at hr ⊢; cases hf : f r <;> simp [hf, Slot.free] at hr ⊢
  refine ⟨fun r hr => ?_, fun r => ?_, ?_, fun p k k' h1 h2 => ?_, fun r r' ne h1 h2 => ?_, fun p k k' h1 h2 => ?_⟩
  · rw [s.slot] at hr ⊢; cases hf : f r <;> simp [hf] at hr ⊢; exact ok.free r hr
  · rw [s.queue, s.slot, List.mem_filter, ok.queued]; cases hf : f r <;> simp [Slot.free]
  · rw [s.queue]; exact ok.once.filter _
  · have e1 := (st _ (by rw [h1]; decide)).2; have e2 := (st _ (by rw [h2]; decide)).2
    rw [e1] at h1; rw [e2] at h2; exact ok.oneWaiting p k k' h1 h2
  · have e1 := (st _ (by rw [h1]; decide)).2; have e2 := (st _ (by rw [h2]; decide)).2
    rw [e1] at h1 ⊢; rw [e2] at h2 ⊢; exact ok.disjoint r r' ne h1 h2
  · have e1 := (st _ (by rw [h1]; decide)).2; have e2 := (st _ (by rw [h2]; decide)).2
    rw [e1] at h1 ⊢; rw [e2] at h2 ⊢; exact ok.apart p k k' h1 h2

theorem filter_split {α} {f : α → Bool} : ∀ {l b : List α} {r : α} {a : List α}, l.filter f = b ++ r :: a →
    ∃ b' a', l = b' ++ r :: a' ∧ b'.filter f = b := by
  intro l; induction l with
  | nil => intro b r a e; simp at e
  | cons x l ih =>
    intro b r a e
    by_cases hx : f x
    · rw [List.filter_cons_of_pos hx] at e
      cases b with
      | nil => simp at e; exact ⟨[], l, by simp [e.1], rfl⟩
      | cons y b => simp at e; obtain ⟨b', a', h1, h2⟩ := ih e.2; exact ⟨x :: b', a', by simp [h1], by rw [List.filter_cons_of_pos hx, h2, e.1]⟩
    · rw [List.filter_cons_of_neg hx] at e
      obtain ⟨b', a', h1, h2⟩ := ih e; exact ⟨x :: b', a', by simp [h1], by rw [List.filter_cons_of_neg hx, h2]⟩

theorem Freed.edges {f} {h h' : HoldCtl} (s : Freed f h h') (ok : HoldsOk h) : ∀ p q, q ∈ h'.waitsOn p →
    q ∈ h.waitsOn p := by
  intro p q; rw [waitsOn_iff' ok, waitsOn_iff' (s.ok ok)]
  rintro ⟨b, k, a, e, ne, w⟩
  rw [s.queue] at e
  obtain ⟨b', a', e1, e2⟩ := filter_split e
  have hk : f (p,k) = false := by
    have : (p,k) ∈ h.queue.filter (fun r => !f r) := by rw [e]; simp
    simpa using (List.mem_filter.mp this).2
  have sk : h'.slot (p,k) = h.slot (p,k) := by rw [s.slot, hk]; rfl
  rw [sk] at w
  refine ⟨b', k, a', e1, ne, ?_⟩
  rcases w with ⟨j, h1, h2⟩ | ⟨r, h1, h2, h3⟩
  · left; refine ⟨j, ?_⟩; rw [s.slot] at h1 h2; split at h1
    · simp [Slot.free] at h1
    · next hf => rw [if_neg hf] at h2; exact ⟨h1, h2⟩
  · right
    rw [← e2, List.mem_filter] at h1
    have hf : f r = false := by simpa using h1.2
    refine ⟨r, h1.1, h2, ?_⟩
    rw [s.slot, hf] at h3; exact h3

/-- The scan adds nothing to the waits-on relation. -/
theorem scan_edges {h : HoldCtl} (ok : HoldsOk h) : ∀ p q, q ∈ h.scan.1.waitsOn p → q ∈ h.waitsOn p := by
  intro p q; rw [waitsOn_iff' ok, waitsOn_iff' (scan_ok ok)]
  rintro ⟨b, k, a, e, ne, w⟩
  rw [scan_queue ok] at e
  obtain ⟨b', a', e1, e2⟩ := filter_split e
  refine ⟨b', k, a', e1, ne, ?_⟩
  rw [(scan_range ok _).1, (scan_range ok _).2] at w
  have kG : (p,k) ∉ granted h := by
    have : (p,k) ∈ h.queue.filter (fun r => decide (r ∉ granted h)) := by rw [e]; simp
    simpa using (List.mem_filter.mp this).2
  rcases w with ⟨j, h1, h2⟩ | ⟨r, h1, h2, h3⟩
  · rw [scan_meets ok] at h2
    rw [scan_slot ok] at h1
    split at h1
    · next hj =>
      right
      refine ⟨(q,j), ?_, rfl, h2⟩
      have hjq := (granted_sublist ok).subset hj
      rw [e1] at hjq
      rcases List.mem_append.mp hjq with hb | hb
      · exact hb
      · rcases List.mem_cons.mp hb with hb | hb
        · cases hb; exact absurd hj kG
        · exfalso
          obtain ⟨x, y, rfl⟩ := List.append_of_mem hb
          have := granted_apart ok (before := b' ++ (p,k) :: x) (r := (q,j)) (after := y) (by rw [e1]; simp) hj
            (o := (p,k)) (by simp) kG
          rw [meets_symm] at this
          rw [this] at h2; cases h2
    · exact .inl ⟨j, h1, h2⟩
  · right; rw [scan_meets ok] at h3
    rw [← e2, List.mem_filter] at h1
    exact ⟨r, h1.1, h2, h3⟩

/-! ## A new request -/

/-- The free slot `k` of `p` may take the request `x`: no GRANTED slot of `p` meets it and no slot of `p` waits. -/
structure Placed (h : HoldCtl) (p : Port) (k : SlotNo) (x : Slot) : Prop where
  apart : ¬ GrantedOn h p x.first.val x.count
  notWaiting : ∀ j, (h.slot (p, j)).state ≠ .WAITING
  slot : (h.slot (p, k)).state = .FREE

theorem placed_slot {h : HoldCtl} {p k x} (r) : (h.setSlot (p,k) x).slot r = if
    (p,k) = r then x else h.slot r := slot_setSlot h (p,k) r x

/-- An immediate grant keeps the form of the hold table. -/
theorem place_ok {h : HoldCtl} (ok : HoldsOk h) {p k x} (hp : Placed h p k x) (hx : x.state = .GRANTED) (hb :
    ¬ Blocked h h.queue p x.first.val x.count) : HoldsOk (h.setSlot (p,k) x) := by
  have hS := placed_slot (h := h) (p := p) (k := k) (x := x)
  have nf : (p,k) ∉ h.queue := fun m => by have := (ok.queued _).mp m; rw [hp.slot] at this; cases this
  have nog : ∀ r, (h.slot r).state = .GRANTED → (h.slot r).meets x.first.val x.count = false := by
    intro r hr; rw [← Bool.not_eq_true]; intro hm
    by_cases e : r.1 = p
    · subst e; exact hp.apart ⟨r.2, hr, hm⟩
    · exact hb (.inl ⟨r.1, e, r.2, hr, hm⟩)
  refine ⟨fun r hr => ?_, fun r => ?_, ok.once, fun q j j' h1 h2 => ?_, fun r r' ne h1 h2 => ?_, fun q j j' h1 h2 => ?_⟩
  · rw [hS] at hr ⊢; split at hr
    · rw [hx] at hr; cases hr
    · next h' => rw [if_neg h']; exact ok.free r hr
  · rw [hS]; change r ∈ h.queue ↔ _; split
    · next e => subst e; rw [hx]; simp [nf]
    · exact ok.queued r
  · rw [hS] at h1 h2
    split at h1; · rw [hx] at h1; cases h1
    split at h2; · rw [hx] at h2; cases h2
    exact ok.oneWaiting q j j' h1 h2
  · rw [hS] at h1 h2 ⊢; rw [hS]
    split at h1 <;> split at h2
    · next a b => exact absurd (a.symm.trans b) ne
    · next a b => rw [if_pos a, if_neg b]; rw [meets_symm]; exact nog r' h2
    · next a b => rw [if_pos b, if_neg a]; exact nog r h1
    · next a b => rw [if_neg a, if_neg b]; exact ok.disjoint r r' ne h1 h2
  · rw [hS] at h1 h2 ⊢; rw [hS]
    split at h1
    · rw [hx] at h1; cases h1
    · next a =>
      split at h2
      · next b => cases b; exact absurd h1 (hp.notWaiting j)
      · next b => rw [if_neg a, if_neg b]; exact ok.apart q j j' h1 h2

/-- An immediate grant leaves every waiting request blocked. -/
theorem place_scanned {h : HoldCtl} (ok : HoldsOk h) {p k x} (hp : Placed h p k x) (hs : Scanned h) : Scanned
    (h.setSlot (p,k) x) := by
  have hS := placed_slot (h := h) (p := p) (k := k) (x := x)
  have nf : (p,k) ∉ h.queue := fun m => by have := (ok.queued _).mp m; rw [hp.slot] at this; cases this
  intro b r a e
  have := hs b r a e
  have e' : h.queue = b ++ r :: a := e
  have nr : (p,k) ≠ r := by rintro rfl; exact nf (by rw [e']; simp)
  simp only [HoldCtl.blocked, Bool.or_eq_true, grantedByOther_iff, List.any_eq_true] at *
  rw [hS, if_neg nr]
  rcases this with ⟨q, h1, j, h2, h3⟩ | ⟨o, h1, h2⟩
  · left; refine ⟨q, h1, j, ?_⟩; rw [hS, if_neg]; exact ⟨h2, h3⟩
    intro eq; rw [← eq, hp.slot] at h2; cases h2
  · right; refine ⟨o, h1, ?_⟩; rw [hS, if_neg]; exact h2
    intro eq; subst eq; exact nf (by rw [e']; simp [h1])

/-- An immediate grant adds nothing to the waits-on relation. -/
theorem place_edges {h : HoldCtl} (ok : HoldsOk h) {p k x} (hp : Placed h p k x) (hx : x.state = .GRANTED) (hb :
    ¬ Blocked h h.queue p x.first.val x.count) : ∀ a b, b ∈ (h.setSlot (p,k) x).waitsOn a → b ∈ h.waitsOn a := by
  have hS := placed_slot (h := h) (p := p) (k := k) (x := x)
  have nf : (p,k) ∉ h.queue := fun m => by have := (ok.queued _).mp m; rw [hp.slot] at this; cases this
  intro a b; rw [waitsOn_iff' ok, waitsOn_iff' (place_ok ok hp hx hb)]
  rintro ⟨bf, j, af, e, ne, w⟩
  have e' : h.queue = bf ++ (a,j) :: af := e
  have nr : (p,k) ≠ (a,j) := by intro eq; exact nf (by rw [e', eq]; simp)
  rw [hS, if_neg nr] at w
  refine ⟨bf, j, af, e', ne, ?_⟩
  rcases w with ⟨i, h1, h2⟩ | ⟨r, h1, h2, h3⟩
  · rw [hS] at h1 h2; split at h1
    · next eq =>
      exfalso; rw [if_pos eq] at h2
      rw [meets_symm] at h2
      exact hb (.inr ⟨(a,j), by rw [e']; simp, h2⟩)
    · next eq => rw [if_neg eq] at h2; exact .inl ⟨i, h1, h2⟩
  · right; refine ⟨r, h1, h2, ?_⟩; rw [hS, if_neg] at h3; exact h3
    intro eq; subst eq; exact nf (by rw [e']; simp [h1])

/-- The request `x` of `p` is put into slot `k` and at the end of the queue. -/
abbrev queued (h : HoldCtl) (p : Port) (k : SlotNo) (x : Slot) : HoldCtl := { h.setSlot (p,k) x with queue := h.queue ++ [(p,k)] }

/-- Queueing a request keeps the form of the hold table. -/
theorem queued_ok {h : HoldCtl} (ok : HoldsOk h) {p k x} (hp : Placed h p k x) (hx : x.state = .WAITING) : HoldsOk
    (queued h p k x) := by
  have hS : ∀ r, (queued h p k x).slot r = if (p,k) = r then x else h.slot r := fun r => slot_setSlot h (p,k) r x
  have nf : (p,k) ∉ h.queue := fun m => by have := (ok.queued _).mp m; rw [hp.slot] at this; cases this
  refine ⟨fun r hr => ?_, fun r => ?_, ?_, fun q j j' h1 h2 => ?_, fun r r' ne h1 h2 => ?_, fun q j j' h1 h2 => ?_⟩
  · rw [hS] at hr ⊢; split at hr
    · rw [hx] at hr; cases hr
    · next h' => rw [if_neg h']; exact ok.free r hr
  · rw [hS]; change r ∈ h.queue ++ [(p,k)] ↔ _; rw [List.mem_append, List.mem_singleton, ok.queued]; split
    · next e => subst e; simp [hx]
    · next e => simp [Ne.symm e]
  · change (h.queue ++ [(p,k)]).Nodup; rw [List.nodup_append]; exact ⟨ok.once, by simp, by simp; rintro a b h1 rfl rfl; exact nf h1⟩
  · rw [hS] at h1 h2
    split at h1 <;> split at h2
    · next a b => cases a; cases b; rfl
    · next a b => cases a; exact absurd h2 (hp.notWaiting j')
    · next a b => cases b; exact absurd h1 (hp.notWaiting j)
    · exact ok.oneWaiting q j j' h1 h2
  · rw [hS] at h1 h2 ⊢; rw [hS]
    split at h1; · rw [hx] at h1; cases h1
    split at h2; · rw [hx] at h2; cases h2
    next a b => rw [if_neg a, if_neg b]; exact ok.disjoint r r' ne h1 h2
  · rw [hS] at h1 h2 ⊢; rw [hS]
    split at h2; · rw [hx] at h2; cases h2
    next b =>
    split at h1
    · next a => cases a; rw [if_pos rfl, if_neg b, ← Bool.not_eq_true]; intro hm; rw [meets_symm] at hm; exact hp.apart ⟨j', h2, hm⟩
    · next a => rw [if_neg a, if_neg b]; exact ok.apart q j j' h1 h2

/-- A queued request that is blocked leaves every request blocked. -/
theorem queued_scanned {h : HoldCtl} (ok : HoldsOk h) {p k x} (hp : Placed h p k x) (hs : Scanned h)
    (hb : Blocked h h.queue p x.first.val x.count) : Scanned (queued h p k x) := by
  have hS : ∀ r, (queued h p k x).slot r = if (p,k) = r then x else h.slot r := fun r => slot_setSlot h (p,k) r x
  have nf : (p,k) ∉ h.queue := fun m => by have := (ok.queued _).mp m; rw [hp.slot] at this; cases this
  have hg : ∀ q f c, GrantedOn h q f c → GrantedOn (queued h p k x) q f c := by
    rintro q f c ⟨j, h1, h2⟩; refine ⟨j, ?_⟩; rw [hS, if_neg]; exact ⟨h1, h2⟩
    intro eq; rw [← eq, hp.slot] at h1; cases h1
  have hm : ∀ r ∈ h.queue, (queued h p k x).slot r = h.slot r := by
    intro r hr; rw [hS, if_neg]; rintro rfl; exact nf hr
  have key : Pre (queued h p k x) (h.queue ++ [(p,k)]) := by
    apply pre_snoc
    · intro b r a e
      have := hs b r a e
      simp only [HoldCtl.blocked, Bool.or_eq_true, grantedByOther_iff, List.any_eq_true] at *
      rw [hm r (by rw [e]; simp)]
      rcases this with ⟨q, h1, h2⟩ | ⟨o, h1, h2⟩
      · exact .inl ⟨q, h1, hg _ _ _ h2⟩
      · exact .inr ⟨o, h1, by rw [hm o (by rw [e]; simp [h1])]; exact h2⟩
    · simp only [HoldCtl.blocked, Bool.or_eq_true, grantedByOther_iff, List.any_eq_true]
      rw [hS, if_pos rfl]
      rcases hb with ⟨q, h1, h2⟩ | ⟨o, h1, h2⟩
      · exact .inl ⟨q, h1, hg _ _ _ h2⟩
      · exact .inr ⟨o, h1, by rw [hm o h1]; exact h2⟩
  exact key

/-- A request that would close no cycle closes none (R116). -/
theorem queued_acyclic {h : HoldCtl} (ok : HoldsOk h) {p k x} (hp : Placed h p k x) (hx : x.state = .WAITING) (ha :
    Acyclic h)
   (hc : ∀ q, WouldWaitOn h h.queue p x.first.val x.count q → ¬ Reaches h q p) : Acyclic (queued h p k x) := by
  have hS : ∀ r, (queued h p k x).slot r = if (p,k) = r then x else h.slot r := fun r => slot_setSlot h (p,k) r x
  have nf : (p,k) ∉ h.queue := fun m => by have := (ok.queued _).mp m; rw [hp.slot] at this; cases this
  have ok' := queued_ok ok hp hx
  have hg : ∀ q f c, GrantedOn (queued h p k x) q f c → GrantedOn h q f c := by
    rintro q f c ⟨j, h1, h2⟩; refine ⟨j, ?_⟩; rw [hS] at h1 h2; split at h1
    · rw [hx] at h1; cases h1
    · next e => rw [if_neg e] at h2; exact ⟨h1, h2⟩
  have hm : ∀ r ∈ h.queue, (queued h p k x).slot r = h.slot r := by
    intro r hr; rw [hS, if_neg]; rintro rfl; exact nf hr
  have old : ∀ a b, a ≠ p → b ∈ (queued h p k x).waitsOn a → b ∈ h.waitsOn a := by
    intro a b hne; rw [waitsOn_iff' ok, waitsOn_iff' ok']
    rintro ⟨bf, j, af, e, ne, w⟩
    have e' : h.queue ++ [(p,k)] = bf ++ (a,j) :: af := e
    rcases List.eq_nil_or_concat af with rfl | ⟨af', z, rfl⟩
    · have := (List.append_inj' e' rfl).2; simp at this; exact absurd this.1.symm hne
    · have e'' : h.queue = bf ++ (a,j) :: af' := by
        have : h.queue ++ [(p,k)] = (bf ++ (a,j) :: af') ++ [z] := by rw [e']; simp
        exact (List.append_inj' this rfl).1
      refine ⟨bf, j, af', e'', ne, ?_⟩
      rw [hm (a,j) (by rw [e'']; simp)] at w
      rcases w with w | ⟨r, h1, h2, h3⟩
      · exact .inl (hg _ _ _ w)
      · exact .inr ⟨r, h1, h2, by rw [hm r (by rw [e'']; simp [h1])] at h3; exact h3⟩
  have new : ∀ b, b ∈ (queued h p k x).waitsOn p → WouldWaitOn h h.queue p x.first.val x.count b := by
    intro b; rw [waitsOn_iff' ok']
    rintro ⟨bf, j, af, e, ne, w⟩
    have e' : h.queue ++ [(p,k)] = bf ++ (p,j) :: af := e
    have : k = j := by
      apply queued_once ok' p k j
      · change _ ∈ h.queue ++ [(p,k)]; simp
      · change _ ∈ h.queue ++ [(p,k)]; rw [e']; simp
    subst this
    have hbf : ∀ r ∈ bf, r ∈ h.queue := by
      intro r hr
      have m : r ∈ h.queue ++ [(p,k)] := by rw [e']; simp [hr]
      rcases List.mem_append.mp m with m | m
      · exact m
      · simp at m; subst m; exfalso
        have nd := ok'.once; change (h.queue ++ [(p,k)]).Nodup at nd; rw [e', List.nodup_append] at nd
        exact nd.2.2 _ hr _ (by simp) rfl
    rw [hS, if_pos rfl] at w
    refine ⟨ne, ?_⟩
    rcases w with w | ⟨r, h1, h2, h3⟩
    · exact .inl (hg _ _ _ w)
    · exact .inr ⟨r, hbf r h1, h2, by rw [hm r (hbf r h1)] at h3; exact h3⟩
  have reach : ∀ a b, Reaches (queued h p k x) a b → Reaches h a b ∨ Reaches h a p := by
    intro a b r
    induction r with
    | here a => exact .inl (.here a)
    | @step a b' c m r ih =>
      by_cases hap : a = p
      · right; rw [hap]; exact .here p
      · have := old a b' hap m
        rcases ih with i | i
        · exact .inl (.step this i)
        · exact .inr (.step this i)
  intro a b m r
  by_cases hap : a = p
  · subst hap
    have w := new b m
    rcases reach b a r with i | i <;> exact hc b w i
  · have m' := old a b hap m
    rcases reach b a r with i | i
    · exact ha a b m' i
    · have last : ∀ y z, Reaches (queued h p k x) y z → Reaches h y z ∨ ∃ q, WouldWaitOn h h.queue p x.first.val x.count q ∧ Reaches h q z := by
        intro y z r
        induction r with
        | here a => exact .inl (.here a)
        | @step y b' c m r ih =>
          rcases ih with ih | ih
          · by_cases hy : y = p
            · subst hy; exact .inr ⟨b', new b' m, ih⟩
            · exact .inl (.step (old y b' hy m) ih)
          · exact .inr ih
      rcases last b a r with l | ⟨q, w, l⟩
      · exact ha a b m' l
      · exact hc q w (Reaches_trans l (.step m' i))

end Sys2Proof.Machine
end

