-- ==== Sys2Proof/Laws/Settle.lean ====
section
/-! SUPPORT. What a port does at once: what it leaves, that it is done once, and that it does not see the pin levels. -/

namespace Sys2Proof.Machine

open Sys2Proof.Safety

/-! ## What settling leaves -/

/-- No verdict leaves a claim with the command unit that examined it. -/
theorem verdict_passed {c : Claim} {sup : Port} {st : Stage} (h : c.verdict sup = .passed st) : st ≠ .commandUnit := by
  unfold Claim.verdict Claim.testSignal Claim.testMap Claim.testMapQuery Claim.testPortConfig Claim.testPortReset at h
  rintro rfl
  repeat' split at h
  all_goals simp at h

/-- An examination takes one claim away from the command unit. -/
theorem examineFirst_count (p : Port) (s : State) :
    (s.examineFirst (anyAtUnit p)).claims.countP (anyAtUnit p) = s.claims.countP (anyAtUnit p) - 1 := by
  unfold State.examineFirst
  cases h : takeFirst (anyAtUnit p) s.claims with
  | none =>
    have : s.claims.countP (anyAtUnit p) = 0 := List.countP_eq_zero.2 fun c hc => by
      rw [takeFirst_eq_none h c hc]
      exact Bool.false_ne_true
    simp [this]
  | some x =>
    obtain ⟨c, rest⟩ := x
    obtain ⟨b, a, e, rfl, hb, hc⟩ := takeFirst_some h
    have n : s.claims.countP (anyAtUnit p) - 1 = (b ++ a).countP (anyAtUnit p) := by
      rw [e]; simp [hc, List.countP_append]
    dsimp only
    rw [n]
    split
    · next ans hv => unfold State.answer; split <;> rfl
    · next st hv =>
      have : anyAtUnit p { c with stage := st } = false := by
        simp [anyAtUnit, verdict_passed hv]
      show (b ++ a ++ [{ c with stage := st }]).countP _ = _
      simp [List.countP_append, this]

theorem examineFirst_ports (f : Claim → Bool) (s : State) :
    (s.examineFirst f).ports = s.ports ∧ (s.examineFirst f).attn = s.attn := by
  unfold State.examineFirst
  repeat' split
  all_goals first | exact ⟨rfl, rfl⟩ | (unfold State.answer; split <;> exact ⟨rfl, rfl⟩)

/-- After every claim has been examined none is left, and the port unit and the attention unit are as they were. -/
theorem examineAll_spec (p : Port) (s : State) : (∀ c ∈ (s.examineAll p).claims, anyAtUnit p c = false) ∧
    (s.examineAll p).ports = s.ports ∧ (s.examineAll p).attn = s.attn := by
  unfold State.examineAll
  generalize h : s.claims.countP (anyAtUnit p) = n
  induction n generalizing s with
  | zero => exact ⟨fun c hc => by simpa using List.countP_eq_zero.1 h c hc, rfl, rfl⟩
  | succ n ih =>
    obtain ⟨h1, h2, h3⟩ := ih (s.examineFirst (anyAtUnit p)) (by rw [examineFirst_count, h]; rfl)
    exact ⟨h1, h2.trans (examineFirst_ports _ s).1, h3.trans (examineFirst_ports _ s).2⟩

/-- No control commit that can be taken is left. -/
theorem takeReadyControl_none (p : Port) (s : State) : (s.takeReadyControl p).ports[p].readyCommand = none := by
  unfold State.takeReadyControl
  split
  · next es h =>
    have h1 : ∀ t : State, (t.takeControl p es).ports = t.ports := by
      intro t
      unfold State.takeControl
      split
      · rfl
      · dsimp only; split <;> rfl
    have hr : ∀ n (t : State), (State.raiseReplaced p n t).ports = t.ports := by
      intro n
      induction n with
      | zero => exact fun _ => rfl
      | succ n ih => exact fun t => ih (t.accessFault p .BAD_ADDRESS)
    have h2 : ∀ t : State, (t.flushKept p).ports[p].handOver = t.ports[p].handOver := by
      intro t
      unfold State.flushKept
      split
      · rfl
      · next r _ =>
        have : ∀ u : State, (u.writeRecord p r).ports = u.ports := fun u => by unfold State.writeRecord; split <;> rfl
        rw [this, show ∀ (u : State) (f : PortUnit → PortUnit), (u.modPort p f).ports[p] = f u.ports[p] from
          fun u f => upd_self _ _ _, hr]
    unfold PortUnit.readyCommand
    rw [h2, h1, show (s.modPort p fun u => { u with handOver := none }).ports[p] = { s.ports[p] with handOver := none } from
      upd_self _ _ _]
  · next h => exact h

theorem takeAllDones_doneDue (p : Port) (s : State) : (s.takeAllDones p).attn[p].doneDue = 0 := by
  have h : ∀ n (u : AttnUnit), u.doneDue = n → (AttnUnit.takeDones n u).doneDue = 0 := by
    intro n
    induction n with
    | zero => exact fun _ h => h
    | succ n ih =>
      refine fun u h => ih u.takeDone ?_
      show u.doneDue - 1 = n
      rw [h]
      rfl
  show (upd s.attn p _)[p].doneDue = 0
  rw [upd_self]
  exact h _ _ rfl

theorem take_doneDue (u : AttnUnit) : u.take.1.doneDue = u.doneDue := by
  unfold AttnUnit.take
  repeat' split
  all_goals rfl

/-- Obtaining a line leaves the claims and the DONEs as they are. Either nothing changes, and a port that is obtaining a line
waits behind an outstanding request; or the port is obtaining no line any more, with no hand-over pending. -/
theorem obtain_spec (p : Port) (s : State) : (s.obtain true p).claims = s.claims ∧
    (s.obtain true p).attn[p].doneDue = s.attn[p].doneDue ∧
    ((s.obtain true p = s ∧ (s.ports[p].obtaining = true → s.ports[p].outstanding.isSome = true ∧
        ∃ pg off ac, s.translators[p].translate s.ports[p].pointer = .store pg off ac)) ∨
      ((s.obtain true p).ports[p].asking = false ∧ (s.obtain true p).ports[p].handOver = none)) := by
  unfold State.obtain
  dsimp only
  split
  · next ho =>
    have hn : s.ports[p].handOver = none := by
      simp only [PortUnit.obtaining, Bool.and_eq_true, Option.isNone_iff_eq_none] at ho
      exact ho.2
    have unit : ∀ (f : PortUnit → PortUnit) (t : State), t.ports = s.ports → (f s.ports[p]).asking = false →
        (f s.ports[p]).handOver = none → (t.modPort p f).ports[p].asking = false ∧
          (t.modPort p f).ports[p].handOver = none := by
      intro f t ht h1 h2
      rw [show (t.modPort p f).ports[p] = f s.ports[p] from by
        rw [← ht]
        exact upd_self _ _ _]
      exact ⟨h1, h2⟩
    have take : (s.obtainAttention p).attn[p].doneDue = s.attn[p].doneDue := by
      show (upd s.attn p _)[p].doneDue = _
      rw [upd_self]
      exact take_doneDue _
    cases hp : s.translators[p].translate s.ports[p].pointer with
    | control ln b =>
      dsimp only
      split
      · exact ⟨rfl, take, .inr (unit _ _ rfl rfl hn)⟩
      · split
        · exact ⟨rfl, rfl, .inr (unit _ _ rfl rfl hn)⟩
        · exact ⟨rfl, rfl, .inr (unit _ _ rfl rfl hn)⟩
    | disabled =>
      exact ⟨rfl, rfl, .inr (unit PortUnit.holdFill s rfl (by unfold PortUnit.holdFill PortUnit.noteFault; rfl)
        (by unfold PortUnit.holdFill PortUnit.noteFault; exact hn))⟩
    | store pg off ac =>
      dsimp only
      split
      · next hs => exact ⟨rfl, rfl, .inl ⟨rfl, fun _ => ⟨hs, pg, off, ac, rfl⟩⟩⟩
      · exact ⟨rfl, rfl, .inr (unit _ _ rfl rfl hn)⟩
  · next ho => exact ⟨rfl, rfl, .inl ⟨rfl, fun h => absurd h ho⟩⟩

/-- Bit by bit, a line of parts from two lines has each part of one of them. -/
theorem gatheredLine_bit (late : BitVec 5) (a b : Line) (i : Fin 16) (j : Fin 8) :
    (gatheredLine late a b)[i].getLsbD j.val = if late.getLsbD (partOfBit (8 * i.val + j.val)).val = true
      then b[i].getLsbD j.val else a[i].getLsbD j.val := by
  have hm : i.val % 16 = i.val := Nat.mod_eq_of_lt i.isLt
  have e : (gatheredLine late a b)[i] = BitVec.ofFnLE fun j : Fin 8 =>
      if late.getLsbD (partOfBit (8 * i.val + j.val)).val = true then b[i].getLsbD j.val else a[i].getLsbD j.val := by
    simp [gatheredLine, vecOf, hm]
  rw [e, BitVec.getLsbD_ofFnLE, dif_pos j.isLt]

/-- Gathering a PORT STATE line changes the held line and the flag of the port unit alone, and counts the free value. -/
theorem gather_spec (p : Port) (s : State) : ∃ h n, s.gather p =
    (s.modPort p fun u => { u with held := h, gathering := false }).setFree n := by
  unfold State.gather
  split
  · next hg =>
    unfold State.takeParts
    rw [if_pos hg]
    refine ⟨(PortUnit.takeParts (Config.lateParts s.freeIndex) (portStateLine s p) s.ports[p]).held, s.freeIndex + 1, ?_⟩
    exact congrArg (State.setFree (s.freeIndex + 1)) (modPort_modPort p
      (PortUnit.takeParts (Config.lateParts s.freeIndex) (portStateLine s p)) (fun u => { u with gathering := false }) s)
  · next hg =>
    refine ⟨s.ports[p].held, s.freeIndex, ?_⟩
    rw [modPort_self (by rw [← Bool.not_eq_true _ |>.mp hg])]
    rfl

/-- What is left after a port has done what it does at once: no claim to examine, no DONE, no control commit that can be
taken, no PORT STATE line to be gathered, and no line that can be obtained. -/
theorem settle_spec (p : Port) (s : State) : (s.settle p).ports[p].gathering = false ∧ (∀ c ∈ (s.settle p).claims, anyAtUnit p c = false) ∧
    (s.settle p).attn[p].doneDue = 0 ∧ (s.settle p).ports[p].readyCommand = none ∧
    ((s.settle p).ports[p].obtaining = true → (s.settle p).ports[p].outstanding.isSome = true ∧
      ∃ pg off ac, (s.settle p).translators[p].translate (s.settle p).ports[p].pointer = .store pg off ac) := by
  have h1 := takeReadyControl_none p s
  obtain ⟨h2, h3, _⟩ := examineAll_spec p (s.takeReadyControl p)
  have h4 := takeAllDones_doneDue p ((s.takeReadyControl p).examineAll p)
  unfold State.settle
  have h5 : (((s.takeReadyControl p).examineAll p).takeAllDones p).ports = (s.takeReadyControl p).ports := h3
  have h6 : (((s.takeReadyControl p).examineAll p).takeAllDones p).claims = ((s.takeReadyControl p).examineAll p).claims :=
    rfl
  generalize ((s.takeReadyControl p).examineAll p).takeAllDones p = t at h4 h5 h6 ⊢
  obtain ⟨k1, k2, k3⟩ := obtain_spec p t
  obtain ⟨h, n, e⟩ := gather_spec p (t.obtain true p)
  have eu : ((t.obtain true p).gather p).ports[p] = { (t.obtain true p).ports[p] with held := h, gathering := false } := by
    rw [e]
    exact upd_self _ _ _
  rw [eu]
  have ec : ((t.obtain true p).gather p).claims = (t.obtain true p).claims ∧
      ((t.obtain true p).gather p).attn = (t.obtain true p).attn ∧
      ((t.obtain true p).gather p).translators = (t.obtain true p).translators := by
    rw [e]
    exact ⟨rfl, rfl, rfl⟩
  rw [ec.1, ec.2.1, ec.2.2]
  refine ⟨rfl, by rw [k1, h6]; exact h2, k2.trans h4, ?_, ?_⟩
  · show (t.obtain true p).ports[p].readyCommand = none
    rcases k3 with ⟨k, _⟩ | ⟨_, k⟩
    · rw [k, h5]; exact h1
    · unfold PortUnit.readyCommand
      rw [k]
  show (t.obtain true p).ports[p].obtaining = true → _
  clear eu ec e
  · rcases k3 with ⟨k, w⟩ | ⟨k, _⟩
    · rw [k]; exact w
    · intro ho
      rw [PortUnit.obtaining, k] at ho
      exact absurd ho Bool.false_ne_true

/-- What a port has done at once it does not do again. -/
theorem settle_settle (p : Port) (s : State) : (s.settle p).settle p = s.settle p := by
  obtain ⟨h5, h1, h2, h3, h4⟩ := settle_spec p s
  generalize s.settle p = t at h1 h2 h3 h4 h5 ⊢
  have e1 : t.takeReadyControl p = t := by
    unfold State.takeReadyControl
    rw [h3]
  have e3 : t.takeAllDones p = t := by
    apply modAttn_self
    rw [h2]
    rfl
  have e4 : t.obtain true p = t := by
    unfold State.obtain
    dsimp only
    split
    · next ho =>
      obtain ⟨hs, pg, off, ac, hp⟩ := h4 ho
      rw [hp]
      simp [hs, -Fin.getElem_fin]
    · rfl
  rw [State.settle, e1, examineAll_of_examined h1, e3, e4, gather_of_gathered h5]

/-! ## Pin levels -/

theorem flushKept_setDevice (p : Port) (s : State) (d : Device) :
    (s.setDevice d).flushKept p = (s.flushKept p).setDevice d := by
  have rr : ∀ n (s : State), State.raiseReplaced p n (s.setDevice d) = (State.raiseReplaced p n s).setDevice d := by
    intro n; induction n with
    | zero => intro s; rfl
    | succ n ih => intro s; exact ih (s.accessFault p .BAD_ADDRESS)
  unfold State.flushKept
  show (match s.ports[p].keptVoid with | none => _ | some r => _) = _
  cases s.ports[p].keptVoid with
  | none => rfl
  | some r =>
    dsimp only
    rw [show (s.setDevice d).ports = s.ports from rfl, rr]
    unfold State.writeRecord
    split <;> rfl

theorem examineFirst_setDevice (f : Claim → Bool) (s : State) (d : Device) (h : d.supervisor = s.device.supervisor) :
    (s.setDevice d).examineFirst f = (s.examineFirst f).setDevice d := by
  unfold State.examineFirst
  rw [show (s.setDevice d).claims = s.claims from rfl, show (s.setDevice d).device = d from rfl]
  cases takeFirst f s.claims with
  | none => rfl
  | some x =>
    obtain ⟨c, rest⟩ := x
    dsimp only
    rw [h]
    cases c.verdict s.device.supervisor with
    | answered a => unfold State.answer; cases c.orphan <;> rfl
    | passed st => rfl

theorem examineOldest_setDevice (p : Port) (n : Nat) (s : State) (d : Device) (h : d.supervisor = s.device.supervisor) :
    State.examineOldest p n (s.setDevice d) = (State.examineOldest p n s).setDevice d ∧
      (State.examineOldest p n s).device = s.device := by
  induction n generalizing s with
  | zero => exact ⟨rfl, rfl⟩
  | succ n ih =>
    have e : (s.examineFirst (anyAtUnit p)).device = s.device := by
      have := examineFirst_setDevice (anyAtUnit p) s s.device rfl
      rw [show s.setDevice s.device = s from rfl] at this
      rw [this]
      rfl
    obtain ⟨h1, h2⟩ := ih (s.examineFirst (anyAtUnit p)) (by rw [e]; exact h)
    refine ⟨?_, h2.trans e⟩
    show State.examineOldest p n ((s.setDevice d).examineFirst (anyAtUnit p)) = _
    rw [examineFirst_setDevice _ _ _ h]
    exact h1

theorem examineAll_setDevice (p : Port) (s : State) (d : Device) (h : d.supervisor = s.device.supervisor) :
    (s.setDevice d).examineAll p = (s.examineAll p).setDevice d := (examineOldest_setDevice p _ s d h).1

theorem takeControl_setDevice (p : Port) (es : List Entry) (s : State) (d : Device) :
    (s.setDevice d).takeControl p es = (s.takeControl p es).setDevice d := by
  unfold State.takeControl
  by_cases h : s.cmds[p].inFlight = true
  · rw [if_pos h, if_pos (show (s.setDevice d).cmds[p].inFlight = true from h)]; rfl
  · rw [if_neg h, if_neg (show ¬ (s.setDevice d).cmds[p].inFlight = true from h)]
    cases writesCode es <;> rfl

theorem takeReadyControl_setDevice (p : Port) (s : State) (d : Device) :
    (s.setDevice d).takeReadyControl p = (s.takeReadyControl p).setDevice d := by
  unfold State.takeReadyControl
  rw [show (s.setDevice d).ports = s.ports from rfl]
  cases s.ports[p].readyCommand with
  | none => rfl
  | some es =>
    dsimp only
    rw [← flushKept_setDevice, ← takeControl_setDevice]
    rfl

/-- Only the IDENTITY line shows the device, and of it the straps alone. -/
theorem obtain_setDevice (a : Bool) (p : Port) (s : State) (d : Device) (h : d.supervisor = s.device.supervisor)
    (h' : d.asValue = s.device.asValue) : (s.setDevice d).obtain a p = (s.obtain a p).setDevice d := by
  have hc : ∀ ln, controlLine (s.setDevice d) p ln = controlLine s p ln := by
    intro ln
    unfold controlLine
    have : identityLine (s.setDevice d) p = identityLine s p := by
      unfold identityLine
      rw [show (s.setDevice d).device = d from rfl, h, h']
    rw [this]; rfl
  unfold State.obtain
  rw [show (s.setDevice d).ports = s.ports from rfl, show (s.setDevice d).translators = s.translators from rfl]
  dsimp only
  split
  · cases s.translators[p].translate s.ports[p].pointer with
    | control ln b =>
      dsimp only
      split
      · split <;> rfl
      · split
        · split <;> rfl
        · unfold State.holdPlain
          rw [hc]
          rfl
    | disabled => rfl
    | store pg off ac => dsimp only; split <;> rfl
  · rfl

theorem gather_setDevice (p : Port) (s : State) (d : Device) : (s.setDevice d).gather p = (s.gather p).setDevice d := by
  unfold State.gather State.takeParts
  rw [show (s.setDevice d).ports = s.ports from rfl]
  split <;> rfl

theorem setDevice_self (s : State) : s.setDevice s.device = s := rfl

theorem device_of_setDevice {f : State → State} {s : State} (h : f (s.setDevice s.device) = (f s).setDevice s.device) :
    (f s).device = s.device := by
  rw [setDevice_self] at h
  rw [h]
  rfl

/-- What a port does at once is the same at other pin levels. -/
theorem settle_setDevice (p : Port) (s : State) (d : Device) (h : d.supervisor = s.device.supervisor)
    (h' : d.asValue = s.device.asValue) : (s.setDevice d).settle p = (s.settle p).setDevice d := by
  have d1 : (s.takeReadyControl p).device = s.device := device_of_setDevice (takeReadyControl_setDevice p s s.device)
  have d2 : ((s.takeReadyControl p).examineAll p).device = s.device := by
    rw [← d1]
    exact (examineOldest_setDevice p _ (s.takeReadyControl p) _ rfl).2
  unfold State.settle
  rw [takeReadyControl_setDevice, examineAll_setDevice _ _ _ (by rw [d1]; exact h)]
  generalize hx : (s.takeReadyControl p).examineAll p = x at d2 ⊢
  have d3 : (x.takeAllDones p).device = s.device := d2
  rw [← gather_setDevice, ← obtain_setDevice true p (x.takeAllDones p) d (by rw [d3]; exact h) (by rw [d3]; exact h')]
  rfl

theorem device_of_settle (p : Port) (s : State) : (s.settle p).device = s.device :=
  device_of_setDevice (f := State.settle p) (settle_setDevice p s s.device rfl rfl)

/-- The end of a transaction changes CS_N alone. -/
theorem afterEnd_straps (p : Port) (d : Device) : (d.afterEnd p).supervisor = d.supervisor ∧
    (d.afterEnd p).asValue = d.asValue ∧ (d.afterEnd p).resetLow = d.resetLow ∧ (d.afterEnd p).clearing = d.clearing := by
  unfold Device.afterEnd; split <;> exact ⟨rfl, rfl, rfl, rfl⟩

/-- A bus event at other pin levels comes after what the port does at once. -/
theorem busEvent_setDevice_settle {p : Port} {s : State} (d : Device) (f : State → State)
    (h1 : d.supervisor = s.device.supervisor) (h2 : d.asValue = s.device.asValue) (h3 : (s.setDevice d).running = true) :
    (s.setDevice d).busEvent p f = ((s.settle p).setDevice d).busEvent p f := by
  have hd := device_of_settle p s
  have h4 : ((s.settle p).setDevice d).running = true := h3
  unfold State.busEvent
  rw [whenRunning_of h3, whenRunning_of h4, settle_setDevice p s d h1 h2,
    settle_setDevice p (s.settle p) d (by rw [hd]; exact h1) (by rw [hd]; exact h2), settle_settle]

end Sys2Proof.Machine
end

