-- ==== Sys2Proof/Tests/Slice0.lean ====
section
/-! SUPPORT. The model's own tests: ill-formed commands are refused by the check; one step on a small state; and, for the
statements that have hypotheses, states and operands that meet them, at the boundary values of their clauses. -/

set_option maxRecDepth 8000

namespace Sys2Proof.Tests

open Sys2Proof.Machine Safety

/-! ## WellFormed -/

theorem test_wellFormed_knownOpcodes :
    (Instr.spiUnknownOpcode 0x3A).wellFormed = false ∧ (Instr.spiUnknownOpcode 0x3B).wellFormed = false ∧
    (Instr.spiUnknownOpcode 0x3C).wellFormed = false ∧ (Instr.spiUnknownOpcode 0x39).wellFormed = true := by decide

theorem test_wellFormed_commitReads :
    (Instr.commit 0 (List.replicate 33 .good)).wellFormed = false ∧
    (Instr.commit 0 (List.replicate 32 .good)).wellFormed = true := by decide

theorem test_wellFormed_transferReads :
    (Instr.pageTransfer (List.replicate 17 .good)).wellFormed = false ∧
    (Instr.pageTransfer (List.replicate 16 .good)).wellFormed = true := by decide

theorem test_wellFormed_resetNFall :
    (Instr.resetNFall true (List.replicate 33 .good)).wellFormed = false ∧
    (Instr.resetNFall false [.good]).wellFormed = false ∧ (Instr.resetNFall true [.good]).wellFormed = true := by decide

theorem test_noWordSpellsACommand (n w : Nat) (s : State) : decodeTableWord n w = none ∧ s.withFetchWord n w = s :=
  ⟨rfl, rfl⟩

/-! ## Small states -/

/-- The device once the start-up clear has ended. -/
def up : State :=
  { State.reset with device := { State.reset.device with clearing := false }, store := State.reset.store.cleared }

/-- The state after a command. -/
def after (i : Instr) (s : State) : State :=
  match exec i s with
  | .next t => t
  | .fault _ => s
  | .refused _ => s

/-- A claim with this command line. -/
def claim (p : Port) (l : List Byte) (st : Stage := .owner) : Claim := ⟨p, Line.ofList l, st, false⟩

/-- `s` with this claim alone. -/
def withClaim (c : Claim) (s : State) : State := s.setClaims [c]

/-- `s` with this slot in the hold table. -/
def withSlot (r : SlotRef) (x : Slot) (s : State) : State := s.setHolds (s.holds.setSlot r x)

/-- A GRANTED slot of `c` pages from `f`, without an end. -/
def granted (f : Page) (c : Nat) (m : HoldMode := .WRITE) : Slot := ⟨.GRANTED, f, c, m, 0, 0, 0, 0⟩

/-- A WAITING slot of `c` pages from `f`, without an end. -/
def waiting (f : Page) (c : Nat) : Slot := ⟨.WAITING, f, c, .WRITE, 0, 0, 0, 0⟩

/-- `s` with the hold queue `q`. -/
def withQueue (q : List SlotRef) (s : State) : State := s.setHolds { s.holds with queue := q }

/-- `s` while the store controller serves `r`. -/
def serving (r : Requester) (s : State) : State := s.setArbiter ⟨0, some r, []⟩

/-- `s` with this request of `p` outstanding and in service. -/
def servingPort (p : Port) (x : StoreRequest) (s : State) : State :=
  serving (portRequester p) (s.modPort p fun u => { u with outstanding := some x })

/-- `s` with this transfer of the copy engine in service. -/
def servingCopy (src dst : Page) (q : Port) (s : State) : State :=
  serving copyEngine (s.setCopy { s.copy with transfer := .issued src dst q })

/-- `s` with this entry of the page table. -/
def withPage (pg : Page) (e : PageEntry) (s : State) : State :=
  s.setStore { s.store with pages := s.store.pages.set pg e }

/-- `s` with these lines in the damaged-line list. -/
def withDamaged (ls : List LineNo) (s : State) : State := s.setStore { s.store with damaged := ls }

/-- `s` with port `p` in this state of its reset. -/
def resetting (p : Port) (st : ResetStage) (issuer : Port) (s : State) : State :=
  s.modCmd p fun u => { u with resetRun := some ⟨st, issuer, 0⟩, inFlight := true }

/-- A source in this state. -/
def withSource (p : Port) (i : SourceNo) (st : SourceState) (level : Fin 8) (s : State) : State :=
  s.modAttn p fun u => { u with sources := u.sources.set i ⟨st, .zero, 0, true, level⟩ }

/-! ## Hypotheses met -/

theorem waits {p : Port} {code : Byte} {c : Claim} {s : State} (hr : s.running = true) (hc : s.claims = [c])
    (h : isOwned p code c = true) : Waits p code c [] s := ⟨hr, [], [], hc, rfl, by simp, h⟩

theorem takes {p : Port} {code : Byte} {c : Claim} {s : State} (hr : s.running = true) (hc : s.claims = [c])
    (h : isOwned p code c = true) (hf : s.arbiter.inService = none) : Takes p code c [] s := ⟨waits hr hc h, hf⟩

theorem finds {f : Claim → Bool} {c : Claim} {s : State} (hr : s.running = true) (hc : s.claims = [c])
    (h : f c = true) : Finds f c [] s := ⟨hr, [], [], hc, rfl, by simp, h⟩

theorem settled {p : Port} {s : State} (hr : s.running = true) (hc : s.claims = []) (hd : s.attn[p].doneDue = 0)
    (ha : s.ports[p].asking = false) (hg : s.ports[p].gathering = false)
    (hh : ∀ es, s.ports[p].handOver ≠ some (.command es)) : Settled p s where
  running := hr
  noControl es e := absurd e (hh es)
  examined c h := by simp [hc] at h
  noDone := hd
  obtained h := by rw [ha] at h; exact absurd h (by simp)
  gathered := hg

theorem test_up : exec .startUpClearEnd State.reset = .next up ∧ up.running = true := ⟨rfl, rfl⟩

/-! ## Resets, pins -/

theorem test_witness_notRunning : State.reset.running = false := by decide

theorem test_witness_startUpClear :
    State.reset.device.clearing = true ∧ State.reset.device.resetLow = false ∧
    (after (.resetNFall false []) State.reset).device.clearing = true ∧
    (after (.resetNFall false []) State.reset).device.resetLow = true := by decide

theorem test_witness_deviceReset :
    up.device.resetLow = false ∧ (after (.resetNFall false []) up).device.resetLow = true := by decide

theorem test_witness_completedRequest :
    (servingPort 0 (.commit [⟨5, 0, 7⟩]) up).running = true ∧
    (servingPort 0 (.commit [⟨5, 0, 7⟩]) up).arbiter.inService = some (portRequester 0) ∧
    (servingPort 0 (.commit [⟨5, 0, 7⟩]) up).ports[(0 : Port)].outstanding = some (.commit [⟨5, 0, 7⟩]) ∧
    (servingCopy 1 2 3 up).arbiter.inService = some copyEngine ∧
    (servingCopy 1 2 3 up).copy.transfer = .issued 1 2 3 := by decide

/-- A device reset that completes a commit keeps its byte and its version; one that does not begin it keeps neither. -/
theorem test_resetNFall_completed :
    let s := servingPort 0 (.commit [⟨5, 0, 7⟩]) up
    Memory.read (after (.resetNFall true []) s).store.bytes 1280 = 7 ∧
    (after (.resetNFall true []) s).store.pages[(5 : Page)].version = 1 ∧
    Memory.read (after (.resetNFall false []) s).store.bytes 1280 = 0 ∧
    (after (.resetNFall false []) s).store.pages[(5 : Page)].version = 0 := by decide

theorem test_witness_alertEdge :
    up.running = true ∧ up.device.alertLow = false ∧ (after .alertIn up).device.alertLow = true := by decide

/-- ALERT_IN reaches each of the four units. -/
theorem test_alertIn : ∀ q : Port, (after .alertIn up).attn[q].sources[(7 : SourceNo)].state = .PENDING := by decide

/-! ## Attention -/

theorem test_witness_event :
    (⟨.IDLE, .zero, 0, true, 0⟩ : Source).state = .IDLE ∧ (⟨.ACTIVE, .zero, 0, true, 0⟩ : Source).state = .ACTIVE ∧
    (Source.arrive .zero ⟨.PENDING, .zero, 255, true, 0⟩).lost = 255 ∧
    (Source.arrive .zero ⟨.ACTIVE_REPEND, .zero, 254, true, 0⟩).lost = 255 := by decide

/-- Sources 5 and 6 of P0 are pending at levels 2 and 6, source 1 is active at level 1. -/
def nested : State := withSource 0 1 .ACTIVE 1 (withSource 0 6 .PENDING 6 (withSource 0 5 .PENDING 2 up))

theorem test_witness_take :
    nested.attn[(0 : Port)].eligible 6 = true ∧
    (∀ j : SourceNo, nested.attn[(0 : Port)].eligible j = true →
      nested.attn[(0 : Port)].sources[j].level < nested.attn[(0 : Port)].sources[(6 : SourceNo)].level ∨
      (nested.attn[(0 : Port)].sources[j].level = nested.attn[(0 : Port)].sources[(6 : SourceNo)].level ∧ 6 ≤ j)) ∧
    ∀ i, up.attn[(0 : Port)].eligible i = false := by decide

/-- A TAKE goes to the higher level and blocks what is not above it. -/
theorem test_take_nests :
    let u := nested.attn[(0 : Port)].take.1
    u.sources[(6 : SourceNo)].state = .ACTIVE ∧ u.eligible 5 = false ∧ u.activeSummary = 0x42 ∧
    u.pendingSummary = 0x20 := by decide

/-- A port unit that is obtaining the line of the control window at `a`. -/
def askingAt (a : ViewAddr) : PortUnit :=
  { PortUnit.reset with phase := .DATA, dir := some .read, pointer := a, asking := true }

theorem test_witness_takeCommand :
    let s := nested.modPort 0 fun _ => askingAt 0x020
    let t := nested.modPort 3 fun _ => { askingAt 0x02F with asking := false }
    (s.running = true ∧ windowOf s.ports[(0 : Port)].pointer = 0 ∧ lineOf s.ports[(0 : Port)].pointer = 2 ∧
      NeedsLineNow 0 s) ∧
    (t.running = true ∧ windowOf t.ports[(3 : Port)].pointer = 0 ∧ lineOf t.ports[(3 : Port)].pointer = 2 ∧
      NeedsLineNow 3 t) :=
  ⟨⟨by decide, by decide, by decide, .inl (by decide)⟩, by decide, by decide, by decide, .inr (by decide)⟩

theorem test_take :
    ((after (.attnTake 0) (nested.modPort 0 fun _ => askingAt 0x020)).ports[(0 : Port)].held.map fun h => h.bytes.toList.take 6)
      = some [1, 6, 6, 0, 0x20, 0x42] := by decide

theorem test_witness_done :
    let s := nested.modAttn 0 fun u => { u with doneDue := 1 }
    let t := up.modAttn 0 fun u => { u with doneDue := 1 }
    s.running = true ∧ s.attn[(0 : Port)].doneDue ≠ 0 ∧
    (s.attn[(0 : Port)].sources[(1 : SourceNo)].state = .ACTIVE ∨
      s.attn[(0 : Port)].sources[(1 : SourceNo)].state = .ACTIVE_REPEND) ∧
    (∀ j : SourceNo, (s.attn[(0 : Port)].sources[j].state = .ACTIVE ∨
        s.attn[(0 : Port)].sources[j].state = .ACTIVE_REPEND) →
      s.attn[(0 : Port)].sources[j].level < s.attn[(0 : Port)].sources[(1 : SourceNo)].level ∨
      (s.attn[(0 : Port)].sources[j].level = s.attn[(0 : Port)].sources[(1 : SourceNo)].level ∧ 1 ≤ j)) ∧
    t.running = true ∧ t.attn[(0 : Port)].doneDue ≠ 0 ∧ ∀ i : SourceNo,
      ¬ (t.attn[(0 : Port)].sources[i].state = .ACTIVE ∨ t.attn[(0 : Port)].sources[i].state = .ACTIVE_REPEND) := by
  decide

theorem test_witness_attnConfig (c : Claim) (h : c ∈ [claim 1 [0x0C], claim 1 [0x0C, 1, 3], claim 1 [0x0C, 1, 0, 8],
    claim 1 [0x0C, 1, 0, 254], claim 1 [0x0C, 1, 2, 7], claim 1 [0x0C, 255, 2, 255]]) :
    Waits 1 cATTN_CONFIG c [] (withClaim c up) := by
  refine waits rfl rfl ?_
  revert c
  decide

theorem test_witness_attnConfigClauses :
    (claim 1 [0x0C]).arg 1 = 0 ∧ 2 < ((claim 1 [0x0C, 1, 3]).arg 2).toNat ∧
    (7 < ((claim 1 [0x0C, 1, 0, 8]).arg 3).toNat ∧ (claim 1 [0x0C, 1, 0, 8]).arg 3 ≠ 0xFF) ∧
    (7 < ((claim 1 [0x0C, 1, 0, 254]).arg 3).toNat ∧ (claim 1 [0x0C, 1, 0, 254]).arg 3 ≠ 0xFF) ∧
    ((claim 1 [0x0C, 1, 2, 7]).arg 1 ≠ 0 ∧ ((claim 1 [0x0C, 1, 2, 7]).arg 2).toNat ≤ 2 ∧
      ((claim 1 [0x0C, 1, 2, 7]).arg 3).toNat ≤ 7) ∧
    ((claim 1 [0x0C, 255, 2, 255]).arg 1 ≠ 0 ∧ (claim 1 [0x0C, 255, 2, 255]).arg 3 = 0xFF) := by decide

/-! ## Notices -/

/-- A write of P0 on page 5. -/
def write5 : PageWrite := ⟨5, 0, 3, 9, 1⟩

/-- A queue of `n` records, none for page 5. -/
def queueOf (n : Nat) : NoticeQueue := ⟨List.replicate n ⟨6, .port 1, 0, 0, 1, 0⟩, 0, 0⟩

theorem test_witness_posting :
    (∃ n ∈ (⟨[⟨5, .port 1, 4, 20, 1, 15⟩], 0, 0⟩ : NoticeQueue).records, n.page = write5.page) ∧
    ((∀ n ∈ (queueOf 15).records, n.page ≠ write5.page) ∧ (queueOf 15).records.length < 16) ∧
    ((∀ n ∈ (queueOf 16).records, n.page ≠ write5.page) ∧ 16 ≤ (queueOf 16).records.length) := by decide

theorem test_posting_merges :
    ((⟨[⟨5, .port 1, 4, 20, 1, 15⟩], 0, 0⟩ : NoticeQueue).post write5).1.records = [⟨5, .MULTIPLE, 3, 20, 1, 15⟩] := by
  decide

theorem test_witness_watchers :
    let n : NoticeUnit := { NoticeUnit.reset with watch := NoticeUnit.reset.watch.set 5 0b0011 }
    PortSet.has n.watch[write5.page] 1 = true ∧ (1 : Port) ≠ write5.writer ∧
    PortSet.has n.watch[write5.page] 2 = false ∧ (0 : Port) = write5.writer := by decide

/-- A posting of two pages raises P1's event for each, in their order. -/
theorem test_posting :
    let n : NoticeUnit := { NoticeUnit.reset with watch := (NoticeUnit.reset.watch.set 5 0b0011).set 6 0b0110 }
    (n.post [write5, { write5 with page := 6 }]).2 =
      [⟨1, sNOTICE_NEW, .page 5⟩, ⟨1, sNOTICE_NEW, .page 6⟩, ⟨2, sNOTICE_NEW, .page 6⟩] := by decide

theorem test_witness_pop :
    let s := up.modPort 1 fun _ => askingAt 0x040
    let t := s.setNotice { s.notice with queues := s.notice.queues.set 1 (queueOf 1) }
    (s.running = true ∧ windowOf s.ports[(1 : Port)].pointer = 0 ∧ lineOf s.ports[(1 : Port)].pointer = 4 ∧
      NeedsLineNow 1 s ∧ s.notice.queues[(1 : Port)].records = []) ∧
    (t.running = true ∧ windowOf t.ports[(1 : Port)].pointer = 0 ∧ lineOf t.ports[(1 : Port)].pointer = 4 ∧
      NeedsLineNow 1 t ∧ t.notice.queues[(1 : Port)].records = ⟨6, .port 1, 0, 0, 1, 0⟩ :: []) :=
  ⟨⟨by decide, by decide, by decide, .inl (by decide), by decide⟩,
    by decide, by decide, by decide, .inl (by decide), by decide⟩

/-- P1 may not read page 127. -/
def closed127 : State := withPage 127 ⟨.PRIVATE, 0, 0⟩ up

theorem test_witness_watch (c : Claim) (h : c ∈ [claim 1 [4, 0, 0, 1], claim 1 [4, 127, 2, 1], claim 1 [4, 0, 1, 2],
    claim 1 [4, 126, 2, 1], claim 1 [4, 0, 127, 1], claim 1 [4, 0, 128, 0]]) :
    Waits 1 cWATCH c [] (withClaim c closed127) := by
  refine waits rfl rfl ?_
  revert c
  decide

/-- In this order: a count of 0, a range past page 127, an undefined action, a range with an unreadable page, one without,
and the whole store. -/
theorem test_witness_watchClauses :
    ¬ 1 ≤ ((claim 1 [4, 0, 0, 1]).arg 2).toNat ∧
    ¬ ((claim 1 [4, 127, 2, 1]).arg 1).toNat + ((claim 1 [4, 127, 2, 1]).arg 2).toNat ≤ 128 ∧
    1 < ((claim 1 [4, 0, 1, 2]).arg 3).toNat ∧
    (∃ pg : Page, inRange 126 2 pg = true ∧ closed127.store.pages[pg].readable 1 = false) ∧
    (∀ pg : Page, inRange 0 127 pg = true → closed127.store.pages[pg].readable 1 = true) ∧
    0 + ((claim 1 [4, 0, 128, 0]).arg 2).toNat ≤ 128 := by decide

/-! ## The store's services -/

/-- Line 3 of page 5 is listed; P1 has page 6 in FULL mode and page 9 in WRITE mode; page 7 is P0's alone; page 8 is
FIXED. -/
def guarded : State :=
  withPage 8 ⟨.FIXED, 0, 0⟩ (withPage 7 ⟨.PRIVATE, 0, 0⟩ (withSlot (1, 1) (granted 9 1) (withSlot (1, 0) (granted 6 1 .FULL)
    (withDamaged [83] up))))

theorem test_witness_fetchChecks :
    guarded.store.pages[(7 : Page)].readable 1 = false ∧
    (guarded.store.pages[(6 : Page)].readable 0 = true ∧ FullByOther guarded.holds 0 6) ∧
    (guarded.store.pages[(5 : Page)].readable 0 = true ∧ ¬ FullByOther guarded.holds 0 5 ∧
      lineNo 5 3 ∈ guarded.store.damaged) ∧
    (guarded.store.pages[(9 : Page)].readable 0 = true ∧ ¬ FullByOther guarded.holds 0 9 ∧
      lineNo 9 15 ∉ guarded.store.damaged) :=
  ⟨by decide, ⟨by decide, (1, 0), by decide⟩, ⟨by decide, by unfold FullByOther; decide, by decide⟩,
    by decide, by unfold FullByOther; decide, by decide⟩

/-- A store write's hold in WRITE mode lets others read; a listed line is not read at all. -/
theorem test_fetch :
    (guarded.store.serveFetch guarded.holds 0 9 0 .good).2.outcome = .none ∧
    (guarded.store.serveFetch guarded.holds 0 6 0 .good).2.outcome = .HELD ∧
    (guarded.store.serveFetch guarded.holds 0 5 3 .corrected).1.corrected = 0 := by decide

/-- A fetch of line 2 of page 4. -/
def fetch4 (d : Bool) : Fetch := ⟨1, 2, 4, 2, d⟩

theorem test_witness_lineFetch :
    let s (d : Bool) := servingPort 2 (.fetch (fetch4 d)) up
    let e := (s true).modPort 2 fun u => { u with endedRead := some none }
    ((s false).running = true ∧ (s false).arbiter.inService = some (portRequester 2) ∧
      (s false).ports[(2 : Port)].outstanding = some (.fetch (fetch4 false)) ∧
      (s false).ports[(2 : Port)].endedRead = none) ∧
    ((s true).ports[(2 : Port)].outstanding = some (.fetch (fetch4 true)) ∧ (s true).ports[(2 : Port)].endedRead = none) ∧
    (e.running = true ∧ e.arbiter.inService = some (portRequester 2) ∧
      e.ports[(2 : Port)].outstanding = some (.fetch (fetch4 true)) ∧ e.ports[(2 : Port)].endedRead = some none) := by
  decide

theorem test_lineFetch :
    let t := after (.lineFetch 2 .uncorrectable) (servingPort 2 (.fetch (fetch4 false)) up)
    t.ports[(2 : Port)].firstFault = some ⟨.DAMAGED, 4, 66⟩ ∧ t.store.damaged = [66] ∧
    t.ports[(2 : Port)].held = some ⟨1, 2, Line.fill, false⟩ ∧ t.arbiter.inService = none := by decide

/-- Bytes on two pages, one place twice; line 0 of page 5 whole, line 1 of page 4 in part. -/
def bytes45 : List Entry :=
  ⟨4, 16, 1⟩ :: ((List.range 16).map fun i => ⟨5, byteN i, byteN (i + 1)⟩) ++ [⟨4, 16, 2⟩]

theorem test_witness_commitApplied :
    let s := servingPort 0 (.commit bytes45) up
    (s.running = true ∧ s.arbiter.inService = some (portRequester 0) ∧
      s.ports[(0 : Port)].outstanding = some (.commit bytes45) ∧ Memory.wf s.store.bytes = true ∧ bytes45 ≠ []) ∧
    PagesPass s 0 bytes45 (touchedPages bytes45) ∧ ReadsPass [.corrected] (partLines bytes45 (touchedPages bytes45)) := by
  refine ⟨by decide, ?_, by unfold ReadsPass; decide⟩
  have e : touchedPages bytes45 = [4, 5] := by decide
  rw [e]
  unfold PagesPass PagePasses HeldByOther
  decide

theorem test_commit :
    let t := after (.commit 0 [.corrected]) (servingPort 0 (.commit bytes45) (withDamaged [80] up))
    (touchedPages bytes45 = [4, 5] ∧ partLines bytes45 [4, 5] = 1) ∧
    Memory.read t.store.bytes 1040 = 2 ∧ Memory.read t.store.bytes 1295 = 16 ∧ t.store.corrected = 1 ∧
    t.store.damaged = [] ∧ t.store.pages[(4 : Page)].version = 1 ∧ t.store.pages[(5 : Page)].version = 1 ∧
    t.store.pages[(6 : Page)].version = 0 ∧
    t.cmds[(0 : Port)].txStatus = ⟨.STORE_WRITE, .OK, .none, 0, 0, 18, 1⟩ := by decide

/-- Commits of P0 that fail at their second page: by policy, by a hold, by a listed line, by a line found uncorrectable. -/
theorem test_witness_commitRefused :
    (∀ es ∈ ([[⟨4, 0, 1⟩, ⟨8, 0, 1⟩], [⟨4, 0, 1⟩, ⟨9, 0, 1⟩], [⟨4, 0, 1⟩, ⟨5, 48, 1⟩]] : List (List Entry)),
      (servingPort 0 (.commit es) guarded).running = true ∧
      (servingPort 0 (.commit es) guarded).arbiter.inService = some (portRequester 0) ∧
      (servingPort 0 (.commit es) guarded).ports[(0 : Port)].outstanding = some (.commit es)) ∧
    touchedPages [⟨4, 0, 1⟩, ⟨8, 0, 1⟩] = [4] ++ 8 :: [] ∧ touchedPages [⟨4, 0, 1⟩, ⟨9, 0, 1⟩] = [4] ++ 9 :: [] ∧
    touchedPages [⟨4, 0, 1⟩, ⟨5, 48, 1⟩] = [4] ++ 5 :: [] ∧
    (withPage 8 ⟨.FIXED, 0, 0⟩ up).store.pages[(8 : Page)].writable 3 0 = false ∧
    (guarded.store.pages[(9 : Page)].writable 0 0 = true ∧ HeldByOther guarded.holds 0 9) ∧
    (PagePasses guarded 0 5 ∧ partLine [⟨4, 0, 1⟩, ⟨5, 48, 1⟩] 5 3 = true ∧ lineNo 5 3 ∈ guarded.store.damaged) ∧
    (PagePasses guarded 0 4 ∧ lineNo 4 0 ∉ guarded.store.damaged ∧ ([.uncorrectable] : List ReadOutcome)[0]? = some .uncorrectable) := by
  refine ⟨by decide, by decide, by decide, by decide, by decide, ⟨by decide, (1, 1), by decide⟩, ?_, ?_⟩ <;>
    (unfold PagePasses HeldByOther; decide)

theorem test_commitRefused :
    let t := after (.commit 0 [.uncorrectable]) (servingPort 0 (.commit [⟨4, 0, 1⟩]) up)
    t.cmds[(0 : Port)].txStatus = ⟨.STORE_WRITE, .REFUSED, .DAMAGED, 4, 64, 1, 0⟩ ∧ t.store.damaged = [64] ∧
    t.store.bytes = [] ∧ t.attn[(0 : Port)].sources[(5 : SourceNo)].state = .PENDING ∧
    t.attn[(0 : Port)].sources[(5 : SourceNo)].detail = .fault .DAMAGED := by decide

/-- Transfers of P0 (P2 for the first) that fail each check in turn, and one that passes them. -/
theorem test_witness_pageTransfer :
    (∀ x ∈ ([(7, 1, 2), (6, 1, 0), (1, 8, 2), (1, 9, 0), (5, 1, 0), (1, 127, 0)] : List (Page × Page × Port)),
      (servingCopy x.1 x.2.1 x.2.2 guarded).running = true ∧
      (servingCopy x.1 x.2.1 x.2.2 guarded).arbiter.inService = some copyEngine ∧
      (servingCopy x.1 x.2.1 x.2.2 guarded).copy.transfer = .issued x.1 x.2.1 x.2.2) ∧
    guarded.store.pages[(7 : Page)].readable 2 = false ∧ FullByOther guarded.holds 0 6 ∧
    guarded.store.pages[(8 : Page)].writable 0 2 = false ∧ HeldByOther guarded.holds 0 9 ∧
    (∃ ln, lineNo 5 ln ∈ guarded.store.damaged) ∧
    (guarded.store.pages[(1 : Page)].readable 0 = true ∧ ¬ FullByOther guarded.holds 0 1 ∧
      guarded.store.pages[(127 : Page)].writable 0 0 = true ∧ ¬ HeldByOther guarded.holds 0 127 ∧
      (¬ ∃ ln, lineNo 1 ln ∈ guarded.store.damaged) ∧ ReadsPass (List.replicate 16 .good) 16 ∧
      (([.good, .uncorrectable] : List ReadOutcome)[(1 : Fin 16).val]? = some .uncorrectable ∧
        ReadsPass [.good, .uncorrectable] 1)) := by
  refine ⟨fun x _ => ⟨rfl, rfl, rfl⟩, by decide, ⟨(1, 0), by decide⟩, by decide, ⟨(1, 1), by decide⟩, ⟨3, by decide⟩, ?_⟩
  unfold FullByOther HeldByOther ReadsPass
  decide

theorem test_pageTransfer :
    let s := servingCopy 1 2 0 (up.setStore { up.store with bytes := [(256, 7), (511, 9), (600, 5)], damaged := [47, 48] })
    let t := after (.pageTransfer []) s
    t.store.bytes = [(256, 7), (511, 9), (512, 7), (767, 9)] ∧ t.store.damaged = [48] ∧
    t.store.pages[(2 : Page)].version = 1 ∧ t.copy.transfer = .returned .none := by decide +kernel

theorem test_witness_heldPage :
    (guarded.holds.slot (1, 0)).state = .GRANTED ∧ (guarded.holds.slot (1, 0)).covers 6 = true ∧ (0 : Port) ≠ (1, 0).1 ∧
    (servingCopy 6 1 0 guarded).copy.transfer = .issued 6 1 0 := by decide

theorem test_witness_versions :
    let s := (servingPort 0 (.commit [⟨5, 0, 7⟩]) up).setPending [.commit 0 []]
    (∃ t, step s = .next t ∧ Memory.read t.store.bytes (storeAddr 5 0) ≠ Memory.read s.store.bytes (storeAddr 5 0)) ∧
    (∀ x, s.pending.head? ≠ some (.powerOnReset x)) ∧ s.pending.head? ≠ some .startUpClearEnd :=
  ⟨⟨_, rfl, by decide⟩, by intro x h; simp [State.setPending] at h, by decide⟩

theorem test_witness_versionsReset (x : Straps) :
    (∃ t, step (up.setPending [.powerOnReset x]) = .next t) ∧ ∃ t, step (State.reset.setPending [.startUpClearEnd]) = .next t :=
  ⟨⟨_, rfl⟩, _, rfl⟩

/-! ## The arbiter -/

theorem test_witness_arbiter :
    let s := (up.modPort 3 fun u => { u with outstanding := some (.commit [⟨0, 0, 0⟩]) }).setArbiter ⟨4, none, []⟩
    up.running = true ∧ (serving 0 up).arbiter.inService ≠ none ∧
    (s.running = true ∧ s.arbiter.inService = none ∧ s.arbiter.pointer + 4 = portRequester 3 ∧
      s.ports[(3 : Port)].outstanding ≠ none) := by decide

/-- With the pointer at the copy engine and P3 waiting, P3 is chosen and the pointer moves on to the copy engine. -/
theorem test_arbiter :
    let s := (up.modPort 3 fun u => { u with outstanding := some (.commit [⟨0, 0, 0⟩]) }).setArbiter ⟨4, none, []⟩
    s.arbitrate.arbiter = ⟨4, some 3, []⟩ := by decide

/-- A tick and a claim that come during a service become due. -/
theorem test_witness_due :
    let s := serving 2 (withClaim (claim 1 [2, 0]) up)
    (s.running = true ∧ s.arbiter.inService ≠ none ∧ s.mayBecomeDue .tick = true ∧
      s.mayBecomeDue (.claim 1 cRENEW) = true) ∧
    (after .tick s).arbiter.due = [.tick] ∧ up.arbiter.inService = none := by decide

/-- Of two PAGE_INFOs of P1, one an orphan of its reset, each becomes due once. -/
theorem test_dueOnceEach :
    let s (n : Nat) : State := (up.setClaims [{ claim 1 [8, 3] with orphan := true }, claim 1 [8, 4]]).setArbiter
      ⟨0, some 2, List.replicate n (.claim 1 cPAGE_INFO)⟩
    (s 0).mayBecomeDue (.claim 1 cPAGE_INFO) = true ∧ (s 1).mayBecomeDue (.claim 1 cPAGE_INFO) = true ∧
    (s 2).mayBecomeDue (.claim 1 cPAGE_INFO) = false ∧ (s 0).mayBecomeDue (.holdReset 1) = false ∧
    (resetting 1 .hold 0 (s 0)).mayBecomeDue (.holdReset 1) = true ∧
    (s 2).endService.claims = [] ∧ (s 2).endService.cmds[(1 : Port)].result.detail[(0 : Fin 12)] = 4 := by decide

/-! ## Holds -/

/-- P0 holds pages 0 and 1; P1 has page 8 in slot 2, its slots 0, 1 and 3 being FREE; P2 waits for page 8 in slot 0; P3 has
four granted slots; page 40 is FIXED. -/
def busy : State :=
  withQueue [(2, 0)] (withSlot (2, 0) (waiting 8 1) (withSlot (1, 2) (granted 8 1) (withSlot (0, 0) (granted 0 2)
    (withSlot (3, 0) (granted 60 1) (withSlot (3, 1) (granted 61 1) (withSlot (3, 2) (granted 62 1)
      (withSlot (3, 3) (granted 63 1) (withPage 40 ⟨.FIXED, 0, 0⟩ up))))))))

/-- A HOLD's command line: first page, count, mode, wait flag; lease 0, wait limit 5. -/
def holdLine (first count mode wait : Byte) : List Byte := [0x01, first, count, mode, 0, 0, wait, 5, 0]

theorem test_witness_hold (x : Port × List Byte) (h : x ∈ [(1, holdLine 4 0 0 0), (1, holdLine 4 9 0 0),
    (1, holdLine 128 1 0 0), (1, holdLine 127 2 0 0), (1, holdLine 4 1 2 0), (1, holdLine 4 1 0 2), (1, holdLine 40 1 0 0),
    (1, holdLine 7 2 0 0), (2, holdLine 4 1 0 0), (3, holdLine 4 1 0 0), (1, holdLine 120 8 1 0), (1, holdLine 1 1 0 0),
    (1, holdLine 1 1 0 1), (0, holdLine 8 1 0 1)]) :
    Takes x.1 cHOLD (claim x.1 x.2) [] (withClaim (claim x.1 x.2) busy) := by
  refine takes rfl rfl ?_ rfl
  revert x
  decide

/-- The five tests of R95, in order, each with a request that fails it and none before it. -/
theorem test_witness_holdRefused :
    ((claim 1 (holdLine 4 0 0 0)).holdArgs.count = 0 ∧ 8 < (claim 1 (holdLine 4 9 0 0)).holdArgs.count ∧
      127 < (claim 1 (holdLine 128 1 0 0)).holdArgs.first ∧
      128 < (claim 1 (holdLine 127 2 0 0)).holdArgs.first + (claim 1 (holdLine 127 2 0 0)).holdArgs.count ∧
      (claim 1 (holdLine 4 1 2 0)).holdArgs.mode = none ∧ (claim 1 (holdLine 4 1 0 2)).holdArgs.wait = none) ∧
    (HoldArgsOk (claim 1 (holdLine 40 1 0 0)).holdArgs .WRITE false ∧ ¬ HoldRights busy 1 40 1) ∧
    (HoldArgsOk (claim 1 (holdLine 7 2 0 0)).holdArgs .WRITE false ∧ HoldRights busy 1 7 2 ∧
      (busy.holds.slot (1, 2)).state = .GRANTED ∧ (busy.holds.slot (1, 2)).meets 7 2 = true ∧
      ∀ j : SlotNo, j < 2 → ¬ ((busy.holds.slot (1, j)).state = .GRANTED ∧ (busy.holds.slot (1, j)).meets 7 2 = true)) ∧
    (HoldArgsOk (claim 2 (holdLine 4 1 0 0)).holdArgs .WRITE false ∧ HoldRights busy 2 4 1 ∧
      ¬ GrantedOn busy.holds 2 4 1 ∧ ∃ k, (busy.holds.slot (2, k)).state = .WAITING) ∧
    (HoldArgsOk (claim 3 (holdLine 4 1 0 0)).holdArgs .WRITE false ∧ HoldRights busy 3 4 1 ∧
      ¬ GrantedOn busy.holds 3 4 1 ∧ ∀ k, (busy.holds.slot (3, k)).state = .GRANTED) := by
  refine ⟨by decide, ⟨⟨by decide, by decide, by decide, by decide, by decide⟩, ?_⟩,
    ⟨⟨by decide, by decide, by decide, by decide, by decide⟩, ?_⟩,
    ⟨⟨by decide, by decide, by decide, by decide, by decide⟩, ?_⟩,
    ⟨by decide, by decide, by decide, by decide, by decide⟩, ?_⟩ <;> (unfold HoldRights; try unfold GrantedOn) <;> decide

theorem holdPasses_busy (p : Port) (l : List Byte) (m : HoldMode) (w : Bool)
    (h : (p, l, m, w) ∈ [(1, holdLine 120 8 1 0, .FULL, false), (1, holdLine 1 1 0 0, .WRITE, false),
      (1, holdLine 1 1 0 1, .WRITE, true)]) :
    HoldPasses busy p (claim p l).holdArgs m w 0 := by
  simp only [List.mem_cons, Prod.mk.injEq, List.not_mem_nil, or_false] at h
  rcases h with ⟨rfl, rfl, rfl, rfl⟩ | ⟨rfl, rfl, rfl, rfl⟩ | ⟨rfl, rfl, rfl, rfl⟩ <;>
    exact ⟨⟨by decide, by decide, by decide, by decide, by decide⟩, by unfold HoldRights; decide,
      by unfold GrantedOn; decide, by decide, by decide, by decide⟩

/-- Not blocked; blocked without the wait flag; blocked with it, waiting on P0 alone, from which P1 is not reached. -/
theorem test_witness_holdGranted :
    ¬ Blocked busy.holds busy.holds.queue 1 120 8 ∧ Blocked busy.holds busy.holds.queue 1 1 1 ∧
    (∀ q, PortSet.has 0b0001 q = true ↔ WouldWaitOn busy.holds busy.holds.queue 1 1 1 q) ∧
    busy.holds.waitsOn 0 = [] := by
  refine ⟨?_, ?_, ?_, by decide⟩ <;> (first | unfold Blocked | unfold WouldWaitOn) <;> unfold GrantedOn <;> decide

theorem test_hold_grantsAndWaits :
    (after (.hold 1) (withClaim (claim 1 (holdLine 120 8 1 0)) busy)).holds.slot (1, 0) = granted 120 8 .FULL ∧
    (after (.hold 1) (withClaim (claim 1 (holdLine 1 1 0 1)) busy)).holds.queue = [(2, 0), (1, 0)] ∧
    ((after (.hold 1) (withClaim (claim 1 (holdLine 1 1 0 1)) busy)).cmds[(1 : Port)].result.detail.toList) =
      [0, 1, 1, 0, 0, 0, 5, 0, 2, 1, 0, 0] := by decide

/-- P0 holds page 0 and would wait for page 8 behind P1, which waits for page 0: a cycle. -/
def crossed : State :=
  withQueue [(1, 1)] (withSlot (1, 1) (waiting 0 1) (withSlot (1, 0) (granted 8 1) (withSlot (0, 0) (granted 0 1) up)))

theorem test_witness_cycle :
    Takes 0 cHOLD (claim 0 (holdLine 8 1 0 1)) [] (withClaim (claim 0 (holdLine 8 1 0 1)) crossed) ∧
    HoldPasses crossed 0 (claim 0 (holdLine 8 1 0 1)).holdArgs .WRITE true 1 ∧
    Blocked crossed.holds crossed.holds.queue 0 8 1 ∧ WouldWaitOn crossed.holds crossed.holds.queue 0 8 1 1 ∧
    Reaches crossed.holds 1 0 :=
  ⟨takes rfl rfl (by decide) rfl,
    ⟨⟨by decide, by decide, by decide, by decide, by decide⟩, by unfold HoldRights; decide, by unfold GrantedOn; decide,
      by decide, by decide, by decide⟩,
    by unfold Blocked GrantedOn; decide, by unfold WouldWaitOn GrantedOn; decide, .step (q := 0) (by decide) (.here 0)⟩

theorem test_hold_cycle :
    (after (.hold 0) (withClaim (claim 0 (holdLine 8 1 0 1)) crossed)).cmds[(0 : Port)].result.status = .CYCLE := by decide

theorem test_witness_waitsOn :
    crossed.holds.queue = [] ++ (1, 1) :: [] ∧ (∀ r ∈ crossed.holds.queue, r.1 ≠ 0) := by decide

theorem test_witness_renewRelease (code : Byte) (hc : code = 2 ∨ code = 3) (k : Byte) (h : k ∈ [4, 3, 2, 0]) :
    let c := claim 1 [code, k, 9, 0]
    Takes 1 code c [] (withClaim c busy) ∧
      (k = 4 → 3 < (c.arg 1).toNat) ∧ (k = 3 → (busy.holds.slot (1, 3)).state = .FREE ∧ (c.arg 1).toNat = 3) ∧
      (k = 2 → (busy.holds.slot (1, 2)).state = .GRANTED ∧ (c.arg 1).toNat = 2) := by
  refine ⟨takes rfl rfl ?_ rfl, ?_⟩ <;> rcases hc with rfl | rfl <;> revert k <;> decide

/-- P1's release of page 8 grants it to P2, which is told of it; P2's withdrawal of its request grants nothing. -/
theorem test_release :
    let t := after (.release 1) (withClaim (claim 1 [3, 2]) busy)
    let u := after (.release 2) (withClaim (claim 2 [3, 0]) busy)
    t.holds.slot (1, 2) = Slot.free ∧ (t.holds.slot (2, 0)).state = .GRANTED ∧ t.holds.queue = [] ∧
    t.attn[(2 : Port)].sources[(2 : SourceNo)].detail = .slot 0 ∧
    u.holds.slot (2, 0) = Slot.free ∧ u.cmds[(2 : Port)].result.detail[(1 : Fin 12)] = 1 := by decide

/-- P1's lease in slot 2 and P2's wait in slot 0 have one tick left. -/
def ending : State :=
  withQueue [(2, 0)] (withSlot (2, 0) ⟨.WAITING, 8, 1, .WRITE, 0, 0, 1, 1⟩ (withSlot (1, 2) ⟨.GRANTED, 8, 1, .WRITE, 3, 1, 0, 0⟩ up))

theorem test_witness_tick :
    ending.running = true ∧ ending.arbiter.inService = none ∧ ending.holds.leaseEnding (1, 2) = true ∧
    ending.holds.waitEnding (2, 0) = true := by decide

/-- Lease and wait end in one tick: both slots are FREE, and the scan finds nobody. -/
theorem test_tick :
    let t := after (.leaseExpiry 1 2) ending
    t.holds.slot (1, 2) = Slot.free ∧ t.holds.slot (2, 0) = Slot.free ∧ t.holds.queue = [] ∧
    t.attn[(1 : Port)].sources[(3 : SourceNo)].detail = .holdEnded (some 2) .LEASE ∧
    t.attn[(2 : Port)].sources[(3 : SourceNo)].detail = .holdEnded (some 0) .WAIT_TIMEOUT := by decide

theorem test_witness_holdsOk : HoldsOk crossed.holds where
  free := by decide
  queued := by decide
  once := by decide
  oneWaiting := by decide
  disjoint := by decide
  apart := by decide

theorem test_witness_scannedAcyclic : Scanned crossed.holds ∧ Acyclic crossed.holds := by
  constructor
  · intro b r a e
    have h : [(1, 1)] = b ++ r :: a := e
    rcases b with _ | ⟨x, b⟩
    · obtain ⟨rfl, rfl⟩ : (1, 1) = r ∧ [] = a := by simpa using h
      decide
    · simp at h
  · have w : ∀ p q, q ∈ crossed.holds.waitsOn p → q = 0 ∧ p = 1 := by decide
    intro p q e
    obtain ⟨rfl, rfl⟩ := w p q e
    intro h
    cases h with
    | step h _ => exact absurd (w _ _ h).2 (by decide)

/-! ## Answers, lines -/

theorem test_witness_answer :
    (claim 1 [8]).orphan = false ∧ ({ claim 1 [8] with orphan := true } : Claim).orphan = true := by decide

theorem test_identity : (controlLine up 2 7).toList = [0x54, 0x41, 1, 2, 0, 0] ++ List.replicate 10 0 := by decide

theorem test_witness_portState :
    busy.notice.queues[(0 : Port)].records.length ≤ 16 ∧ (∀ a ∈ busy.copy.queue, a.pagesDone ≤ 16) ∧
    busy.copy.last[(0 : Port)].pagesDone ≤ 16 := by decide

/-- Slot 0 of P0: GRANTED (2), WRITE, two pages (1 at bit 3), first page 0; slot 2 of P1 begins at bit 26 with first page 8. -/
theorem test_portState :
    ((controlLine busy 0 5).toList.take 2) = [10, 0] ∧
    (((controlLine busy 1 5).toList.drop 3).take 3) = [8, 8, 0] := by decide

/-- A START that reads at the PORT STATE line: it is in hand, and its parts may still be taken. -/
theorem test_witness_gather :
    let t := after (.twoWireStart 1 0x34 .read) (up.modPort 1 fun u => { u with pointer := 0x050 })
    t.ports[(1 : Port)].gathering = true ∧ t.ports[(1 : Port)].held = some ⟨0, 5, controlLine up 1 5, false⟩ ∧
    t.freeIndex = 0 ∧ t.pending = [] ∧ up.ports[(1 : Port)].gathering = false := by decide

/-- On an empty queue nothing happens where no PORT STATE line is being gathered. -/
theorem test_idle : up.pending = [] ∧ (∀ p : Port, up.ports[p].gathering = false) ∧ step up = .next up :=
  ⟨rfl, by decide, rfl⟩

/-- The example of R156: the line of `busy`, and the line once slot 0 of P0 is FREE and HOLD_ENDED is pending. With the slots
alone taken late the slot is FREE and the event is not shown; with attention alone, the other way round. -/
theorem test_straddle :
    let first := controlLine busy 0 5
    let second := controlLine (withSource 0 sHOLD_ENDED .PENDING 0 up) 0 5
    (first[(0 : Fin 16)] = 10 ∧ first[(12 : Fin 16)] = 0) ∧
    ((gatheredLine 0x01 first second)[(0 : Fin 16)] = 0 ∧ (gatheredLine 0x01 first second)[(12 : Fin 16)] = 0) ∧
    ((gatheredLine 0x08 first second)[(0 : Fin 16)] = 10 ∧
      (gatheredLine 0x08 first second)[(12 : Fin 16)] = second[(12 : Fin 16)] ∧ second[(12 : Fin 16)] ≠ 0) ∧
    gatheredLine 0x00 first second = first ∧ gatheredLine 0x1F first second = second := by decide

/-! ## Page table and damage list -/

theorem test_witness_pageInfo (x : Byte) (h : x ∈ [128, 127, 8]) :
    Takes 1 cPAGE_INFO (claim 1 [8, x]) [] (withClaim (claim 1 [8, x]) busy) ∧
      (x = 128 → 127 < ((claim 1 [8, x]).arg 1).toNat) ∧
      (x = 127 → ∀ r : SlotRef, (busy.holds.slot r).state = .GRANTED → (busy.holds.slot r).covers 127 = false) ∧
      (x = 8 → (busy.holds.slot (1, 2)).state = .GRANTED ∧ (busy.holds.slot (1, 2)).covers 8 = true ∧
        ∀ r : SlotRef, (busy.holds.slot r).state = .GRANTED → (busy.holds.slot r).covers 8 = true → r = (1, 2)) := by
  refine ⟨takes rfl rfl ?_ rfl, ?_⟩ <;> revert x <;> decide

theorem test_pageInfo :
    (after (.pageInfo 1) (withClaim (claim 1 [8, 8]) busy)).cmds[(1 : Port)].result.detail.toList =
      [8, 0, 0, 0, 0, 0, 1, 2, 0, 0, 0, 0] := by decide

/-- Eight lines are listed. -/
def full8 : State := withDamaged [0, 1, 2, 3, 4, 5, 6, 2047] up

theorem test_witness_damageQuery (x : Byte) (h : x ∈ [8, 7, 0]) :
    let c := claim 1 [15, x]
    Takes 1 cDAMAGE_QUERY c [] (withClaim c full8) ∧ Takes 1 cDAMAGE_QUERY c [] (withClaim c up) ∧
      (x = 8 → 7 < (c.arg 1).toNat) ∧ (x = 7 → full8.store.damaged[(c.arg 1).toNat]? = some 2047) ∧
      (x = 0 → up.store.damaged.length ≤ (c.arg 1).toNat) := by
  refine ⟨takes rfl rfl ?_ rfl, takes rfl rfl ?_ rfl, ?_⟩ <;> revert x <;> decide

theorem test_damageQuery :
    (after (.damageQuery 1) (withClaim (claim 1 [15, 7]) full8)).cmds[(1 : Port)].result.detail.toList =
      [0xFF, 0x07, 8, 0, 0, 0, 0, 0, 0, 0, 0, 0] := by decide

/-- By a port that is not the supervisor; by the supervisor, line 2048, 0FFFh, line 2047 listed and line 7 not. -/
theorem test_witness_damageClear (x : Port × List Byte)
    (h : x ∈ [(1, [16, 0, 0]), (0, [16, 0, 8]), (0, [16, 0xFF, 0x0F]), (0, [16, 0xFF, 0x07]), (0, [16, 7, 0])]) :
    Takes x.1 cDAMAGE_CLEAR (claim x.1 x.2) [] (withClaim (claim x.1 x.2) full8) ∧ (x.1 = 1 ↔ x.1 ≠ full8.device.supervisor) := by
  refine ⟨takes rfl rfl ?_ rfl, ?_⟩ <;> revert x <;> decide

theorem test_witness_damageClearClauses :
    (2047 < (half 0 8).toNat ∧ half 0 8 ≠ 0x0FFF) ∧ half 0xFF 0x0F = 0x0FFF ∧
    ((half 0xFF 0x07).toNat = 2047 ∧ 2047 ∈ full8.store.damaged) ∧ ((half 7 0).toNat = 7 ∧ 7 ∉ full8.store.damaged) := by
  decide

theorem test_damageClear :
    (after (.damageClear 0) (withClaim (claim 0 [16, 3, 0]) full8)).store.damaged = [0, 1, 2, 4, 5, 6, 2047] := by decide

/-- By a port that is not the supervisor; then a count of 0, a range past page 127, a policy of 4, an owner of 4; then two
that pass: PRIVATE to P3 over the whole store, OPEN on page 127. -/
theorem test_witness_policy (x : Port × List Byte) (h : x ∈ [(1, [13, 0, 1, 0, 0]), (0, [13, 0, 0, 0, 0]), (0, [13, 127, 2, 0, 0]),
    (0, [13, 0, 1, 4, 0]), (0, [13, 0, 1, 0, 4]), (0, [13, 0, 128, 3, 3]), (0, [13, 127, 1, 0, 0])]) :
    Takes x.1 cPOLICY (claim x.1 x.2) [] (withClaim (claim x.1 x.2) up) ∧ (x.1 = 1 ↔ x.1 ≠ up.device.supervisor) := by
  refine ⟨takes rfl rfl ?_ rfl, ?_⟩ <;> revert x <;> decide

theorem test_policy :
    let n := { up.notice with watch := up.notice.watch.set 127 0b1011 }
    let t := after (.policy 0) ((withClaim (claim 0 [13, 126, 2, 3, 3]) up).setNotice n)
    t.store.pages[(127 : Page)] = ⟨.PRIVATE, 3, 0⟩ ∧ t.store.pages[(125 : Page)] = ⟨.OPEN, 0, 0⟩ ∧
    t.notice.watch[(127 : Page)] = 0b1000 ∧ t.cmds[(0 : Port)].result.detail[(2 : Fin 12)] = 2 := by decide

/-! ## Copies -/

/-- `s` with these requests in the copy queue. -/
def withCopies (q : List CopyReq) (s : State) : State := s.setCopy { s.copy with queue := q, transfer := .issued 0 1 0 }

/-- P0's copy of pages 10 and 11 to 20 and 21, the first of them done. -/
def copy0 : CopyReq := ⟨0, 10, 20, 2, 1, false, false⟩

/-- P1's queued copy. -/
def copy1 : CopyReq := ⟨1, 30, 40, 1, 0, false, false⟩

/-- A count of 0 and of 17, a source and a destination past page 127, ranges that share page 15, ranges side by side, and a
copy of 16 pages. -/
theorem test_witness_copy (l : List Byte) (h : l ∈ [[5, 0, 9, 0], [5, 0, 40, 17], [5, 127, 0, 2], [5, 0, 127, 2],
    [5, 0, 15, 16], [5, 0, 16, 16], [5, 112, 0, 16]]) :
    Waits 2 cCOPY (claim 2 l) [] (withClaim (claim 2 l) up) ∧
      Waits 2 cCOPY (claim 2 l) [] (withClaim (claim 2 l) (withCopies [copy0] up)) := by
  constructor <;> (refine waits rfl rfl ?_; revert l; decide)

theorem test_witness_copyClauses :
    (∀ pg : Page, ¬ (inRange 0 16 pg = true ∧ inRange 16 16 pg = true)) ∧
    (inRange 0 16 15 = true ∧ inRange 15 16 15 = true) ∧ (∀ a ∈ (withCopies [copy0] up).copy.queue, a.requester ≠ 2) ∧
    ¬ (∀ a ∈ (withCopies [copy0] up).copy.queue, a.requester ≠ 0) := by decide

theorem test_copy :
    let t := after (.copy 2) (withClaim (claim 2 [5, 0, 16, 16]) up)
    t.copy.transfer = .issued 0 16 2 ∧ t.arbiter.inService = some copyEngine ∧
    (after (.copy 2) (withClaim (claim 2 [5, 0, 15, 16]) up)).cmds[(2 : Port)].result.status = .OVERLAP ∧
    (after (.copy 0) (withClaim (claim 0 [5, 0, 16, 16]) (withCopies [copy0] up))).cmds[(0 : Port)].result.status = .BUSY := by
  decide

theorem test_witness_copyCancel (p : Port) :
    let s := withClaim (claim p [6]) (withCopies [copy0, copy1] up)
    Waits p cCOPY_CANCEL (claim p [6]) [] s ∧ s.copy.queue = copy0 :: [copy1] ∧ (p = 0 → copy0.requester = p) ∧
      (p = 1 → copy0.requester ≠ p ∧ ∃ x ∈ [copy1], x.requester = p) ∧
      (p = 2 → ∀ a ∈ s.copy.queue, a.requester ≠ p) := by
  refine ⟨waits rfl rfl ?_, ?_⟩ <;> revert p <;> decide

theorem test_witness_copyOutcome :
    let s (a : CopyReq) (r : Reason) := up.setCopy ⟨[a, copy1], up.copy.last, .returned r⟩
    (∀ a r, (s a r).running = true ∧ (s a r).copy.transfer = .returned r ∧ (s a r).copy.queue = a :: [copy1]) ∧
    copy0.silent = false ∧ copy0.pagesDone + 1 = copy0.count ∧
    ({ copy0 with count := 3 } : CopyReq).pagesDone + 1 ≠ 3 := ⟨fun _ _ => ⟨rfl, rfl, rfl⟩, by decide⟩

/-- The last page ends P0's copy, and P1's begins. -/
theorem test_copyOutcome :
    let t := after .copyTransferOutcome (up.setCopy ⟨[copy0, copy1], up.copy.last, .returned .none⟩)
    t.copy.queue = [copy1] ∧ t.copy.transfer = .issued 30 40 1 ∧ t.copy.last[(0 : Port)] = ⟨.OK, .none, 2⟩ ∧
    t.attn[(0 : Port)].sources[(4 : SourceNo)].detail = .copyDone .OK .none 2 := by decide

/-- The end of P2's service takes the outcome that waits: the engine's next transfer is at the arbiter, which chooses it. -/
theorem test_outcomeTakenWhenServiceEnds :
    let s := (servingPort 2 (.fetch (fetch4 false)) up).setCopy ⟨[{ copy0 with pagesDone := 0 }], up.copy.last, .returned .none⟩
    let t := after (.lineFetch 2 .good) s
    s.running = true ∧ s.arbiter.inService = some (portRequester 2) ∧ t.copy.transfer = .issued 11 21 0 ∧
    t.arbiter.inService = some copyEngine := by decide

/-! ## Control commits, claims of the command unit -/

/-- `s` with this hand-over pending at `p`. -/
def withHandOver (p : Port) (x : HandOver) (s : State) : State := s.modPort p fun u => { u with handOver := some x }

/-- A command's code, and a byte 15 written twice. -/
def line9 : List Entry := [⟨0, 0, 9⟩, ⟨0, 15, 1⟩, ⟨0, 15, 2⟩]

/-- A control commit with and without a kept void record, and with a read behind it that is obtaining its line. -/
theorem test_witness_controlCommit (b : Bool) (r : Option TxStatus) (u : PortUnit) (h : u.outstanding = none)
    (he : u.endedRead = none) :
    let s := (up.modPort 1 fun _ => { u with handOver := some (.command line9), keptVoid := r }).modCmd 1 fun u =>
      { u with inFlight := b }
    s.running = true ∧ s.ports[(1 : Port)].handOver = some (.command line9) ∧ s.ports[(1 : Port)].keptVoid = r ∧
      s.ports[(1 : Port)].endedRead = none ∧ (∀ x, s.ports[(1 : Port)].outstanding ≠ some (.commit x)) ∧
      s.ports[(1 : Port)].asking = u.asking ∧ s.cmds[(1 : Port)].inFlight = b := by
  refine ⟨rfl, rfl, rfl, he, ?_, rfl, rfl⟩
  intro x e
  exact absurd (h.symm.trans e) (by simp)

theorem test_controlCommit :
    let t := after (.controlCommit 1) (withHandOver 1 (.command line9) up)
    t.cmds[(1 : Port)].line.toList = [9, 0, 0, 0, 0, 0, 0, 0, 0, 0, 0, 0, 0, 0, 0, 2] ∧ t.cmds[(1 : Port)].inFlight = true ∧
    t.claims = [⟨1, t.cmds[(1 : Port)].line, .commandUnit, false⟩] ∧
    t.cmds[(1 : Port)].txStatus = ⟨.CONTROL_WRITE, .OK, .none, 0, 0, 3, 0⟩ := by decide

/-- The kept record and its event come after the control commit's record; then the read that waited obtains IDENTITY. -/
theorem test_controlCommit_kept :
    let s := up.modPort 1 fun _ => { askingAt 0x070 with
      handOver := some (.command line9), keptVoid := some (voidRecord .STORE_WRITE .VIEW_END 2), replaced := 1 }
    let t := after (.controlCommit 1) s
    t.cmds[(1 : Port)].txStatus = voidRecord .STORE_WRITE .VIEW_END 2 ∧ t.ports[(1 : Port)].keptVoid = none ∧
    t.attn[(1 : Port)].sources[(5 : SourceNo)].lost = 1 ∧
    (t.ports[(1 : Port)].held.map fun h => h.bytes[(0 : Fin 16)]) = some 0x54 := by decide

theorem test_witness_badCommand (x : Byte) (h : x ∈ [0, 17, 255]) :
    Finds (badAtUnit 1) (claim 1 [x] .commandUnit) [] (withClaim (claim 1 [x] .commandUnit) up) := by
  refine finds rfl rfl ?_
  revert x
  decide

/-- A SIGNAL to nobody, to bits that name no port, to the issuer alone, to all. -/
theorem test_witness_signal (x : Byte) (h : x ∈ [0, 0xF0, 2, 15]) :
    Finds (atUnit 1 cSIGNAL) (claim 1 [7, x, 5] .commandUnit) [] (withClaim (claim 1 [7, x, 5] .commandUnit) up) ∧
      (x = 0xF0 → ∀ q : Port, ¬ x.getLsbD q.val = true) ∧ (x = 2 → ∀ q : Port, x.getLsbD q.val = true → q = 1) ∧
      (x = 15 → ∀ q : Port, PortSet.has 0b1101 q = true ↔ x.getLsbD q.val = true ∧ q ≠ 1) := by
  refine ⟨finds rfl rfl ?_, ?_⟩ <;> revert x <;> decide

theorem test_witness_portSignal (x : PortSet) (h : x ∈ [0b0100, 0b1100]) :
    let c := claim 1 [7, 15, 5] (.ports x)
    Finds (isWith 1 2 cSIGNAL) c [] (withClaim c up) ∧ c.stage = .ports x ∧
      (x = 0b0100 → ∀ q, PortSet.has x q = true → q = 2) ∧ (x = 0b1100 → ∃ q, PortSet.has x q = true ∧ q ≠ 2) := by
  refine ⟨finds rfl rfl ?_, rfl, ?_⟩ <;> revert x <;> decide

theorem test_portSignal :
    let t := after (.portSignal 2 1) (withClaim (claim 1 [7, 6, 5] (.ports 0b0100)) up)
    t.attn[(2 : Port)].sources[(6 : SourceNo)].detail = .signal 1 5 ∧ t.claims = [] ∧
    t.cmds[(1 : Port)].result.detail.toList.take 2 = [4, 5] := by decide

/-- MAPs of P1, not the supervisor, and of P0, which is: no port; another port; window 0 and 16, page 128, flag 2, access 2;
and two that pass. -/
theorem test_witness_map (x : Port × List Byte) (h : x ∈ [(1, [9, 0, 1, 1, 0, 0]), (1, [9, 3, 1, 1, 0, 0]),
    (0, [9, 8, 0, 1, 0, 0]), (0, [9, 8, 16, 1, 0, 0]), (0, [9, 8, 1, 1, 128, 0]), (0, [9, 8, 1, 2, 0, 0]),
    (0, [9, 8, 1, 1, 0, 2]), (1, [9, 2, 15, 1, 127, 1]), (0, [9, 15, 1, 0, 0, 0])]) :
    Finds (atUnit x.1 cMAP) (claim x.1 x.2 .commandUnit) [] (withClaim (claim x.1 x.2 .commandUnit) up) := by
  refine finds rfl rfl ?_
  revert x
  decide

theorem test_witness_mapTaken :
    let c := claim 1 [9, 2, 15, 1, 127, 1] (.ports 0b0010)
    let d := claim 0 [9, 3, 15, 1, 127, 1] (.ports 0b0011)
    (Finds (isWith 1 1 cMAP) c [] (withClaim c up) ∧ (c.arg 2).toNat = (14 : Fin 15).val + 1 ∧
      (c.arg 4).toNat = (127 : Page).val ∧ c.arg 3 = 1 ∧ c.arg 5 = Access.RO.code ∧
      ∀ q, PortSet.has 0b0010 q = true → q = 1) ∧
    (Finds (isWith 0 1 cMAP) d [] (withClaim d up) ∧ ∃ q, PortSet.has 0b0011 q = true ∧ q ≠ 1) :=
  ⟨⟨finds rfl rfl (by decide), by decide⟩, finds rfl rfl (by decide), by decide⟩

theorem test_map :
    let t := after (.mapTranslatorTake 1 1) (withClaim (claim 1 [9, 2, 15, 1, 127, 1] (.ports 0b0010)) up)
    t.translators[(1 : Port)].map[(14 : Fin 15)] = ⟨true, 127, .RO⟩ ∧ t.translators[(0 : Port)].map[(14 : Fin 15)].enabled = false ∧
    t.cmds[(1 : Port)].result.detail.toList.take 5 = [2, 15, 1, 127, 1] := by decide

theorem test_witness_mapQuery (x : Port × List Byte) (h : x ∈ [(1, [10, 0, 1]), (1, [10, 3, 1]), (0, [10, 8, 0]),
    (0, [10, 8, 16]), (0, [10, 6, 15]), (1, [10, 2, 1])]) :
    Finds (atUnit x.1 cMAP_QUERY) (claim x.1 x.2 .commandUnit) [] (withClaim (claim x.1 x.2 .commandUnit) up) := by
  refine finds rfl rfl ?_
  revert x
  decide

/-- A MAP_QUERY that has been examined, and one at the command unit behind an orphan's that is with its translator. -/
theorem test_witness_mapQueryOwned :
    let c := claim 0 [10, 6, 15]
    let o := { claim 0 [10, 6, 15] with orphan := true }
    let d := claim 0 [10, 8, 1] .commandUnit
    Finds (isOwned 0 cMAP_QUERY) c [] (withClaim c up) ∧ (∀ x ∈ (withClaim c up).claims, atUnit 0 cMAP_QUERY x = false) ∧
    Finds (isOwned 0 cMAP_QUERY) o [d] (up.setClaims [o, d]) ∧ Oldest (atUnit 0 cMAP_QUERY) d [o] (up.setClaims [o, d]) ∧
    (∀ x ∈ [o], atUnit 0 cMAP_QUERY x = false) ∧
    (after (.mapQuery 0) (up.setClaims [o, d])).claims = [{ d with stage := .owner }] :=
  ⟨finds rfl rfl (by decide), by decide, ⟨rfl, [], _, rfl, rfl, by simp, by decide⟩, ⟨[_], [], rfl, rfl, by decide, by decide⟩,
    by decide, by decide⟩

/-- The highest-numbered port named answers. -/
theorem test_mapQuery :
    (after (.mapQuery 0) (withClaim (claim 0 [10, 6, 15] .commandUnit) up)).cmds[(0 : Port)].result.detail.toList.take 5 =
      [2, 15, 0, 0, 0] := by decide

/-- An increment action of 3, an output action of 3, and two that pass. -/
theorem test_witness_portConfig (l : List Byte) (h : l ∈ [[11, 3, 0], [11, 0, 3], [11, 2, 1], [11, 0, 2]]) :
    Finds (atUnit 1 cPORT_CONFIG) (claim 1 l .commandUnit) [] (withClaim (claim 1 l .commandUnit) up) := by
  refine finds rfl rfl ?_
  revert l
  decide

theorem test_portConfig :
    let t := after (.portConfig 1 .both) (withClaim (claim 1 [11, 2, 1] .commandUnit) up)
    t.translators[(1 : Port)].mode = .WINDOW_WRAP ∧ t.attn[(1 : Port)].outputEnable = true ∧
    t.cmds[(1 : Port)].result.detail.toList.take 2 = [2, 1] := by decide

/-- A reset's orphan without its attention half, and one half of it taken, stand before a newer PORT_CONFIG. -/
def halved (m : HalfClaim IncMode) (o : HalfClaim Bool) : State :=
  up.setClaims [{ claim 1 [11, 2, 2] (.halves m o) with orphan := true }, claim 1 [11, 2, 1] (.halves .due .due)]

theorem test_witness_portConfigHalves :
    (∀ x ∈ (halved .due .discarded).claims, atUnit 1 cPORT_CONFIG x = false) ∧
    (∀ x ∈ (halved .due .discarded).claims, isHalves 1 x = true) ∧
    outputDue 1 (claim 1 [11, 2, 2] (.halves .due .discarded)) = false ∧
    modeDue 1 (claim 1 [11, 2, 2] (.halves (.taken .LINEAR) .due)) = false := by decide

/-- The attention unit takes its half of the newer one; the translator takes the orphan's half first. -/
theorem test_portConfigHalves :
    let t := after (.portConfig 1 .attention) (halved .due .discarded)
    let u := after (.portConfig 1 .translator) (halved .due .discarded)
    let v := after (.portConfig 1 .both) (halved .due (.taken false))
    t.attn[(1 : Port)].outputEnable = true ∧
    t.claims.map (·.stage) = [.halves .due .discarded, .halves .due (.taken true)] ∧
    u.translators[(1 : Port)].mode = .WINDOW_WRAP ∧ u.claims.map (·.stage) = [.halves .due .due] ∧
    v.claims.map (·.stage) = [.halves .due (.taken true)] := by decide

/-! ## Port reset -/

/-- A target of 4; another port by P1, not the supervisor; the issuer itself; another port by the supervisor. -/
theorem test_witness_portReset (x : Port × Byte) (h : x ∈ [(1, 4), (1, 3), (1, 1), (0, 3)]) :
    let c := claim x.1 [14, x.2] .commandUnit
    Finds (atUnit x.1 cPORT_RESET) c [] (withClaim c up) ∧ (x = (1, 4) → 3 < (c.arg 1).toNat) ∧
      (x = (1, 3) → (c.arg 1).toNat = (3 : Port).val ∧ x.1 ≠ up.device.supervisor) ∧
      (x = (0, 3) → (c.arg 1).toNat = (3 : Port).val ∧ x.1 = up.device.supervisor) := by
  refine ⟨finds rfl rfl ?_, ?_⟩ <;> revert x <;> decide

theorem test_witness_resetBegin :
    let c := claim 0 [14, 3] (.begin 3)
    Finds (isBegin 0 3) c [] (withClaim c up) ∧ (withClaim c up).cmds[(3 : Port)].resetRun = none ∧
    Finds (isBegin 0 3) c [] (withClaim c (resetting 3 .hold 1 up)) ∧
    (withClaim c (resetting 3 .hold 1 up)).cmds[(3 : Port)].resetRun ≠ none :=
  ⟨finds rfl rfl (by decide), by decide, finds rfl rfl (by decide), by decide⟩

theorem test_witness_resetParts (st : ResetStage) :
    (resetting 2 st 0 up).running = true ∧ (resetting 2 st 0 up).cmds[(2 : Port)].resetRun = some ⟨st, 0, 0⟩ ∧
      (resetting 2 st 0 up).arbiter.inService = none ∧ (∀ c ∈ (resetting 2 st 0 up).claims, anyAtUnit 2 c = false) :=
  ⟨rfl, rfl, rfl, by simp [resetting, up, State.reset, State.modCmd]⟩

/-- P2's slot is freed and its request withdrawn; the reset goes on to the notice unit. -/
theorem test_holdResetPart :
    let t := after (.holdResetPart 2) (resetting 2 .hold 0 busy)
    t.holds.slot (2, 0) = Slot.free ∧ t.holds.queue = [] ∧
    t.cmds[(2 : Port)].resetRun = some ⟨.notice, 0, 0⟩ := by decide

theorem test_resetParts :
    let n := { up.notice with watch := up.notice.watch.set 5 0b1111, queues := up.notice.queues.set 2 (queueOf 3) }
    let t := after (.noticeResetPart 2) (resetting 2 .notice 0 (up.setNotice n))
    let u := after (.copyResetPart 0) (resetting 0 .copy 0 (withCopies [copy0, copy1] up))
    let v := after (.attentionResetPart 0) (resetting 0 .attention 0 nested)
    t.notice.watch[(5 : Page)] = 0b1011 ∧ t.notice.queues[(2 : Port)].records = [] ∧
    u.copy.queue = [{ copy0 with silent := true }, copy1] ∧
    (∀ i : SourceNo, v.attn[(0 : Port)].sources[i].state = .IDLE) ∧
    v.attn[(0 : Port)].sources[(6 : SourceNo)].level = 6 := by decide

/-- A PORT_CONFIG whose attention half an earlier reset discarded is kept; a DONE not yet taken is dropped. -/
theorem test_attentionResetPart_keeps :
    let c := claim 0 [11, 2, 2] (.halves .due .discarded)
    let s := (withClaim c (resetting 0 .attention 0 up)).modAttn 0 fun u => { u with doneDue := 1 }
    (after (.attentionResetPart 0) s).claims = [c] ∧ (after (.attentionResetPart 0) s).attn[(0 : Port)].doneDue = 0 := by
  decide

theorem test_witness_commandResetPart :
    let c := claim 2 [14, 2] (.begin 2)
    Oldest (isBegin 2 2) c [] (withClaim c (resetting 2 .command 0 up)) ∧ c.orphan = false ∧
    anyAtUnit 2 c = false ∧ isBegin 2 2 (claim 2 [1] .owner) = false :=
  ⟨⟨[], [], rfl, rfl, by simp, by decide⟩, by decide⟩

theorem test_commandResetPart :
    let t := after (.commandResetPart 2) (resetting 2 .command 0 (up.modCmd 2 fun u => { u with line := Line.fill }))
    t.cmds[(2 : Port)].line = Line.zero ∧ t.cmds[(2 : Port)].inFlight = false ∧
    t.cmds[(2 : Port)].result = ⟨14, .OK, 1, detailOf [2, 0, 0]⟩ ∧
    t.attn[(2 : Port)].sources[(3 : SourceNo)].detail = .holdEnded none .EVICTED := by decide

/-- A write in progress at P2, with this hand-over pending behind this request. -/
def writingBehind (r : StoreRequest) (x : HandOver) : State :=
  (resetting 2 .portUnit 0 up).modPort 2 fun _ => { PortUnit.reset with
    phase := .DATA, dir := some .write, kind := .STORE_WRITE, staging := [⟨5, 0, 7⟩], pointer := 0x101, addressed := true
    outstanding := some r, handOver := some x }

/-- The same behind a commit. -/
def writing (x : HandOver) : State := writingBehind (.commit [⟨6, 0, 1⟩]) x

/-- Each of the four hand-overs behind a commit. -/
theorem test_witness_portUnitResetPart (x : HandOver) :
    Settled 2 (writing x) ∧ (writing x).cmds[(2 : Port)].resetRun = some ⟨.portUnit, 0, 0⟩ ∧
      (writing x).ports[(2 : Port)].handOver = some x :=
  ⟨{ running := rfl
     noControl := fun _ _ => .inr ⟨_, rfl⟩
     examined := fun c h => absurd h (show ¬ c ∈ [] by simp)
     noDone := rfl
     obtained := fun h => absurd h (show ¬ false = true by simp)
     gathered := rfl }, rfl, rfl⟩

/-- A commit behind the fetch of a cut read. -/
theorem test_witness_portUnitResetPart_fetch :
    let s := writingBehind (.fetch (fetch4 true)) (.commit [⟨6, 1, 1⟩])
    Settled 2 s ∧ s.cmds[(2 : Port)].resetRun = some ⟨.portUnit, 0, 0⟩ ∧
      s.ports[(2 : Port)].handOver = some (.commit [⟨6, 1, 1⟩]) :=
  ⟨settled rfl rfl rfl rfl rfl fun es h => absurd h (show ¬ some (HandOver.commit [⟨6, 1, 1⟩]) = some (.command es) by simp),
    rfl, rfl⟩

theorem test_portUnitResetPart :
    let t := after (.portUnitResetPart 2) (writing (.commit [⟨6, 1, 1⟩]))
    t.ports[(2 : Port)].phase = .CUT ∧ t.ports[(2 : Port)].counted = 1 ∧ t.ports[(2 : Port)].pointer = 0 ∧
    t.ports[(2 : Port)].handOver = none ∧ t.ports[(2 : Port)].outstanding = some (.commit [⟨6, 0, 1⟩]) ∧
    t.cmds[(2 : Port)].resetRun = none ∧ t.cmds[(0 : Port)].result.detail = detailOf [2, 0, 0] ∧
    t.cmds[(2 : Port)].txStatus = ⟨.STORE_WRITE, .VOIDED, .CUT_BY_RESET, 0xFF, 0x0FFF, 1, 0⟩ := by decide

/-- A pending control commit is discarded and recorded; so is a commit behind a line fetch. -/
theorem test_portUnitResetPart_discards :
    let t := after (.portUnitResetPart 2) (writing (.command [⟨0, 0, 9⟩, ⟨0, 1, 9⟩]))
    let u := after (.portUnitResetPart 2) (writingBehind (.fetch (fetch4 true)) (.commit [⟨6, 1, 1⟩]))
    t.ports[(2 : Port)].handOver = none ∧
    t.cmds[(2 : Port)].txStatus = ⟨.CONTROL_WRITE, .VOIDED, .CUT_BY_RESET, 0xFF, 0x0FFF, 2, 0⟩ ∧
    u.ports[(2 : Port)].handOver = none ∧ u.ports[(2 : Port)].outstanding = some (.fetch (fetch4 true)) ∧
    u.cmds[(2 : Port)].txStatus = ⟨.STORE_WRITE, .VOIDED, .CUT_BY_RESET, 0xFF, 0x0FFF, 1, 0⟩ := by decide

/-! ## Views and the bus -/

theorem test_witness_view :
    let t : Translator := { Translator.reset with map := Translator.reset.map.set 14 ⟨true, 127, .RO⟩ }
    t.map[(14 : Fin 15)].enabled = true ∧ t.map[(0 : Fin 15)].enabled = false ∧
    t.translate 0xFFF = .store 127 0xFF .RO ∧ t.translate 0x100 = .disabled ∧ t.translate 0x0FE = .control 15 14 := by decide

theorem test_witness_pointer :
    ({ PortUnit.reset with pointer := 0xFFE } : PortUnit).advance.pointer = 0xFFF ∧
    ({ PortUnit.reset with pointer := 0xFFF } : PortUnit).advance.endOfView = true ∧
    ({ PortUnit.reset with pointer := 0xFFF, mode := .WINDOW_WRAP } : PortUnit).advance.pointer = 0xF00 := by decide

/-- `up` with this port unit at `p`. -/
def unitAt (p : Port) (u : PortUnit) : State := up.modPort p fun _ => u

theorem settled_unit {p : Port} {u : PortUnit} (ha : u.asking = false) (hh : ∀ es, u.handOver ≠ some (.command es))
    (hg : u.gathering = false := by rfl) : Settled p (unitAt p u) := by
  have e : (unitAt p u).ports[p] = u := upd_self _ _ _
  have d : ∀ p : Port, up.attn[p].doneDue = 0 := by decide
  exact settled rfl rfl (d p) (by rw [e]; exact ha) (by rw [e]; exact hg) (by rw [e]; exact hh)

/-- A port unit whose line is ATTENTION, two DONEs, and a control commit of the code 00h: all is done at once, the commit first. -/
theorem test_settle :
    let s := (nested.modAttn 0 fun u => { u with doneDue := 2 }).modPort 0 fun _ =>
      { askingAt 0x020 with handOver := some (.command [⟨0, 0, 0⟩]) }
    let t := s.settle 0
    s.running = true ∧ (s.ports[(0 : Port)].asking = true ∧ s.ports[(0 : Port)].phase = .DATA) ∧
    t.ports[(0 : Port)].handOver = none ∧ t.claims = [] ∧ t.cmds[(0 : Port)].result.status = .BAD_COMMAND ∧
    t.attn[(0 : Port)].doneDue = 0 ∧ t.attn[(0 : Port)].sources[(1 : SourceNo)].state = .IDLE ∧
    t.attn[(0 : Port)].sources[(6 : SourceNo)].state = .ACTIVE ∧ t.ports[(0 : Port)].asking = false := by decide

/-- Claims of each code at the command unit, alone there. -/
theorem test_witness_examine (x : Byte) (h : x ∈ [0, 7, 9, 10, 11, 14, 17]) :
    let s := withClaim (claim 1 [x] .commandUnit) up
    s.running = true ∧ Oldest (anyAtUnit 1) (claim 1 [x] .commandUnit) [] s ∧ (claim 1 [x] .commandUnit).arg 0 = x := by
  refine ⟨rfl, ⟨[], [], rfl, rfl, by simp, rfl⟩, ?_⟩
  revert x
  decide

/-- A port whose executed command has still to be examined: after what it does at once nothing is left. -/
theorem test_witness_busEvent :
    let s := withClaim (claim 1 [0] .commandUnit) up
    s.running = true ∧ Settled 1 (s.settle 1) :=
  ⟨rfl, settled rfl (by decide) (by decide) (by decide) (by decide) (fun es h => absurd h
    (show ¬ (none : Option HandOver) = some (.command es) by simp))⟩

/-- The same for P3 while CS_N is high. -/
theorem test_witness_csFall :
    let s := withClaim (claim 3 [0] .commandUnit) up
    s.running = true ∧ s.device.csLow = false ∧ Settled spi (s.settle spi) :=
  ⟨rfl, rfl, settled rfl (by decide) (by decide) (by decide) (by decide) (fun es h => absurd h
    (show ¬ (none : Option HandOver) = some (.command es) by simp))⟩

theorem test_witness_start :
    Settled (TwoWirePort.port 1) (unitAt 1 PortUnit.reset) ∧
    ((unitAt 1 PortUnit.reset).endTransaction 1).settle 1 = unitAt 1 PortUnit.reset ∧
    (0x34 : BitVec 7) = 0x34 + (unitAt 1 PortUnit.reset).device.asValue[(1 : Port)].setWidth 7 ∧
    (0x35 : BitVec 7) ≠ 0x34 + (unitAt 1 PortUnit.reset).device.asValue[(1 : Port)].setWidth 7 :=
  ⟨settled_unit rfl (fun _ h => absurd h (by simp [PortUnit.reset])), rfl, by decide⟩

theorem test_start :
    let t := after (.twoWireStart 1 0x34 .read) (unitAt 1 { PortUnit.reset with pointer := 0x070 })
    t.ports[(1 : Port)].phase = .DATA ∧ t.ports[(1 : Port)].ackOut = true ∧
    (t.ports[(1 : Port)].held.map fun h => h.bytes[(0 : Fin 16)]) = some 0x54 ∧
    (after (.twoWireStart 1 0x35 .read) up).ports[(1 : Port)].phase = .IDLE := by decide

/-- A write that awaits its address bytes. -/
def addressing (hi : Option (BitVec 4)) : PortUnit :=
  { PortUnit.reset with phase := .ADDRESS, dir := some .write, addrHigh := hi }

theorem test_witness_addressBytes (hi : Option (BitVec 4)) :
    Settled 0 (unitAt 0 (addressing hi)) ∧ (unitAt 0 (addressing hi)).ports[(0 : Port)].phase = .ADDRESS ∧
      (unitAt 0 (addressing hi)).ports[(0 : Port)].dir ≠ none ∧
      (unitAt 0 (addressing hi)).ports[(0 : Port)].handOver = none ∧
      (unitAt 0 (addressing hi)).ports[(0 : Port)].addrHigh = hi :=
  ⟨settled_unit rfl (fun _ h => absurd h (by simp [addressing, PortUnit.reset])), rfl, Option.some_ne_none _, rfl, rfl⟩

theorem test_addressBytes :
    (after (.addressHighByte 0 0x0F) (unitAt 0 (addressing none))).ports[(0 : Port)].addrHigh = some 15 ∧
    (after (.addressHighByte 0 0x10) (unitAt 0 (addressing none))).ports[(0 : Port)].phase = .VOIDED ∧
    (after (.addressLowByte 0 0xA2) (unitAt 0 (addressing (some 3)))).ports[(0 : Port)].pointer = 0x3A2 := by decide

/-- A write of kind `k` in phase DATA at `a`, with this staged, through a map with windows 1 (RW, page 9) and 2 (RO). -/
def data (k : TxKind) (a : ViewAddr) (e : Bool) (es : List Entry) : State :=
  (unitAt 0 { PortUnit.reset with
    phase := .DATA, dir := some .write, kind := k, pointer := a, endOfView := e, staging := es, addressed := true })
    |>.modTranslator 0 fun t => { t with map := (t.map.set 0 ⟨true, 9, .RW⟩).set 1 ⟨true, 9, .RO⟩ }

theorem test_witness_writtenByte (k : TxKind) (a : ViewAddr) (e : Bool) (es : List Entry) (h : (touchedPages es).length ≤ 2) :
    Settled 0 (data k a e es) ∧ (data k a e es).ports[(0 : Port)].phase = .DATA ∧
      (data k a e es).ports[(0 : Port)].dir = some .write ∧ (data k a e es).ports[(0 : Port)].handOver = none ∧
      (touchedPages (data k a e es).ports[(0 : Port)].staging).length ≤ 2 :=
  ⟨settled rfl rfl rfl rfl rfl (fun _ h => absurd h (show ¬ (none : Option HandOver) = _ by simp)), rfl, rfl, rfl, h⟩

/-- In this order: a control byte at line 0, at line 1, past line 15 and at the end of the view; a store byte at the end of
the view, in a disabled window, in an RO window, on a third page, as the 65th, as the 64th. -/
theorem test_writtenByte :
    let t (k : TxKind) (a : ViewAddr) (e : Bool) (es : List Entry) :=
      ((data k a e es).ports[(0 : Port)].takeData (data k a e es).translators[(0 : Port)] 7).1
    let many (n : Nat) : List Entry := List.replicate n ⟨9, 0, 0⟩
    (t .NONE 0x00F false []).staging = [⟨0, 15, 7⟩] ∧ (t .NONE 0x010 false []).voidReason = some .CONTROL_READ_ONLY ∧
    (t .CONTROL_WRITE 0x100 false []).voidReason = some .VIEW_END ∧
    (t .CONTROL_WRITE 0x000 true []).voidReason = some .VIEW_END ∧
    (t .STORE_WRITE 0xFFF true []).voidReason = some .VIEW_END ∧
    (t .NONE 0x300 false []).voidReason = some .DISABLED_WINDOW ∧
    (t .NONE 0x2FF false []).voidReason = some .READ_ONLY_WINDOW ∧
    (t .STORE_WRITE 0x100 false [⟨1, 0, 0⟩, ⟨2, 0, 0⟩]).voidReason = some .STAGING_FULL ∧
    (t .STORE_WRITE 0x100 false [⟨1, 0, 0⟩, ⟨2, 0, 0⟩]).counted = 2 ∧
    (t .STORE_WRITE 0x100 false (many 64)).voidReason = some .STAGING_FULL ∧
    (t .STORE_WRITE 0x1FF false (many 63)).staging.length = 64 ∧
    (t .STORE_WRITE 0x1FF false (many 63)).pointer = 0x200 := by decide

/-- A voided and a cut write; a write behind a pending hand-over. -/
theorem test_witness_notTaken (p : Port) :
    let u (ph : Phase) (x : Option HandOver) : PortUnit := { PortUnit.reset with phase := ph, dir := some .write, handOver := x }
    Settled p (unitAt p (u .VOIDED none)) ∧ Settled p (unitAt p (u .CUT none)) ∧ Settled p (unitAt p (u .DATA (some (.done 1)))) ∧
      Settled p (unitAt p (u .VOIDED (some (.done 1)))) ∧
      (unitAt p (u .VOIDED none)).ports[p].phase = .VOIDED ∧ (unitAt p (u .CUT none)).ports[p].phase = .CUT ∧
      (unitAt p (u .DATA (some (.done 1)))).ports[p].handOver ≠ none ∧
      (unitAt p (u .VOIDED (some (.done 1)))).ports[p].handOver ≠ none := by
  have e : ∀ v, (unitAt p v).ports[p] = v := fun v => upd_self _ _ _
  refine ⟨settled_unit rfl ?_, settled_unit rfl ?_, settled_unit rfl ?_, settled_unit rfl ?_, ?_, ?_, ?_, ?_⟩ <;>
    simp [e, PortUnit.reset]

/-- Data slots of an SPI WRITE: voided at its address behind a hand-over and without one; cut after its address. -/
theorem test_spiWriteSlot :
    let u (ph : Phase) (x : Option HandOver) : PortUnit := { PortUnit.reset with phase := ph, dir := some .write, handOver := x }
    let t (u : PortUnit) := (after (.spiWriteSlot 7) (unitAt spi u)).ports[spi]
    (t (u .VOIDED (some (.done 1)))).dataOut = 0 ∧ (t (u .VOIDED none)).dataOut = 0xA5 ∧ (t (u .VOIDED none)).pointer = 0 ∧
    (t { u .CUT none with addressed := true }).dataOut = 0xFF ∧ (t { u .CUT none with addressed := true }).pointer = 1 := by
  decide

/-- A read in phase `ph` at `a` that holds the line of the pointer, line 7 of the control window. -/
def reading (ph : Phase) (a : ViewAddr) (e : Bool) : PortUnit :=
  { PortUnit.reset with
    phase := ph, dir := some .read, pointer := a, endOfView := e, addressed := true
    held := some ⟨0, 7, vecOf 16 fun i => byteN (i + 1), false⟩ }

theorem test_witness_readByte (ph : Phase) (a : ViewAddr) (e : Bool) (p : Port) :
    Settled p (unitAt p (reading ph a e)) ∧ (reading ph a e).dir = some .read ∧ (reading ph a e).stopped = false ∧
      (reading ph a e).handOver = none :=
  ⟨settled_unit rfl (fun _ h => absurd h (by simp [reading, PortUnit.reset])), rfl, rfl, rfl⟩

/-- The last byte of the held line, acknowledged: the next line is obtained at once. -/
theorem test_readByte :
    let t := after (.twoWireReadByte 0 true) (unitAt 0 (reading .DATA 0x07F false))
    t.ports[(0 : Port)].dataOut = 16 ∧ t.ports[(0 : Port)].pointer = 0x080 ∧
    t.ports[(0 : Port)].held = some ⟨0, 8, Line.zero, false⟩ ∧
    (after (.twoWireReadByte 0 false) (unitAt 0 (reading .DATA 0x07F false))).ports[(0 : Port)].stopped = true ∧
    (after (.twoWireReadByte 0 true) (unitAt 0 (reading .CUT 0x07F false))).ports[(0 : Port)].dataOut = 0xFF := by decide

/-- After a NACK a further byte finds SDA released and the pointer stays; a cut drives 0FFh whether the read had stopped or
not. -/
theorem test_readByte_stopped :
    let stop (ph : Phase) : State := unitAt 0 { reading ph 0x07F false with stopped := true, dataOut := 5 }
    let t := after (.twoWireReadByte 0 true) (stop .DATA)
    let u := after (.twoWireReadByte 0 true) (stop .CUT)
    t.ports[(0 : Port)].dataOut = 0xFF ∧ t.ports[(0 : Port)].pointer = 0x07F ∧
    u.ports[(0 : Port)].dataOut = 0xFF ∧ u.ports[(0 : Port)].pointer = 0x080 := by decide

/-- A held line that is not at the pointer; a fetch that is on its way, waits in the port unit, or is a cut transaction's;
the ATTENTION line; a pending hand-over. -/
theorem test_sclHeld :
    let s (u : PortUnit) : State :=
      (up.modPort 0 fun _ => u).modTranslator 0 fun t => { t with map := t.map.set 0 ⟨true, 9, .RW⟩ }
    let f (d : Bool) : Option StoreRequest := some (.fetch ⟨1, 0, 9, 0, d⟩)
    sclHeld (s { askingAt 0x100 with asking := false, outstanding := f false }) 0 = true ∧
    sclHeld (s { askingAt 0x100 with outstanding := some (.commit []) }) 0 = true ∧
    sclHeld (s { askingAt 0x100 with asking := false, outstanding := f true }) 0 = false ∧
    sclHeld (s (askingAt 0x020)) 0 = false ∧ sclHeld (s (askingAt 0x200)) 0 = false ∧
    sclHeld (s { askingAt 0x020 with handOver := some (.done 1) }) 0 = true ∧
    (after (.twoWireReadByte 0 true) (s { reading .DATA 0x100 false with outstanding := f false })).ports[(0 : Port)] =
      { reading .DATA 0x100 false with outstanding := f false } := by decide

/-- The places of the pointer: a plain line, ATTENTION, NOTICE, a disabled window, an enabled window. -/
theorem test_witness_obtain (a : ViewAddr) (h : a ∈ [0x050, 0x020, 0x040, 0xFF0, 0x100]) :
    let s := (unitAt 0 (askingAt a)).modTranslator 0 fun t => { t with map := t.map.set 0 ⟨true, 9, .RW⟩ }
    s.ports[(0 : Port)].asking = true ∧ s.ports[(0 : Port)].phase = .DATA ∧ s.ports[(0 : Port)].handOver = none ∧
      s.ports[(0 : Port)].outstanding = none ∧
      s.translators[(0 : Port)].translate a ∈ [.control 5 0, .control 2 0, .control 4 0, .disabled, .store 9 0 .RW] := by
  refine ⟨rfl, rfl, rfl, rfl, ?_⟩
  revert a
  decide

/-- A hand-over behind no request: each of its four forms, with and without a kept record. -/
theorem test_witness_makeHandOver (x : Option HandOver) (r : Option TxStatus) :
    let s := unitAt 0 { PortUnit.reset with handOver := x, keptVoid := r, replaced := 2 }
    s.ports[(0 : Port)].endedRead = none ∧ s.ports[(0 : Port)].outstanding = none ∧
      s.ports[(0 : Port)].handOver = x ∧ s.ports[(0 : Port)].keptVoid = r := ⟨rfl, rfl, rfl, rfl⟩

/-- The first byte after CS_N falls: 3Ah, 3Bh, 3Ch and another. -/
theorem test_opcode :
    let u : PortUnit := { PortUnit.reset with phase := .ADDRESS }
    (u.opcode 0x3A).dir = some .write ∧ (u.opcode 0x3B).dir = some .read ∧ (u.opcode 0x3C).dir = some .status ∧
    (u.opcode 0x3C).phase = .DATA ∧ (u.opcode 0x3D).phase = .VOIDED ∧ opcodeCommand 0x39 = .spiUnknownOpcode 0x39 := by
  decide

/-- An SPI transaction before its CS_N falls, and one that awaits its opcode. -/
theorem test_witness_spiOpcodes :
    (Settled spi up ∧ up.device.csLow = false) ∧
    (Settled spi (unitAt spi { PortUnit.reset with phase := .ADDRESS }) ∧
      (unitAt spi { PortUnit.reset with phase := .ADDRESS }).ports[spi].dir = none) :=
  ⟨⟨settled rfl rfl rfl rfl rfl (fun _ h => absurd h (show ¬ (none : Option HandOver) = _ by simp)), rfl⟩,
    settled_unit rfl (fun _ h => absurd h (by simp [PortUnit.reset])), rfl⟩

/-- A STATUS transaction, and one that was cut. -/
theorem test_witness_spiStatus (ph : Phase) (h : ph = .DATA ∨ ph = .CUT) :
    Settled spi (unitAt spi { PortUnit.reset with phase := ph, dir := some .status }) ∧
      (unitAt spi { PortUnit.reset with phase := ph, dir := some .status }).ports[spi].dir = some .status ∧
      ((unitAt spi { PortUnit.reset with phase := ph, dir := some .status }).ports[spi].phase = .DATA ∨
        (unitAt spi { PortUnit.reset with phase := ph, dir := some .status }).ports[spi].phase = .CUT) :=
  ⟨settled_unit rfl (fun _ h => absurd h (by simp [PortUnit.reset])), rfl, h⟩

/-- Attention, a record of outcome OK, a notice and a waiting hold. -/
theorem test_spiStatus :
    let u := unitAt spi { PortUnit.reset with phase := .DATA, dir := some .status }
    let s := withSource spi 2 .PENDING 3 (withSlot (3, 1) (waiting 0 1)
      (u.setNotice { u.notice with queues := u.notice.queues.set 3 (queueOf 1) }))
    (after .spiStatus s).ports[spi].dataOut = 0b11101 := by decide

/-- The slots of an SPI READ: no line yet, READY, the first byte of the line, a fetch issued, the end of the view. -/
theorem test_spiReadSlot :
    let t (u : PortUnit) := (after .spiReadSlot (unitAt spi u)).ports[spi]
    let r := reading .DATA 0x070 false
    (t { r with held := none }).dataOut = 0xA5 ∧ (t r).dataOut = 0xA5 ∧
    (t { r with held := some ⟨0, 7, vecOf 16 fun i => byteN (i + 1), true⟩ }).dataOut = 1 ∧
    (t { r with held := none, handOver := some (.done 1) }).dataOut = 0 ∧ (t { r with endOfView := true }).dataOut = 0xFF ∧
    (t { r with phase := .CUT }).dataOut = 0xFF ∧ (t { r with phase := .CUT }).pointer = 0x071 := by
  decide

theorem test_witness_transactionEnd (ph : Phase) (d : Option TxDir) (k : TxKind) (es : List Entry) (x : Option HandOver)
    (h : ∀ es, x ≠ some (.command es)) (o : Option StoreRequest) (e : Option (Option FaultNote)) (p : Port) :
    Settled p (unitAt p { PortUnit.reset with
      phase := ph, dir := d, kind := k, staging := es, handOver := x, outstanding := o, endedRead := e }) :=
  settled_unit rfl h

/-- A store write issues its commit, and a control write for line 0 becomes the command unit's. -/
theorem test_transactionEnd :
    let w (k : TxKind) (es : List Entry) : PortUnit := { PortUnit.reset with phase := .DATA, dir := some .write, kind := k, staging := es }
    let t := after (.transactionEnd 0) (unitAt 0 (w .STORE_WRITE [⟨9, 0, 7⟩]))
    let u := after (.transactionEnd 0) (unitAt 0 (w .CONTROL_WRITE [⟨0, 0, 7⟩]))
    let v := after (.transactionEnd 0) (unitAt 0 (w .CONTROL_WRITE [⟨3, 0, 7⟩]))
    t.ports[(0 : Port)].outstanding = some (.commit [⟨9, 0, 7⟩]) ∧ t.arbiter.inService = some 0 ∧
    t.cmds[(0 : Port)].txStatus = ⟨.STORE_WRITE, .PENDING, .none, 0, 0, 1, 0⟩ ∧
    u.ports[(0 : Port)].handOver = some (.command [⟨0, 0, 7⟩]) ∧ v.attn[(0 : Port)].doneDue = 1 := by decide

/-! ## Invariants -/

/-- A step from a state that meets every invariant's hypothesis. -/
theorem test_witness_invariants :
    let s := (unitAt 0 (reading .DATA 0x070 false)).setPending [.twoWireReadByte 0 true]
    Memory.wf s.store.bytes = true ∧ DamagedOk s.store ∧ CopyOk s.copy ∧ ∃ t, step s = .next t :=
  ⟨rfl, ⟨by decide, by decide⟩, ⟨by decide, by decide, by decide⟩, _, rfl⟩

theorem test_witness_staging : ∀ p : Port, StagingOk up.ports[p] := by
  intro p
  have e : up.ports[p] = PortUnit.reset := by revert p; decide
  rw [e]
  constructor <;> simp [PortUnit.reset]

theorem test_witness_notices : NoticesOk ({ up.notice with queues := up.notice.queues.set 2 (queueOf 1) }) := by
  intro p
  fin_cases p <;> exact ⟨by decide, by decide, by decide⟩

end Sys2Proof.Tests
end

