-- ==== Sys2Proof/Proofs/PageInfoDamageQuery.lean ====
section
/-! PAGE_INFO (R32, R33) and DAMAGE_QUERY (R15): the answer that each owner computes, case by case, and the command as a
taken claim with that answer. -/

namespace Sys2Proof.Machine

open Sys2Proof.Safety

/-! ## The holder of a page -/

/-- The hold table's GRANTED slot covering a page, where the table has just one. -/
theorem holder_eq_some {h : HoldCtl} {pg : Page} {r : SlotRef} (granted : (h.slot r).state = .GRANTED)
    (covers : (h.slot r).covers pg = true)
    (only : ∀ r', (h.slot r').state = .GRANTED → (h.slot r').covers pg = true → r' = r) : h.holder pg = some r := by
  cases e : h.holder pg with
  | none =>
    have none_covers := List.find?_eq_none.1 e r (mem_allRefs r)
    simp [granted, covers] at none_covers
  | some r' =>
    have found := List.find?_some e
    simp only [Bool.and_eq_true, beq_iff_eq] at found
    obtain ⟨granted', covers'⟩ := found
    rw [only r' granted' covers']

theorem holder_eq_none {h : HoldCtl} {pg : Page}
    (free : ∀ r, (h.slot r).state = .GRANTED → (h.slot r).covers pg = false) : h.holder pg = none := by
  refine List.find?_eq_none.2 fun r _ => ?_
  simpa using free r

/-! ## PAGE_INFO -/

/-- The last three bytes of PAGE_INFO's detail: holder, slot and mode, or "none" three times (R32). -/
def HoldCtl.holderReport (h : HoldCtl) : Option SlotRef → List Byte
  | some r => [byteN r.1.val, byteN r.2.val, (h.slot r).mode.code]
  | none => [0xFF, 0xFF, 0xFF]

theorem pageInfo_refused {n : Nat} (hn : 127 < n) (st : StoreCtl) (u : NoticeUnit) (h : HoldCtl) :
    pageInfo n st u h = (.BAD_ARGUMENT, []) := if_pos hn

theorem pageInfo_page (pg : Page) (st : StoreCtl) (u : NoticeUnit) (h : HoldCtl) :
    pageInfo pg.val st u h = (.OK, [byteN pg.val, st.pages[pg].policy.code, byteN st.pages[pg].owner.val,
      u.watch[pg].setWidth 8, st.pages[pg].version.setWidth 8, (st.pages[pg].version >>> 8).setWidth 8] ++
        h.holderReport (h.holder pg)) := by
  have same : pageOf pg.val = pg := Fin.ext (pageOf_val pg.isLt)
  have inside : ¬ 127 < pg.val := by omega
  unfold pageInfo
  rw [if_neg inside]
  simp only [same]
  cases h.holder pg <;> rfl

theorem runDue_pageInfo (p : Port) (s : State) : s.runDue (.claim p cPAGE_INFO) =
    s.takeOwned p cPAGE_INFO fun c t => (t, pageInfo (c.arg 1).toNat t.store t.notice t.holds) := rfl

/-- Taking PAGE_INFO leaves the answer and nothing else. -/
theorem exec_pageInfo_taken {p : Port} {c : Claim} {rest : List Claim} {s : State} (h : Takes p cPAGE_INFO c rest s) :
    exec (.pageInfo p) s =
      .next (answered c rest (pageInfo (c.arg 1).toNat s.store s.notice s.holds) s).arbitrate :=
  congrArg Host.Outcome.next (takes_free h (runDue_pageInfo p))

/-! ## DAMAGE_QUERY -/

theorem damageQuery_refused {i : Nat} (hi : 7 < i) (st : StoreCtl) : st.damageQuery i = (.BAD_ARGUMENT, []) := if_pos hi

/-- The answer for an index to 7, `entry` being the listed line's number or the "no line" value. -/
theorem damageQuery_index {i : Nat} (hi : i ≤ 7) {st : StoreCtl} {entry : Half}
    (listed : ∀ l, st.damaged[i]? = some l → entry = BitVec.ofNat 16 l.val)
    (unlisted : st.damaged.length ≤ i → entry = 0x0FFF) :
    st.damageQuery i = (.OK, [entry.setWidth 8, (entry >>> 8).setWidth 8, byteN st.damaged.length,
      if st.overflow = true then 1 else 0, st.corrected.setWidth 8, (st.corrected >>> 8).setWidth 8]) := by
  rw [StoreCtl.damageQuery, if_neg (by omega)]
  cases e : st.damaged[i]? with
  | some l =>
    rw [listed l e]
    rfl
  | none =>
    rw [unlisted (List.getElem?_eq_none_iff.1 e)]
    rfl

theorem runDue_damageQuery (p : Port) (s : State) : s.runDue (.claim p cDAMAGE_QUERY) =
    s.takeOwned p cDAMAGE_QUERY fun c t => (t, t.store.damageQuery (c.arg 1).toNat) := rfl

/-- Taking DAMAGE_QUERY leaves the answer and nothing else. -/
theorem exec_damageQuery_taken {p : Port} {c : Claim} {rest : List Claim} {s : State}
    (h : Takes p cDAMAGE_QUERY c rest s) :
    exec (.damageQuery p) s = .next (answered c rest (s.store.damageQuery (c.arg 1).toNat) s).arbitrate :=
  congrArg Host.Outcome.next (takes_free h (runDue_damageQuery p))

/-! ## The statement -/

/-- Settles O34: each command is a taken claim, and its answer is the owner's, case by case. -/
theorem pageInfoAndDamageQueryReport : Obligations.PageInfoAndDamageQueryReport := by
  unfold Obligations.PageInfoAndDamageQueryReport
  refine ⟨fun p c rest s h => ?pageInfo, fun p c rest s h => ?damageQuery⟩
  case pageInfo =>
    rw [exec_pageInfo_taken h]
    refine ⟨fun above => by rw [pageInfo_refused above], fun pg hpg => ?_⟩
    rw [hpg, pageInfo_page, eq_byteN hpg]
    refine ⟨fun r granted covers only => ?_, fun free => ?_⟩
    · rw [holder_eq_some granted covers only]
      rfl
    · rw [holder_eq_none free]
      rfl
  case damageQuery =>
    rw [exec_damageQuery_taken h]
    exact ⟨fun above => by rw [damageQuery_refused above],
      fun below entry listed unlisted => by rw [damageQuery_index below listed unlisted]⟩

end Sys2Proof.Machine
end

