-- ==== Sys2Proof/Proofs/NoticePostings.lean ====
section
/-! Postings (R77 to R81): what a page entry does at one queue, what it does at one port and so at the ports of any list,
and the pages of a commit's posting. -/

namespace Sys2Proof.Machine

/-! ## A page entry at a queue -/

theorem NoticeQueue.has_iff {q : NoticeQueue} {pg : Page} : q.has pg = true ↔ ∃ n ∈ q.records, n.page = pg := by
  simp [NoticeQueue.has]

theorem NoticeQueue.has_eq_false {q : NoticeQueue} {pg : Page} : q.has pg = false ↔ ∀ n ∈ q.records, n.page ≠ pg := by
  simp [NoticeQueue.has]

/-- A record of the page takes the write in (R78). -/
theorem post_merged {w : PageWrite} {q : NoticeQueue} (h : ∃ n ∈ q.records, n.page = w.page) :
    q.post w = ({ q with records := q.records.map fun n => if n.page = w.page then n.merge w else n }, none) :=
  if_pos (NoticeQueue.has_iff.2 h)

/-- Without a record of the page, and with room, the write appends one (R79). -/
theorem post_appended {w : PageWrite} {q : NoticeQueue} (h : ∀ n ∈ q.records, n.page ≠ w.page)
    (room : q.records.length < 16) :
    q.post w = ({ q with records := q.records ++ [Notice.fresh w] }, some sNOTICE_NEW) := by
  rw [NoticeQueue.post, NoticeQueue.has_eq_false.2 h, if_neg Bool.false_ne_true]
  exact if_pos room

/-- Without a record of the page, and without room, the write is dropped (R80). -/
theorem post_dropped {w : PageWrite} {q : NoticeQueue} (h : ∀ n ∈ q.records, n.page ≠ w.page)
    (full : 16 ≤ q.records.length) :
    q.post w = ({ q with lost := satInc q.lost, lastLost := w.page }, some sNOTICE_LOST) := by
  rw [NoticeQueue.post, NoticeQueue.has_eq_false.2 h, if_neg Bool.false_ne_true]
  exact if_neg (Nat.not_lt.2 full)

theorem minByte_eq (a b : Byte) : minByte a b = if b < a then b else a := by
  rw [minByte]
  by_cases h : b < a
  · rw [if_pos h, if_neg (BitVec.not_le.2 h)]
  · rw [if_neg h, if_pos (BitVec.not_lt.1 h)]

theorem maxByte_eq (a b : Byte) : maxByte a b = if a < b then b else a := by
  rw [maxByte]
  by_cases h : a < b
  · rw [if_pos h, if_pos (BitVec.le_of_lt h)]
  · rw [if_neg h]
    by_cases e : a ≤ b
    · rw [if_pos e, BitVec.le_antisymm e (BitVec.not_lt.1 h)]
    · rw [if_neg e]

/-- The fields of a merged record, the saturating merge count in numbers. -/
theorem merge_eq (w : PageWrite) (n : Notice) : n.merge w =
    { n with
      writer := if n.writer = .port w.writer then n.writer else .MULTIPLE
      firstOff := if w.firstOff < n.firstOff then w.firstOff else n.firstOff
      lastOff := if n.lastOff < w.lastOff then w.lastOff else n.lastOff
      version := w.version
      merges := if n.merges = 15 then 15 else n.merges + 1 } := by
  have merges : satInc n.merges = if n.merges = 15 then 15 else n.merges + 1 := by
    by_cases h : n.merges = 15
    · rw [if_pos h, h]
      rfl
    · rw [if_neg h]
      exact if_neg h
  rw [Notice.merge, minByte_eq, maxByte_eq, merges]

theorem satInc_byte (x : Byte) : satInc x = if x = 255 then 255 else x + 1 := by
  by_cases h : x = 255
  · rw [if_pos h, h]
    rfl
  · rw [if_neg h]
    exact if_neg h

/-! ## A page entry at the ports -/

/-- The entry reaches port `p`: a watcher of the page, and not the writer (R77). -/
def NoticeUnit.reaches (w : PageWrite) (n : NoticeUnit) (p : Port) : Bool :=
  PortSet.has n.watch[w.page] p && p != w.writer

/-- What the entry makes of port `p`'s queue. -/
def NoticeUnit.queueAfter (w : PageWrite) (n : NoticeUnit) (p : Port) : NoticeQueue :=
  if n.reaches w p then (n.queues[p].post w).1 else n.queues[p]

/-- The events that the entry raises at port `p`: one at most. -/
def NoticeUnit.eventsAt (w : PageWrite) (n : NoticeUnit) (p : Port) : List Event :=
  if n.reaches w p then (n.queues[p].post w).2.toList.map fun i => ⟨p, i, .page w.page⟩ else []

theorem reaches_of_watches {w : PageWrite} {n : NoticeUnit} {p : Port} (watches : PortSet.has n.watch[w.page] p = true)
    (other : p ≠ w.writer) : n.reaches w p = true := by
  rw [NoticeUnit.reaches, watches, bne_iff_ne.2 other]
  rfl

theorem reaches_eq_false {w : PageWrite} {n : NoticeUnit} {p : Port}
    (h : PortSet.has n.watch[w.page] p = false ∨ p = w.writer) : n.reaches w p = false := by
  rcases h with out | writes
  · rw [NoticeUnit.reaches, out, Bool.false_and]
  · rw [NoticeUnit.reaches, writes, bne_self_eq_false, Bool.and_false]

theorem eventsAt_port {w : PageWrite} {n : NoticeUnit} {p : Port} {e : Event} (h : e ∈ n.eventsAt w p) : e.port = p := by
  unfold NoticeUnit.eventsAt at h
  split at h
  · obtain ⟨i, -, rfl⟩ := List.mem_map.1 h
    rfl
  · exact absurd h List.not_mem_nil

/-- The notice unit once the entry has been taken to port `p`. -/
def NoticeUnit.postedTo (w : PageWrite) (n : NoticeUnit) (p : Port) : NoticeUnit :=
  { n with queues := n.queues.set p (n.queueAfter w p) }

theorem postPort_eq (w : PageWrite) (n : NoticeUnit) (es : List Event) (p : Port) :
    NoticeUnit.postPort w (n, es) p = (n.postedTo w p, es ++ n.eventsAt w p) := by
  unfold NoticeUnit.postPort NoticeUnit.postedTo NoticeUnit.queueAfter NoticeUnit.eventsAt
  by_cases h : n.reaches w p = true
  · rw [if_pos h, if_pos h]
    exact if_pos h
  · rw [if_neg h, if_neg h, List.append_nil]
    have same : n.queues.set p n.queues[p] = n.queues := upd_id n.queues p
    rw [same]
    exact if_neg h

theorem postedTo_queue_self (w : PageWrite) (n : NoticeUnit) (p : Port) :
    (n.postedTo w p).queues[p] = n.queueAfter w p := upd_self n.queues p fun _ => n.queueAfter w p

theorem postedTo_queue_other (w : PageWrite) (n : NoticeUnit) {a p : Port} (h : a ≠ p) :
    (n.postedTo w a).queues[p] = n.queues[p] := upd_other n.queues (fun _ => n.queueAfter w a) h

/-- What the entry does at one port does not depend on its having been taken to another. -/
theorem queueAfter_postedTo (w : PageWrite) (n : NoticeUnit) {a p : Port} (h : a ≠ p) :
    (n.postedTo w a).queueAfter w p = n.queueAfter w p := by
  rw [NoticeUnit.queueAfter, postedTo_queue_other w n h]
  rfl

theorem eventsAt_postedTo (w : PageWrite) (n : NoticeUnit) {a p : Port} (h : a ≠ p) :
    (n.postedTo w a).eventsAt w p = n.eventsAt w p := by
  rw [NoticeUnit.eventsAt, postedTo_queue_other w n h]
  rfl

/-- The entry taken to ports in turn, each once: each port sees its own queue as it was, and no watch set changes. -/
theorem foldl_postPort (w : PageWrite) (ps : List Port) (once : ps.Nodup) (n : NoticeUnit) (es : List Event) :
    (ps.foldl (NoticeUnit.postPort w) (n, es)).1.watch = n.watch ∧
    (∀ p : Port, (ps.foldl (NoticeUnit.postPort w) (n, es)).1.queues[p] =
      if p ∈ ps then n.queueAfter w p else n.queues[p]) ∧
    (ps.foldl (NoticeUnit.postPort w) (n, es)).2 = es ++ ps.flatMap (n.eventsAt w) := by
  induction ps generalizing n es with
  | nil => exact ⟨rfl, fun _ => rfl, (List.append_nil es).symm⟩
  | cons a ps ih =>
    obtain ⟨fresh, once⟩ := List.nodup_cons.1 once
    have apart (p : Port) (hp : p ∈ ps) : a ≠ p := (ne_of_mem_of_not_mem hp fresh).symm
    obtain ⟨watch, queues, events⟩ := ih once (n.postedTo w a) (es ++ n.eventsAt w a)
    rw [List.foldl_cons, postPort_eq]
    refine ⟨watch, fun p => ?_, ?_⟩
    · rw [queues]
      by_cases hp : p ∈ ps
      · rw [if_pos hp, if_pos (List.mem_cons_of_mem _ hp), queueAfter_postedTo w n (apart p hp)]
      · rw [if_neg hp]
        by_cases e : p = a
        · rw [e, if_pos List.mem_cons_self, postedTo_queue_self]
        · rw [if_neg (List.not_mem_cons_of_ne_of_not_mem e hp), postedTo_queue_other w n (Ne.symm e)]
    · have sameEvents : ps.flatMap ((n.postedTo w a).eventsAt w) = ps.flatMap (n.eventsAt w) :=
        List.flatMap_congr fun p hp => eventsAt_postedTo w n (apart p hp)
      rw [events, sameEvents, List.flatMap_cons, List.append_assoc]

theorem postPage_watch (w : PageWrite) (n : NoticeUnit) : (NoticeUnit.postPage (n, []) w).1.watch = n.watch :=
  (foldl_postPort w allPorts (by decide) n []).1

theorem postPage_queue (w : PageWrite) (n : NoticeUnit) (p : Port) :
    (NoticeUnit.postPage (n, []) w).1.queues[p] = n.queueAfter w p := by
  obtain ⟨-, queues, -⟩ := foldl_postPort w allPorts (by decide) n []
  exact (queues p).trans (if_pos (mem_allPorts p))

theorem postPage_events (w : PageWrite) (n : NoticeUnit) :
    (NoticeUnit.postPage (n, []) w).2 = allPorts.flatMap (n.eventsAt w) := by
  obtain ⟨-, -, events⟩ := foldl_postPort w allPorts (by decide) n []
  exact events

/-- Of the events of a page entry, those of one port are the ones that it raises there. -/
theorem filter_postPage_events (w : PageWrite) (n : NoticeUnit) (p : Port) :
    (NoticeUnit.postPage (n, []) w).2.filter (fun e => decide (e.port = p)) = n.eventsAt w p := by
  have one (q : Port) : (n.eventsAt w q).filter (fun e => decide (e.port = p)) = if q = p then n.eventsAt w p else [] := by
    by_cases h : q = p
    · rw [if_pos h, h]
      exact List.filter_eq_self.2 fun e he => decide_eq_true (eventsAt_port he)
    · rw [if_neg h]
      exact List.filter_eq_nil_iff.2 fun e he => by simpa [eventsAt_port he] using h
  rw [postPage_events, List.filter_flatMap, funext one]
  fin_cases p <;> simp [allPorts]

/-! ## The posting of a commit -/

theorem serveCommit_posting (sup : Port) (h : HoldCtl) (q : Port) (es : List Entry) (reads : List ReadOutcome)
    (st : StoreCtl) : (st.serveCommit sup h q es reads).2.posting = [] ∨
      ∃ pages, (st.serveCommit sup h q es reads).2.posting = (touchedPages es).map (pageWrite q es pages) := by
  unfold StoreCtl.serveCommit
  dsimp only
  split
  · exact .inl rfl
  · exact .inr ⟨_, rfl⟩

theorem posting_ascends (sup : Port) (h : HoldCtl) (q : Port) (es : List Entry) (reads : List ReadOutcome) (st : StoreCtl) :
    ((st.serveCommit sup h q es reads).2.posting.map PageWrite.page).Pairwise (· < ·) := by
  rcases serveCommit_posting sup h q es reads st with refused | ⟨pages, applied⟩
  · rw [refused]
    exact List.Pairwise.nil
  · have pagesOf : ((touchedPages es).map (pageWrite q es pages)).map PageWrite.page = touchedPages es := by
      rw [List.map_map]
      exact List.map_id _
    rw [applied, pagesOf]
    exact touchedPages_sorted es

/-! ## The statement -/

/-- Settles O13: a page entry's effect is that of the fold over the ports, port by port; a posting is the fold over its
entries. -/
theorem postingReachesTheWatchers : Obligations.PostingReachesTheWatchers := by
  unfold Obligations.PostingReachesTheWatchers
  refine ⟨fun w q => ⟨fun listed => ?merged, fun unlisted room => post_appended unlisted room,
    fun unlisted full => ?dropped⟩, fun w n m es page => ?page, fun n => rfl,
    fun w ws n m k es fs page rest => ?posting, posting_ascends⟩
  case merged =>
    rw [post_merged listed]
    simp only [merge_eq]
  case dropped => rw [post_dropped unlisted full, satInc_byte]
  case page =>
    obtain ⟨rfl, rfl⟩ : (NoticeUnit.postPage (n, []) w).1 = m ∧ (NoticeUnit.postPage (n, []) w).2 = es := by simp [page]
    refine ⟨postPage_watch w n, fun p watches other => ?_, fun p passed => ?_⟩
    · have reached := reaches_of_watches watches other
      rw [postPage_queue, filter_postPage_events, NoticeUnit.queueAfter, NoticeUnit.eventsAt, if_pos reached, if_pos reached]
      refine ⟨rfl, ?_⟩
      cases (n.queues[p].post w).2 <;> rfl
    · have missed : ¬ n.reaches w p = true := by rw [reaches_eq_false passed]; decide
      refine ⟨by rw [postPage_queue, NoticeUnit.queueAfter, if_neg missed], fun e he at_p => ?_⟩
      have raised : e ∈ n.eventsAt w p := by
        rw [← filter_postPage_events]
        exact List.mem_filter.2 ⟨he, decide_eq_true at_p⟩
      rw [NoticeUnit.eventsAt, if_neg missed] at raised
      exact List.not_mem_nil raised
  case posting => rw [post_cons, page, rest]

end Sys2Proof.Machine
end

