-- ==== Sys2Proof/Proofs/NoticePop.lean ====
section
/-! POP (R82, R83): the command makes the port obtain the NOTICE line, and obtaining it pops the queue. -/

namespace Sys2Proof.Machine

open Sys2Proof.Safety

/-! ## Obtaining a line that is needed now -/

/-- What an SPI port that needs its line has in common with a two-wire port that is obtaining it. -/
theorem needsLine_obtains {u : PortUnit} (h : u.needsLine = true) : u.phase = .DATA ∧ u.handOver = none := by
  simp only [PortUnit.needsLine, Bool.and_eq_true, beq_iff_eq, Option.isNone_iff_eq_none] at h
  obtain ⟨⟨⟨⟨⟨⟨data, -⟩, -⟩, -⟩, free⟩, -⟩, -⟩ := h
  exact ⟨data, free⟩

theorem needsLineNow_obtains {p : Port} {s : State} (h : NeedsLineNow p s) :
    s.ports[p].phase = .DATA ∧ s.ports[p].handOver = none := by
  rcases h with ⟨-, data, free⟩ | ⟨-, needs⟩
  · exact ⟨data, free⟩
  · exact needsLine_obtains needs

theorem obtaining_of {u : PortUnit} (asks : u.asking = true) (data : u.phase = .DATA) (free : u.handOver = none) :
    u.obtaining = true := by
  simp [PortUnit.obtaining, asks, data, free]

theorem obtaining_ask {p : Port} {s : State} (h : NeedsLineNow p s) : (s.ports[p].ask).obtaining = true := by
  obtain ⟨data, free⟩ := needsLineNow_obtains h
  exact obtaining_of rfl data free

theorem obtainsLine_of {p : Port} {ln : Fin 16} {s : State} (window : windowOf s.ports[p].pointer = 0)
    (line : lineOf s.ports[p].pointer = ln) (h : NeedsLineNow p s) : s.obtainsLine p ln = true := by
  have now : (s.ports[p].obtaining || (p == spi && s.ports[p].needsLine)) = true := by
    rcases h with ⟨asks, data, free⟩ | ⟨isSpi, needs⟩
    · rw [obtaining_of asks data free, Bool.true_or]
    · rw [beq_iff_eq.2 isSpi, needs, Bool.or_eq_true]
      exact .inr rfl
  unfold State.obtainsLine
  simp only [window, line, now, beq_self_eq_true, Bool.and_self]

/-- With the pointer at the NOTICE line, what the port obtains is that line. -/
theorem obtain_notice {p : Port} {s : State} (window : windowOf s.ports[p].pointer = 0)
    (line : lineOf s.ports[p].pointer = 4) (obtaining : s.ports[p].obtaining = true) :
    s.obtain true p = s.obtainNotice p := by
  unfold State.obtain
  dsimp only
  rw [if_pos obtaining, Translator.translate, if_pos window, line]
  rfl

/-- Asking for the NOTICE line before popping is not seen in what the pop leaves: the line is then held. -/
theorem obtainNotice_ask (p : Port) (s : State) : (s.modPort p PortUnit.ask).obtainNotice p = s.obtainNotice p :=
  modPort_modPort p PortUnit.ask (PortUnit.holdLine 0 4 (s.notice.pop p).2) (s.setNotice (s.notice.pop p).1)

theorem exec_noticePop {p : Port} {s : State} (running : s.running = true) (window : windowOf s.ports[p].pointer = 0)
    (line : lineOf s.ports[p].pointer = 4) (h : NeedsLineNow p s) :
    exec (.noticePop p) s = .next (s.obtainNotice p) := by
  have asks : (s.modPort p PortUnit.ask).ports[p] = s.ports[p].ask := upd_self _ _ _
  have obtained : s.obtainNow p = s.obtainNotice p := by
    rw [State.obtainNow, obtain_notice (by rw [asks]; exact window) (by rw [asks]; exact line)
      (by rw [asks]; exact obtaining_ask h), obtainNotice_ask]
  show Host.Outcome.next _ = _
  rw [whenRunning_of running, if_pos (obtainsLine_of window line h), obtained]

/-! ## The pop -/

theorem pop_record {q : NoticeQueue} {n : Notice} {rs : List Notice} (h : q.records = n :: rs) :
    q.pop = (⟨rs, 0, 0⟩, recordLine n q rs.length) := by
  rw [NoticeQueue.pop, h]

theorem pop_empty {q : NoticeQueue} (h : q.records = []) : q.pop = (⟨[], 0, 0⟩, emptyLine q) := by
  rw [NoticeQueue.pop, h]

/-- A pop of the port's queue leaves the queue `q` and answers the line `l`, which the port then holds. -/
theorem obtainNotice_of_pop {p : Port} {s : State} {q : NoticeQueue} {l : Line}
    (h : s.notice.queues[p].pop = (q, l)) :
    s.obtainNotice p = (s.setNotice { s.notice with queues := s.notice.queues.set p q }).modPort p fun u =>
      { u with held := some ⟨0, 4, l, false⟩, asking := false } := by
  have popped : s.notice.pop p = ({ s.notice with queues := s.notice.queues.set p q }, l) := by
    rw [NoticeUnit.pop, h]
  rw [State.obtainNotice, popped]
  rfl

/-! ## The statement -/

/-- Settles O14: the command is the obtaining of the NOTICE line, with a record and without one. -/
theorem popAnswersTheNoticeLine : Obligations.PopAnswersTheNoticeLine := by
  unfold Obligations.PopAnswersTheNoticeLine
  intro p s running window line needs
  rw [exec_noticePop running window line needs]
  refine ⟨fun n rs oldest => ?record, fun empty => ?empty⟩
  case record =>
    rw [obtainNotice_of_pop (pop_record oldest)]
    rfl
  case empty =>
    rw [obtainNotice_of_pop (pop_empty empty)]
    rfl

end Sys2Proof.Machine
end

