-- ==== Sys2Proof/Proofs/WatchCommand.lean ====
section
/-! WATCH (R74): the answers of its tests, and what joining or leaving does to the watch sets of the range. -/

namespace Sys2Proof.Machine

open Sys2Proof.Safety

/-! ## The watch sets of a range -/

theorem modRange_watch (first count : Nat) (f : PortSet → PortSet) (n : NoticeUnit) (pg : Page) :
    (n.modRange first count f).watch[pg] = if inRange first count pg then f n.watch[pg] else n.watch[pg] := by
  simp [NoticeUnit.modRange]

theorem modRange_queues (first count : Nat) (f : PortSet → PortSet) (n : NoticeUnit) :
    (n.modRange first count f).queues = n.queues := by
  rw [NoticeUnit.modRange]

/-- A port joins a watch set or leaves it. -/
def PortSet.put (join : Bool) (p : Port) (w : PortSet) : PortSet := if join then PortSet.add w p else PortSet.remove w p

theorem PortSet.has_put (join : Bool) (p : Port) (w : PortSet) (q : Port) :
    PortSet.has (PortSet.put join p w) q = if q = p then join else PortSet.has w q := by
  revert join p w q
  decide

theorem PortSet.put_ne_iff (join : Bool) (p : Port) (w : PortSet) :
    PortSet.put join p w ≠ w ↔ PortSet.has w p ≠ join := by
  revert join p w
  decide

theorem has_modRange_put (first count : Nat) (join : Bool) (p : Port) (n : NoticeUnit) (pg : Page) (q : Port) :
    PortSet.has (n.modRange first count (PortSet.put join p)).watch[pg] q =
      if inRange first count pg = true ∧ q = p then join else PortSet.has n.watch[pg] q := by
  rw [modRange_watch]
  by_cases h : inRange first count pg = true
  · simp only [h, if_true, true_and, PortSet.has_put]
  · simp only [h, Bool.false_eq_true, if_false, false_and]

/-! ## The pages changed -/

theorem rangePages_nodup {first count : Nat} (h : first + count ≤ 128) : (rangePages first count).Nodup := by
  refine List.Nodup.map_on (fun i hi j hj e => ?_) List.nodup_range
  rw [List.mem_range] at hi hj
  have values := congrArg Fin.val e
  rw [pageOf_val (by omega), pageOf_val (by omega)] at values
  omega

/-- WATCH counts the pages of the range at which the port was not yet what it becomes: those are the pages, of all, whose
watch set has changed. -/
theorem changed_eq {first count : Nat} (h : first + count ≤ 128) (join : Bool) (p : Port) (n : NoticeUnit) :
    ((rangePages first count).filter fun pg => PortSet.has n.watch[pg] p != join).length =
      (allPages.filter fun pg => (n.modRange first count (PortSet.put join p)).watch[pg] != n.watch[pg]).length := by
  refine List.Perm.length_eq ((List.perm_ext_iff_of_nodup ((rangePages_nodup h).filter _)
    ((List.nodup_finRange 128).filter _)).2 fun pg => ?_)
  rw [List.mem_filter, List.mem_filter, mem_rangePages h, modRange_watch]
  by_cases inside : inRange first count pg = true
  · simp only [inside, true_and, if_true, bne_iff_ne, PortSet.put_ne_iff, List.mem_finRange]
  · simp [inside]

/-! ## The tests of WATCH -/

theorem flagOf_none {b : Byte} (h : 1 < b.toNat) : flagOf b = none := by
  have zero : b ≠ 0 := by rintro rfl; exact absurd h (by decide)
  have one : b ≠ 1 := by rintro rfl; exact absurd h (by decide)
  rw [flagOf, if_neg zero, if_neg one]

/-- A defined action as a flag: 1 joins, 0 leaves. -/
theorem flagOf_some {b : Byte} (h : b = 0 ∨ b = 1) : flagOf b = some (decide (b = 1)) := by
  rcases h with rfl | rfl <;> rfl

section
variable {pages : Vector PageEntry 128} {p : Port} {first count : Nat} {action : Byte} {n : NoticeUnit}

/-- Every page of the range is one that port `p` may read. -/
def AllReadable (pages : Vector PageEntry 128) (p : Port) (first count : Nat) : Prop :=
  ∀ pg, inRange first count pg = true → pages[pg].readable p = true

theorem any_unreadable_iff (last : first + count ≤ 128) :
    ((rangePages first count).any fun pg => !pages[pg].readable p) = true ↔ ¬ AllReadable pages p first count := by
  simp [AllReadable, mem_rangePages last]

theorem takeWatch_badRange (h : ¬ (1 ≤ count ∧ first + count ≤ 128)) :
    n.takeWatch pages p first count action = (n, .BAD_ARGUMENT, []) :=
  if_pos (badRange_true fun ⟨least, _, last⟩ => h ⟨least, last⟩)

theorem takeWatch_badAction (h : 1 < action.toNat) : n.takeWatch pages p first count action = (n, .BAD_ARGUMENT, []) := by
  rw [NoticeUnit.takeWatch, flagOf_none h]
  exact ite_self _

theorem takeWatch_unreadable (least : 1 ≤ count) (last : first + count ≤ 128) (joins : action = 1)
    (unreadable : ¬ AllReadable pages p first count) :
    n.takeWatch pages p first count action = (n, .POLICY, []) := by
  rw [NoticeUnit.takeWatch, badRange_false least (by omega) last, if_neg Bool.false_ne_true, flagOf_some (.inr joins)]
  refine if_pos ?_
  rw [(any_unreadable_iff last).2 unreadable, joins]
  rfl

theorem takeWatch_passes (least : 1 ≤ count) (last : first + count ≤ 128)
    (h : action = 0 ∨ (action = 1 ∧ AllReadable pages p first count)) :
    n.takeWatch pages p first count action = (n.modRange first count (PortSet.put (decide (action = 1)) p), .OK,
      [byteN first, byteN count, action, byteN (allPages.filter fun pg =>
        (n.modRange first count (PortSet.put (decide (action = 1)) p)).watch[pg] != n.watch[pg]).length]) := by
  rw [NoticeUnit.takeWatch, badRange_false least (by omega) last, if_neg Bool.false_ne_true,
    flagOf_some (h.imp id And.left), ← changed_eq last]
  refine if_neg fun refused => ?_
  obtain ⟨joins, unreadable⟩ := Bool.and_eq_true_iff.1 refused
  rcases h with leaves | ⟨-, readable⟩
  · rw [leaves] at joins
    exact absurd joins (by decide)
  · exact (any_unreadable_iff last).1 unreadable readable

end

/-! ## The statement -/

/-- Taking WATCH leaves the notice unit's change and the answer. -/
theorem exec_watch_taken {p : Port} {c : Claim} {rest : List Claim} {s : State} (h : Waits p cWATCH c rest s)
    {n : NoticeUnit} {a : Answer}
    (taken : s.notice.takeWatch s.store.pages p (c.arg 1).toNat (c.arg 2).toNat (c.arg 3) = (n, a)) :
    exec (.watch p) s = .next (answered c rest a (s.setNotice n)) := by
  refine congrArg Host.Outcome.next ((waits_taken h _).trans ?_)
  dsimp only
  rw [setClaims_notice, setClaims_store, taken]
  rfl

/-- A WATCH refused leaves the notice unit as it is. -/
theorem exec_watch_refused {p : Port} {c : Claim} {rest : List Claim} {s : State} (h : Waits p cWATCH c rest s) {a : Answer}
    (taken : s.notice.takeWatch s.store.pages p (c.arg 1).toNat (c.arg 2).toNat (c.arg 3) = (s.notice, a)) :
    exec (.watch p) s = .next (answered c rest a s) := exec_watch_taken h taken

/-- Settles O15: the command is a taken claim, and the notice unit's answer and change are given test by test. -/
theorem watchJoinsOrLeaves : Obligations.WatchJoinsOrLeaves := by
  unfold Obligations.WatchJoinsOrLeaves
  intro p c rest s h
  refine ⟨fun bad => ?badArgument, fun ⟨least, last⟩ joins unreadable => ?policy, fun ⟨least, last⟩ passes => ?passes⟩
  case badArgument => exact exec_watch_refused h (bad.elim takeWatch_badRange takeWatch_badAction)
  case policy => exact exec_watch_refused h (takeWatch_unreadable least last joins unreadable)
  case passes =>
    have taken := exec_watch_taken h (takeWatch_passes (p := p) (n := s.notice) least last passes)
    rw [byteN_toNat, byteN_toNat] at taken
    exact ⟨_, taken, modRange_queues _ _ _ _, has_modRange_put _ _ _ p s.notice⟩

end Sys2Proof.Machine
end

