-- ==== Sys2Proof/Proofs/HoldRefused.lean ====
section
/-! HOLD refused (R95): the answer of each of the five tests, in their order, and the command as a taken claim with that
answer. -/

namespace Sys2Proof.Machine

open Sys2Proof.Safety

/-! ## The lowest slot with a property -/

theorem find_allSlots {f : SlotNo → Bool} {k : SlotNo} (found : f k = true) (lowest : ∀ j < k, f j = false) :
    allSlots.find? f = some k := by
  have ascending : allSlots = List.finRange 4 := by decide
  rw [ascending, List.find?_eq_some_iff_getElem]
  refine ⟨found, k.val, by rw [List.length_finRange]; exact k.isLt, List.getElem_finRange _, fun j below => ?_⟩
  rw [List.getElem_finRange]
  simpa using lowest ⟨j, below.trans k.isLt⟩ below

section
variable {h : HoldCtl} {p : Port} {f c : Nat}

theorem ownOverlap_lowest {k : SlotNo} (covers : (h.slot (p, k)).state = .GRANTED ∧ (h.slot (p, k)).meets f c = true)
    (lowest : ∀ j < k, ¬ ((h.slot (p, j)).state = .GRANTED ∧ (h.slot (p, j)).meets f c = true)) :
    h.ownOverlap p f c = some k :=
  find_allSlots (by simp [covers]) fun j below => by simpa using lowest j below

theorem ownOverlap_none (apart : ¬ GrantedOn h p f c) : h.ownOverlap p f c = none :=
  List.find?_eq_none.2 fun k _ covers => apart ⟨k, by simpa using covers⟩

theorem isWaiting_iff : h.isWaiting p = true ↔ ∃ k, (h.slot (p, k)).state = .WAITING := by
  simp [HoldCtl.isWaiting, mem_allSlots]

theorem freeSlot_none (full : ∀ k, (h.slot (p, k)).state ≠ .FREE) : h.freeSlot p = none :=
  List.find?_eq_none.2 fun k _ => by simpa using full k

end

/-! ## The tests of HOLD -/

section
variable {s : State} {p : Port} {a : HoldArgs} {m : HoldMode} {w : Bool}

/-- What the hold controller makes of a HOLD of port `p`. -/
def State.takesHold (s : State) (p : Port) (a : HoldArgs) : HoldCtl × Answer :=
  s.holds.takeHold s.device.supervisor s.store.pages p a

theorem any_unwritable_iff {f c : Nat} (last : f + c ≤ 128) :
    ((rangePages f c).any fun pg => !s.store.pages[pg].writable s.device.supervisor p) = true ↔ ¬ HoldRights s p f c := by
  simp [HoldRights, mem_rangePages last]

theorem takesHold_badRange (bad : ¬ (1 ≤ a.count ∧ a.count ≤ 8 ∧ a.first + a.count ≤ 128)) :
    s.takesHold p a = (s.holds, .BAD_ARGUMENT, []) :=
  if_pos (badRange_true bad)

theorem takesHold_undefined (undefined : a.mode = none ∨ a.wait = none) :
    s.takesHold p a = (s.holds, .BAD_ARGUMENT, []) := by
  rw [State.takesHold, HoldCtl.takeHold]
  rcases undefined with noMode | noWait
  · rw [noMode]
    exact ite_self _
  · rw [noWait]
    cases a.mode <;> exact ite_self _

/-- With arguments that pass test 1 the other four decide, in their order. -/
theorem takesHold_of_args (ok : HoldArgsOk a m w) :
    s.takesHold p a =
      if (rangePages a.first a.count).any fun pg => !s.store.pages[pg].writable s.device.supervisor p then
        (s.holds, .POLICY, [])
      else (s.holds.ownOverlap p a.first a.count).elim
        (if s.holds.isWaiting p then (s.holds, .ALREADY_WAITING, [])
          else (s.holds.freeSlot p).elim (s.holds, .NO_SLOT, []) fun k => s.holds.place p k a m w)
        fun k => (s.holds, .OVERLAP, [byteN k.val]) := by
  have inside : badRange Config.holdPages a.first a.count = false := badRange_false ok.least ok.most ok.last
  rw [State.takesHold, HoldCtl.takeHold, inside, if_neg Bool.false_ne_true, ok.mode, ok.wait]
  cases s.holds.ownOverlap p a.first a.count <;> cases s.holds.freeSlot p <;> rfl

theorem takesHold_unwritable (ok : HoldArgsOk a m w) (unwritable : ¬ HoldRights s p a.first a.count) :
    s.takesHold p a = (s.holds, .POLICY, []) := by
  rw [takesHold_of_args ok, if_pos ((any_unwritable_iff ok.last).2 unwritable)]

theorem takesHold_overlap (ok : HoldArgsOk a m w) (rights : HoldRights s p a.first a.count) {k : SlotNo}
    (overlap : s.holds.ownOverlap p a.first a.count = some k) :
    s.takesHold p a = (s.holds, .OVERLAP, [byteN k.val]) := by
  rw [takesHold_of_args ok, if_neg fun unwritable => (any_unwritable_iff ok.last).1 unwritable rights, overlap]
  rfl

/-- Past the first three tests the port's own WAITING slot and its FREE slots decide. -/
theorem takesHold_apart (ok : HoldArgsOk a m w) (rights : HoldRights s p a.first a.count)
    (apart : ¬ GrantedOn s.holds p a.first a.count) :
    s.takesHold p a = if s.holds.isWaiting p then (s.holds, .ALREADY_WAITING, [])
      else (s.holds.freeSlot p).elim (s.holds, .NO_SLOT, []) fun k => s.holds.place p k a m w := by
  rw [takesHold_of_args ok, if_neg fun unwritable => (any_unwritable_iff ok.last).1 unwritable rights,
    ownOverlap_none apart]
  rfl

theorem takesHold_waiting (ok : HoldArgsOk a m w) (rights : HoldRights s p a.first a.count)
    (apart : ¬ GrantedOn s.holds p a.first a.count) (waiting : ∃ k, (s.holds.slot (p, k)).state = .WAITING) :
    s.takesHold p a = (s.holds, .ALREADY_WAITING, []) := by
  rw [takesHold_apart ok rights apart, if_pos (isWaiting_iff.2 waiting)]

theorem takesHold_full (ok : HoldArgsOk a m w) (rights : HoldRights s p a.first a.count)
    (apart : ¬ GrantedOn s.holds p a.first a.count) (full : ∀ k, (s.holds.slot (p, k)).state = .GRANTED) :
    s.takesHold p a = (s.holds, .NO_SLOT, []) := by
  have notWaiting : ¬ s.holds.isWaiting p = true := by simp [isWaiting_iff, full]
  have noneFree : s.holds.freeSlot p = none := freeSlot_none fun k => by simp [full]
  rw [takesHold_apart ok rights apart, if_neg notWaiting, noneFree]
  rfl

end

/-! ## The statement -/

theorem runDue_hold (p : Port) (s : State) : s.runDue (.claim p cHOLD) =
    s.takeOwned p cHOLD fun c t => (t.setHolds (t.takesHold p c.holdArgs).1, (t.takesHold p c.holdArgs).2) := rfl

/-- Taking HOLD leaves the hold controller's change and the answer. -/
theorem exec_hold_taken {p : Port} {c : Claim} {rest : List Claim} {s : State} (h : Takes p cHOLD c rest s) {t : HoldCtl}
    {a : Answer} (taken : s.takesHold p c.holdArgs = (t, a)) :
    exec (.hold p) s = .next (answered c rest a (s.setHolds t)).arbitrate := by
  refine congrArg Host.Outcome.next ((takes_free h (runDue_hold p)).trans ?_)
  have unclaimed : (s.setClaims rest).takesHold p c.holdArgs = (t, a) := taken
  rw [unclaimed]
  rfl

/-- A HOLD refused leaves the hold table as it is. -/
theorem exec_hold_refused {p : Port} {c : Claim} {rest : List Claim} {s : State} (h : Takes p cHOLD c rest s) {a : Answer}
    (taken : s.takesHold p c.holdArgs = (s.holds, a)) :
    exec (.hold p) s = .next (answered c rest a s).arbitrate := exec_hold_taken h taken

/-- Settles O24: the command is a taken claim, and each test that fails gives its answer and keeps the hold table. -/
theorem holdIsRefused : Obligations.HoldIsRefused := by
  unfold Obligations.HoldIsRefused
  intro p c rest s h
  refine ⟨fun bad => ?badArgument, fun m w ok => ⟨fun unwritable => ?policy, fun rights =>
    ⟨fun k covers lowest => ?overlap, fun apart => ⟨fun waiting => ?alreadyWaiting, fun full => ?noSlot⟩⟩⟩⟩
  case badArgument =>
    apply exec_hold_refused h
    rcases bad with zero | above | beyond | past | undefined
    pick_goal 5
    · exact takesHold_undefined undefined
    all_goals exact takesHold_badRange (by omega)
  case policy => exact exec_hold_refused h (takesHold_unwritable ok unwritable)
  case overlap => exact exec_hold_refused h (takesHold_overlap ok rights (ownOverlap_lowest covers lowest))
  case alreadyWaiting => exact exec_hold_refused h (takesHold_waiting ok rights apart waiting)
  case noSlot => exact exec_hold_refused h (takesHold_full ok rights apart full)

end Sys2Proof.Machine
end

