-- ==== Sys2Proof/Proofs/RenewRelease.lean ====
section
/-! RENEW (R103) and RELEASE (R104): what the hold controller makes of each, by what the slot argument names, and the command
as a taken claim. -/

namespace Sys2Proof.Machine

open Sys2Proof.Safety

theorem slotOf_above {b : Byte} (above : 3 < b.toNat) : slotOf b = none := if_pos above

section
variable {p : Port} {slot : Byte} {lease : Half} {h : HoldCtl} {k : SlotNo}

/-! ## RENEW -/

theorem takeRenew_above (above : 3 < slot.toNat) : h.takeRenew p slot lease = (h, .BAD_ARGUMENT, []) := by
  rw [HoldCtl.takeRenew, slotOf_above above]
  rfl

theorem takeRenew_notGranted (named : slot.toNat = k.val) (notGranted : (h.slot (p, k)).state ≠ .GRANTED) :
    h.takeRenew p slot lease = (h, .NO_HOLD, []) := by
  rw [HoldCtl.takeRenew, slotOf_of named]
  exact if_neg notGranted

theorem takeRenew_granted (named : slot.toNat = k.val) (granted : (h.slot (p, k)).state = .GRANTED) :
    h.takeRenew p slot lease = (h.setSlot (p, k) { h.slot (p, k) with lease := lease, leaseLeft := lease }, .OK,
      [slot] ++ bytes2 lease ++ bytes2 lease) := by
  rw [HoldCtl.takeRenew, slotOf_of named, eq_byteN named]
  exact if_pos granted

/-! ## RELEASE -/

theorem takeRelease_above (above : 3 < slot.toNat) : h.takeRelease p slot = (h, [], .BAD_ARGUMENT, []) := by
  rw [HoldCtl.takeRelease, slotOf_above above]
  rfl

theorem takeRelease_free (named : slot.toNat = k.val) (free : (h.slot (p, k)).state = .FREE) :
    h.takeRelease p slot = (h, [], .NO_HOLD, []) := by
  rw [HoldCtl.takeRelease, slotOf_of named]
  exact if_pos free

/-- The code of a slot that is not FREE: 2 GRANTED, 1 WAITING (section 12.1). -/
theorem code_of_not_free {st : SlotState} (held : st ≠ .FREE) : st.code = if st = .GRANTED then 2 else 1 := by
  cases st with
  | FREE => exact absurd rfl held
  | WAITING => rfl
  | GRANTED => rfl

theorem takeRelease_held (named : slot.toNat = k.val) (held : (h.slot (p, k)).state ≠ .FREE) :
    h.takeRelease p slot = ((h.free (p, k)).scan.1, (h.free (p, k)).scan.2, .OK,
      [slot, if (h.slot (p, k)).state = .GRANTED then 2 else 1]) := by
  rw [HoldCtl.takeRelease, slotOf_of named, ← code_of_not_free held, eq_byteN named]
  exact if_neg held

end

/-! ## The statements -/

section
variable {p : Port} {c : Claim} {rest : List Claim} {s : State} {t : HoldCtl} {a : Answer}

theorem runDue_renew (p : Port) (s : State) : s.runDue (.claim p cRENEW) = s.takeOwned p cRENEW fun c u =>
    (u.setHolds (u.holds.takeRenew p (c.arg 1) (c.arg2 2 3)).1, (u.holds.takeRenew p (c.arg 1) (c.arg2 2 3)).2) := rfl

/-- Taking RENEW leaves the hold controller's change and the answer. -/
theorem exec_renew_taken (h : Takes p cRENEW c rest s)
    (taken : s.holds.takeRenew p (c.arg 1) (c.arg2 2 3) = (t, a)) :
    exec (.renew p) s = .next (answered c rest a (s.setHolds t)).arbitrate := by
  refine congrArg Host.Outcome.next ((takes_free h (runDue_renew p)).trans ?_)
  dsimp only
  rw [setClaims_holds, taken]
  rfl

theorem runDue_release (p : Port) (s : State) : s.runDue (.claim p cRELEASE) = s.takeOwned p cRELEASE fun c u =>
    ((u.setHolds (u.holds.takeRelease p (c.arg 1)).1).raiseAll (u.holds.takeRelease p (c.arg 1)).2.1,
      (u.holds.takeRelease p (c.arg 1)).2.2) := rfl

/-- Taking RELEASE leaves the hold controller's change, then the events it raises, then the answer. -/
theorem exec_release_taken (h : Takes p cRELEASE c rest s) {es : List Event}
    (taken : s.holds.takeRelease p (c.arg 1) = (t, es, a)) :
    exec (.release p) s = .next (answered c rest a ((s.setHolds t).raiseAll es)).arbitrate := by
  refine congrArg Host.Outcome.next ((takes_free h (runDue_release p)).trans ?_)
  dsimp only
  rw [setClaims_holds, taken, answered, ← raiseAll_setClaims]
  rfl

/-- A RENEW refused leaves the hold table as it is. -/
theorem exec_renew_refused (h : Takes p cRENEW c rest s)
    (taken : s.holds.takeRenew p (c.arg 1) (c.arg2 2 3) = (s.holds, a)) :
    exec (.renew p) s = .next (answered c rest a s).arbitrate := exec_renew_taken h taken

/-- A RELEASE refused leaves the hold table as it is and raises nothing. -/
theorem exec_release_refused (h : Takes p cRELEASE c rest s)
    (taken : s.holds.takeRelease p (c.arg 1) = (s.holds, [], a)) :
    exec (.release p) s = .next (answered c rest a s).arbitrate := exec_release_taken h taken

end

/-- Settles O27: the command is a taken claim, and the hold controller's change is the slot's new lease alone. -/
theorem renewSetsTheLease : Obligations.RenewSetsTheLease := by
  unfold Obligations.RenewSetsTheLease
  intro p c rest s h
  refine ⟨fun above => ?badArgument, fun k named => ⟨fun notGranted => ?noHold, fun granted => ?renewed⟩⟩
  case badArgument => exact exec_renew_refused h (takeRenew_above above)
  case noHold => exact exec_renew_refused h (takeRenew_notGranted named notGranted)
  case renewed =>
    have taken := exec_renew_taken h (takeRenew_granted named granted)
    rw [Claim.arg2, bytes2_half] at taken
    exact taken

/-- Settles O28: the command is a taken claim, and the hold controller's change is the freed slot, then one scan, whose
events come before the answer. -/
theorem releaseFreesTheSlot : Obligations.ReleaseFreesTheSlot := by
  unfold Obligations.ReleaseFreesTheSlot
  intro p c rest s h
  refine ⟨fun above => ?badArgument, fun k named => ⟨fun free => ?noHold, fun held => ?released⟩⟩
  case badArgument => exact exec_release_refused h (takeRelease_above above)
  case noHold => exact exec_release_refused h (takeRelease_free named free)
  case released => exact exec_release_taken h (takeRelease_held named held)

end Sys2Proof.Machine
end

/-! HOLD that passes its tests (R96, R112 to R115): what the hold controller makes of it, case by case (granted at once, BUSY,
CYCLE, WAITING), the bytes of its answer, and the command as a taken claim with that answer. -/

namespace Sys2Proof.Machine

open Sys2Proof.Safety

/-! ## The waits-on relation -/

/-- A port with no WAITING request waits on nobody (R113). -/
theorem waitsOn_of_noRequest {h : HoldCtl} {p : Port} (idle : ∀ r ∈ h.queue, r.1 ≠ p) : h.waitsOn p = [] := by
  rw [HoldCtl.waitsOn, splitAtPort_none idle]

/-- The ports that the oldest request of `p` waits on (R113). -/
theorem mem_waitsOn_of_oldest {h : HoldCtl} {p : Port} {before after : List SlotRef} {k : SlotNo}
    (queue : h.queue = before ++ (p, k) :: after) (oldest : ∀ r ∈ before, r.1 ≠ p) (q : Port) :
    q ∈ h.waitsOn p ↔ WouldWaitOn h before p (h.slot (p, k)).first.val (h.slot (p, k)).count q := by
  have split : splitAtPort p h.queue = some (before, (p, k)) := queue ▸ splitAtPort_append (r := (p, k)) oldest
  rw [HoldCtl.waitsOn, split]
  exact mem_blockers ..

/-- A set with the ports that a request would wait on is the set that the answer of R115 gives. -/
theorem ofList_blockers {h : HoldCtl} {older : List SlotRef} {p : Port} {f c : Nat} {ps : PortSet}
    (has : ∀ q, PortSet.has ps q = true ↔ WouldWaitOn h older p f c q) : PortSet.ofList (h.blockers older p f c) = ps := by
  refine PortSet.eq_of_has fun q => Bool.eq_iff_iff.2 ?_
  rw [PortSet.has_ofList, List.contains_iff_mem, mem_blockers, has]

/-! ## The four outcomes -/

section
variable {h : HoldCtl} {p : Port} {k : SlotNo} {a : HoldArgs} {m : HoldMode} {w : Bool}

/-- The test of R96: nothing blocks the request. -/
theorem grantsAtOnce_iff {f c : Nat} :
    (!h.grantedByOther p f c && !h.waitingMeets f c) = true ↔ ¬ Blocked h h.queue p f c := by
  have waiting : h.waitingMeets f c = true ↔ ∃ r ∈ h.queue, (h.slot r).meets f c = true := List.any_eq_true
  rw [Blocked, ← grantedByOther_iff, ← waiting, not_or, Bool.and_eq_true, Bool.not_eq_true', Bool.not_eq_true',
    Bool.not_eq_true, Bool.not_eq_true]

theorem place_unblocked (unblocked : ¬ Blocked h h.queue p a.first a.count) :
    h.place p k a m w = (h.setSlot (p, k) ⟨.GRANTED, pageOf a.first, a.count, m, a.lease, a.lease, 0, 0⟩, .OK,
      [byteN k.val, byteN a.first, byteN a.count, m.code] ++ bytes2 a.lease) :=
  if_pos (grantsAtOnce_iff.2 unblocked)

theorem place_busy (blocked : Blocked h h.queue p a.first a.count) : h.place p k a m false = (h, .BUSY, []) :=
  if_neg fun atOnce => grantsAtOnce_iff.1 atOnce blocked

/-- A blocked request with the wait flag: the cycle check decides (R114, R115). -/
theorem place_blocked (blocked : Blocked h h.queue p a.first a.count) :
    h.place p k a m true = if h.closesCycle p a.first a.count then (h, .CYCLE, []) else
      ({ h.setSlot (p, k) ⟨.WAITING, pageOf a.first, a.count, m, a.lease, 0, a.limit, a.limit⟩ with
          queue := h.queue ++ [(p, k)] }, .WAITING,
        [byteN k.val, byteN a.first, byteN a.count, m.code] ++ bytes2 a.lease ++ bytes2 a.limit ++
          [byteN (h.queue.length + 1), setByte (PortSet.ofList (h.blockers h.queue p a.first a.count))]) :=
  if_neg fun atOnce => grantsAtOnce_iff.1 atOnce blocked

theorem place_cycle (blocked : Blocked h h.queue p a.first a.count)
    (closes : ∃ q, WouldWaitOn h h.queue p a.first a.count q ∧ Reaches h q p) :
    h.place p k a m true = (h, .CYCLE, []) := by
  rw [place_blocked blocked, if_pos ((closesCycle_iff h p a.first a.count).2 closes)]

theorem place_waiting (blocked : Blocked h h.queue p a.first a.count)
    (noneReached : ∀ q, WouldWaitOn h h.queue p a.first a.count q → ¬ Reaches h q p) {ps : PortSet}
    (has : ∀ q, PortSet.has ps q = true ↔ WouldWaitOn h h.queue p a.first a.count q) :
    h.place p k a m true =
      ({ h.setSlot (p, k) ⟨.WAITING, pageOf a.first, a.count, m, a.lease, 0, a.limit, a.limit⟩ with
          queue := h.queue ++ [(p, k)] }, .WAITING,
        [byteN k.val, byteN a.first, byteN a.count, m.code] ++ bytes2 a.lease ++ bytes2 a.limit ++
          [byteN (h.queue.length + 1), setByte ps]) := by
  have noCycle : ¬ h.closesCycle p a.first a.count = true := fun closes =>
    have ⟨q, waits, reached⟩ := (closesCycle_iff h p a.first a.count).1 closes
    noneReached q waits reached
  rw [place_blocked blocked, if_neg noCycle, ofList_blockers has]

end

/-! ## The arguments in the answer -/

section
variable (c : Claim)

theorem byteN_first : byteN c.holdArgs.first = c.arg 1 := byteN_toNat _

theorem byteN_count : byteN c.holdArgs.count = c.arg 2 := byteN_toNat _

theorem bytes2_lease : bytes2 c.holdArgs.lease = [c.arg 4, c.arg 5] := bytes2_half _ _

theorem bytes2_limit : bytes2 c.holdArgs.limit = [c.arg 7, c.arg 8] := bytes2_half _ _

end

/-! ## The statements -/

section
variable {p : Port} {c : Claim} {rest : List Claim} {s : State} {a : HoldArgs} {m : HoldMode} {w : Bool} {k : SlotNo}

theorem freeSlot_lowest {h : HoldCtl} (free : (h.slot (p, k)).state = .FREE)
    (lowest : ∀ j < k, (h.slot (p, j)).state ≠ .FREE) : h.freeSlot p = some k :=
  find_allSlots (beq_iff_eq.2 free) fun j below => beq_eq_false_iff_ne.2 (lowest j below)

/-- A HOLD that passes the five tests of R95 is placed in the port's lowest FREE slot. -/
theorem takesHold_passes (passes : HoldPasses s p a m w k) : s.takesHold p a = s.holds.place p k a m w := by
  obtain ⟨ok, rights, apart, notWaiting, free, lowest⟩ := passes
  have noneWaiting : ¬ s.holds.isWaiting p = true := fun waiting =>
    have ⟨j, waits⟩ := isWaiting_iff.1 waiting
    notWaiting j waits
  rw [takesHold_apart ok rights apart, if_neg noneWaiting, freeSlot_lowest free lowest]
  rfl

/-- The command, from the outcome of its placing. -/
theorem exec_hold_placed (h : Takes p cHOLD c rest s) (passes : HoldPasses s p c.holdArgs m w k) {t : HoldCtl} {ans : Answer}
    (placed : s.holds.place p k c.holdArgs m w = (t, ans)) :
    exec (.hold p) s = .next (answered c rest ans (s.setHolds t)).arbitrate :=
  exec_hold_taken h ((takesHold_passes passes).trans placed)

end

/-- Settles O25: the command is placed in its slot; an unblocked request is granted it at once, and a blocked one without the
wait flag leaves the hold table as it is. -/
theorem holdIsGrantedOrBusy : Obligations.HoldIsGrantedOrBusy := by
  unfold Obligations.HoldIsGrantedOrBusy
  intro p c rest s m w k h passes
  refine ⟨fun unblocked => ?granted, fun blocked noWait => ?busy⟩
  case granted =>
    have placed := exec_hold_placed h passes (place_unblocked unblocked)
    rw [byteN_first, byteN_count, bytes2_lease] at placed
    exact placed
  case busy =>
    subst noWait
    exact exec_hold_placed h passes (place_busy blocked)

/-- Settles O26: the waits-on relation is that of the port's oldest request, and a blocked HOLD with the wait flag is refused or
queued by the cycle check, which `closesCycle_iff` ties to the ports reached. -/
theorem holdWaitsUnlessItClosesACycle : Obligations.HoldWaitsUnlessItClosesACycle := by
  unfold Obligations.HoldWaitsUnlessItClosesACycle
  refine ⟨fun h p => ⟨waitsOn_of_noRequest, fun before k after => mem_waitsOn_of_oldest⟩,
    fun p c rest s m k h passes blocked => ⟨fun closes => ?cycle, fun noCycle ps has => ?waiting⟩⟩
  case cycle => exact exec_hold_placed h passes (place_cycle blocked closes)
  case waiting =>
    have placed := exec_hold_placed h passes (place_waiting blocked noCycle has)
    rw [byteN_first, byteN_count, bytes2_lease, bytes2_limit] at placed
    exact placed

end Sys2Proof.Machine

/-! COPY (R127) and COPY_CANCEL (R134): what the copy engine makes of each, test by test and by the state of the port's
request, and the command as a taken claim. -/

namespace Sys2Proof.Machine

open Sys2Proof.Safety

/-! ## The tests of COPY -/

section
variable {src dst count : Nat} {p : Port} {e : CopyEngine}

/-- The count is allowed, and source and destination lie inside pages 0 to 127. -/
def CopyRangesOk (src dst count : Nat) : Prop := 1 ≤ count ∧ count ≤ 16 ∧ src + count ≤ 128 ∧ dst + count ≤ 128

/-- No page is both a source and a destination. -/
def RangesApart (src dst count : Nat) : Prop := ∀ pg : Page, ¬ (inRange src count pg = true ∧ inRange dst count pg = true)

/-- Port `p` has no request in the queue. -/
def CopyEngine.NoneOf (e : CopyEngine) (p : Port) : Prop := ∀ a ∈ e.queue, a.requester ≠ p

theorem copyRanges_tested :
    (badRange Config.copyPages src count || badRange Config.copyPages dst count) = false ↔ CopyRangesOk src dst count := by
  have most : Config.copyPages = 16 := rfl
  simp only [CopyRangesOk, badRange, Bool.or_eq_false_iff, decide_eq_false_iff_not]
  omega

/-- Two ranges of the same count that overlap share the later of their first pages. -/
theorem overlap_eq_false_iff (ok : CopyRangesOk src dst count) :
    overlap src count dst count = false ↔ RangesApart src dst count := by
  obtain ⟨least, -, srcLast, dstLast⟩ := ok
  simp only [RangesApart, overlap, inRange, Bool.and_eq_false_iff, decide_eq_false_iff_not, Bool.and_eq_true,
    decide_eq_true_eq]
  constructor
  · intro apart pg
    omega
  · intro apart
    have unshared := apart ⟨max src dst, by omega⟩
    dsimp only at unshared
    omega

theorem has_eq_false_iff : e.has p = false ↔ e.NoneOf p := by
  simp [CopyEngine.has, CopyEngine.NoneOf]

theorem takeCopy_badRange (bad : ¬ CopyRangesOk src dst count) : e.takeCopy p src dst count = (e, .BAD_ARGUMENT, []) :=
  if_pos (Bool.eq_true_of_not_eq_false (mt copyRanges_tested.1 bad))

theorem takeCopy_overlap (ok : CopyRangesOk src dst count) (shared : ¬ RangesApart src dst count) :
    e.takeCopy p src dst count = (e, .OVERLAP, []) := by
  rw [CopyEngine.takeCopy, copyRanges_tested.2 ok, if_neg Bool.false_ne_true,
    if_pos (Bool.eq_true_of_not_eq_false (mt (overlap_eq_false_iff ok).1 shared))]
  rfl

/-- The request that a COPY puts into the queue: pages done 0, both marks clear (R127). -/
def CopyReq.fresh (p : Port) (src dst count : Nat) : CopyReq := ⟨p, pageOf src, pageOf dst, count, 0, false, false⟩

/-- The engine with a request more, its newest. -/
def CopyEngine.joined (r : CopyReq) (e : CopyEngine) : CopyEngine := { e with queue := e.queue ++ [r] }

/-- What is left of COPY when the tests of its arguments have passed: the test of the queue, and the joining. -/
theorem takeCopy_apart (ok : CopyRangesOk src dst count) (apart : RangesApart src dst count) :
    e.takeCopy p src dst count = if e.has p then (e, .BUSY, []) else
      if e.queue.isEmpty then ((e.joined (.fresh p src dst count)).issue,
        .OK, [byteN src, byteN dst, byteN count, 2, byteN (e.queue.length + 1)])
      else (e.joined (.fresh p src dst count),
        .OK, [byteN src, byteN dst, byteN count, 1, byteN (e.queue.length + 1)]) := by
  rw [CopyEngine.takeCopy, copyRanges_tested.2 ok, if_neg Bool.false_ne_true, (overlap_eq_false_iff ok).2 apart,
    if_neg Bool.false_ne_true]
  dsimp only
  rw [List.length_append]
  rfl

theorem takeCopy_busy (ok : CopyRangesOk src dst count) (apart : RangesApart src dst count) (busy : ¬ e.NoneOf p) :
    e.takeCopy p src dst count = (e, .BUSY, []) := by
  rw [takeCopy_apart ok apart, if_pos (Bool.eq_true_of_not_eq_false (mt has_eq_false_iff.1 busy))]

theorem takeCopy_joins (ok : CopyRangesOk src dst count) (apart : RangesApart src dst count) (free : e.NoneOf p)
    (others : e.queue ≠ []) :
    e.takeCopy p src dst count = (e.joined (.fresh p src dst count),
      .OK, [byteN src, byteN dst, byteN count, 1, byteN (e.queue.length + 1)]) := by
  rw [takeCopy_apart ok apart, has_eq_false_iff.2 free, if_neg Bool.false_ne_true,
    if_neg (mt List.isEmpty_iff.1 others)]

theorem pageOf_page (pg : Page) : pageOf pg.val = pg := Fin.ext (pageOf_val pg.isLt)

/-- The first transfer of a fresh request is that of its first pages (R128). -/
theorem issue_fresh (empty : e.queue = []) : (e.joined (.fresh p src dst count)).issue =
    { e with queue := [.fresh p src dst count], transfer := .issued (pageOf src) (pageOf dst) p } := by
  rw [CopyEngine.issue, CopyEngine.joined, empty]
  dsimp only [List.nil_append, CopyReq.fresh, Nat.add_zero]
  rw [pageOf_page, pageOf_page]

theorem takeCopy_begins (ok : CopyRangesOk src dst count) (apart : RangesApart src dst count) (empty : e.queue = []) :
    e.takeCopy p src dst count = ({ e with
        queue := [.fresh p src dst count], transfer := .issued (pageOf src) (pageOf dst) p },
      .OK, [byteN src, byteN dst, byteN count, 2, 1]) := by
  have free : e.NoneOf p := by simp [CopyEngine.NoneOf, empty]
  rw [takeCopy_apart ok apart, has_eq_false_iff.2 free, if_neg Bool.false_ne_true, if_pos (List.isEmpty_iff.2 empty),
    issue_fresh empty, empty]
  rfl

end

/-! ## COPY_CANCEL by the state of the request -/

section
variable {p : Port} {e : CopyEngine} {a : CopyReq} {q : List CopyReq}

theorem takeCancel_none (none : e.NoneOf p) : e.takeCancel p = (e, [], .NOT_FOUND, []) := by
  rw [CopyEngine.takeCancel]
  split
  · rfl
  · next a q queue =>
    have notActive : a.requester ≠ p := none a (by simp [queue])
    have notQueued : ¬ (q.any fun x => x.requester == p) = true := by
      simpa using fun x mem => none x (by simp [queue, mem])
    rw [if_neg notActive, if_neg notQueued]
    rfl

/-- The active copy is marked, but a silent one keeps its mark as it is (R134). -/
theorem takeCancel_active (queue : e.queue = a :: q) (active : a.requester = p) :
    e.takeCancel p = ({ e with queue := { a with cancel := if a.silent = true then a.cancel else true } :: q }, [],
      .OK, [2, byteN a.pagesDone]) := by
  have marked : (if a.silent then a else { a with cancel := true }) =
      { a with cancel := if a.silent = true then a.cancel else true } := by split <;> rfl
  rw [CopyEngine.takeCancel, queue]
  dsimp only
  rw [if_pos active, marked]
  rfl

theorem takeCancel_queued (queue : e.queue = a :: q) (notActive : a.requester ≠ p) (queued : ∃ x ∈ q, x.requester = p) :
    e.takeCancel p = ({ e with
        queue := a :: q.filter (fun x => x.requester != p), last := e.last.set p ⟨.CANCELLED, .none, 0⟩ },
      [⟨p, 4, .copyDone .CANCELLED .none 0⟩], .OK, [1, 0]) := by
  have found : (q.any fun x => x.requester == p) = true := by simpa using queued
  rw [CopyEngine.takeCancel, queue]
  dsimp only
  rw [if_neg notActive, if_pos found]
  rfl

end

/-! ## The commands as taken claims -/

section
variable {p : Port} {c : Claim} {rest : List Claim} {s : State} {t : CopyEngine} {a : Answer}

/-- Taking COPY leaves the copy engine's change and the answer; then the arbiter looks. -/
theorem exec_copy_taken (h : Waits p cCOPY c rest s)
    (taken : s.copy.takeCopy p (c.arg 1).toNat (c.arg 2).toNat (c.arg 3).toNat = (t, a)) :
    exec (.copy p) s = .next (answered c rest a (s.setCopy t)).arbitrate := by
  refine congrArg Host.Outcome.next ((whenRunning_of h.running).trans ?_)
  dsimp only [State.copyAct]
  rw [takeOwned_of_oldest h.oldest, setClaims_copy, taken]
  rfl

/-- Taking COPY_CANCEL leaves the copy engine's change, then the events it raises, then the answer. -/
theorem exec_copyCancel_taken (h : Waits p cCOPY_CANCEL c rest s) {es : List Event}
    (taken : s.copy.takeCancel p = (t, es, a)) :
    exec (.copyCancel p) s = .next (answered c rest a ((s.setCopy t).raiseAll es)) := by
  refine congrArg Host.Outcome.next ((waits_taken h _).trans ?_)
  dsimp only
  rw [setClaims_copy, taken, answered, ← raiseAll_setClaims]
  rfl

end

/-- Settles O37: both commands are taken claims; COPY is answered test by test, COPY_CANCEL by where the port's request stands
in the queue. -/
theorem copyJoinsOrIsCancelled : Obligations.CopyJoinsOrIsCancelled := by
  unfold Obligations.CopyJoinsOrIsCancelled
  refine ⟨fun p c rest s h => ⟨fun bad => ?badArgument, fun ok shared => ?overlap, fun ok apart busy => ?busy,
      fun ok apart free others => ?joins, fun ok apart empty => ?begins⟩,
    fun p c rest s h => ⟨fun none => ?notFound, fun a q queue =>
      ⟨fun active => ?marked, fun notActive queued => ?withdrawn⟩⟩⟩
  case badArgument => exact exec_copy_taken h (takeCopy_badRange bad)
  case overlap => exact exec_copy_taken h (takeCopy_overlap ok shared)
  case busy => exact exec_copy_taken h (takeCopy_busy ok apart busy)
  case joins =>
    have taken := exec_copy_taken h (takeCopy_joins ok apart free others)
    rw [byteN_toNat, byteN_toNat, byteN_toNat] at taken
    exact taken
  case begins =>
    have taken := exec_copy_taken h (takeCopy_begins ok apart empty)
    rw [byteN_toNat, byteN_toNat, byteN_toNat] at taken
    exact taken
  case notFound => exact exec_copyCancel_taken h (takeCancel_none none)
  case marked => exact exec_copyCancel_taken h (takeCancel_active queue active)
  case withdrawn => exact exec_copyCancel_taken h (takeCancel_queued queue notActive queued)

end Sys2Proof.Machine

/-! The attention units (chapter 9): the arrival of an event by the state of its source (R141), eligibility and the ATTNn_N output
(R142, R146), and ATTN_CONFIG (R145), its tests and what it makes of every source, with the command as a taken claim. -/

namespace Sys2Proof.Machine

open Sys2Proof.Safety

/-! ## The arrival of an event -/

/-- A byte that saturates goes up by one, but not above 255 (00_scope section 5). -/
theorem satInc_byte_toNat (x : Byte) : (satInc x).toNat = min 255 (x.toNat + 1) := by
  rw [satInc_byte]
  by_cases full : x = 255
  · rw [if_pos full, full]
    rfl
  · rw [if_neg full]
    bv_omega

section
variable {x : Source} {d : Detail}

theorem arrive_idle (idle : x.state = .IDLE) : x.arrive d = { x with state := .PENDING, detail := d } := by
  rw [Source.arrive, idle]

theorem arrive_active (active : x.state = .ACTIVE) : x.arrive d = { x with state := .ACTIVE_REPEND, detail := d } := by
  rw [Source.arrive, active]

/-- A source with an untaken event takes the new one in its place, and counts the one lost. -/
theorem arrive_untaken (untaken : x.state = .PENDING ∨ x.state = .ACTIVE_REPEND) :
    x.arrive d = { x with detail := d, lost := satInc x.lost } := by
  rcases untaken with pending | repend
  · rw [Source.arrive, pending]
  · rw [Source.arrive, repend]

/-- In every state the source holds the new detail and keeps its enable and level. -/
theorem arrive_keeps (d : Detail) (x : Source) :
    (x.arrive d).detail = d ∧ (x.arrive d).enabled = x.enabled ∧ (x.arrive d).level = x.level := by
  cases state : x.state with
  | IDLE => simp [arrive_idle state]
  | ACTIVE => simp [arrive_active state]
  | PENDING => simp [arrive_untaken (.inl state)]
  | ACTIVE_REPEND => simp [arrive_untaken (.inr state)]

end

/-- Settles O8: one equation per row of the table, and the lost count in numbers. -/
theorem eventArrivesByTheTable : Obligations.EventArrivesByTheTable := by
  unfold Obligations.EventArrivesByTheTable
  intro d x
  obtain ⟨detail, enabled, level⟩ := arrive_keeps d x
  refine ⟨detail, enabled, level, fun idle => ?idle, fun active => ?active, fun untaken => ?untaken⟩
  case idle =>
    rw [arrive_idle idle]
    exact ⟨rfl, rfl⟩
  case active =>
    rw [arrive_active active]
    exact ⟨rfl, rfl⟩
  case untaken =>
    rw [arrive_untaken untaken]
    exact ⟨rfl, satInc_byte_toNat x.lost⟩

/-! ## Eligibility and the output -/

theorem Source.isActive_iff {x : Source} : x.isActive = true ↔ x.state = .ACTIVE ∨ x.state = .ACTIVE_REPEND := by
  simp [Source.isActive]

/-- The level test of R142, source by source. -/
theorem above_active_iff {u : AttnUnit} {i j : SourceNo} :
    (!u.sources[j].isActive || decide (u.sources[j].level < u.sources[i].level)) = true ↔
      ((u.sources[j].state = .ACTIVE ∨ u.sources[j].state = .ACTIVE_REPEND) →
        u.sources[j].level < u.sources[i].level) := by
  rw [← Source.isActive_iff, Bool.or_eq_true, Bool.not_eq_true', decide_eq_true_eq, ← Bool.not_eq_true]
  exact Decidable.imp_iff_not_or.symm

theorem eligible_iff {u : AttnUnit} {i : SourceNo} : u.eligible i = true ↔
    u.sources[i].enabled = true ∧ u.sources[i].state = .PENDING ∧
      ∀ j : SourceNo, (u.sources[j].state = .ACTIVE ∨ u.sources[j].state = .ACTIVE_REPEND) →
        u.sources[j].level < u.sources[i].level := by
  simp only [AttnUnit.eligible, Bool.and_eq_true, beq_iff_eq, and_assoc, List.all_eq_true, above_active_iff,
    mem_allSources, forall_const]

theorem anyEligible_iff {u : AttnUnit} : u.anyEligible = true ↔ ∃ i, u.eligible i = true := by
  simp only [AttnUnit.anyEligible, List.any_eq_true, mem_allSources, true_and]

theorem running_iff {s : State} : s.running = true ↔ s.device.resetLow = false ∧ s.device.clearing = false := by
  simp only [State.running, Bool.and_eq_true, Bool.not_eq_true']

theorem attnLow_iff {s : State} {p : Port} : attnLow s p = true ↔
    s.attn[p].outputEnable = true ∧ s.device.resetLow = false ∧ s.device.clearing = false ∧
      ∃ i, s.attn[p].eligible i = true := by
  rw [attnLow, Bool.and_eq_true, Bool.and_eq_true, running_iff, anyEligible_iff]
  constructor
  · rintro ⟨⟨⟨released, cleared⟩, enabled⟩, found⟩
    exact ⟨enabled, released, cleared, found⟩
  · rintro ⟨enabled, released, cleared, found⟩
    exact ⟨⟨⟨released, cleared⟩, enabled⟩, found⟩

/-- Settles O9: the two characterisations above. -/
theorem eligibleSourceAndOutput : Obligations.EligibleSourceAndOutput := by
  unfold Obligations.EligibleSourceAndOutput
  exact ⟨fun _ _ => eligible_iff, fun _ _ => attnLow_iff⟩

/-! ## ATTN_CONFIG at the unit -/

/-- The enable that an action sets; `none` keeps the source's (R145). -/
def enableSet (act : Byte) : Option Bool := if act = 1 then some true else if act = 2 then some false else none

/-- The level that the level byte sets; `none` keeps the source's (R145). -/
def levelSet (level : Byte) : Option (Fin 8) := if level = 0xFF then none else some (Fin.ofNat 8 level.toNat)

theorem enableSet_getD (act : Byte) (kept : Bool) :
    (enableSet act).getD kept = if act = 1 then true else if act = 2 then false else kept := by
  simp only [enableSet, apply_ite (Option.getD · kept), Option.getD_some, Option.getD_none]

theorem levelSet_getD (level : Byte) (kept : Fin 8) :
    (levelSet level).getD kept = if level = 0xFF then kept else Fin.ofNat 8 level.toNat := by
  simp only [levelSet, apply_ite (Option.getD · kept), Option.getD_some, Option.getD_none]

theorem enableAction_undefined {act : Byte} (undefined : 2 < act.toNat) : enableAction act = none := by
  have other (b : Byte) (small : b.toNat ≤ 2) : act ≠ b := fun e => by
    rw [e] at undefined
    omega
  rw [enableAction, if_neg (other 0 (by decide)), if_neg (other 1 (by decide)), if_neg (other 2 (by decide))]

theorem enableAction_defined {act : Byte} (defined : act.toNat ≤ 2) : enableAction act = some (enableSet act) := by
  obtain rfl | rfl | rfl : act = 0 ∨ act = 1 ∨ act = 2 := by bv_omega
  all_goals rfl

section
variable {u : AttnUnit} {srcs act level : Byte}

/-- ATTN_CONFIG passes its three tests: some source, a defined action, a level or the value that keeps it (R145). -/
structure ConfigOk (srcs act level : Byte) : Prop where
  someSource : srcs ≠ 0
  action : act.toNat ≤ 2
  level : level.toNat ≤ 7 ∨ level = 0xFF

theorem config_noSource : u.config 0 act level = (u, .BAD_ARGUMENT, []) := rfl

theorem config_badAction (undefined : 2 < act.toNat) : u.config srcs act level = (u, .BAD_ARGUMENT, []) := by
  rw [AttnUnit.config, enableAction_undefined undefined]
  exact ite_self _

theorem config_badLevel (above : 7 < level.toNat) (other : level ≠ 0xFF) :
    u.config srcs act level = (u, .BAD_ARGUMENT, []) := by
  rw [AttnUnit.config]
  split
  · rfl
  · split
    · rfl
    · exact if_pos ⟨above, other⟩

theorem config_passes (ok : ConfigOk srcs act level) : u.config srcs act level =
    (u.configure srcs (enableSet act) (levelSet level), .OK,
      (u.configure srcs (enableSet act) (levelSet level)).configDetail) := by
  obtain ⟨someSource, defined, kept⟩ := ok
  have passes : ¬ (7 < level.toNat ∧ level ≠ Config.noneByte) := fun ⟨above, other⟩ =>
    kept.elim (Nat.not_le.2 above) other
  rw [AttnUnit.config, if_neg someSource, enableAction_defined defined]
  exact if_neg passes

theorem configure_source (en : Option Bool) (lv : Option (Fin 8)) (i : SourceNo) :
    (u.configure srcs en lv).sources[i] =
      if srcs.getLsbD i.val = true then u.sources[i].configure en lv else u.sources[i] := by
  simp [AttnUnit.configure]

end

/-! ## ATTN_CONFIG as a taken claim -/

section
variable {p : Port} {c : Claim} {rest : List Claim} {s : State} {v : AttnUnit} {a : Answer}

/-- Taking ATTN_CONFIG leaves the attention unit's change and the answer. -/
theorem exec_attnConfig_taken (h : Waits p cATTN_CONFIG c rest s)
    (taken : s.attn[p].config (c.arg 1) (c.arg 2) (c.arg 3) = (v, a)) :
    exec (.attnConfig p) s = .next (answered c rest a (s.modAttn p fun _ => v)) := by
  refine congrArg Host.Outcome.next ((waits_taken h _).trans ?_)
  dsimp only
  rw [setClaims_attn, taken]
  rfl

/-- An ATTN_CONFIG refused leaves the attention unit as it is. -/
theorem exec_attnConfig_refused (h : Waits p cATTN_CONFIG c rest s)
    (taken : s.attn[p].config (c.arg 1) (c.arg 2) (c.arg 3) = (s.attn[p], a)) :
    exec (.attnConfig p) s = .next (answered c rest a s) := by
  rw [exec_attnConfig_taken h taken, modAttn_self rfl]

end

/-- Settles O12: the command is a taken claim; each test that fails keeps the unit, and else every source of the set takes the
enable and level set. -/
theorem attnConfigSetsTheSources : Obligations.AttnConfigSetsTheSources := by
  unfold Obligations.AttnConfigSetsTheSources
  intro p c rest s h
  refine ⟨fun bad => exec_attnConfig_refused h ?refused, fun someSource action level => ?passes⟩
  case refused =>
    rcases bad with noSource | undefined | ⟨above, other⟩
    · rw [noSource, config_noSource]
    · exact config_badAction undefined
    · exact config_badLevel above other
  case passes =>
    refine ⟨_, exec_attnConfig_taken h (config_passes ⟨someSource, action, level⟩), rfl, rfl, fun i => ?_⟩
    rw [configure_source, Source.configure, enableSet_getD, levelSet_getD]

end Sys2Proof.Machine

/-! What each command touches (O2): the frames of the updates, put together command by command; a step taken apart; and the
commands while the blocks do not act. -/

namespace Sys2Proof.Machine

open Sys2Proof.Safety

/-! ## Frames of the shapes that commands have -/

section
variable {T : Part → Bool} {s₀ s : State}

/-- An act between two requests is carried out, or only becomes due in the arbiter. -/
theorem betweenRequests_touches {a : DueAct} (arbiter : T .arbiter = true) (act : Touches T s₀ (s.runDue a))
    (h : Touches T s₀ s) : Touches T s₀ (s.betweenRequests a) := by
  unfold State.betweenRequests
  split
  · exact arbitrate_touches arbiter act
  · split
    · exact setArbiter_touches _ arbiter h
    · exact h

/-- The frame of a bus event is that of its own act, with what the port does at once before it. -/
theorem busEvent_touches {p : Port} {f : State → State} (bus : ∀ x, busParts p x = true → T x = true)
    (act : ∀ t, Touches T s₀ t → Touches T s₀ (f t)) (h : Touches T s₀ s) : Touches T s₀ (s.busEvent p f) := by
  refine whenRunning_touches _ (arbitrate_touches (bus _ (by simp [busParts])) (act _ ?_)) h
  exact settle_touches p (bus _ (by simp [busParts])) (bus _ (by simp [busParts])) (bus _ (by simp [busParts]))
    (bus _ (by simp [busParts])) (bus _ (by simp [busParts])) (bus _ (by simp [busParts])) h

/-- The end of a port's service takes an outcome of the copy engine and what became due. -/
theorem endPortService_touches_due (due : ∀ x, dueParts x = true → T x = true) (copy : T .copy = true)
    (h : Touches T s₀ s) : Touches T s₀ s.endPortService :=
  endPortService_touches (due _ rfl) (due _ rfl) (due _ rfl) (due _ rfl) (due _ rfl) (fun _ => due _ rfl)
    (fun _ => due _ rfl) (due _ rfl) copy h

/-- An act of a part of a port reset; the reset goes on to the next part. -/
theorem resetPart_touches {p : Port} {st next : ResetStage} {act : State → State} (claims : T .claims = true)
    (command : T (.command p) = true) (ha : ∀ t, Touches T s₀ t → Touches T s₀ (act t)) (h : Touches T s₀ s) :
    Touches T s₀ (s.resetPart p st next act) := by
  unfold State.resetPart
  split
  · exact modCmd_touches p _ command (ha _ (examineAll_touches p claims command h))
  · exact h

/-- The translator's part of a MAP: its map, and the line that its port is obtaining. -/
theorem mapAct_touches {t : Port} {c : Claim} (translator : T (.translator t) = true) (unit : T (.unit t) = true)
    (h : Touches T s₀ s) : Touches T s₀ (mapAct t c s) := by
  unfold mapAct
  split
  · exact h
  · exact obtain_false_touches t unit (modTranslator_touches t _ translator h)

/-- A tick touches the hold table and the attention units alone. -/
theorem betweenRequests_tick_touches (holds : T .holds = true) (arbiter : T .arbiter = true)
    (attention : ∀ q, T (.attention q) = true) (h : Touches T s₀ s) : Touches T s₀ (s.betweenRequests .tick) :=
  betweenRequests_touches arbiter (tickAct_touches holds attention h) h

end

/-! ## The frames of the commands -/

theorem any_attention (q : Port) : (allPorts.any fun q' => Part.attention q == Part.attention q') = true := by
  revert q; decide

theorem any_notices (q : Port) : (allPorts.any fun q' => Part.notices q == Part.notices q') = true := by
  revert q; decide

theorem any_command (q : Port) : (allPorts.any fun q' => Part.command q == Part.command q') = true := by
  revert q; decide

/-- The device reset keeps what a reset of the store's bytes, of the pins and of the blocks leaves. -/
theorem resetFall_touches (completed : Bool) (reads : List ReadOutcome) (s : State) :
    Touches (touchedBy (.resetNFall completed reads)) s (s.resetFall completed reads) := by
  intro y hy
  unfold State.resetFall
  split
  · exact Touches.refl (touchedBy (.resetNFall completed reads)) s y hy
  · cases completed <;> cases y <;>
      simp_all [touchedBy, Part.kept, State.deviceReset, StoreCtl.deviceReset]

theorem powerOn_touches (x : Straps) (s : State) : Touches (touchedBy (.powerOnReset x)) s (s.powerOn x) := by
  intro y hy
  cases y <;> simp_all [touchedBy, Part.kept, State.powerOn]

theorem clearEnd_touches (s : State) : Touches (touchedBy .startUpClearEnd) s s.clearEnd := by
  intro y hy
  unfold State.clearEnd
  split
  · cases y <;> simp_all [touchedBy, Part.kept, StoreCtl.cleared]
  · exact Touches.refl (touchedBy .startUpClearEnd) s y hy

theorem resetRelease_touches (x : Straps) (s : State) : Touches (touchedBy (.resetNRelease x)) s (s.resetRelease x) := by
  intro y hy
  unfold State.resetRelease
  split
  · cases y <;> simp_all [touchedBy, Part.kept, Device.sample]
  · exact Touches.refl (touchedBy (.resetNRelease x)) s y hy

theorem alertFall_touches (s : State) : Touches (touchedBy .alertIn) s s.alertFall := by
  have pins : Touches (touchedBy .alertIn) s (s.setDevice { s.device with alertLow := true }) :=
    setPins_touches _ rfl rfl rfl (Touches.refl _ s)
  unfold State.alertFall
  split
  · exact Touches.refl _ s
  · exact whenRunning_touches _ (raiseAll_touches _ (fun e _ => by simp [touchedBy, any_attention]) pins) pins

/-- A bus event whose own act stays within what a bus event may touch. -/
theorem bus_touches {p : Port} {f : State → State} {s : State}
    (act : ∀ (T : Part → Bool) (t : State), (∀ x, busParts p x = true → T x = true) → Touches T s t → Touches T s (f t)) :
    Touches (busParts p) s (s.busEvent p f) :=
  busEvent_touches (fun _ h => h) (fun t => act _ t fun _ h => h) (Touches.refl _ s)

/-- The same behind a change of a pin level. -/
theorem bus_pins_touches {T : Part → Bool} {p : Port} {f : State → State} {s : State} (d : Device) (pins : T .pins = true)
    (bus : ∀ x, busParts p x = true → T x = true) (hs : d.supervisor = s.device.supervisor)
    (ha : d.asValue = s.device.asValue) (act : ∀ t, Touches T s t → Touches T s (f t)) :
    Touches T s ((s.setDevice d).busEvent p f) :=
  busEvent_touches bus act (setPins_touches d pins hs ha (Touches.refl _ s))

end Sys2Proof.Machine

namespace Sys2Proof.Machine

open Sys2Proof.Safety

section
variable {s : State} {p : Port}

/-- An act of the store controller or the hold controller, carried out while the blocks act. -/
theorem due_touches {T : Part → Bool} {a : DueAct} (arbiter : T .arbiter = true)
    (act : Touches T s s → Touches T s (s.runDue a)) : Touches T s (s.whenRunning (State.betweenRequests a)) :=
  whenRunning_touches _ (betweenRequests_touches arbiter (act (Touches.refl _ s)) (Touches.refl _ s)) (Touches.refl _ s)

theorem running_touches {T : Part → Bool} {f : State → State} (act : Touches T s s → Touches T s (f s)) :
    Touches T s (s.whenRunning f) :=
  whenRunning_touches _ (act (Touches.refl _ s)) (Touches.refl _ s)

end

/-- A service touches what serving the request touches, and what the end of the service does. -/
theorem lineFetch_touches (p : Port) (o : ReadOutcome) (s : State) :
    Touches (touchedBy (.lineFetch p o)) s (s.lineFetch p o) := by
  have due (x : Part) (h : dueParts x = true) : touchedBy (.lineFetch p o) x = true := by simp [touchedBy, h]
  unfold State.lineFetch
  split
  · exact endPortService_touches_due due (by simp [touchedBy]) (serveFetch_touches p o _ (due _ rfl)
      (by simp [touchedBy]) (due _ rfl) (due _ rfl) (Touches.refl _ s))
  · exact Touches.refl _ s

theorem commit_touches (p : Port) (reads : List ReadOutcome) (s : State) :
    Touches (touchedBy (.commit p reads)) s (s.commit p reads) := by
  have due (x : Part) (h : dueParts x = true) : touchedBy (.commit p reads) x = true := by simp [touchedBy, h]
  unfold State.commit
  split
  · exact endPortService_touches_due due (by simp [touchedBy]) (serveCommit_touches p _ reads (due _ rfl)
      (by simp [touchedBy]) (by simp [touchedBy]) (by simp [touchedBy]) (due _ rfl) (due _ rfl)
      (fun q => by simp [touchedBy, any_notices]) (fun _ => due _ rfl) (Touches.refl _ s))
  · exact Touches.refl _ s

theorem pageTransfer_touches (reads : List ReadOutcome) (s : State) :
    Touches (touchedBy (.pageTransfer reads)) s (s.pageTransfer reads) := by
  have due (x : Part) (h : dueParts x = true) : touchedBy (.pageTransfer reads) x = true := by simp [touchedBy, h]
  unfold State.pageTransfer
  split
  · exact endService_touches (due _ rfl) (due _ rfl) (due _ rfl) (due _ rfl) (due _ rfl) (fun _ => due _ rfl)
      (fun _ => due _ rfl) (due _ rfl) (serveTransfer_touches _ _ _ reads (due _ rfl) (by simp [touchedBy])
      (by simp [touchedBy]) (by simp [touchedBy]) (fun q => by simp [touchedBy, any_notices]) (fun _ => due _ rfl)
      (Touches.refl _ s))
  · exact Touches.refl _ s

theorem copyOutcome_touches (s : State) : Touches (touchedBy .copyTransferOutcome) s s.copyOutcome := by
  unfold State.copyOutcome
  split
  · exact arbitrate_touches rfl (takeOutcome_touches rfl (fun q => by simp [touchedBy, any_attention]) (Touches.refl _ s))
  · exact Touches.refl _ s

/-- The port obtains the line `ln` of the control window: its pointer is there, and once it asks it is obtaining. -/
theorem obtainsLine_ask {p : Port} {ln : Fin 16} {s : State} (h : s.obtainsLine p ln = true) :
    windowOf s.ports[p].pointer = 0 ∧ lineOf s.ports[p].pointer = ln ∧ (s.ports[p].ask).obtaining = true := by
  simp only [State.obtainsLine, Bool.and_eq_true, Bool.or_eq_true, beq_iff_eq] at h
  obtain ⟨⟨window, line⟩, now⟩ := h
  refine ⟨window, line, ?_⟩
  rcases now with obtaining | ⟨-, needs⟩
  · simp only [PortUnit.obtaining, Bool.and_eq_true] at obtaining ⊢
    exact ⟨⟨rfl, obtaining.1.2⟩, obtaining.2⟩
  · obtain ⟨data, free⟩ := needsLine_obtains needs
    exact obtaining_of rfl data free

theorem obtain_attention {p : Port} {s : State} (window : windowOf s.ports[p].pointer = 0)
    (line : lineOf s.ports[p].pointer = 2) (obtaining : s.ports[p].obtaining = true) :
    s.obtain true p = s.obtainAttention p := by
  unfold State.obtain
  dsimp only
  rw [if_pos obtaining, Translator.translate, if_pos window, line]
  rfl

theorem obtainAttention_ask (p : Port) (s : State) : (s.modPort p PortUnit.ask).obtainAttention p = s.obtainAttention p :=
  modPort_modPort p PortUnit.ask (PortUnit.holdLine 0 2 s.attn[p].take.2) (s.modAttn p fun u => u.take.1)

theorem obtainNow_attention {p : Port} {s : State} (h : s.obtainsLine p 2 = true) :
    s.obtainNow p = s.obtainAttention p := by
  obtain ⟨window, line, obtaining⟩ := obtainsLine_ask h
  have asks : (s.modPort p PortUnit.ask).ports[p] = s.ports[p].ask := upd_self _ _ _
  rw [State.obtainNow, obtain_attention (by rw [asks]; exact window) (by rw [asks]; exact line)
    (by rw [asks]; exact obtaining), obtainAttention_ask]

theorem obtainNow_notice {p : Port} {s : State} (h : s.obtainsLine p 4 = true) : s.obtainNow p = s.obtainNotice p := by
  obtain ⟨window, line, obtaining⟩ := obtainsLine_ask h
  have asks : (s.modPort p PortUnit.ask).ports[p] = s.ports[p].ask := upd_self _ _ _
  rw [State.obtainNow, obtain_notice (by rw [asks]; exact window) (by rw [asks]; exact line)
    (by rw [asks]; exact obtaining), obtainNotice_ask]

/-- The state that a command leaves: every command answers one (`exec_after`). -/
def State.after (i : Instr) (s : State) : State :=
  match exec i s with
  | .next t => t
  | .fault _ | .refused _ => s

theorem exec_after (i : Instr) (s : State) : exec i s = .next (s.after i) := by
  cases i <;> rfl

theorem after_eq {i : Instr} {s t : State} (h : exec i s = .next t) : t = s.after i := by
  rw [exec_after] at h
  exact (Host.Outcome.next.inj h).symm

/-- The frame of each command is that of its act. -/
theorem after_touches (i : Instr) (s : State) : Touches (touchedBy i) s (s.after i) := by
  have h (T : Part → Bool) : Touches T s s := Touches.refl T s
  cases i with
  | powerOnReset x => exact powerOn_touches x s
  | startUpClearEnd => exact clearEnd_touches s
  | resetNFall completed reads => exact resetFall_touches completed reads s
  | resetNRelease x => exact resetRelease_touches x s
  | alertIn => exact alertFall_touches s
  | alertInNRise => exact setPins_touches _ rfl rfl rfl (h _)
  | tick => exact running_touches (betweenRequests_tick_touches rfl rfl fun q => by simp [touchedBy, any_attention])
  | leaseExpiry p k =>
    have tick : Touches (touchedBy (.leaseExpiry p k)) s (s.whenRunning (State.betweenRequests .tick)) :=
      running_touches (betweenRequests_tick_touches rfl rfl fun q => by simp [touchedBy, any_attention])
    show Touches _ s (if s.holds.leaseEnding (p, k) then s.whenRunning (State.betweenRequests .tick) else s)
    split <;> [exact tick; exact h _]
  | waitExpiry p k =>
    have tick : Touches (touchedBy (.waitExpiry p k)) s (s.whenRunning (State.betweenRequests .tick)) :=
      running_touches (betweenRequests_tick_touches rfl rfl fun q => by simp [touchedBy, any_attention])
    show Touches _ s (if s.holds.waitEnding (p, k) then s.whenRunning (State.betweenRequests .tick) else s)
    split <;> [exact tick; exact h _]
  | twoWireStart p target dir =>
    have answered : Touches (touchedBy (.twoWireStart p target dir)) s (s.modPort p.port (PortUnit.respond p.port false)) :=
      modPort_touches _ _ (by simp [touchedBy, busParts]) (h _)
    have begun : Touches (busParts p.port) s (s.busEvent p.port (State.start p.port target dir)) :=
      bus_touches fun T t bus ht => start_touches _ _ _ (bus _ (by simp [busParts])) (bus _ (by simp [busParts]))
        (bus _ (by simp [busParts])) (bus _ (by simp [busParts])) (bus _ (by simp [busParts])) (bus _ (by simp [busParts])) ht
    show Touches _ s (if s.running then s.busEvent p.port (State.start p.port target dir)
      else s.modPort p.port (PortUnit.respond p.port false))
    split <;> [exact begun; exact answered]
  | addressHighByte p b => exact bus_touches fun T t bus ht => modPort_touches _ _ (bus _ (by simp [busParts])) ht
  | addressLowByte p b => exact bus_touches fun T t bus ht => modPort_touches _ _ (bus _ (by simp [busParts])) ht
  | twoWireWriteByte p b =>
    show Touches (busParts p.port) s
      (s.busEvent p.port fun s => s.modPort p.port (PortUnit.writeByte p.port s.translators[p.port] b))
    exact bus_touches fun T t bus ht => modPort_touches _ _ (bus _ (by simp [busParts])) ht
  | twoWireReadByte p ack =>
    show Touches (busParts p.port) s
      (s.busEvent p.port fun s => (s.modPort p.port (PortUnit.readByte ack)).obtain false p.port)
    exact bus_touches fun T t bus ht =>
      obtain_false_touches _ (bus _ (by simp [busParts])) (modPort_touches _ _ (bus _ (by simp [busParts])) ht)
  | spiCsFall =>
    show Touches _ s (if s.device.csLow then s
      else (s.setDevice { s.device with csLow := true }).busEvent spi State.csFall)
    split
    · exact h _
    · exact bus_pins_touches _ rfl (fun x hx => by simp [touchedBy, hx]) rfl rfl fun t ht => csFall_touches rfl ht
  | spiWrite => exact bus_touches fun T t bus ht => modPort_touches _ _ (bus _ (by simp [busParts])) ht
  | spiRead => exact bus_touches fun T t bus ht => modPort_touches _ _ (bus _ (by simp [busParts])) ht
  | spiStatus => exact bus_touches fun T t bus ht => spiStatus_touches (bus _ (by simp [busParts])) ht
  | spiUnknownOpcode op => exact bus_touches fun T t bus ht => unknownOpcode_touches op (bus _ (by simp [busParts])) ht
  | spiWriteSlot b =>
    show Touches (busParts spi) s (s.busEvent spi fun s => s.modPort spi (PortUnit.writeSlot s.translators[spi] b))
    exact bus_touches fun T t bus ht => modPort_touches _ _ (bus _ (by simp [busParts])) ht
  | spiReadSlot =>
    exact bus_touches fun T t bus ht => readSlot_touches (bus _ (by simp [busParts])) (bus _ (by simp [busParts]))
      (bus _ (by simp [busParts])) ht
  | transactionEnd p =>
    have stopped (T : Part → Bool) (bus : ∀ x, busParts p x = true → T x = true) (t : State) (ht : Touches T s t) :
        Touches T s (t.stop p) :=
      stop_touches p (bus _ (by simp [busParts])) (bus _ (by simp [busParts])) (bus _ (by simp [busParts])) ht
    have bus (x : Part) (hx : busParts p x = true) : touchedBy (.transactionEnd p) x = true := by simp [touchedBy, hx]
    show Touches _ s ((s.setDevice (s.device.afterEnd p)).busEvent p (State.stop p))
    unfold Device.afterEnd
    split
    · next e => exact bus_pins_touches _ (by simp [touchedBy, e]) bus rfl rfl (stopped _ bus)
    · exact busEvent_touches bus (stopped _ bus) (h _)
  | lineFetch p o =>
    show Touches _ s (if s.serving (portRequester p) then s.lineFetch p o else s)
    split <;> [exact lineFetch_touches p o s; exact h _]
  | commit p reads =>
    show Touches _ s (if s.serving (portRequester p) then s.commit p reads else s)
    split <;> [exact commit_touches p reads s; exact h _]
  | pageTransfer reads =>
    show Touches _ s (if s.serving copyEngine then s.pageTransfer reads else s)
    split <;> [exact pageTransfer_touches reads s; exact h _]
  | copyTransferOutcome => exact running_touches fun _ => copyOutcome_touches s
  | controlCommit p =>
    exact running_touches fun ht => arbitrate_touches (by simp [touchedBy]) (obtain_false_touches p (by simp [touchedBy])
      (takeReadyControl_touches p (by simp [touchedBy]) (by simp [touchedBy]) (by simp [touchedBy]) (by simp [touchedBy]) ht))
  | badCommand p =>
    exact running_touches (examineFirst_touches _ (by simp [touchedBy]) fun c hc => by simp [touchedBy, issuer_of_bad hc])
  | hold p =>
    exact due_touches (by simp [touchedBy])
      (holdAct_touches p (by simp [touchedBy]) (by simp [touchedBy]) (by simp [touchedBy]))
  | renew p =>
    exact due_touches (by simp [touchedBy])
      (renewAct_touches p (by simp [touchedBy]) (by simp [touchedBy]) (by simp [touchedBy]))
  | release p =>
    exact due_touches (by simp [touchedBy])
      (releaseAct_touches p (by simp [touchedBy]) (by simp [touchedBy]) (by simp [touchedBy])
        fun q => by simp [touchedBy, any_attention])
  | watch p => exact running_touches (watchAct_touches p (by simp [touchedBy]) (by simp [touchedBy]) (by simp [touchedBy]))
  | copy p =>
    exact running_touches fun ht => arbitrate_touches (by simp [touchedBy])
      (copyAct_touches p (by simp [touchedBy]) (by simp [touchedBy]) (by simp [touchedBy]) ht)
  | copyCancel p =>
    exact running_touches (copyCancelAct_touches p (by simp [touchedBy]) (by simp [touchedBy]) (by simp [touchedBy])
      (by simp [touchedBy]))
  | signal p => exact running_touches (examine_touches p _ (by simp [touchedBy]) (by simp [touchedBy]))
  | portSignal t p =>
    exact running_touches (takeShared_touches p t _ _ _ (by simp [touchedBy]) (by simp [touchedBy])
      fun c u hu => raise_touches _ (by simp [touchedBy]) hu)
  | pageInfo p =>
    exact due_touches (by simp [touchedBy])
      (pageInfoAct_touches p (by simp [touchedBy]) (by simp [touchedBy]))
  | map p => exact running_touches (examine_touches p _ (by simp [touchedBy]) (by simp [touchedBy]))
  | mapTranslatorTake t p =>
    exact running_touches fun ht => arbitrate_touches (by simp [touchedBy]) (takeShared_touches p t _ _ _
      (by simp [touchedBy]) (by simp [touchedBy])
      (fun c u hu => mapAct_touches (by simp [touchedBy]) (by simp [touchedBy]) hu) ht)
  | mapQuery p =>
    exact running_touches fun ht => mapQueryAct_touches p (by simp [touchedBy]) (by simp [touchedBy])
      (examine_touches p _ (by simp [touchedBy]) (by simp [touchedBy]) ht)
  | portConfig p half =>
    exact running_touches fun ht => takeHalves_touches p half (by simp [touchedBy]) (by simp [touchedBy])
      (by simp [touchedBy]) (by simp [touchedBy]) (examine_touches p _ (by simp [touchedBy]) (by simp [touchedBy]) ht)
  | attnConfig p =>
    exact running_touches (attnConfigAct_touches p (by simp [touchedBy]) (by simp [touchedBy]) (by simp [touchedBy]))
  | policy p =>
    exact due_touches (by simp [touchedBy])
      (policyAct_touches p (by simp [touchedBy]) (by simp [touchedBy]) (by simp [touchedBy]) (by simp [touchedBy]))
  | damageQuery p =>
    exact due_touches (by simp [touchedBy])
      (damageQueryAct_touches p (by simp [touchedBy]) (by simp [touchedBy]))
  | damageClear p =>
    exact due_touches (by simp [touchedBy])
      (damageClearAct_touches p (by simp [touchedBy]) (by simp [touchedBy]) (by simp [touchedBy]))
  | portReset p => exact running_touches (examine_touches p _ (by simp [touchedBy]) (by simp [touchedBy]))
  | portResetBegin t p =>
    exact running_touches (takeBegin_touches t p (by simp [touchedBy]) (by simp [touchedBy]) (by simp [touchedBy]))
  | holdResetPart p =>
    exact due_touches (by simp [touchedBy]) (holdResetAct_touches p (by simp [touchedBy])
      (fun q => by simp [touchedBy, any_attention]) (by simp [touchedBy]) (by simp [touchedBy]))
  | noticeResetPart p =>
    exact running_touches (resetPart_touches (by simp [touchedBy]) (by simp [touchedBy])
      fun t ht => noticeResetAct_touches p (by simp [touchedBy]) (by simp [touchedBy]) (by simp [touchedBy]) ht)
  | copyResetPart p =>
    exact running_touches (resetPart_touches (by simp [touchedBy]) (by simp [touchedBy])
      fun t ht => copyResetAct_touches p (by simp [touchedBy]) (by simp [touchedBy]) ht)
  | attentionResetPart p =>
    exact running_touches (resetPart_touches (by simp [touchedBy]) (by simp [touchedBy])
      fun t ht => attentionResetAct_touches p (by simp [touchedBy]) (by simp [touchedBy]) ht)
  | commandResetPart p =>
    exact running_touches (resetPart_touches (by simp [touchedBy]) (by simp [touchedBy])
      fun t ht => commandResetAct_touches p (by simp [touchedBy]) (by simp [touchedBy]) (by simp [touchedBy]) ht)
  | portUnitResetPart p =>
    have bus (x : Part) (hx : busParts p x = true) : touchedBy (.portUnitResetPart p) x = true := by simp [touchedBy, hx]
    exact running_touches (lastResetPart_touches p (bus _ (by simp [busParts])) (fun q => by simp [touchedBy, any_command])
      (bus _ (by simp [busParts])) (bus _ (by simp [busParts])) (bus _ (by simp [busParts])) (bus _ (by simp [busParts]))
      (bus _ (by simp [busParts])))
  | attnTake p =>
    refine running_touches fun ht => ?_
    split
    · next now =>
      rw [obtainNow_attention now]
      exact obtainAttention_touches p (by simp [touchedBy]) (by simp [touchedBy]) ht
    · exact ht
  | attnDone p => exact running_touches (modAttn_touches p _ (by simp [touchedBy]))
  | noticePop p =>
    refine running_touches fun ht => ?_
    split
    · next now =>
      rw [obtainNow_notice now]
      exact obtainNotice_touches p (by simp [touchedBy]) (by simp [touchedBy]) ht
    · exact ht

end Sys2Proof.Machine

/-! Steps (O1, O2), the blocks at rest (O3), and the packaging of an induction over steps. -/

namespace Sys2Proof.Machine

open Sys2Proof.Safety

/-- Settles O2: the frames, command by command. -/
theorem everyCommandKeepsWhatItDoesNotTouch : Obligations.EveryCommandKeepsWhatItDoesNotTouch := by
  unfold Obligations.EveryCommandKeepsWhatItDoesNotTouch
  exact fun i s => ⟨s.after i, exec_after i s, after_touches i s⟩

/-! ## Steps -/

/-- What a step can do: the block idles, or the front command takes effect on the state with the queue's rest. -/
theorem step_cases {s t : State} (h : step s = .next t) :
    (s.pending = [] ∧ t = s.idle) ∨ ∃ i rest, s.pending = i :: rest ∧ t = (s.setPending rest).after i := by
  unfold step at h
  split at h
  · next empty => exact .inl ⟨empty, (Host.Outcome.next.inj h).symm⟩
  · next i rest queue => exact .inr ⟨i, rest, queue, after_eq h⟩

/-- A property that does not see the queue, which idling and every command keep, is kept by every step. -/
theorem step_keeps {P : State → Prop} (queue : ∀ s cs, P s → P (s.setPending cs)) (idle : ∀ s, P s → P s.idle)
    (command : ∀ i s, P s → P (s.after i)) {s t : State} (h : step s = .next t) (hs : P s) : P t := by
  rcases step_cases h with ⟨-, rfl⟩ | ⟨i, rest, -, rfl⟩
  · exact idle s hs
  · exact command i _ (queue s rest hs)

/-- Settles O1: the equations of `step`. -/
theorem stepTakesFrontCommandOrIdles : Obligations.StepTakesFrontCommandOrIdles := by
  unfold Obligations.StepTakesFrontCommandOrIdles
  refine ⟨fun c rest s => rfl, fun s empty => ?_⟩
  have idles : step s = .next s.idle := by rw [step, empty]
  refine ⟨idles, fun gathered => ?_⟩
  rw [idles, idle_of_gathered gathered]

/-! ## The blocks at rest -/

section
variable {s : State}

theorem whenRunning_of_rest (rest : s.running = false) (f : State → State) : s.whenRunning f = s := by
  rw [State.whenRunning, rest]
  rfl

theorem busEvent_of_rest (rest : s.running = false) (p : Port) (f : State → State) : s.busEvent p f = s :=
  whenRunning_of_rest rest _

theorem serving_of_rest (rest : s.running = false) (r : Requester) : s.serving r = false := by
  rw [State.serving, rest]
  rfl

/-- The commands of the blocks that change nothing at rest: all but the resets, the pins and the bus events that move a pin or
answer. -/
def NeedsRunning : Instr → Prop
  | .powerOnReset _ | .startUpClearEnd | .resetNFall _ _ | .resetNRelease _ | .alertIn | .alertInNRise
  | .twoWireStart _ _ _ | .spiCsFall | .transactionEnd _ => False
  | _ => True

/-- At rest a bus event, a service and an act of a block change nothing. -/
theorem exec_of_rest (rest : s.running = false) {i : Instr} (hi : NeedsRunning i) : exec i s = .next s := by
  have bus (p : Port) (f : State → State) : Host.Outcome.next (φ := Fault) (ρ := Refusal) (s.busEvent p f) = .next s :=
    congrArg _ (busEvent_of_rest rest p f)
  have unserved (r : Requester) (t : State) :
      Host.Outcome.next (φ := Fault) (ρ := Refusal) (if s.serving r then t else s) = .next s := by
    rw [serving_of_rest rest, if_neg Bool.false_ne_true]
  have act (f : State → State) : Host.Outcome.next (φ := Fault) (ρ := Refusal) (s.whenRunning f) = .next s :=
    congrArg _ (whenRunning_of_rest rest f)
  cases i with
  | powerOnReset | startUpClearEnd | resetNFall | resetNRelease | alertIn | alertInNRise | twoWireStart | spiCsFall
  | transactionEnd => exact hi.elim
  | addressHighByte | addressLowByte | twoWireWriteByte | twoWireReadByte | spiWrite | spiRead | spiStatus
  | spiUnknownOpcode | spiWriteSlot | spiReadSlot => exact bus _ _
  | lineFetch | commit | pageTransfer => exact unserved _ _
  | leaseExpiry p k =>
    show Host.Outcome.next (if s.holds.leaseEnding (p, k) then s.whenRunning (State.betweenRequests .tick) else s) = _
    rw [whenRunning_of_rest rest, ite_self]
  | waitExpiry p k =>
    show Host.Outcome.next (if s.holds.waitEnding (p, k) then s.whenRunning (State.betweenRequests .tick) else s) = _
    rw [whenRunning_of_rest rest, ite_self]
  | _ => exact act _

end

theorem exec_alertIn_of_rest {s : State} (rest : s.running = false) :
    exec .alertIn s = .next (s.setDevice { s.device with alertLow := true }) := by
  show Host.Outcome.next s.alertFall = _
  unfold State.alertFall
  by_cases low : s.device.alertLow = true
  · have same : s.setDevice { s.device with alertLow := true } = s := by rw [← low]; rfl
    rw [if_pos low, same]
  · have restPins : (s.setDevice { s.device with alertLow := true }).running = false := rest
    rw [if_neg low, whenRunning_of_rest restPins]

theorem exec_spiCsFall_of_rest {s : State} (rest : s.running = false) :
    exec .spiCsFall s = .next (s.setDevice { s.device with csLow := true }) := by
  show Host.Outcome.next (if s.device.csLow then s
    else (s.setDevice { s.device with csLow := true }).busEvent spi State.csFall) = _
  by_cases low : s.device.csLow = true
  · have same : s.setDevice { s.device with csLow := true } = s := by rw [← low]; rfl
    rw [if_pos low, same]
  · have restPins : (s.setDevice { s.device with csLow := true }).running = false := rest
    rw [if_neg low, busEvent_of_rest restPins]

theorem exec_transactionEnd_of_rest {s : State} (rest : s.running = false) (p : Port) :
    exec (.transactionEnd p) s = .next (s.setDevice (s.device.afterEnd p)) := by
  obtain ⟨-, -, low, clearing⟩ := afterEnd_straps p s.device
  have restPins : (s.setDevice (s.device.afterEnd p)).running = false := by
    rw [← rest, State.running, State.running, setDevice_device, low, clearing]
  exact congrArg Host.Outcome.next (busEvent_of_rest restPins p _)

theorem exec_twoWireStart_of_rest {s : State} (rest : s.running = false) (p : TwoWirePort) (target : BitVec 7)
    (d : Direction) :
    exec (.twoWireStart p target d) s = .next (s.modPort p.port (PortUnit.respond p.port false)) := by
  show Host.Outcome.next (if s.running then _ else _) = _
  rw [rest, if_neg Bool.false_ne_true]

/-- Settles O3: no act of a block is carried out at rest. -/
theorem nothingIsTakenDuringResetOrClear : Obligations.NothingIsTakenDuringResetOrClear := by
  unfold Obligations.NothingIsTakenDuringResetOrClear
  intro s rest
  refine ⟨exec_twoWireStart_of_rest rest, exec_spiCsFall_of_rest rest, exec_transactionEnd_of_rest rest,
    exec_alertIn_of_rest rest, fun i hi => exec_of_rest rest ?_⟩
  cases i <;> exact hi

end Sys2Proof.Machine

/-! The hold table (chapters 6 and 7): the changes that the hold controller's acts are made of, what each change keeps, and so
what every step keeps (O57, O58, O59); the tick (O29) and the scan (O30). -/

namespace Sys2Proof.Machine

open Sys2Proof.Safety

/-! ## What answers and events leave -/

/-- An answer changes the command units alone. -/
theorem answer_cmds (c : Claim) (a : Answer) (s : State) : ∃ v, s.answer c a = { s with cmds := v } := by
  unfold State.answer
  split
  · exact ⟨s.cmds, rfl⟩
  · exact ⟨_, rfl⟩

/-- Events change the attention units alone. -/
theorem raiseAll_attn (es : List Event) (s : State) : ∃ v, s.raiseAll es = { s with attn := v } := by
  induction es generalizing s with
  | nil => exact ⟨s.attn, rfl⟩
  | cons e es ih =>
    obtain ⟨v, hv⟩ := ih (s.raise e)
    exact ⟨v, hv⟩

theorem answer_holds (c : Claim) (a : Answer) (s : State) : (s.answer c a).holds = s.holds := by
  obtain ⟨v, hv⟩ := answer_cmds c a s
  rw [hv]

theorem raiseAll_holds (es : List Event) (s : State) : (s.raiseAll es).holds = s.holds := by
  obtain ⟨v, hv⟩ := raiseAll_attn es s
  rw [hv]

/-- What an owner's act, taken without the claim, and the answer keep, taking the claim keeps. -/
theorem takeOwned_keeps {P : State → Prop} {p : Port} {code : Byte} {act : Claim → State → State × Answer} {s : State}
    (answer : ∀ t c a, P t → P (t.answer c a)) (taken : ∀ c cs, P (act c (s.setClaims cs)).1) (hs : P s) :
    P (s.takeOwned p code act) := by
  unfold State.takeOwned
  split
  · exact hs
  · exact answer _ _ _ (taken _ _)

/-! ## The changes of the hold table -/

/-- One change of the hold table: times alone; a request granted at once; a request queued; slots freed, and one scan. -/
inductive HoldChange : HoldCtl → HoldCtl → Prop where
  | times {h h' : HoldCtl} (same : Same h h') : HoldChange h h'
  | granted {h : HoldCtl} {p : Port} {k : SlotNo} {x : Slot} (placed : Placed h p k x) (state : x.state = .GRANTED)
      (unblocked : ¬ Blocked h h.queue p x.first.val x.count) : HoldChange h (h.setSlot (p, k) x)
  | waits {h : HoldCtl} {p : Port} {k : SlotNo} {x : Slot} (placed : Placed h p k x) (state : x.state = .WAITING)
      (blocked : Blocked h h.queue p x.first.val x.count)
      (noCycle : ∀ q, WouldWaitOn h h.queue p x.first.val x.count q → ¬ Reaches h q p) : HoldChange h (queued h p k x)
  | freed {f : SlotRef → Bool} {h h' : HoldCtl} (freed : Freed f h h') : HoldChange h h'.scan.1

/-- Changes one after another. -/
abbrev HoldChanges : HoldCtl → HoldCtl → Prop := Relation.ReflTransGen HoldChange

theorem HoldChange.ok {h h' : HoldCtl} (c : HoldChange h h') (ok : HoldsOk h) : HoldsOk h' := by
  cases c with
  | times same => exact same.ok ok
  | granted placed state unblocked => exact place_ok ok placed state unblocked
  | waits placed state _ _ => exact queued_ok ok placed state
  | freed freed => exact scan_ok (freed.ok ok)

theorem HoldChange.scanned {h h' : HoldCtl} (c : HoldChange h h') (ok : HoldsOk h) (sc : Scanned h) : Scanned h' := by
  cases c with
  | times same => exact same.scanned sc
  | granted placed _ _ => exact place_scanned ok placed sc
  | waits placed _ blocked _ => exact queued_scanned ok placed sc blocked
  | freed freed => exact scan_scanned (freed.ok ok)

theorem HoldChange.acyclic {h h' : HoldCtl} (c : HoldChange h h') (ok : HoldsOk h) (ac : Acyclic h) : Acyclic h' := by
  cases c with
  | times same => exact acyclic_mono (same.edges ok) ac
  | granted placed state unblocked => exact acyclic_mono (place_edges ok placed state unblocked) ac
  | waits placed state _ noCycle => exact queued_acyclic ok placed state ac noCycle
  | freed freed => exact acyclic_mono (scan_edges (freed.ok ok)) (acyclic_mono (freed.edges ok) ac)

/-- What each change keeps of a table in form, changes one after another keep. -/
theorem HoldChanges.keep {P : HoldCtl → Prop} (one : ∀ h h', HoldChange h h' → HoldsOk h → P h → P h') {h h' : HoldCtl}
    (cs : HoldChanges h h') (ok : HoldsOk h) (hp : P h) : HoldsOk h' ∧ P h' := by
  induction cs with
  | refl => exact ⟨ok, hp⟩
  | tail _ c ih => exact ⟨c.ok ih.1, one _ _ c ih.1 ih.2⟩

/-! ## The acts of the hold controller as changes -/

section
variable {h : HoldCtl} {p : Port} {a : HoldArgs}

theorem place_change {k : SlotNo} {m : HoldMode} {w : Bool} (inside : a.first < 128)
    (apart : ¬ GrantedOn h p a.first a.count) (notWaiting : ∀ j, (h.slot (p, j)).state ≠ .WAITING)
    (free : (h.slot (p, k)).state = .FREE) : HoldChanges h (h.place p k a m w).1 := by
  have first : (pageOf a.first).val = a.first := pageOf_val inside
  have placed (x : Slot) (hf : x.first = pageOf a.first) (hc : x.count = a.count) : Placed h p k x :=
    ⟨by rw [hf, first, hc]; exact apart, notWaiting, free⟩
  by_cases blocked : Blocked h h.queue p a.first a.count
  · cases w with
    | false => rw [place_busy blocked]
    | true =>
      rw [place_blocked blocked]
      split
      · exact .refl
      · next noCycle =>
        refine .single (.waits (placed _ rfl rfl) rfl (by rw [first]; exact blocked) fun q waits reached => noCycle ?_)
        rw [first] at waits
        exact (closesCycle_iff h p a.first a.count).2 ⟨q, waits, reached⟩
  · rw [place_unblocked blocked]
    exact .single (.granted (placed _ rfl rfl) rfl (by rw [first]; exact blocked))

theorem takeHold_change (sup : Port) (pages : Vector PageEntry 128) : HoldChanges h (h.takeHold sup pages p a).1 := by
  unfold HoldCtl.takeHold
  split
  · exact .refl
  · next inside =>
    have inside : a.first < 128 := by
      simp only [badRange, Bool.or_eq_true, decide_eq_true_eq] at inside
      omega
    split
    · split
      · exact .refl
      · split
        · exact .refl
        · next apart =>
          split
          · exact .refl
          · next notWaiting =>
            split
            · exact .refl
            · next k free =>
              refine place_change inside (fun ⟨j, hj⟩ => ?_) (fun j waits => notWaiting (isWaiting_iff.2 ⟨j, waits⟩))
                (by simpa using List.find?_some free)
              simpa [hj] using List.find?_eq_none.1 apart j (mem_allSlots j)
    · exact .refl

theorem takeRenew_change (slot : Byte) (lease : Half) : HoldChanges h (h.takeRenew p slot lease).1 := by
  unfold HoldCtl.takeRenew
  split
  · exact .refl
  · next k _ =>
    dsimp only
    split
    · next granted =>
      have slots (r : SlotRef) := slot_setSlot h (p, k) r { h.slot (p, k) with lease := lease, leaseLeft := lease }
      refine .single (.times ⟨rfl, fun r => ?_, fun r => ?_, fun r => ?_, fun r free => ?_⟩) <;> rw [slots r]
      · split <;> simp_all
      · split <;> simp_all
      · split <;> simp_all
      · rw [slots r] at free
        split at free
        · rw [granted] at free
          cases free
        · next other => rw [if_neg other]
    · exact .refl

theorem freed_free (r : SlotRef) : Freed (· == r) h (h.free r) :=
  ⟨rfl, fun x => by
    rw [slot_free]
    by_cases e : x = r
    · simp [e]
    · simp [e, Ne.symm e]⟩

theorem takeRelease_change (slot : Byte) : HoldChanges h (h.takeRelease p slot).1 := by
  unfold HoldCtl.takeRelease
  split
  · exact .refl
  · dsimp only
    split
    · exact .refl
    · exact .single (.freed (freed_free _))

theorem freed_foldl (rs : List SlotRef) : Freed (fun r => decide (r ∈ rs)) h (rs.foldl HoldCtl.free h) := by
  obtain ⟨slots, queue⟩ := foldl_free rs h
  exact ⟨by rw [queue]; simp, fun r => by rw [slots]; simp⟩

theorem tick_change : HoldChanges h h.tick.1 := by
  have counted : HoldChanges h h.countDown := .single (.times (countDown_same h))
  unfold HoldCtl.tick
  dsimp only
  split
  · exact counted
  · exact counted.tail (.freed (freed_foldl _))

/-- The hold table once the slots of `p` are FREE and its request has left the queue. -/
def HoldCtl.without (p : Port) (h : HoldCtl) : HoldCtl :=
  { slots := h.slots.set p (Vector.replicate 4 Slot.free), queue := h.queue.filter fun r => r.1 != p }

theorem slot_without (p : Port) (h : HoldCtl) (r : SlotRef) :
    (h.without p).slot r = if r.1 = p then Slot.free else h.slot r := by
  show (upd h.slots p fun _ => Vector.replicate 4 Slot.free)[r.1][r.2] = _
  rw [upd_get]
  by_cases e : p = r.1
  · rw [if_pos e, if_pos e.symm]
    exact Vector.getElem_replicate _
  · rw [if_neg e, if_neg (Ne.symm e)]
    rfl

theorem freed_without (p : Port) : Freed (fun r => r.1 == p) h (h.without p) :=
  ⟨rfl, fun r => by rw [slot_without]; simp⟩

theorem resetPart_change : HoldChanges h (h.resetPart p).1 := .single (.freed (freed_without p))

end

/-! ## What becomes of the hold table -/

/-- An act between two requests changes the hold table by the hold controller's changes, if at all. -/
theorem runDue_changes (a : DueAct) (s : State) : HoldChanges s.holds (s.runDue a).holds := by
  have answer (t : State) (c : Claim) (x : Answer) (ht : HoldChanges s.holds t.holds) :
      HoldChanges s.holds (t.answer c x).holds := by rw [answer_holds]; exact ht
  have owned (p : Port) (code : Byte) (act : Claim → State → State × Answer)
      (taken : ∀ c cs, HoldChanges s.holds (act c (s.setClaims cs)).1.holds) :
      HoldChanges s.holds (s.takeOwned p code act).holds := takeOwned_keeps answer taken .refl
  cases a with
  | claim p code =>
    show HoldChanges s.holds (s.claimAct p code).holds
    unfold State.claimAct
    split_ifs
    · exact owned _ _ _ fun c cs => takeHold_change _ _
    · exact owned _ _ _ fun c cs => takeRenew_change _ _
    · exact owned _ _ _ fun c cs => by rw [raiseAll_holds]; exact takeRelease_change _
    · exact owned _ _ _ fun c cs => .refl
    · exact owned _ _ _ fun c cs => .refl
    · exact owned _ _ _ fun c cs => .refl
    · exact owned _ _ _ fun c cs => .refl
    · exact .refl
  | tick =>
    show HoldChanges s.holds (State.raiseAll _ _).holds
    rw [raiseAll_holds]
    exact tick_change
  | holdReset p =>
    show HoldChanges s.holds (s.holdResetAct p).holds
    unfold State.holdResetAct
    split
    · dsimp only
      rw [modCmd_holds, raiseAll_holds]
      exact resetPart_change
    · exact .refl

theorem arbitrate_holds (s : State) : s.arbitrate.holds = s.holds := by
  rcases arbitrate_cases s with same | ⟨r, -, -, chosen⟩
  · rw [same]
  · rw [chosen]
    rfl

theorem betweenRequests_changes (a : DueAct) (s : State) : HoldChanges s.holds (s.betweenRequests a).holds := by
  unfold State.betweenRequests
  split
  · rw [arbitrate_holds]
    exact runDue_changes a s
  · split <;> exact .refl

theorem whenRunning_due_changes (a : DueAct) (s : State) :
    HoldChanges s.holds (s.whenRunning (State.betweenRequests a)).holds := by
  unfold State.whenRunning
  split
  · exact betweenRequests_changes a s
  · exact .refl

theorem endService_changes (s : State) : HoldChanges s.holds s.endService.holds := by
  have acts (due : List DueAct) (t : State) : HoldChanges t.holds (due.foldl (fun s a => s.runDue a) t).holds := by
    induction due generalizing t with
    | nil => exact .refl
    | cons a due ih => exact (runDue_changes a t).trans (ih _)
  unfold State.endService
  rw [arbitrate_holds]
  exact acts s.arbiter.due (s.setArbiter { s.arbiter with inService := none, due := [] })

/-- A service does not touch the hold table before it ends. -/
theorem service_changes {s t : State} (served : Touches (· != .holds) s t) : HoldChanges s.holds t.endService.holds := by
  have same : t.holds = s.holds := served .holds rfl
  exact same ▸ endService_changes t

/-- What a command makes of the hold table: a reset, or the hold controller's changes. -/
theorem after_changes (i : Instr) (s : State) :
    (s.after i).holds = HoldCtl.reset ∨ HoldChanges s.holds (s.after i).holds := by
  by_cases untouched : touchedBy i .holds = false
  · have same : (s.after i).holds = s.holds := after_touches i s .holds untouched
    exact .inr (same ▸ .refl)
  · cases i with
    | powerOnReset x => exact .inl rfl
    | resetNFall completed reads =>
      show (s.resetFall completed reads).holds = _ ∨ HoldChanges s.holds (s.resetFall completed reads).holds
      unfold State.resetFall
      split
      · exact .inr .refl
      · exact .inl rfl
    | tick => exact .inr (whenRunning_due_changes .tick s)
    | leaseExpiry p k =>
      refine .inr ?_
      show HoldChanges s.holds (if s.holds.leaseEnding (p, k) then _ else s).holds
      split <;> [exact whenRunning_due_changes .tick s; exact .refl]
    | waitExpiry p k =>
      refine .inr ?_
      show HoldChanges s.holds (if s.holds.waitEnding (p, k) then _ else s).holds
      split <;> [exact whenRunning_due_changes .tick s; exact .refl]
    | hold p => exact .inr (whenRunning_due_changes (.claim p cHOLD) s)
    | renew p => exact .inr (whenRunning_due_changes (.claim p cRENEW) s)
    | release p => exact .inr (whenRunning_due_changes (.claim p cRELEASE) s)
    | holdResetPart p => exact .inr (whenRunning_due_changes (.holdReset p) s)
    | lineFetch p o =>
      refine .inr ?_
      show HoldChanges s.holds (if s.serving (portRequester p) then s.lineFetch p o else s).holds
      unfold State.lineFetch
      split_ifs
      · split
        · exact service_changes (takeOutcome_touches rfl (fun _ => rfl)
            (serveFetch_touches p o _ rfl rfl rfl rfl (Touches.refl _ s)))
        · exact .refl
      · exact .refl
    | commit p reads =>
      refine .inr ?_
      show HoldChanges s.holds (if s.serving (portRequester p) then s.commit p reads else s).holds
      unfold State.commit
      split_ifs
      · split
        · exact service_changes (takeOutcome_touches rfl (fun _ => rfl)
            (serveCommit_touches p _ reads rfl rfl rfl rfl rfl rfl (fun _ => rfl) (fun _ => rfl) (Touches.refl _ s)))
        · exact .refl
      · exact .refl
    | pageTransfer reads =>
      refine .inr ?_
      show HoldChanges s.holds (if s.serving copyEngine then s.pageTransfer reads else s).holds
      unfold State.pageTransfer
      split_ifs
      · split
        · exact service_changes
            (serveTransfer_touches _ _ _ reads rfl rfl rfl rfl (fun _ => rfl) (fun _ => rfl) (Touches.refl _ s))
        · exact .refl
      · exact .refl
    | _ => exact absurd (by simp [touchedBy, busParts]) untouched

theorem idle_holds (s : State) : s.idle.holds = s.holds :=
  idle_touches (T := (· != .holds)) (fun _ => rfl) rfl (Touches.refl _ s) .holds rfl

/-! ## The reset table -/

theorem slot_reset (r : SlotRef) : HoldCtl.reset.slot r = Slot.free := by
  obtain ⟨p, k⟩ := r
  revert p k
  decide

theorem holdsOk_reset : HoldsOk HoldCtl.reset where
  free r _ := slot_reset r
  queued r := by rw [slot_reset]; simp [HoldCtl.reset, Slot.free]
  once := List.nodup_nil
  oneWaiting p k k' waits := by rw [slot_reset] at waits; cases waits
  disjoint r r' _ granted := by rw [slot_reset] at granted; cases granted
  apart p k k' waits := by rw [slot_reset] at waits; cases waits

theorem scanned_reset : Scanned HoldCtl.reset := by
  intro before r after e
  exact absurd e (by simp [HoldCtl.reset])

theorem acyclic_reset : Acyclic HoldCtl.reset := by
  intro p q edge
  rw [waitsOn_of_noRequest (by simp [HoldCtl.reset])] at edge
  exact absurd edge List.not_mem_nil

/-! ## The statements -/

/-- A property of the table that holds after a reset, and that each change keeps, is kept by every step. -/
theorem step_keeps_holds {P : HoldCtl → Prop} (reset : P HoldCtl.reset)
    (one : ∀ h h', HoldChange h h' → HoldsOk h → P h → P h') {s t : State} (h : step s = .next t) (ok : HoldsOk s.holds)
    (hp : P s.holds) : HoldsOk t.holds ∧ P t.holds := by
  refine step_keeps (P := fun s => HoldsOk s.holds ∧ P s.holds) (fun s cs hs => hs) (fun s hs => ?_) (fun i s hs => ?_) h
    ⟨ok, hp⟩
  · rw [idle_holds]
    exact hs
  · rcases after_changes i s with isReset | changes
    · rw [isReset]
      exact ⟨holdsOk_reset, reset⟩
    · exact changes.keep one hs.1 hs.2

/-- Settles O57: each change of the hold table keeps its form. -/
theorem stepKeepsHoldsDisjoint : Obligations.StepKeepsHoldsDisjoint := by
  unfold Obligations.StepKeepsHoldsDisjoint
  intro s t ok h
  exact (step_keeps_holds (P := fun _ => True) trivial (fun _ _ _ _ _ => trivial) h ok trivial).1

/-- Settles O58: each change of the hold table leaves nothing to grant. -/
theorem stepLeavesNothingToGrant : Obligations.StepLeavesNothingToGrant := by
  unfold Obligations.StepLeavesNothingToGrant
  intro s t ok scanned h
  exact (step_keeps_holds scanned_reset (fun _ _ c => c.scanned) h ok scanned).2

/-- Settles O59: a new request closes no cycle (`queued_acyclic`), and no other change adds an edge. -/
theorem stepKeepsWaitsOnAcyclic : Obligations.StepKeepsWaitsOnAcyclic := by
  unfold Obligations.StepKeepsWaitsOnAcyclic
  intro s t ok acyclic h
  exact (step_keeps_holds acyclic_reset (fun _ _ c => c.acyclic) h ok acyclic).2

/-- Settles O30: the scan's laws. -/
theorem scanGrantsWhatIsNotBlocked : Obligations.ScanGrantsWhatIsNotBlocked := by
  unfold Obligations.ScanGrantsWhatIsNotBlocked
  intro h ok
  exact ⟨granted h, granted_sublist ok, rfl, scan_queue ok, scan_slot ok,
    fun before r after queue hr o ho => granted_apart ok queue hr ho, scan_ok ok, scan_scanned ok⟩

end Sys2Proof.Machine

/-! The tick (chapter 7): which leases and waits end, and what their end makes of the hold table (O29). -/

namespace Sys2Proof.Machine

open Sys2Proof.Safety

theorem leaseOver_iff {x : Slot} : x.leaseOver = true ↔ x.state = .GRANTED ∧ x.lease ≠ 0 ∧ x.leaseLeft = 0 := by
  simp [Slot.leaseOver, and_assoc]

theorem waitOver_iff {x : Slot} : x.waitOver = true ↔ x.state = .WAITING ∧ x.waitLimit ≠ 0 ∧ x.waitLeft = 0 := by
  simp [Slot.waitOver, and_assoc]

section
variable {h : HoldCtl}

theorem mem_over {r : SlotRef} : r ∈ h.over ↔ (h.slot r).leaseOver = true ∨ (h.slot r).waitOver = true := by
  simp [HoldCtl.over, mem_allRefs]

theorem over_ascends : h.over.Pairwise (fun r r' => r.1 < r'.1 ∨ (r.1 = r'.1 ∧ r.2 < r'.2)) := by
  have refs : allRefs.Pairwise (fun r r' => r.1 < r'.1 ∨ (r.1 = r'.1 ∧ r.2 < r'.2)) := by decide
  exact refs.filter _

/-- The cause of an end follows the state of the slot that ends. -/
theorem endedEvent_of_over {r : SlotRef} (isOver : r ∈ h.over) : h.endedEvent r =
    ⟨r.1, 3, .holdEnded (some r.2) (if (h.slot r).state = .GRANTED then .LEASE else .WAIT_TIMEOUT)⟩ := by
  rcases mem_over.1 isOver with lease | wait
  · have granted := (leaseOver_iff.1 lease).1
    simp [HoldCtl.endedEvent, lease, granted, sHOLD_ENDED]
  · have waiting := (waitOver_iff.1 wait).1
    simp [HoldCtl.endedEvent, Slot.leaseOver, waiting, sHOLD_ENDED]

theorem tick_of_none (none : h.countDown.over = []) : h.tick = (h.countDown, []) := by
  simp [HoldCtl.tick, none]

theorem tick_of_some (some : h.countDown.over ≠ []) : h.tick =
    ((h.countDown.over.foldl HoldCtl.free h.countDown).scan.1,
      h.countDown.over.map h.countDown.endedEvent ++ (h.countDown.over.foldl HoldCtl.free h.countDown).scan.2) := by
  simp [HoldCtl.tick, some]

/-- A lease that is over after the count is the end that LEASE_EXPIRY names. -/
theorem leaseEnding_of_over {r : SlotRef} (isOver : r ∈ h.countDown.over) (granted : (h.countDown.slot r).state = .GRANTED) :
    h.leaseEnding r = true := by
  have either : (h.slot r).countDown.leaseOver = true ∨ (h.slot r).countDown.waitOver = true := by
    simpa [slot_countDown] using mem_over.1 isOver
  rw [slot_countDown] at granted
  refine either.resolve_right fun wait => ?_
  rw [(waitOver_iff.1 wait).1] at granted
  cases granted

/-- A wait that is over after the count is the end that WAIT_EXPIRY names. -/
theorem waitEnding_of_over {r : SlotRef} (isOver : r ∈ h.countDown.over) (waiting : (h.countDown.slot r).state = .WAITING) :
    h.waitEnding r = true := by
  have either : (h.slot r).countDown.leaseOver = true ∨ (h.slot r).countDown.waitOver = true := by
    simpa [slot_countDown] using mem_over.1 isOver
  rw [slot_countDown] at waiting
  refine either.resolve_left fun lease => ?_
  rw [(leaseOver_iff.1 lease).1] at waiting
  cases waiting

end

/-- While the controller is free a tick is taken at once. -/
theorem exec_tick_free {s : State} (running : s.running = true) (free : s.arbiter.inService = none) :
    exec .tick s = .next ((s.setHolds s.holds.tick.1).raiseAll s.holds.tick.2).arbitrate := by
  show Host.Outcome.next (s.whenRunning (State.betweenRequests .tick)) = _
  rw [whenRunning_of running, betweenRequests_free free]
  rfl

/-- Settles O29: the table counted down, the ends in it, and the scan of what is left. -/
theorem tickCountsAndExpires : Obligations.TickCountsAndExpires := by
  unfold Obligations.TickCountsAndExpires
  intro s running free
  refine ⟨s.holds.countDown, s.holds.countDown.over, fun r => ?_, rfl, over_ascends, fun r => ?_, fun none => ?_,
    fun some => ?_, fun p k => ⟨fun ⟨isOver, granted⟩ => ?_, fun ⟨isOver, waiting⟩ => ?_⟩⟩
  · rw [slot_countDown]
    generalize s.holds.slot r = x
    obtain ⟨state⟩ := x
    cases state <;> rfl
  · rw [mem_over, leaseOver_iff, waitOver_iff]
  · rw [exec_tick_free running free, tick_of_none none]
    rfl
  · obtain ⟨slots, queue⟩ := foldl_free s.holds.countDown.over s.holds.countDown
    refine ⟨_, slots, queue, ?_⟩
    rw [exec_tick_free running free, tick_of_some some, List.map_congr_left fun r isOver => endedEvent_of_over isOver]
  · show Host.Outcome.next (if s.holds.leaseEnding (p, k) then _ else s) = _
    rw [if_pos (leaseEnding_of_over isOver granted)]
    rfl
  · show Host.Outcome.next (if s.holds.waitEnding (p, k) then _ else s) = _
    rw [if_pos (waitEnding_of_over isOver waiting)]
    rfl

end Sys2Proof.Machine

/-! What becomes of the store (chapters 1 and 2): services write bytes and raise versions together, everything else leaves both;
and the form of the damaged-line list. With it O22, and the store's part of O56. -/

namespace Sys2Proof.Machine

open Sys2Proof.Safety

/-- `b` has the bytes and the versions of `a`, and a damaged-line list in form where `a` has one. -/
structure StoreQuiet (a b : StoreCtl) : Prop where
  bytes : b.bytes = a.bytes
  versions : ∀ pg : Page, b.pages[pg].version = a.pages[pg].version
  damaged : DamagedOk a → DamagedOk b

/-- `b` is what one service may leave of `a`: bytes and damaged-line list in form, and each page with its version or, where
it was written, with the next one. -/
structure StoreServed (a b : StoreCtl) : Prop where
  wf : Memory.wf a.bytes = true → Memory.wf b.bytes = true
  damaged : DamagedOk a → DamagedOk b
  versions : ∀ pg : Page,
    (b.pages[pg].version = a.pages[pg].version ∨ b.pages[pg].version = a.pages[pg].version + 1) ∧
      ∀ off : Byte, Memory.read b.bytes (storeAddr pg off) ≠ Memory.read a.bytes (storeAddr pg off) →
        b.pages[pg].version = a.pages[pg].version + 1

theorem StoreQuiet.refl (a : StoreCtl) : StoreQuiet a a := ⟨rfl, fun _ => rfl, id⟩

theorem StoreQuiet.trans {a b c : StoreCtl} (h : StoreQuiet a b) (h' : StoreQuiet b c) : StoreQuiet a c :=
  ⟨h'.bytes.trans h.bytes, fun pg => (h'.versions pg).trans (h.versions pg), h'.damaged ∘ h.damaged⟩

theorem StoreServed.quiet {a b c : StoreCtl} (h : StoreServed a b) (h' : StoreQuiet b c) : StoreServed a c where
  wf hw := by rw [h'.bytes]; exact h.wf hw
  damaged := h'.damaged ∘ h.damaged
  versions pg := by rw [h'.versions, h'.bytes]; exact h.versions pg

theorem StoreQuiet.served {a b : StoreCtl} (h : StoreQuiet a b) : StoreServed a b where
  wf hw := by rw [h.bytes]; exact hw
  damaged := h.damaged
  versions pg := ⟨.inl (h.versions pg), fun off changed => absurd (by rw [h.bytes]) changed⟩

/-- A service that first reads lines, then writes. -/
theorem StoreServed.after_reads {a b c : StoreCtl} (h : StoreQuiet a b) (h' : StoreServed b c) : StoreServed a c where
  wf hw := h'.wf (by rw [h.bytes]; exact hw)
  damaged := h'.damaged ∘ h.damaged
  versions pg := by rw [← h.versions, ← h.bytes]; exact h'.versions pg

theorem quiet_of_touches {T : Part → Bool} {s t : State} (bytes : T .bytes = false) (damage : T .damage = false)
    (versions : T .versions = false) (h : Touches T s t) : StoreQuiet s.store t.store := by
  obtain ⟨-, damaged, -⟩ := h .damage damage
  exact ⟨(h .bytes bytes).1, h .versions versions, fun ok => by rw [DamagedOk, damaged]; exact ok⟩

/-! ## The damaged-line list -/

theorem damagedOk_enter {st : StoreCtl} (l : LineNo) (ok : DamagedOk st) : DamagedOk (st.enterDamaged l) := by
  obtain ⟨short, once⟩ := ok
  unfold StoreCtl.enterDamaged
  split
  · exact ⟨short, once⟩
  · next new =>
    split
    · next room =>
      refine ⟨by rw [List.length_append, List.length_singleton]; exact room, List.nodup_append.2 ⟨once, List.nodup_singleton l, fun x hx y hy => ?_⟩⟩
      rw [List.mem_singleton.1 hy]
      rintro rfl
      exact new (List.contains_iff_mem.2 hx)
    · exact ⟨short, once⟩

theorem damagedOk_readCheck {st : StoreCtl} (l : LineNo) (o : ReadOutcome) (ok : DamagedOk st) :
    DamagedOk (st.readCheck l o).1 := by
  cases o with
  | good => exact ok
  | corrected => exact ok
  | uncorrectable => exact damagedOk_enter l ok

theorem damagedOk_undamage {st : StoreCtl} (f : LineNo → Bool) (ok : DamagedOk st) : DamagedOk (st.undamage f) :=
  ⟨(List.length_filter_le _ _).trans ok.1, ok.2.filter _⟩

theorem damagedOk_damageCheck (es : List Entry) (pg : Page) (lns : List (Fin 16)) {st : StoreCtl} (reads : List ReadOutcome)
    (ok : DamagedOk st) : DamagedOk (st.damageCheck es pg reads lns).1 := by
  induction lns generalizing st reads with
  | nil => exact ok
  | cons ln lns ih =>
    unfold StoreCtl.damageCheck
    split
    · exact ih reads ok
    · split
      · exact ok
      · have checked := damagedOk_readCheck (lineNo pg ln) (reads.headD .good) ok
        dsimp only
        split
        · exact ih reads.tail checked
        · exact checked

theorem damagedOk_commitCheck (sup : Port) (h : HoldCtl) (q : Port) (es : List Entry) (pgs : List Page) {st : StoreCtl}
    (reads : List ReadOutcome) (ok : DamagedOk st) : DamagedOk (st.commitCheck sup h q es reads pgs).1 := by
  induction pgs generalizing st reads with
  | nil => exact ok
  | cons pg pgs ih =>
    have checked := damagedOk_damageCheck es pg allLines reads ok
    unfold StoreCtl.commitCheck
    split
    · exact ok
    · split
      · exact ok
      · dsimp only
        split
        · exact checked
        · exact ih _ checked

theorem damagedOk_readSource (src : Page) (lns : List (Fin 16)) {st : StoreCtl} (reads : List ReadOutcome)
    (ok : DamagedOk st) : DamagedOk (st.readSource src reads lns).1 := by
  induction lns generalizing st reads with
  | nil => exact ok
  | cons ln lns ih =>
    have checked := damagedOk_readCheck (lineNo src ln) (reads.headD .good) ok
    unfold StoreCtl.readSource
    dsimp only
    split
    · exact ih _ checked
    · exact checked

theorem damagedOk_damageClear {st : StoreCtl} (sup p : Port) (line : Half) (ok : DamagedOk st) :
    DamagedOk (st.damageClear sup p line).1 := by
  unfold StoreCtl.damageClear
  dsimp only
  split_ifs
  · exact ok
  · exact ok
  · exact ok
  · exact damagedOk_undamage _ ok
  · exact ok

/-! ## Services -/

theorem serveFetch_quiet (h : HoldCtl) (q : Port) (pg : Page) (ln : Fin 16) (o : ReadOutcome) (st : StoreCtl) :
    StoreQuiet st (st.serveFetch h q pg ln o).1 := by
  obtain ⟨bytes, -, pages⟩ := serveFetch_keeps h q pg ln o st
  refine ⟨bytes, fun pg => by rw [pages], fun ok => ?_⟩
  unfold StoreCtl.serveFetch
  split_ifs
  · exact ok
  · exact ok
  · exact ok
  · exact damagedOk_readCheck _ o ok

theorem commitCheck_quiet (sup : Port) (h : HoldCtl) (q : Port) (es : List Entry) (pgs : List Page) (st : StoreCtl)
    (reads : List ReadOutcome) : StoreQuiet st (st.commitCheck sup h q es reads pgs).1 := by
  obtain ⟨bytes, -, pages⟩ := commitCheck_keeps sup h q es pgs st reads
  exact ⟨bytes, fun pg => by rw [pages], damagedOk_commitCheck sup h q es pgs reads⟩

theorem readSource_quiet (src : Page) (lns : List (Fin 16)) (st : StoreCtl) (reads : List ReadOutcome) :
    StoreQuiet st (st.readSource src reads lns).1 := by
  obtain ⟨bytes, -, pages⟩ := readSource_keeps src lns st reads
  exact ⟨bytes, fun pg => by rw [pages], damagedOk_readSource src lns reads⟩

/-- Pages whose version is raised exactly where `f` holds, and whose bytes change only there. -/
theorem versions_bumped {f : Page → Bool} {a b : StoreCtl} (pages : b.pages = bumpVersions f a.pages)
    (bytes : ∀ pg, f pg = false → ∀ off : Byte,
      Memory.read b.bytes (storeAddr pg off) = Memory.read a.bytes (storeAddr pg off)) (pg : Page) :
    (b.pages[pg].version = a.pages[pg].version ∨ b.pages[pg].version = a.pages[pg].version + 1) ∧
      ∀ off : Byte, Memory.read b.bytes (storeAddr pg off) ≠ Memory.read a.bytes (storeAddr pg off) →
        b.pages[pg].version = a.pages[pg].version + 1 := by
  rw [pages, bumpVersions_get]
  cases e : f pg with
  | true => exact ⟨.inr rfl, fun _ _ => rfl⟩
  | false => exact ⟨.inl rfl, fun off changed => absurd (bytes pg e off) changed⟩

theorem applyCommit_served (es : List Entry) (st : StoreCtl) : StoreServed st (st.applyCommit es) where
  wf hw := Memory.wf_writeEntries es hw
  damaged := damagedOk_undamage _
  versions := versions_bumped (f := fun pg => es.any fun e => e.page == pg) rfl fun pg unwritten off =>
    Memory.read_writeEntries_of_not fun e he same => by
      have page : e.page = pg := (storeAddr_inj.1 same).1
      simp only [List.any_eq_false] at unwritten
      exact unwritten e he (by simp [page])

theorem applyTransfer_bytes (src dst : Page) (st : StoreCtl) :
    (st.applyTransfer src dst).bytes = Memory.copyPage st.bytes src dst := by
  simp only [StoreCtl.applyTransfer, StoreCtl.undamage]

theorem applyTransfer_served (src dst : Page) (st : StoreCtl) : StoreServed st (st.applyTransfer src dst) where
  wf hw := by
    rw [applyTransfer_bytes]
    exact Memory.wf_copyPage src dst hw
  damaged ok := by
    have kept := damagedOk_undamage (fun l => linePage l == dst) ok
    simpa only [DamagedOk, StoreCtl.applyTransfer, StoreCtl.undamage] using kept
  versions := versions_bumped (f := fun pg => pg == dst) (by rw [StoreCtl.applyTransfer]; rfl) fun pg unwritten off => by
    rw [applyTransfer_bytes]
    refine Memory.read_copyPage_other src dst st.bytes fun off' same => ?_
    have page : dst = pg := (storeAddr_inj.1 same).1
    simp [page] at unwritten

theorem serveCommit_served (sup : Port) (h : HoldCtl) (q : Port) (es : List Entry) (reads : List ReadOutcome)
    (st : StoreCtl) : StoreServed st (st.serveCommit sup h q es reads).1 := by
  have checked := commitCheck_quiet sup h q es (touchedPages es) st reads
  unfold StoreCtl.serveCommit
  dsimp only
  split
  · exact checked.served
  · exact .after_reads checked (applyCommit_served es _)

theorem serveTransfer_served (sup : Port) (h : HoldCtl) (q : Port) (src dst : Page) (reads : List ReadOutcome)
    (st : StoreCtl) : StoreServed st (st.serveTransfer sup h q src dst reads).1 := by
  have checked := readSource_quiet src allLines st reads
  rcases serveTransfer_cases sup h q src dst reads st with ⟨r, -, refused⟩ | damaged | ⟨-, -, done⟩
  · rw [refused]
    exact (StoreQuiet.refl st).served
  · rw [damaged]
    exact checked.served
  · rw [done]
    exact .after_reads checked (applyTransfer_served src dst _)

/-! ## What became due -/

theorem answer_store (c : Claim) (a : Answer) (s : State) : (s.answer c a).store = s.store := by
  obtain ⟨v, hv⟩ := answer_cmds c a s
  rw [hv]

theorem raiseAll_store (es : List Event) (s : State) : (s.raiseAll es).store = s.store := by
  obtain ⟨v, hv⟩ := raiseAll_attn es s
  rw [hv]

theorem runDue_damagedOk (a : DueAct) {s : State} (ok : DamagedOk s.store) : DamagedOk (s.runDue a).store := by
  have owned (p : Port) (code : Byte) (act : Claim → State → State × Answer)
      (taken : ∀ c cs, DamagedOk (act c (s.setClaims cs)).1.store) : DamagedOk (s.takeOwned p code act).store :=
    takeOwned_keeps (P := fun t => DamagedOk t.store) (fun t c x ht => by rw [answer_store]; exact ht) taken ok
  cases a with
  | claim p code =>
    show DamagedOk (s.claimAct p code).store
    unfold State.claimAct
    split_ifs
    · exact owned _ _ _ fun c cs => ok
    · exact owned _ _ _ fun c cs => ok
    · exact owned _ _ _ fun c cs => by rw [raiseAll_store]; exact ok
    · exact owned _ _ _ fun c cs => ok
    · refine owned _ _ _ fun c cs => ?_
      obtain ⟨-, -, -, damaged, -⟩ := takePolicy_keeps s.device.supervisor p (c.arg 1).toNat (c.arg 2).toNat (c.arg 3)
        (c.arg 4) s.store s.notice
      exact ⟨damaged ▸ ok.1, damaged ▸ ok.2⟩
    · exact owned _ _ _ fun c cs => ok
    · exact owned _ _ _ fun c cs => damagedOk_damageClear _ _ _ ok
    · exact ok
  | tick =>
    show DamagedOk (State.raiseAll _ _).store
    rw [raiseAll_store]
    exact ok
  | holdReset p =>
    show DamagedOk (s.holdResetAct p).store
    unfold State.holdResetAct
    split
    · dsimp only
      rw [modCmd_store, raiseAll_store]
      exact ok
    · exact ok

/-- All parts but the store's bytes and the versions. -/
def beside (x : Part) : Bool :=
  match x with
  | .bytes | .versions => false
  | _ => true

theorem runDue_quiet (a : DueAct) (s : State) : StoreQuiet s.store (s.runDue a).store := by
  have frame : Touches beside s (s.runDue a) :=
    runDue_touches a rfl rfl rfl rfl rfl (fun _ => rfl) (fun _ => rfl) (Touches.refl _ s)
  exact ⟨(frame .bytes rfl).1, frame .versions rfl, runDue_damagedOk a⟩

theorem arbitrate_store (s : State) : s.arbitrate.store = s.store := by
  rcases arbitrate_cases s with same | ⟨r, -, -, chosen⟩
  · rw [same]
  · rw [chosen]
    rfl

theorem endService_quiet (s : State) : StoreQuiet s.store s.endService.store := by
  have acts (due : List DueAct) (t : State) : StoreQuiet t.store (due.foldl (fun s a => s.runDue a) t).store := by
    induction due generalizing t with
    | nil => exact .refl _
    | cons a due ih => exact (runDue_quiet a t).trans (ih _)
  unfold State.endService
  rw [arbitrate_store]
  exact acts s.arbiter.due (s.setArbiter { s.arbiter with inService := none, due := [] })

theorem takeOutcome_store (s : State) : s.takeOutcome.store = s.store := by
  unfold State.takeOutcome
  split
  · rw [raiseAll_store]
    rfl
  · rfl

theorem endPortService_quiet (s : State) : StoreQuiet s.store s.endPortService.store := by
  rw [← takeOutcome_store s]
  exact endService_quiet s.takeOutcome

/-! ## What a command makes of the store -/

theorem completedStore_served (reads : List ReadOutcome) (s : State) : StoreServed s.store (s.completedStore reads) := by
  have same : StoreServed s.store s.store := (StoreQuiet.refl _).served
  unfold State.completedStore
  split
  · exact same
  · split
    · split
      · exact serveCommit_served _ _ _ _ _ _
      · exact (serveFetch_quiet _ _ _ _ _ _).served
      · exact same
    · split
      · exact serveTransfer_served _ _ _ _ _ _ _
      · exact same

theorem deviceReset_quiet (st : StoreCtl) : StoreQuiet st st.deviceReset :=
  ⟨rfl, fun pg => by simp [StoreCtl.deviceReset], fun _ => ⟨Nat.zero_le _, List.nodup_nil⟩⟩

/-- The store that a port's record and what waits behind it leave. -/
theorem returned_store {p : Port} {s t : State} (h : Touches (fun x => x == .unit p || x == .command p || x == .attention p) s t) :
    StoreQuiet s.store t.store := quiet_of_touches rfl rfl rfl h

theorem deliver_quiet (p : Port) (f : Fetch) (r : FetchReply) (s : State) : StoreQuiet s.store (s.deliver p f r).store :=
  returned_store (p := p) (deliver_touches p f r (by simp) (by simp) (by simp) (Touches.refl _ s))

theorem returnCommit_quiet (p : Port) (r : TxStatus) (s : State) : StoreQuiet s.store (s.returnCommit p r).store :=
  returned_store (p := p) (returnCommit_touches p r (by simp) (by simp) (by simp) (Touches.refl _ s))

theorem postAll_store (ws : List PageWrite) (s : State) : (s.postAll ws).store = s.store := by
  unfold State.postAll
  rw [raiseAll_store]
  rfl

theorem lineFetch_served (p : Port) (o : ReadOutcome) (s : State) : StoreServed s.store (s.lineFetch p o).store := by
  unfold State.lineFetch
  split
  · next f _ =>
    refine ((serveFetch_quiet s.holds p f.page f.line o s.store).trans ?_).served.quiet (endPortService_quiet _)
    exact deliver_quiet p f _ (s.setStore _)
  · exact (StoreQuiet.refl _).served

theorem commit_served (p : Port) (reads : List ReadOutcome) (s : State) : StoreServed s.store (s.commit p reads).store := by
  unfold State.commit
  split
  · next es _ =>
    refine ((serveCommit_served s.device.supervisor s.holds p es reads s.store).quiet ?_).quiet (endPortService_quiet _)
    have posted := returnCommit_quiet p (s.store.serveCommit s.device.supervisor s.holds p es reads).2.record
      ((s.setStore (s.store.serveCommit s.device.supervisor s.holds p es reads).1).postAll
        (s.store.serveCommit s.device.supervisor s.holds p es reads).2.posting)
    rwa [postAll_store] at posted
  · exact (StoreQuiet.refl _).served

theorem pageTransfer_served (reads : List ReadOutcome) (s : State) : StoreServed s.store (s.pageTransfer reads).store := by
  unfold State.pageTransfer
  split
  · next src dst q _ =>
    refine StoreServed.quiet ?_ (endService_quiet _)
    show StoreServed s.store (State.postAll _ _).store
    rw [postAll_store]
    exact serveTransfer_served s.device.supervisor s.holds q src dst reads s.store
  · exact (StoreQuiet.refl _).served

theorem resetFall_served (completed : Bool) (reads : List ReadOutcome) (s : State) :
    StoreServed s.store (s.resetFall completed reads).store := by
  unfold State.resetFall
  split
  · exact (StoreQuiet.refl _).served
  · refine StoreServed.quiet ?_ (deviceReset_quiet _)
    split
    · exact completedStore_served reads s
    · exact (StoreQuiet.refl _).served

/-- The commands that put the store to its reset value or clear it. -/
def ClearsStore : Instr → Prop
  | .powerOnReset _ | .startUpClearEnd => True
  | _ => False

theorem after_served {i : Instr} (s : State) (hi : ¬ ClearsStore i) : StoreServed s.store (s.after i).store := by
  have same : StoreServed s.store s.store := (StoreQuiet.refl _).served
  by_cases untouched : touchedBy i .bytes = false ∧ touchedBy i .damage = false ∧ touchedBy i .versions = false
  · obtain ⟨bytes, damage, versions⟩ := untouched
    exact (quiet_of_touches bytes damage versions (after_touches i s)).served
  · cases i with
    | powerOnReset | startUpClearEnd => exact absurd trivial hi
    | resetNFall completed reads => exact resetFall_served completed reads s
    | lineFetch p o =>
      show StoreServed s.store (if s.serving (portRequester p) then s.lineFetch p o else s).store
      split <;> [exact lineFetch_served p o s; exact same]
    | commit p reads =>
      show StoreServed s.store (if s.serving (portRequester p) then s.commit p reads else s).store
      split <;> [exact commit_served p reads s; exact same]
    | pageTransfer reads =>
      show StoreServed s.store (if s.serving copyEngine then s.pageTransfer reads else s).store
      split <;> [exact pageTransfer_served reads s; exact same]
    | damageClear p =>
      refine StoreQuiet.served ?_
      show StoreQuiet s.store (s.whenRunning (State.betweenRequests (.claim p cDAMAGE_CLEAR))).store
      unfold State.whenRunning State.betweenRequests
      split_ifs
      · rw [arbitrate_store]
        exact runDue_quiet _ s
      · exact .refl _
      · exact .refl _
      · exact .refl _
    | _ => exact absurd ⟨by simp [touchedBy, busParts], by simp [touchedBy, busParts], by simp [touchedBy, busParts]⟩ untouched

theorem idle_store (s : State) : StoreQuiet s.store s.idle.store :=
  quiet_of_touches (T := fun x => x != .bytes && x != .damage && x != .versions) rfl rfl rfl
    (idle_touches (fun _ => rfl) rfl (Touches.refl _ s))

/-- A step's store, unless the front command clears it. -/
theorem step_served {s t : State} (h : step s = .next t) (keeps : ∀ i, s.pending.head? = some i → ¬ ClearsStore i) :
    StoreServed s.store t.store := by
  rcases step_cases h with ⟨-, rfl⟩ | ⟨i, rest, queue, rfl⟩
  · exact (idle_store s).served
  · exact after_served (s.setPending rest) (keeps i (by rw [queue]; rfl))

theorem step_front {i : Instr} {s t : State} (h : step s = .next t) (front : s.pending.head? = some i) :
    t = (s.setPending s.pending.tail).after i := by
  rcases step_cases h with ⟨empty, -⟩ | ⟨j, rest, queue, rfl⟩
  · rw [empty] at front
    cases front
  · rw [queue] at front ⊢
    rw [Option.some.inj front]
    rfl

theorem clearEnd_version (s : State) (pg : Page) :
    s.clearEnd.store.pages[pg].version = s.store.pages[pg].version := by
  unfold State.clearEnd
  split <;> rfl

/-- Settles O22: services write and raise versions together; the reset values and the clear are read off. -/
theorem versionsCountWrites : Obligations.VersionsCountWrites := by
  unfold Obligations.VersionsCountWrites
  refine ⟨fun s t h noReset noClear => ?_, fun s t x h front pg => ?_, fun s t h front pg => ?_⟩
  · refine (step_served h fun i front clears => ?_).versions
    cases i with
    | powerOnReset x => exact noReset x front
    | startUpClearEnd => exact noClear front
    | _ => exact clears
  · rw [step_front h front]
    show (State.reset.store.pages[pg]).version = 0
    simp [State.reset, StoreCtl.reset, PageEntry.reset]
  · rw [step_front h front]
    exact clearEnd_version (s.setPending s.pending.tail) pg

/-- What `StoreServed` keeps and a cleared store has, every step keeps. -/
theorem step_keeps_store {P : StoreCtl → Prop} (served : ∀ a b, StoreServed a b → P a → P b) (reset : P StoreCtl.reset)
    (cleared : ∀ a, P a → P a.cleared) {s t : State} (h : step s = .next t) (hs : P s.store) : P t.store := by
  rcases step_cases h with ⟨-, rfl⟩ | ⟨i, rest, -, rfl⟩
  · exact served _ _ (idle_store s).served hs
  · by_cases clears : ClearsStore i
    · cases i with
      | powerOnReset x => exact reset
      | startUpClearEnd =>
        show P (s.setPending rest).clearEnd.store
        unfold State.clearEnd
        split
        · exact cleared _ hs
        · exact hs
      | _ => exact clears.elim
    · exact served _ _ (after_served (s.setPending rest) clears) hs

theorem step_keeps_wf {s t : State} (wf : Memory.wf s.store.bytes = true) (h : step s = .next t) :
    Memory.wf t.store.bytes = true :=
  step_keeps_store (P := fun st => Memory.wf st.bytes = true) (fun _ _ served => served.wf) rfl (fun _ _ => rfl) h wf

theorem step_keeps_damagedOk {s t : State} (h : step s = .next t) (ok : DamagedOk s.store) : DamagedOk t.store :=
  step_keeps_store (fun _ _ served => served.damaged) ⟨Nat.zero_le _, List.nodup_nil⟩ (fun _ ok => ok) h ok

end Sys2Proof.Machine

/-! The form of the notice queues and of the copy queue, kept by every step (O56). -/

namespace Sys2Proof.Machine

open Sys2Proof.Safety

/-! ## Notice queues -/

/-- The form of the notice queue of port `p` (R76). -/
def QueueOk (p : Port) (q : NoticeQueue) : Prop :=
  q.records.length ≤ 16 ∧ (q.records.map Notice.page).Nodup ∧ ∀ r ∈ q.records, r.writer ≠ .port p

theorem queueOk_nil (p : Port) (lost : Byte) (last : Page) : QueueOk p ⟨[], lost, last⟩ :=
  ⟨Nat.zero_le _, List.nodup_nil, fun _ h => absurd h List.not_mem_nil⟩

theorem queueOk_post {p : Port} {q : NoticeQueue} {w : PageWrite} (other : p ≠ w.writer) (ok : QueueOk p q) :
    QueueOk p (q.post w).1 := by
  obtain ⟨short, once, writers⟩ := ok
  by_cases has : ∃ n ∈ q.records, n.page = w.page
  · rw [post_merged has]
    have pages : (q.records.map fun n => if n.page = w.page then n.merge w else n).map Notice.page =
        q.records.map Notice.page := by
      rw [List.map_map]
      exact List.map_congr_left fun n _ => by simp only [Function.comp]; split <;> rfl
    refine ⟨by simpa using short, by rw [pages]; exact once, fun r hr => ?_⟩
    obtain ⟨n, hn, rfl⟩ := List.mem_map.1 hr
    split
    · rw [merge_eq]
      dsimp only
      split
      · exact writers n hn
      · exact fun h => Writer.noConfusion h
    · exact writers n hn
  · have new : ∀ n ∈ q.records, n.page ≠ w.page := by simpa using has
    by_cases room : q.records.length < 16
    · rw [post_appended new room]
      refine ⟨?_, ?_, fun r hr => ?_⟩
      · rw [List.length_append, List.length_singleton]
        exact room
      · rw [List.map_append, List.nodup_append]
        refine ⟨once, List.nodup_singleton _, fun x hx y hy => ?_⟩
        obtain ⟨n, hn, rfl⟩ := List.mem_map.1 hx
        rw [List.mem_singleton.1 hy]
        exact new n hn
      · rcases List.mem_append.1 hr with old | isNew
        · exact writers r old
        · rw [List.mem_singleton.1 isNew]
          exact fun h => other (Writer.port.inj h).symm
    · rw [post_dropped new (Nat.le_of_not_lt room)]
      exact ⟨short, once, writers⟩

theorem queueOk_pop {p : Port} {q : NoticeQueue} (ok : QueueOk p q) : QueueOk p q.pop.1 := by
  obtain ⟨short, once, writers⟩ := ok
  cases e : q.records with
  | nil =>
    rw [pop_empty e]
    exact queueOk_nil p 0 0
  | cons n rs =>
    rw [pop_record e]
    rw [e] at short once writers
    exact ⟨Nat.le_of_succ_le short, (List.nodup_cons.1 once).2, fun r hr => writers r (List.mem_cons_of_mem n hr)⟩

theorem noticesOk_postPage {n : NoticeUnit} (w : PageWrite) (ok : NoticesOk n) :
    NoticesOk (NoticeUnit.postPage (n, []) w).1 := by
  intro p
  rw [postPage_queue]
  unfold NoticeUnit.queueAfter
  split
  · next reached =>
    have other : p ≠ w.writer := by
      simp only [NoticeUnit.reaches, Bool.and_eq_true, bne_iff_ne] at reached
      exact reached.2
    exact queueOk_post other (ok p)
  · exact ok p

theorem noticesOk_post {n : NoticeUnit} (ws : List PageWrite) (ok : NoticesOk n) : NoticesOk (n.post ws).1 := by
  induction ws generalizing n with
  | nil => exact ok
  | cons w ws ih =>
    rw [post_cons]
    exact ih (noticesOk_postPage w ok)

/-- A queue in form put in the place of port `p`'s. -/
theorem noticesOk_set {n m : NoticeUnit} {p : Port} {q : NoticeQueue} (queues : m.queues = n.queues.set p q) (ok : NoticesOk n)
    (hq : QueueOk p q) : NoticesOk m := by
  intro r
  have queue : m.queues[r] = (upd n.queues p fun _ => q)[r] := by rw [queues]; rfl
  rw [queue, upd_get]
  by_cases e : p = r
  · subst e
    rw [if_pos rfl]
    exact hq
  · rw [if_neg e]
    exact ok r

theorem noticesOk_pop {n : NoticeUnit} (p : Port) (ok : NoticesOk n) : NoticesOk (n.pop p).1 :=
  noticesOk_set rfl ok (queueOk_pop (ok p))

theorem noticesOk_resetPart {n : NoticeUnit} (p : Port) (ok : NoticesOk n) : NoticesOk (n.resetPart p) :=
  noticesOk_set rfl ok (queueOk_nil p 0 0)

theorem noticesOk_reset : NoticesOk NoticeUnit.reset := by
  intro p
  have empty : NoticeUnit.reset.queues[p] = NoticeQueue.empty := by simp [NoticeUnit.reset]
  rw [empty]
  exact queueOk_nil p 0 0

/-! ## What becomes of the notice queues -/

/-- All parts but the notice queues. -/
def besideNotices (x : Part) : Bool :=
  match x with
  | .notices _ => false
  | _ => true

theorem noticesOk_of_touches {T : Part → Bool} {s t : State} (untouched : ∀ q, T (.notices q) = false) (h : Touches T s t)
    (ok : NoticesOk s.notice) : NoticesOk t.notice := by
  intro p
  have same : t.notice.queues[p] = s.notice.queues[p] := h (.notices p) (untouched p)
  rw [same]
  exact ok p

theorem noticesOk_beside {s t : State} (h : Touches besideNotices s t) (ok : NoticesOk s.notice) : NoticesOk t.notice :=
  noticesOk_of_touches (fun _ => rfl) h ok

/-- Obtaining a line pops the port's queue, if anything. -/
theorem obtain_noticesOk (acts : Bool) (p : Port) {s : State} (ok : NoticesOk s.notice) : NoticesOk (s.obtain acts p).notice := by
  unfold State.obtain
  dsimp only
  split
  · split
    · split_ifs
      · exact ok
      · exact ok
      · exact noticesOk_pop p ok
      · exact ok
      · exact ok
    · exact ok
    · split_ifs <;> exact ok
  · exact ok

theorem settle_noticesOk (p : Port) {s : State} (ok : NoticesOk s.notice) : NoticesOk (s.settle p).notice := by
  have before : Touches besideNotices s (((s.takeReadyControl p).examineAll p).takeAllDones p) :=
    takeAllDones_touches p rfl (examineAll_touches p rfl rfl (takeReadyControl_touches p rfl rfl rfl rfl (Touches.refl _ s)))
  exact noticesOk_beside (gather_touches p rfl rfl (Touches.refl besideNotices _))
    (obtain_noticesOk true p (noticesOk_beside before ok))

theorem busEvent_noticesOk {p : Port} {f : State → State} {s : State}
    (act : ∀ t, NoticesOk t.notice → NoticesOk (f t).notice) (ok : NoticesOk s.notice) : NoticesOk (s.busEvent p f).notice := by
  unfold State.busEvent State.whenRunning
  split
  · exact noticesOk_beside (arbitrate_touches rfl (Touches.refl besideNotices _)) (act _ (settle_noticesOk p ok))
  · exact ok

/-- A bus event whose own act leaves the queues. -/
theorem busEvent_noticesOk_beside {p : Port} {f : State → State} {s : State} (act : ∀ t, Touches besideNotices t (f t))
    (ok : NoticesOk s.notice) : NoticesOk (s.busEvent p f).notice :=
  busEvent_noticesOk (fun t => noticesOk_beside (act t)) ok

theorem beginTwoWire_touches_unit {T : Part → Bool} {s₀ s : State} (p : Port) (d : Direction) (unit : T (.unit p) = true)
    (h : Touches T s₀ s) : Touches T s₀ (s.beginTwoWire p d) := by
  cases d with
  | write => exact modPort_touches p _ unit h
  | read => exact obtain_false_touches p unit (modPort_touches p _ unit h)

theorem start_noticesOk (p : Port) (target : BitVec 7) (d : Direction) (t : State) (ok : NoticesOk t.notice) :
    NoticesOk (t.start p target d).notice := by
  have settled := settle_noticesOk p (noticesOk_beside (endTransaction_touches p rfl rfl rfl (Touches.refl besideNotices t)) ok)
  unfold State.start
  dsimp only
  split
  · exact noticesOk_beside (beginTwoWire_touches_unit p d rfl (Touches.refl besideNotices _)) settled
  · rw [modPort_notice]
    exact settled

theorem readSlot_noticesOk (t : State) (ok : NoticesOk t.notice) : NoticesOk t.readSlot.notice := by
  have obtained : NoticesOk t.obtainAtSlot.notice := by
    unfold State.obtainAtSlot
    split
    · exact obtain_noticesOk true spi ok
    · exact ok
  unfold State.readSlot
  dsimp only
  split
  · exact ok
  · split
    · exact obtained
    · exact ok

theorem lastResetPart_noticesOk (p : Port) {s : State} (ok : NoticesOk s.notice) : NoticesOk (s.lastResetPart p).notice := by
  unfold State.lastResetPart
  split
  · next r _ =>
    split
    · exact noticesOk_beside (arbitrate_touches rfl (portUnitResetAct_touches p r rfl rfl rfl rfl
        (Touches.refl besideNotices _))) (settle_noticesOk p ok)
    · exact ok
  · exact ok

theorem obtainNow_noticesOk {p : Port} {ln : Fin 16} {s : State} (ok : NoticesOk s.notice) :
    NoticesOk (s.whenRunning fun s => if s.obtainsLine p ln then s.obtainNow p else s).notice := by
  unfold State.whenRunning
  split
  · dsimp only
    split
    · exact obtain_noticesOk true p ok
    · exact ok
  · exact ok

theorem endPortService_noticesOk {s : State} (ok : NoticesOk s.notice) : NoticesOk s.endPortService.notice :=
  noticesOk_beside (endPortService_touches_due (fun x hx => by cases x <;> trivial) rfl (Touches.refl besideNotices s)) ok

theorem endService_noticesOk {s : State} (ok : NoticesOk s.notice) : NoticesOk s.endService.notice :=
  noticesOk_beside (endService_touches rfl rfl rfl rfl rfl (fun _ => rfl) (fun _ => rfl) rfl (Touches.refl besideNotices s)) ok

theorem postAll_noticesOk (ws : List PageWrite) {s : State} (ok : NoticesOk s.notice) : NoticesOk (s.postAll ws).notice :=
  noticesOk_beside (raiseAll_touches _ (fun _ _ => rfl) (Touches.refl besideNotices _)) (noticesOk_post ws ok)

theorem commit_noticesOk (p : Port) (reads : List ReadOutcome) {s : State} (ok : NoticesOk s.notice) :
    NoticesOk (s.commit p reads).notice := by
  unfold State.commit
  split
  · exact endPortService_noticesOk (noticesOk_beside (returnCommit_touches p _ rfl rfl rfl (Touches.refl besideNotices _))
      (postAll_noticesOk _ ok))
  · exact ok

theorem pageTransfer_noticesOk (reads : List ReadOutcome) {s : State} (ok : NoticesOk s.notice) :
    NoticesOk (s.pageTransfer reads).notice := by
  unfold State.pageTransfer
  split
  · exact endService_noticesOk (postAll_noticesOk _ ok)
  · exact ok

theorem after_noticesOk (i : Instr) {s : State} (ok : NoticesOk s.notice) : NoticesOk (s.after i).notice := by
  by_cases untouched : ∀ q, touchedBy i (.notices q) = false
  · exact noticesOk_of_touches untouched (after_touches i s) ok
  · cases i with
    | powerOnReset x => exact noticesOk_reset
    | resetNFall completed reads =>
      show NoticesOk (s.resetFall completed reads).notice
      unfold State.resetFall
      split
      · exact ok
      · exact noticesOk_reset
    | twoWireStart p target dir =>
      show NoticesOk (if s.running then s.busEvent p.port (State.start p.port target dir)
        else s.modPort p.port (PortUnit.respond p.port false)).notice
      split
      · exact busEvent_noticesOk (start_noticesOk p.port target dir) ok
      · exact ok
    | addressHighByte p b => exact busEvent_noticesOk_beside (fun t => modPort_touches _ _ rfl (Touches.refl _ t)) ok
    | addressLowByte p b => exact busEvent_noticesOk_beside (fun t => modPort_touches _ _ rfl (Touches.refl _ t)) ok
    | twoWireWriteByte p b =>
      show NoticesOk (s.busEvent p.port fun s =>
        s.modPort p.port (PortUnit.writeByte p.port s.translators[p.port] b)).notice
      exact busEvent_noticesOk_beside (fun t => modPort_touches _ _ rfl (Touches.refl _ t)) ok
    | twoWireReadByte p ack =>
      show NoticesOk (s.busEvent p.port fun s =>
        (s.modPort p.port (PortUnit.readByte ack)).obtain false p.port).notice
      exact busEvent_noticesOk_beside
        (fun t => obtain_false_touches _ rfl (modPort_touches _ _ rfl (Touches.refl _ t))) ok
    | spiCsFall =>
      show NoticesOk (if s.device.csLow then s
        else (s.setDevice { s.device with csLow := true }).busEvent spi State.csFall).notice
      split
      · exact ok
      · exact busEvent_noticesOk_beside (fun t => csFall_touches rfl (Touches.refl _ t)) ok
    | spiWrite => exact busEvent_noticesOk_beside (fun t => modPort_touches _ _ rfl (Touches.refl _ t)) ok
    | spiRead => exact busEvent_noticesOk_beside (fun t => modPort_touches _ _ rfl (Touches.refl _ t)) ok
    | spiStatus => exact busEvent_noticesOk_beside (fun t => spiStatus_touches rfl (Touches.refl _ t)) ok
    | spiUnknownOpcode op => exact busEvent_noticesOk_beside (fun t => unknownOpcode_touches op rfl (Touches.refl _ t)) ok
    | spiWriteSlot b =>
      show NoticesOk (s.busEvent spi fun s => s.modPort spi (PortUnit.writeSlot s.translators[spi] b)).notice
      exact busEvent_noticesOk_beside (fun t => modPort_touches _ _ rfl (Touches.refl _ t)) ok
    | spiReadSlot => exact busEvent_noticesOk readSlot_noticesOk ok
    | transactionEnd p =>
      show NoticesOk ((s.setDevice (s.device.afterEnd p)).busEvent p (State.stop p)).notice
      exact busEvent_noticesOk_beside (fun t => stop_touches p rfl rfl rfl (Touches.refl _ t)) ok
    | commit p reads =>
      show NoticesOk (if s.serving (portRequester p) then s.commit p reads else s).notice
      split <;> [exact commit_noticesOk p reads ok; exact ok]
    | pageTransfer reads =>
      show NoticesOk (if s.serving copyEngine then s.pageTransfer reads else s).notice
      split <;> [exact pageTransfer_noticesOk reads ok; exact ok]
    | noticeResetPart p =>
      show NoticesOk (s.whenRunning (State.resetPart p .notice .copy (State.noticeResetAct p))).notice
      unfold State.whenRunning State.resetPart
      split_ifs
      · exact noticesOk_resetPart p (noticesOk_beside (examineAll_touches p rfl rfl (Touches.refl besideNotices s)) ok)
      · exact ok
      · exact ok
    | portUnitResetPart p =>
      show NoticesOk (s.whenRunning (State.lastResetPart p)).notice
      unfold State.whenRunning
      split <;> [exact lastResetPart_noticesOk p ok; exact ok]
    | noticePop p => exact obtainNow_noticesOk ok
    | _ => exact absurd (fun q => by simp [touchedBy, dueParts]) untouched

theorem step_keeps_noticesOk {s t : State} (h : step s = .next t) (ok : NoticesOk s.notice) : NoticesOk t.notice :=
  step_keeps (P := fun s => NoticesOk s.notice) (fun _ _ hs => hs)
    (fun s hs => noticesOk_beside (idle_touches (fun _ => rfl) rfl (Touches.refl _ s)) hs) (fun i _ hs => after_noticesOk i hs) h ok

/-! ## The copy queue -/

section
variable {e : CopyEngine}

theorem copyOk_reset : CopyOk CopyEngine.reset :=
  ⟨List.nodup_nil, ⟨fun _ => rfl, fun _ => rfl⟩, fun _ h => absurd h List.not_mem_nil⟩

/-- The engine with the transfer of its active copy issued is in form where its queue is. -/
theorem copyOk_issue (once : (e.queue.map CopyReq.requester).Nodup) (less : ∀ a ∈ e.queue, a.pagesDone < a.count) :
    CopyOk e.issue := by
  unfold CopyEngine.issue
  split
  · next empty => exact ⟨once, ⟨fun _ => empty, fun _ => rfl⟩, less⟩
  · next a rest queue => exact ⟨once, ⟨fun h => Transfer.noConfusion h, fun h => by rw [queue] at h; cases h⟩, less⟩

theorem copyOk_next (once : (e.queue.map CopyReq.requester).Nodup) (less : ∀ a ∈ e.queue.tail, a.pagesDone < a.count) :
    CopyOk e.next := by
  refine copyOk_issue (e := { e with queue := e.queue.tail }) ?_ less
  rw [List.map_tail]
  exact once.sublist (List.tail_sublist _)

/-- A queue of the same requesters, no page count reached, in the place of the engine's. -/
theorem copyOk_queue {q : List CopyReq} {l : Vector LastCopy 4} (ok : CopyOk e)
    (once : (q.map CopyReq.requester).Sublist (e.queue.map CopyReq.requester)) (empty : q = [] ↔ e.queue = [])
    (less : ∀ a ∈ q, a.pagesDone < a.count) : CopyOk { e with queue := q, last := l } :=
  ⟨ok.1.sublist once, ok.2.1.trans empty.symm, less⟩

theorem copyOk_takeCopy (p : Port) (src dst count : Nat) (ok : CopyOk e) : CopyOk (e.takeCopy p src dst count).1 := by
  by_cases ranges : CopyRangesOk src dst count
  · by_cases apart : RangesApart src dst count
    · by_cases free : e.NoneOf p
      · have once : ((e.joined (.fresh p src dst count)).queue.map CopyReq.requester).Nodup := by
          show ((e.queue ++ [CopyReq.fresh p src dst count]).map CopyReq.requester).Nodup
          rw [List.map_append, List.nodup_append]
          refine ⟨ok.1, List.nodup_singleton _, fun x hx y hy => ?_⟩
          obtain ⟨a, ha, rfl⟩ := List.mem_map.1 hx
          rw [List.mem_singleton.1 hy]
          exact free a ha
        have less : ∀ a ∈ (e.joined (.fresh p src dst count)).queue, a.pagesDone < a.count := by
          intro a ha
          rcases List.mem_append.1 ha with old | isNew
          · exact ok.2.2 a old
          · rw [List.mem_singleton.1 isNew]
            exact ranges.1
        by_cases empty : e.queue = []
        · rw [takeCopy_apart ranges apart, has_eq_false_iff.2 free, if_neg Bool.false_ne_true, empty]
          exact copyOk_issue once less
        · rw [takeCopy_joins ranges apart free empty]
          refine ⟨once, ?_, less⟩
          show e.transfer = .none ↔ e.queue ++ _ = []
          rw [ok.2.1]
          simp [empty]
      · rw [takeCopy_busy ranges apart free]
        exact ok
    · rw [takeCopy_overlap ranges apart]
      exact ok
  · rw [takeCopy_badRange ranges]
    exact ok

theorem copyOk_takeCancel (p : Port) (ok : CopyOk e) : CopyOk (e.takeCancel p).1 := by
  by_cases none : e.NoneOf p
  · rw [takeCancel_none none]
    exact ok
  · cases queue : e.queue with
    | nil => exact absurd (fun a ha => by rw [queue] at ha; cases ha) none
    | cons a rest =>
      have less := ok.2.2
      rw [queue] at less
      by_cases active : a.requester = p
      · rw [takeCancel_active queue active]
        refine copyOk_queue (l := e.last) ok (by rw [queue]; exact List.Sublist.refl _) (by simp [queue]) fun x hx => ?_
        rcases List.mem_cons.1 hx with rfl | hx
        · exact less a List.mem_cons_self
        · exact less x (List.mem_cons_of_mem a hx)
      · have queued : ∃ x ∈ rest, x.requester = p := by
          by_contra no
          refine none fun x hx => ?_
          rw [queue] at hx
          rcases List.mem_cons.1 hx with rfl | hx
          · exact active
          · exact fun isOwn => no ⟨x, hx, isOwn⟩
        rw [takeCancel_queued queue active queued]
        refine copyOk_queue ok (by rw [queue]; exact (List.filter_sublist.map _).cons_cons _) (by simp [queue])
          fun x hx => ?_
        rcases List.mem_cons.1 hx with rfl | hx
        · exact less x List.mem_cons_self
        · exact less x (List.mem_cons_of_mem a (List.mem_of_mem_filter hx))

theorem copyOk_resetPart (p : Port) (ok : CopyOk e) : CopyOk (e.resetPart p) := by
  unfold CopyEngine.resetPart
  dsimp only
  split
  · next queue => exact copyOk_queue ok (by simp [queue]) (by simp [queue]) (by simp)
  · next a rest queue =>
    have less := ok.2.2
    rw [queue] at less
    refine copyOk_queue ok ?_ (by simp [queue]) fun x hx => ?_
    · rw [queue]
      have same : (if a.requester = p then { a with silent := true } else a).requester = a.requester := by split <;> rfl
      rw [List.map_cons, List.map_cons, same]
      exact (List.filter_sublist.map _).cons_cons _
    · rcases List.mem_cons.1 hx with rfl | hx
      · have active := less a List.mem_cons_self
        split <;> exact active
      · exact less x (List.mem_cons_of_mem a (List.mem_of_mem_filter hx))

theorem copyOk_finish (a : CopyReq) (st : CopyStatus) (r : Reason) (once : (e.queue.map CopyReq.requester).Nodup)
    (less : ∀ x ∈ e.queue.tail, x.pagesDone < x.count) : CopyOk (e.finish a st r).1 :=
  copyOk_next (e := { e with last := e.last.set a.requester ⟨st, r, a.pagesDone⟩ }) once less

theorem copyOk_takeOutcome (r : Reason) (ok : CopyOk e) : CopyOk (e.takeOutcome r).1 := by
  obtain ⟨once, -, less⟩ := ok
  unfold CopyEngine.takeOutcome
  split
  · next queue => exact ⟨once, ⟨fun _ => queue, fun _ => rfl⟩, less⟩
  · next a rest queue =>
    rw [queue] at once less
    have active := less a List.mem_cons_self
    have others : ∀ x ∈ rest, x.pagesDone < x.count := fun x hx => less x (List.mem_cons_of_mem a hx)
    have once' : (((if r = .none then { a with pagesDone := a.pagesDone + 1 } else a) :: rest).map
        CopyReq.requester).Nodup := by split <;> exact once
    dsimp only
    split
    · exact copyOk_next once' others
    · split
      · exact copyOk_finish _ _ _ once others
      · next returned =>
        have isNone : r = .none := not_not.1 returned
        simp only [isNone, if_true] at once' ⊢
        split
        · exact copyOk_finish _ _ _ once' others
        · next more =>
          split
          · exact copyOk_finish _ _ _ once' others
          · refine copyOk_issue once' fun x hx => ?_
            rcases List.mem_cons.1 hx with rfl | hx
            · exact lt_of_le_of_ne active more
            · exact others x hx

end

/-! ## What becomes of the copy engine -/

theorem answer_copy (c : Claim) (a : Answer) (s : State) : (s.answer c a).copy = s.copy := by
  obtain ⟨v, hv⟩ := answer_cmds c a s
  rw [hv]

theorem raiseAll_copy (es : List Event) (s : State) : (s.raiseAll es).copy = s.copy := by
  obtain ⟨v, hv⟩ := raiseAll_attn es s
  rw [hv]

theorem arbitrate_copy (s : State) : s.arbitrate.copy = s.copy := by
  rcases arbitrate_cases s with same | ⟨r, -, -, chosen⟩
  · rw [same]
  · rw [chosen]
    rfl

theorem copyOk_of_touches {T : Part → Bool} {s t : State} (untouched : T .copy = false) (h : Touches T s t)
    (ok : CopyOk s.copy) : CopyOk t.copy := by
  have same : t.copy = s.copy := h .copy untouched
  rw [same]
  exact ok

theorem endService_copyOk {s : State} (ok : CopyOk s.copy) : CopyOk s.endService.copy :=
  copyOk_of_touches (T := (· != .copy)) rfl
    (endService_touches rfl rfl rfl rfl rfl (fun _ => rfl) (fun _ => rfl) rfl (Touches.refl _ s)) ok

theorem takeOutcome_copyOk {s : State} (ok : CopyOk s.copy) : CopyOk s.takeOutcome.copy := by
  unfold State.takeOutcome
  split
  · rw [raiseAll_copy]
    exact copyOk_takeOutcome _ ok
  · exact ok

/-- A port's request served, which leaves the copy engine, and the end of the service. -/
theorem endPortService_copyOk {s t : State} (served : Touches (· != .copy) s t) (ok : CopyOk s.copy) :
    CopyOk t.endPortService.copy :=
  endService_copyOk (takeOutcome_copyOk (copyOk_of_touches rfl served ok))

/-- A transfer that has returned: the engine still has it outstanding, and its active copy. -/
theorem copyOk_returned {e : CopyEngine} {src dst : Page} {q : Port} (issued : e.transfer = .issued src dst q) (r : Reason)
    (ok : CopyOk e) : CopyOk { e with transfer := .returned r } := by
  obtain ⟨once, outstanding, less⟩ := ok
  refine ⟨once, ⟨fun h => Transfer.noConfusion h, fun empty => ?_⟩, less⟩
  rw [outstanding.2 empty] at issued
  cases issued

theorem owned_copyOk {p : Port} {code : Byte} {act : Claim → State → State × Answer} {s : State}
    (taken : ∀ c cs, CopyOk (act c (s.setClaims cs)).1.copy) (ok : CopyOk s.copy) : CopyOk (s.takeOwned p code act).copy :=
  takeOwned_keeps (P := fun t => CopyOk t.copy) (fun t c a ht => by rw [answer_copy]; exact ht) taken ok

theorem whenRunning_copyOk {f : State → State} {s : State} (act : CopyOk (f s).copy) (ok : CopyOk s.copy) :
    CopyOk (s.whenRunning f).copy := by
  unfold State.whenRunning
  split <;> [exact act; exact ok]

theorem after_copyOk (i : Instr) {s : State} (ok : CopyOk s.copy) : CopyOk (s.after i).copy := by
  by_cases untouched : touchedBy i .copy = false
  · exact copyOk_of_touches untouched (after_touches i s) ok
  · cases i with
    | powerOnReset x => exact copyOk_reset
    | resetNFall completed reads =>
      show CopyOk (s.resetFall completed reads).copy
      unfold State.resetFall
      split
      · exact ok
      · exact copyOk_reset
    | lineFetch p o =>
      show CopyOk (if s.serving (portRequester p) then s.lineFetch p o else s).copy
      unfold State.lineFetch
      split_ifs
      · split
        · exact endPortService_copyOk (serveFetch_touches p o _ rfl rfl rfl rfl (Touches.refl _ s)) ok
        · exact ok
      · exact ok
    | commit p reads =>
      show CopyOk (if s.serving (portRequester p) then s.commit p reads else s).copy
      unfold State.commit
      split_ifs
      · split
        · exact endPortService_copyOk
            (serveCommit_touches p _ reads rfl rfl rfl rfl rfl rfl (fun _ => rfl) (fun _ => rfl) (Touches.refl _ s)) ok
        · exact ok
      · exact ok
    | pageTransfer reads =>
      show CopyOk (if s.serving copyEngine then s.pageTransfer reads else s).copy
      unfold State.pageTransfer
      split_ifs
      · split
        · next issued => exact endService_copyOk (copyOk_returned issued _ ok)
        · exact ok
      · exact ok
    | copyTransferOutcome =>
      refine whenRunning_copyOk ?_ ok
      unfold State.copyOutcome
      split
      · rw [arbitrate_copy]
        exact takeOutcome_copyOk ok
      · exact ok
    | copy p =>
      refine whenRunning_copyOk ?_ ok
      rw [arbitrate_copy]
      exact owned_copyOk (fun c cs => copyOk_takeCopy p _ _ _ ok) ok
    | copyCancel p =>
      refine whenRunning_copyOk (owned_copyOk (fun c cs => ?_) ok) ok
      rw [raiseAll_copy]
      exact copyOk_takeCancel p ok
    | copyResetPart p =>
      refine whenRunning_copyOk ?_ ok
      unfold State.resetPart
      split
      · have examined := copyOk_of_touches (T := (· != .copy)) rfl (examineAll_touches p rfl rfl (Touches.refl _ s)) ok
        exact copyOk_resetPart p examined
      · exact ok
    | _ => exact absurd (by simp [touchedBy, busParts]) untouched

theorem step_keeps_copyOk {s t : State} (h : step s = .next t) (ok : CopyOk s.copy) : CopyOk t.copy :=
  step_keeps (P := fun s => CopyOk s.copy) (fun _ _ hs => hs)
    (fun s hs => copyOk_of_touches (T := (· != .copy)) rfl (idle_touches (fun _ => rfl) rfl (Touches.refl _ s)) hs)
    (fun i _ hs => after_copyOk i hs) h ok

/-- Settles O56: each part's form, kept by every step. -/
theorem stepKeepsMemoryListsAndQueues : Obligations.StepKeepsMemoryListsAndQueues := by
  unfold Obligations.StepKeepsMemoryListsAndQueues
  exact ⟨fun s t => step_keeps_wf, fun s t h => ⟨step_keeps_damagedOk h, step_keeps_noticesOk h, step_keeps_copyOk h⟩⟩

end Sys2Proof.Machine

/-! View addresses and pointers (chapter 3): the parts of an address in numbers, translation, and the advance of the pointer
(O46). -/

namespace Sys2Proof.Machine

open Sys2Proof.Safety

/-! ## The parts of an address -/

theorem windowOf_val (a : ViewAddr) : (windowOf a).val = a.toNat / 256 := by
  have h := a.isLt
  show a.toNat / 256 % 16 = _
  omega

theorem lineOf_val (a : ViewAddr) : (lineOf a).val = a.toNat / 16 % 16 := rfl

theorem byteOf_val (a : ViewAddr) : (byteOf a).val = a.toNat % 16 := rfl

section
variable {w ln b : Fin 16} {a : ViewAddr} (parts : a.toNat = w.val * 256 + ln.val * 16 + b.val)
include parts

theorem windowOf_of_parts : windowOf a = w := by
  apply Fin.ext
  rw [windowOf_val]
  omega

theorem lineOf_of_parts : lineOf a = ln := by
  apply Fin.ext
  rw [lineOf_val]
  omega

theorem byteOf_of_parts : byteOf a = b := by
  apply Fin.ext
  rw [byteOf_val]
  omega

theorem offsetOf_of_parts : offsetOf a = BitVec.ofNat 8 (ln.val * 16 + b.val) := by
  apply BitVec.eq_of_toNat_eq
  show a.toNat % 256 = (ln.val * 16 + b.val) % 256
  omega

end

theorem translate_control {t : Translator} {a : ViewAddr} (h : windowOf a = 0) :
    t.translate a = .control (lineOf a) (byteOf a) := if_pos h

theorem mapIndex_succ (i : Fin 15) : mapIndex (i.val + 1) = i := by
  apply Fin.ext
  show (i.val + 1 - 1) % 15 = i.val
  omega

theorem translate_window {t : Translator} {a : ViewAddr} {i : Fin 15} (h : (windowOf a).val = i.val + 1) :
    t.translate a = if t.map[i].enabled = true then .store t.map[i].page (offsetOf a) t.map[i].access else .disabled := by
  have other : windowOf a ≠ 0 := fun e => by rw [e] at h; exact absurd h (by simp)
  have index : mapIndex (windowOf a).val = i := by rw [h, mapIndex_succ]
  rw [Translator.translate, if_neg other]
  simp only [index]

/-! ## The advance of the pointer -/

/-- A bit of the pointer: of its offset below, of its window above. -/
theorem pointer_bit {w off j : Nat} (small : off < 256) :
    Nat.testBit (w * 256 + off) j = if j < 8 then off.testBit j else w.testBit (j - 8) := by
  rw [Nat.mul_comm]
  exact Nat.testBit_two_pow_mul_add w (i := 8) small j

/-- Within a window the offset counts modulo 256, and the window stays. -/
theorem wrapped {a : ViewAddr} {w : Fin 16} {off : Fin 256} (h : a.toNat = w.val * 256 + off.val) :
    (a &&& 0xF00) ||| ((a + 1) &&& 0x0FF) = BitVec.ofNat 12 (w.val * 256 + (off.val + 1) % 256) := by
  have next : (a + 1).toNat % 256 = (off.val + 1) % 256 := by
    show (a.toNat + 1) % 4096 % 256 = _
    omega
  have low (j : Nat) (hj : j < 8) : (a + 1).getLsbD j = ((off.val + 1) % 256).testBit j := by
    have masked := Nat.testBit_mod_two_pow (a + 1).toNat 8 j
    rw [decide_eq_true hj, Bool.true_and] at masked
    rw [← next]
    exact masked.symm
  have high (j : Nat) : a.getLsbD j = if j < 8 then off.val.testBit j else w.val.testBit (j - 8) := by
    show a.toNat.testBit j = _
    rw [h, pointer_bit off.isLt]
  apply BitVec.eq_of_getLsbD_eq
  intro j hj
  rw [BitVec.getLsbD_or, BitVec.getLsbD_and, BitVec.getLsbD_and, BitVec.getLsbD_ofNat, decide_eq_true hj, Bool.true_and,
    pointer_bit (Nat.mod_lt _ (by decide))]
  by_cases below : j < 8
  · have masks : (0xF00 : ViewAddr).getLsbD j = false ∧ (0x0FF : ViewAddr).getLsbD j = true := by
      interval_cases j <;> exact ⟨rfl, rfl⟩
    rw [if_pos below, masks.1, masks.2, low j below, Bool.and_false, Bool.false_or, Bool.and_true]
  · have masks : (0xF00 : ViewAddr).getLsbD j = true ∧ (0x0FF : ViewAddr).getLsbD j = false := by
      have above : 8 ≤ j := Nat.le_of_not_lt below
      interval_cases j <;> exact ⟨rfl, rfl⟩
    rw [if_neg below, masks.1, masks.2, high j, if_neg below, Bool.and_true, Bool.and_false, Bool.or_false]

section
variable {u : PortUnit}

theorem advance_linear (linear : u.mode = .LINEAR) (inside : u.pointer ≠ 0xFFF) :
    u.advance = { u with pointer := u.pointer + 1 } := by
  unfold PortUnit.advance nextPointer
  rw [linear]
  dsimp only
  rw [if_neg inside]
  simp

theorem advance_last (linear : u.mode = .LINEAR) (last : u.pointer = 0xFFF) : u.advance = { u with endOfView := true } := by
  unfold PortUnit.advance nextPointer
  rw [linear]
  dsimp only
  rw [if_pos last, Bool.or_true]

theorem advance_wrap (wrap : u.mode = .WINDOW_WRAP) {w : Fin 16} {off : Fin 256}
    (h : u.pointer.toNat = w.val * 256 + off.val) :
    u.advance = { u with pointer := BitVec.ofNat 12 (w.val * 256 + (off.val + 1) % 256) } := by
  unfold PortUnit.advance nextPointer
  rw [wrap]
  dsimp only
  rw [wrapped h, Bool.or_false]

end

/-- Settles O46: the parts of an address read off its number, and the two modes of the pointer. -/
theorem viewAddressAndPointer : Obligations.ViewAddressAndPointer := by
  unfold Obligations.ViewAddressAndPointer
  refine ⟨fun t w ln b => ?_, fun u w off h => ⟨advance_linear, advance_last, fun wrap => advance_wrap wrap h⟩⟩
  have parts : (BitVec.ofNat 12 (w.val * 256 + ln.val * 16 + b.val)).toNat = w.val * 256 + ln.val * 16 + b.val := by
    show (w.val * 256 + ln.val * 16 + b.val) % 4096 = _
    omega
  have window := windowOf_of_parts parts
  refine ⟨fun zero => ?_, fun i hi => ⟨fun enabled => ?_, fun disabled => ?_⟩⟩
  · rw [translate_control (window.trans zero), lineOf_of_parts parts, byteOf_of_parts parts]
  · rw [translate_window (i := i) (by rw [window]; exact hi), if_pos enabled, offsetOf_of_parts parts]
  · rw [translate_window (i := i) (by rw [window]; exact hi), disabled, if_neg Bool.false_ne_true]

end Sys2Proof.Machine

/-! The staging buffer (chapter 4): what each operation of a port unit keeps of `StagingOk`. -/

namespace Sys2Proof.Machine

open Sys2Proof.Safety

section
variable {u v : PortUnit}

/-! ## The shapes of the argument -/

/-- A unit that differs in nothing that the form speaks of, but for line requests dropped and commits of their own. -/
theorem stagingOk_same (ok : StagingOk u) (staging : v.staging = u.staging := by rfl) (phase : v.phase = u.phase := by rfl)
    (dir : v.dir = u.dir := by rfl) (kind : v.kind = u.kind := by rfl) (pointer : v.pointer = u.pointer := by rfl)
    (endOfView : v.endOfView = u.endOfView := by rfl) (asking : v.asking = true → u.asking = true := by exact id)
    (outstanding : ∀ es, v.outstanding = some (.commit es) → u.outstanding = some (.commit es) ∨ CommitOk es := by
      exact fun _ h => .inl h)
    (handOver : ∀ es, v.handOver = some (.commit es) → u.handOver = some (.commit es) ∨ CommitOk es := by
      exact fun _ h => .inl h) : StagingOk v where
  data := by rw [staging, phase, dir, kind]; exact ok.data
  store := by rw [staging, kind]; exact ok.store
  control := by rw [staging, kind]; exact ok.control
  place := by rw [staging, kind, pointer, endOfView]; exact ok.place
  asking h := by rw [dir, phase]; exact ok.asking (asking h)
  writes := by rw [dir, kind]; exact ok.writes
  undecided := by rw [phase, kind]; exact ok.undecided
  outstanding es h := (outstanding es h).elim (ok.outstanding es) id
  handOver es h := (handOver es h).elim (ok.handOver es) id

/-- A unit that has nothing staged. -/
theorem stagingOk_empty (staging : v.staging = []) (asking : v.asking = true → v.dir = some .read ∧ v.phase = .DATA)
    (writes : v.dir = some .write → v.kind ≠ .STORE_READ) (undecided : v.phase = .ADDRESS → v.kind = .NONE)
    (outstanding : ∀ es, v.outstanding = some (.commit es) → CommitOk es)
    (handOver : ∀ es, v.handOver = some (.commit es) → CommitOk es) : StagingOk v where
  data h := absurd staging h
  store _ := by rw [staging]; exact ⟨Nat.zero_le _, Nat.zero_le _⟩
  control _ := by rw [staging]; exact Nat.zero_le _
  place _ _ _ _ := by rw [staging]; exact Nat.zero_le _
  asking := asking
  writes := writes
  undecided := undecided
  outstanding := outstanding
  handOver := handOver

/-- Bytes are staged in phase DATA of a write alone. -/
theorem staging_nil (ok : StagingOk u) (other : ¬ (u.phase = .DATA ∧ u.dir = some .write)) : u.staging = [] := by
  by_contra staged
  obtain ⟨phase, dir, -⟩ := ok.data staged
  exact other ⟨phase, dir⟩

theorem staging_nil_of_phase (ok : StagingOk u) (other : u.phase ≠ .DATA) : u.staging = [] :=
  staging_nil ok fun h => other h.1

theorem staging_nil_of_read (ok : StagingOk u) (read : u.dir = some .read) : u.staging = [] :=
  staging_nil ok fun h => by rw [read] at h; cases h.2

theorem not_asking (ok : StagingOk u) (other : ¬ (u.dir = some .read ∧ u.phase = .DATA)) : u.asking ≠ true :=
  fun asks => other (ok.asking asks)

/-! ## Commits -/

/-- What a store write has staged is a commit. -/
theorem commitOk_staged (ok : StagingOk u) (staged : u.staging ≠ []) (store : u.kind ≠ .CONTROL_WRITE) :
    CommitOk u.staging := by
  obtain ⟨-, -, kind⟩ := ok.data staged
  obtain ⟨short, pages⟩ := ok.store (kind.resolve_right store)
  exact ⟨staged, short, pages⟩

/-! ## Beginning, answering, ending -/

theorem stagingOk_reset : StagingOk PortUnit.reset :=
  stagingOk_empty rfl (fun h => by cases h) (fun h => by cases h) (fun h => by cases h) (fun _ h => by cases h)
    (fun _ h => by cases h)

theorem stagingOk_begin (ph : Phase) (d : Option TxDir) (m : IncMode) (ok : StagingOk u) : StagingOk (u.begin ph d m) :=
  stagingOk_empty rfl (fun h => by cases h) (fun _ h => by cases h) (fun _ => rfl) ok.outstanding ok.handOver

theorem stagingOk_respond (p : Port) (ack : Bool) (ok : StagingOk u) : StagingOk (u.respond p ack) := stagingOk_same ok

theorem stagingOk_drive (b : Byte) (ok : StagingOk u) : StagingOk (u.drive b) := stagingOk_same ok

theorem stagingOk_cut (ok : StagingOk u) : StagingOk u.cut := by
  have cut (counted : Nat) : StagingOk { u with
      phase := .CUT, voidReason := some .CUT_BY_RESET, counted := counted, staging := [], held := none, asking := false
      outstanding := match u.outstanding with
        | some (.fetch f) => some (.fetch { f with discard := true })
        | o => o } := by
    refine stagingOk_empty rfl (fun h => by cases h) ok.writes (fun h => by cases h) (fun es h => ?_) ok.handOver
    dsimp only at h
    split at h
    · cases h
    · exact ok.outstanding es h
  unfold PortUnit.cut
  split
  · exact ok
  · exact ok
  · exact cut _
  · exact cut _
  · exact cut _

theorem cut_phase : u.cut.phase = .IDLE ∨ u.cut.phase = .CUT := by
  unfold PortUnit.cut
  split
  · next idle => exact .inl idle
  · next cut => exact .inr cut
  · exact .inr rfl
  · exact .inr rfl
  · exact .inr rfl

theorem stagingOk_resetPart (ok : StagingOk u) : StagingOk u.resetPart := by
  have cut := stagingOk_cut ok
  have phase : u.cut.phase ≠ .DATA := by rcases cut_phase (u := u) with h | h <;> rw [h] <;> exact fun h => by cases h
  have nothing : u.cut.staging = [] := staging_nil_of_phase cut phase
  exact stagingOk_empty nothing cut.asking cut.writes cut.undecided cut.outstanding
    (fun _ h => by cases h)

/-! ## Lines -/

theorem stagingOk_ask (ok : StagingOk u) (read : u.dir = some .read) (data : u.phase = .DATA) : StagingOk u.ask :=
  have nothing : u.staging = [] := staging_nil_of_read ok read
  stagingOk_empty nothing (fun _ => ⟨read, data⟩) ok.writes ok.undecided ok.outstanding ok.handOver

theorem stagingOk_holdLine (w ln : Fin 16) (bytes : Line) (ok : StagingOk u) : StagingOk (u.holdLine w ln bytes) :=
  stagingOk_same ok (asking := fun h => by cases h)

/-- A unit that obtains a line is in phase DATA of a read, so its kind may become that of a store read. -/
theorem stagingOk_storeRead (ok : StagingOk u) (obtaining : u.obtaining = true) (staging : v.staging = u.staging)
    (dir : v.dir = u.dir) (phase : v.phase = u.phase) (asking : v.asking = false)
    (outstanding : ∀ es, v.outstanding = some (.commit es) → CommitOk es)
    (handOver : ∀ es, v.handOver = some (.commit es) → CommitOk es) : StagingOk v := by
  have asks : u.asking = true := by
    simp only [PortUnit.obtaining, Bool.and_eq_true] at obtaining
    exact obtaining.1.1
  obtain ⟨read, data⟩ := ok.asking asks
  refine stagingOk_empty (staging.trans (staging_nil_of_read ok read)) (fun h => ?_) (fun h => ?_) (fun h => ?_) outstanding
    handOver
  · rw [asking] at h; cases h
  · rw [dir, read] at h; cases h
  · rw [phase, data] at h; cases h

theorem stagingOk_holdFill (ok : StagingOk u) (obtaining : u.obtaining = true) : StagingOk u.holdFill :=
  stagingOk_storeRead ok obtaining rfl rfl rfl rfl ok.outstanding ok.handOver

theorem stagingOk_issueFetch (pg : Page) (ok : StagingOk u) (obtaining : u.obtaining = true) : StagingOk (u.issueFetch pg) :=
  stagingOk_storeRead ok obtaining rfl rfl rfl rfl (fun _ h => by cases h) ok.handOver

/-! ## Addresses and opcodes -/

theorem stagingOk_void (r : Reason) (ok : StagingOk u) (notAsking : u.asking ≠ true) : StagingOk (u.void r) :=
  stagingOk_empty rfl (fun h => absurd h notAsking) ok.writes (fun h => by cases h) ok.outstanding ok.handOver

theorem stagingOk_opcode (op : Byte) (ok : StagingOk u) : StagingOk (u.opcode op) := by
  unfold PortUnit.opcode
  split
  · next awaits =>
    simp only [PortUnit.awaitsOpcode, Bool.and_eq_true, beq_iff_eq, Option.isNone_iff_eq_none] at awaits
    obtain ⟨address, noDir⟩ := awaits
    have nothing : u.staging = [] := staging_nil_of_phase ok (by rw [address]; exact fun h => by cases h)
    have quiet : u.asking ≠ true := not_asking ok fun h => by rw [noDir] at h; cases h.1
    have undecided : u.kind = .NONE := ok.undecided address
    have noRead : u.kind ≠ .STORE_READ := by rw [undecided]; exact fun h => by cases h
    split
    · exact stagingOk_empty nothing (fun h => absurd h quiet) (fun _ => noRead) (fun h => by cases h) ok.outstanding ok.handOver
    · exact stagingOk_empty nothing (fun h => absurd h quiet) (fun _ => noRead) (fun _ => undecided) ok.outstanding ok.handOver
    · refine stagingOk_empty rfl (fun h => absurd h quiet) (fun h => ?_) (fun h => by cases h) ok.outstanding ok.handOver
      rw [show u.dir = some .write from h] at noDir
      cases noDir
  · exact ok

theorem stagingOk_highByte (p : Port) (b : Byte) (ok : StagingOk u) : StagingOk (u.highByte p b) := by
  unfold PortUnit.highByte
  split
  · exact ok
  · split
    · exact stagingOk_respond p false ok
    · split
      · next h =>
        have quiet : u.asking ≠ true := not_asking ok fun h' => by rw [h.1] at h'; cases h'.2
        refine stagingOk_respond p _ ?_
        unfold PortUnit.takeHigh
        split
        · exact stagingOk_void _ ok quiet
        · exact stagingOk_same ok
      · exact ok

theorem stagingOk_lowByte (p : Port) (b : Byte) (ok : StagingOk u) : StagingOk (u.lowByte p b) := by
  unfold PortUnit.lowByte
  split
  · exact ok
  · split
    · exact stagingOk_respond p false ok
    · split
      · next hi address _ =>
        have nothing : u.staging = [] := staging_nil_of_phase ok (by rw [address]; exact fun h => by cases h)
        have quiet : u.asking ≠ true := not_asking ok fun h => by rw [address] at h; cases h.2
        exact stagingOk_respond p true
          (stagingOk_empty nothing (fun h => absurd h quiet) ok.writes (fun h => by cases h) ok.outstanding ok.handOver)
      · exact ok

/-! ## Data bytes -/

/-- With nothing staged the pointer may move anywhere. -/
theorem stagingOk_advance (ok : StagingOk u) (nothing : u.staging = []) : StagingOk u.advance :=
  stagingOk_empty nothing ok.asking ok.writes ok.undecided ok.outstanding ok.handOver

theorem stagingOk_skip (ok : StagingOk u) (nothing : u.staging = []) : StagingOk u.skip := by
  unfold PortUnit.skip
  split <;> [exact stagingOk_advance ok nothing; exact ok]

/-- Pages of two at most, and a page that is no third one. -/
theorem pages_within {es : List Entry} {pg : Page} (two : (touchedPages es).length ≤ 2) (third : thirdPage es pg = false) :
    ∃ a b, pg ∈ [a, b] ∧ ∀ e ∈ es, e.page ∈ [a, b] := by
  cases es with
  | nil => exact ⟨pg, pg, List.mem_cons_self, fun _ h => absurd h List.not_mem_nil⟩
  | cons x xs =>
    cases found : xs.find? (fun y => y.page != x.page) with
    | none =>
      refine ⟨x.page, pg, by simp, fun e he => ?_⟩
      rcases List.mem_cons.1 he with rfl | he
      · exact List.mem_cons_self
      · have same := List.find?_eq_none.1 found e he
        have same : e.page = x.page := by simpa using same
        rw [same]
        exact List.mem_cons_self
    | some y =>
      have second : secondPage (x :: xs) = some y.page := by rw [secondPage, found]; rfl
      have apart : y.page ≠ x.page := by simpa using List.find?_some found
      refine ⟨x.page, y.page, ?_, fun e he => ?_⟩
      · rw [thirdPage, second] at third
        simp only [firstPage, List.head?_cons, Option.map_some, Bool.and_eq_false_iff, bne_eq_false_iff_eq] at third
        simpa using third
      · by_contra other
        have three : [x.page, y.page, e.page].Subperm (touchedPages (x :: xs)) := by
          refine List.subperm_of_subset ?_ fun pg hpg => ?_
          · simp only [List.mem_cons, List.not_mem_nil, or_false, not_or] at other
            simp [Ne.symm apart, Ne.symm other.1, Ne.symm other.2]
          · have member : y ∈ x :: xs := List.mem_cons_of_mem x (List.mem_of_find?_eq_some found)
            rw [mem_touchedPages]
            simp only [List.mem_cons, List.not_mem_nil, or_false] at hpg
            rcases hpg with rfl | rfl | rfl
            · exact ⟨x, List.mem_cons_self, rfl⟩
            · exact ⟨y, member, rfl⟩
            · exact ⟨e, he, rfl⟩
        exact absurd (three.length_le.trans two) (by simp)

theorem touchedPages_within {es : List Entry} {a b : Page} (within : ∀ e ∈ es, e.page ∈ [a, b]) :
    (touchedPages es).length ≤ 2 := by
  have once : (touchedPages es).Nodup := (touchedPages_sorted es).imp fun h => ne_of_lt h
  refine (List.subperm_of_subset once (l₂ := [a, b]) fun pg hpg => ?_).length_le
  obtain ⟨e, he, rfl⟩ := mem_touchedPages.1 hpg
  exact within e he

theorem touchedPages_accepted {es : List Entry} {e : Entry} (two : (touchedPages es).length ≤ 2)
    (third : thirdPage es e.page = false) : (touchedPages (es ++ [e])).length ≤ 2 := by
  obtain ⟨a, b, new, old⟩ := pages_within two third
  refine touchedPages_within (a := a) (b := b) fun x hx => ?_
  rcases List.mem_append.1 hx with hx | hx
  · exact old x hx
  · rw [List.mem_singleton.1 hx]
    exact new

/-- Inside the lower part of the control window the pointer counts up. -/
theorem advance_pointer (below : u.pointer.toNat < 255) : u.advance.pointer.toNat = u.pointer.toNat + 1 := by
  cases mode : u.mode with
  | LINEAR =>
    have inside : u.pointer ≠ 0xFFF := fun e => by rw [e] at below; exact absurd below (by decide)
    rw [advance_linear mode inside]
    show (u.pointer.toNat + 1) % 4096 = _
    omega
  | WINDOW_WRAP =>
    rw [advance_wrap mode (w := 0) (off := ⟨u.pointer.toNat, by omega⟩) (by simp)]
    show (0 * 256 + (u.pointer.toNat + 1) % 256) % 4096 = _
    omega

/-- From line 0 or line 3 the pointer moves on to the next byte, or out of both lines. -/
theorem place_advance {n : Nat} (window : windowOf u.pointer = 0) (line : lineOf u.pointer = 0 ∨ lineOf u.pointer = 3)
    (place : n ≤ (byteOf u.pointer).val) (line' : lineOf u.advance.pointer = 0 ∨ lineOf u.advance.pointer = 3) :
    n + 1 ≤ (byteOf u.advance.pointer).val := by
  have inWindow : u.pointer.toNat / 256 = 0 := by rw [← windowOf_val, window]; rfl
  have lineVal (a : ViewAddr) (h : lineOf a = 0 ∨ lineOf a = 3) : a.toNat / 16 % 16 = 0 ∨ a.toNat / 16 % 16 = 3 := by
    rcases h with h | h
    · exact .inl (by rw [← lineOf_val, h]; rfl)
    · exact .inr (by rw [← lineOf_val, h]; rfl)
  have now := lineVal _ line
  have next := lineVal _ line'
  rw [byteOf_val] at place ⊢
  rw [advance_pointer (by omega)] at next ⊢
  omega

theorem writeKind_cases (ok : StagingOk u) (write : u.dir = some .write) :
    (u.kind = .NONE ∧ u.staging = [] ∧ (u.writeKind = .CONTROL_WRITE ∨ u.writeKind = .STORE_WRITE)) ∨
      ((u.kind = .CONTROL_WRITE ∨ u.kind = .STORE_WRITE) ∧ u.writeKind = u.kind) := by
  have noRead := ok.writes write
  unfold PortUnit.writeKind
  cases kind : u.kind with
  | NONE =>
    refine .inl ⟨rfl, ?_, ?_⟩
    · by_contra staged
      obtain ⟨-, -, decided⟩ := ok.data staged
      rw [kind] at decided
      rcases decided with h | h <;> cases h
    · rw [if_pos rfl]
      split <;> simp
  | STORE_READ => exact absurd kind noRead
  | STORE_WRITE => exact .inr ⟨.inr rfl, by simp⟩
  | CONTROL_WRITE => exact .inr ⟨.inl rfl, by simp⟩

theorem writeKind_decided (ok : StagingOk u) (write : u.dir = some .write) :
    u.writeKind = .CONTROL_WRITE ∨ u.writeKind = .STORE_WRITE := by
  rcases writeKind_cases ok write with ⟨-, -, h⟩ | ⟨h, same⟩
  · exact h
  · rw [same]
    exact h

theorem judgeControl_accepts {b : Byte} {e : Entry} (h : u.judgeControl b = .accept e) :
    u.endOfView = false ∧ windowOf u.pointer = 0 ∧ (lineOf u.pointer = 0 ∨ lineOf u.pointer = 3) := by
  unfold PortUnit.judgeControl at h
  split at h
  · cases h
  · next inside =>
    split at h
    · next line => simpa [line] using inside
    · cases h

theorem judgeStore_accepts {t : Translator} {b : Byte} {e : Entry} (h : u.judgeStore t b = .accept e) :
    thirdPage u.staging e.page = false ∧ u.staging.length < 64 := by
  unfold PortUnit.judgeStore at h
  split at h
  · cases h
  · split at h
    · split_ifs at h with third full
      cases h
      exact ⟨by simpa using third, Nat.lt_of_not_le full⟩
    · cases h
    · cases h
    · cases h

/-- The unit once a data byte has been accepted. -/
def PortUnit.accept (e : Entry) (u : PortUnit) : PortUnit :=
  { u with kind := u.writeKind, staging := u.staging ++ [e] }

theorem stagingOk_acceptControl {b : Byte} {e : Entry} (ok : StagingOk u) (data : u.phase = .DATA)
    (write : u.dir = some .write) (control : u.writeKind = .CONTROL_WRITE) (accepts : u.judgeControl b = .accept e) :
    StagingOk (u.accept e).advance := by
  obtain ⟨inside, window, line⟩ := judgeControl_accepts accepts
  have place : u.staging.length ≤ (byteOf u.pointer).val := by
    rcases writeKind_cases ok write with ⟨-, nothing, -⟩ | ⟨-, same⟩
    · rw [nothing]
      exact Nat.zero_le _
    · exact ok.place (same ▸ control) window line inside
  have length : (u.accept e).advance.staging.length = u.staging.length + 1 := List.length_append
  refine ⟨fun _ => ⟨data, write, .inr control⟩, fun h => ?_, fun _ => ?_, fun _ _ line' _ => ?_, fun h => ?_, fun _ h => ?_,
    fun h => ?_, ok.outstanding, ok.handOver⟩
  · rw [show u.writeKind = _ from h] at control
    cases control
  · rw [length]
    exact place.trans_lt (byteOf u.pointer).isLt
  · rw [length]
    exact place_advance (u := u.accept e) window line place line'
  · exact ok.asking h
  · rw [show u.writeKind = _ from h] at control
    cases control
  · rw [show u.phase = _ from h] at data
    cases data

theorem stagingOk_acceptStore {t : Translator} {b : Byte} {e : Entry} (ok : StagingOk u) (data : u.phase = .DATA)
    (write : u.dir = some .write) (store : u.writeKind = .STORE_WRITE) (accepts : u.judgeStore t b = .accept e) :
    StagingOk (u.accept e).advance := by
  obtain ⟨third, room⟩ := judgeStore_accepts accepts
  have two : (touchedPages u.staging).length ≤ 2 := by
    rcases writeKind_cases ok write with ⟨-, nothing, -⟩ | ⟨-, same⟩
    · rw [nothing]
      exact Nat.zero_le _
    · exact (ok.store (same ▸ store)).2
  have control (h : u.writeKind = .CONTROL_WRITE) : False := by
    rw [store] at h
    cases h
  refine ⟨fun _ => ⟨data, write, .inl store⟩, fun _ => ⟨?_, touchedPages_accepted two third⟩, fun h => (control h).elim,
    fun h => (control h).elim, ok.asking, fun _ h => ?_, fun h => ?_, ok.outstanding, ok.handOver⟩
  · show (u.staging ++ [e]).length ≤ 64
    rw [List.length_append]
    exact room
  · rw [show u.writeKind = _ from h] at store
    cases store
  · rw [show u.phase = _ from h] at data
    cases data

theorem stagingOk_takeData (t : Translator) (b : Byte) (ok : StagingOk u) (data : u.phase = .DATA)
    (write : u.dir = some .write) : StagingOk (u.takeData t b).1 := by
  have quiet : u.asking ≠ true := not_asking ok fun h => by rw [write] at h; cases h.1
  have decided := writeKind_decided ok write
  unfold PortUnit.takeData
  split
  · next e accepts =>
    unfold PortUnit.judge at accepts
    split at accepts
    · next control => exact stagingOk_acceptControl ok data write control accepts
    · next control => exact stagingOk_acceptStore ok data write (decided.resolve_left control) accepts
  · next r _ =>
    refine stagingOk_advance (stagingOk_empty rfl (fun h => absurd h quiet) (fun _ h => ?_) (fun h => by cases h) ok.outstanding
      ok.handOver) rfl
    rcases decided with d | d <;> rw [show u.writeKind = _ from h] at d <;> cases d

theorem refusing_phase (h : u.refusing = true) : u.phase ≠ .DATA := by
  simp only [PortUnit.refusing, Bool.or_eq_true, beq_iff_eq] at h
  rcases h with h | h <;> rw [h] <;> exact fun h => by cases h

theorem stagingOk_writeByte (p : Port) (t : Translator) (b : Byte) (ok : StagingOk u) : StagingOk (u.writeByte p t b) := by
  unfold PortUnit.writeByte
  split
  · exact ok
  · next writes =>
    have write : u.dir = some .write := by
      by_contra other
      exact writes (by simp [other])
    split
    · next refuses => exact stagingOk_respond p false (stagingOk_skip ok (staging_nil_of_phase ok (refusing_phase refuses)))
    · split
      · next data => exact stagingOk_respond p _ (stagingOk_takeData t b ok data write)
      · exact ok

theorem stagingOk_fillSlot (ok : StagingOk u) (nothing : u.staging = []) : StagingOk u.fillSlot :=
  stagingOk_drive _ (stagingOk_skip ok nothing)

theorem stagingOk_writeSlot (t : Translator) (b : Byte) (ok : StagingOk u) : StagingOk (u.writeSlot t b) := by
  unfold PortUnit.writeSlot
  split
  · exact ok
  · next writes =>
    have write : u.dir = some .write := not_not.1 writes
    split
    · next cut => exact stagingOk_fillSlot ok (staging_nil_of_phase ok (by rw [cut]; exact fun h => by cases h))
    · next voided =>
      split
      · exact stagingOk_drive _ ok
      · exact stagingOk_drive _ (stagingOk_skip ok (staging_nil_of_phase ok (by rw [voided]; exact fun h => by cases h)))
    · next data =>
      split
      · exact stagingOk_drive _ ok
      · exact stagingOk_drive _ (stagingOk_takeData t b ok data write)
    · exact ok
    · exact ok

theorem stagingOk_afterRead (ack : Bool) (b : Byte) (ok : StagingOk u) (read : u.dir = some .read) (data : u.phase = .DATA) :
    StagingOk (u.afterRead ack b) := by
  have nothing : u.staging = [] := staging_nil_of_read ok read
  have moved : StagingOk (u.drive b).advance := stagingOk_advance (stagingOk_drive b ok) nothing
  unfold PortUnit.afterRead
  dsimp only
  split
  · exact stagingOk_same moved
  · split
    · exact moved
    · exact stagingOk_ask moved read data

theorem stagingOk_readByte (ack : Bool) (ok : StagingOk u) : StagingOk (u.readByte ack) := by
  unfold PortUnit.readByte
  split
  · exact ok
  · next reads =>
    have read : u.dir = some .read := not_not.1 reads
    have nothing : u.staging = [] := staging_nil_of_read ok read
    split
    · exact stagingOk_advance (stagingOk_drive _ ok) nothing
    · next data =>
      split
      · exact ok
      · split
        · exact stagingOk_drive _ ok
        · split
          · exact stagingOk_same ok
          · split
            · exact stagingOk_afterRead ack _ ok read data
            · exact ok
    · exact ok
    · exact ok
    · exact ok

theorem stagingOk_readSlot (ok : StagingOk u) (nothing : u.staging = []) : StagingOk u.readSlot := by
  unfold PortUnit.readSlot
  split
  · exact stagingOk_drive _ ok
  · split
    · unfold PortUnit.readyOrByte
      split
      · exact stagingOk_advance (stagingOk_drive _ ok) nothing
      · exact stagingOk_same ok
    · exact stagingOk_drive _ ok

end

end Sys2Proof.Machine

/-! Every step keeps the form of the staging buffers (O60): the acts on the port units, composed command by command. -/

namespace Sys2Proof.Machine

open Sys2Proof.Safety

/-- Every port unit is in form. -/
def PortsOk (s : State) : Prop := ∀ p : Port, StagingOk s.ports[p]

/-- All parts but the port units. -/
def besideUnits (x : Part) : Bool :=
  match x with
  | .unit _ => false
  | _ => true

section
variable {s t : State} {p : Port}

theorem portsOk_of_touches {T : Part → Bool} (untouched : ∀ q, T (.unit q) = false) (h : Touches T s t) (ok : PortsOk s) :
    PortsOk t := by
  intro q
  have same : t.ports[q] = s.ports[q] := h (.unit q) (untouched q)
  rw [same]
  exact ok q

theorem portsOk_beside (h : Touches besideUnits s t) (ok : PortsOk s) : PortsOk t := portsOk_of_touches (fun _ => rfl) h ok

theorem portsOk_modPort {f : PortUnit → PortUnit} (ok : PortsOk s) (h : StagingOk (f s.ports[p])) :
    PortsOk (s.modPort p f) := by
  intro q
  rw [modPort_ports, upd_get]
  by_cases e : p = q
  · subst e
    rw [if_pos rfl]
    exact h
  · rw [if_neg e]
    exact ok q

/-! ## Records and hand-overs -/

theorem portsOk_writeRecord (r : TxStatus) (ok : PortsOk s) : PortsOk (s.writeRecord p r) :=
  portsOk_beside (writeRecord_touches p r rfl rfl (Touches.refl _ s)) ok

theorem portsOk_giveDone (n : Byte) (ok : PortsOk s) : PortsOk (s.giveDone p n) :=
  portsOk_beside (giveDone_touches p n rfl rfl (Touches.refl _ s)) ok

theorem portsOk_raiseReplaced (n : Nat) (ok : PortsOk s) : PortsOk (s.raiseReplaced p n) :=
  portsOk_beside (raiseReplaced_touches p n rfl (Touches.refl _ s)) ok

theorem portsOk_flushKept (ok : PortsOk s) : PortsOk (s.flushKept p) := by
  unfold State.flushKept
  split
  · exact ok
  · have raised := portsOk_raiseReplaced (p := p) s.ports[p].replaced ok
    exact portsOk_writeRecord _ (portsOk_modPort raised (stagingOk_same (raised p)))

theorem portsOk_handOverRecord (r : TxStatus) (ok : PortsOk s) : PortsOk (s.handOverRecord p r) := by
  unfold State.handOverRecord
  dsimp only
  split
  · exact portsOk_modPort ok (stagingOk_same (ok p))
  · split
    · exact portsOk_modPort ok (stagingOk_same (ok p) (handOver := fun _ h => by cases h))
    · exact portsOk_writeRecord r ok

theorem portsOk_issueCommit {es : List Entry} (commit : CommitOk es) (ok : PortsOk s) : PortsOk (s.issueCommit p es) :=
  portsOk_writeRecord _
    (portsOk_modPort ok (stagingOk_same (ok p) (outstanding := fun es' h => by cases h; exact .inr commit)))

theorem portsOk_handOverCommit {es : List Entry} (commit : CommitOk es) (ok : PortsOk s) : PortsOk (s.handOverCommit p es) := by
  unfold State.handOverCommit
  split
  · exact portsOk_modPort ok (stagingOk_same (ok p) (handOver := fun es' h => by cases h; exact .inr commit))
  · exact portsOk_issueCommit commit ok

theorem portsOk_handOverControl (es : List Entry) (ok : PortsOk s) : PortsOk (s.handOverControl p es) := by
  unfold State.handOverControl
  split
  · split
    · exact portsOk_modPort ok (stagingOk_same (ok p) (handOver := fun _ h => by cases h))
    · exact portsOk_giveDone _ ok
  · exact portsOk_modPort ok (stagingOk_same (ok p) (handOver := fun _ h => by cases h))

theorem portsOk_issueHeld {es : List Entry} (commit : CommitOk es) (ok : PortsOk s) : PortsOk (s.issueHeld p es) := by
  have raised := portsOk_raiseReplaced (p := p) s.ports[p].replaced ok
  refine portsOk_issueCommit commit (portsOk_modPort raised (stagingOk_same (raised p) (handOver := fun es' h => ?_)))
  obtain ⟨r, -, isRecord⟩ := Option.map_eq_some_iff.1 h
  cases isRecord

theorem portsOk_dropHandOver (ok : PortsOk s) : PortsOk (s.modPort p fun u => { u with handOver := none }) :=
  portsOk_modPort ok (stagingOk_same (ok p) (handOver := fun _ h => by cases h))

theorem portsOk_makeHandOver (ok : PortsOk s) : PortsOk (s.makeHandOver p) := by
  unfold State.makeHandOver
  split
  · exact ok
  · dsimp only
    split
    · exact ok
    · exact ok
    · exact portsOk_flushKept (portsOk_writeRecord _ (portsOk_dropHandOver ok))
    · exact portsOk_flushKept (portsOk_giveDone _ (portsOk_dropHandOver ok))
    · next es pending => exact portsOk_issueHeld ((ok p).handOver es pending) (portsOk_dropHandOver ok)

theorem portsOk_takeReadyControl (ok : PortsOk s) : PortsOk (s.takeReadyControl p) := by
  unfold State.takeReadyControl
  split
  · exact portsOk_flushKept (portsOk_beside (takeControl_touches p _ rfl rfl rfl (Touches.refl _ _)) (portsOk_dropHandOver ok))
  · exact ok

/-! ## Lines -/

theorem portsOk_obtain (acts : Bool) (ok : PortsOk s) : PortsOk (s.obtain acts p) := by
  have held (t : State) (ln : Fin 16) (b : Line) (ht : PortsOk t) : PortsOk (t.holdControl p ln b) :=
    portsOk_modPort ht (stagingOk_holdLine 0 ln b (ht p))
  unfold State.obtain
  dsimp only
  split
  · next obtaining =>
    split
    · split_ifs
      · exact held _ 2 _ ok
      · exact ok
      · exact held _ 4 _ ok
      · exact ok
      · exact portsOk_modPort ok (stagingOk_same (ok p) (asking := fun h => by cases h))
    · exact portsOk_modPort ok (stagingOk_holdFill (ok p) obtaining)
    · split
      · exact ok
      · exact portsOk_modPort ok (stagingOk_issueFetch _ (ok p) obtaining)
  · exact ok

theorem portsOk_takeParts (ok : PortsOk s) : PortsOk (s.takeParts p) := by
  unfold State.takeParts
  split
  · exact portsOk_modPort ok (stagingOk_same (ok p))
  · exact ok

theorem portsOk_idle (ok : PortsOk s) : PortsOk s.idle := by
  have each (ps : List Port) (t : State) (ht : PortsOk t) : PortsOk (ps.foldl (fun s p => s.takeParts p) t) := by
    induction ps generalizing t with
    | nil => exact ht
    | cons q ps ih => exact ih _ (portsOk_takeParts ht)
  exact each allPorts s ok

theorem portsOk_gather (ok : PortsOk s) : PortsOk (s.gather p) := by
  unfold State.gather
  split
  · have taken := portsOk_takeParts (p := p) ok
    exact portsOk_modPort taken (stagingOk_same (taken p))
  · exact ok

theorem portsOk_settle (ok : PortsOk s) : PortsOk (s.settle p) :=
  portsOk_gather (portsOk_obtain true (portsOk_beside (takeAllDones_touches p rfl (examineAll_touches p rfl rfl
    (Touches.refl _ _))) (portsOk_takeReadyControl ok)))

theorem portsOk_arbitrate (ok : PortsOk s) : PortsOk s.arbitrate :=
  portsOk_beside (arbitrate_touches rfl (Touches.refl _ s)) ok

/-! ## Transactions -/

theorem portsOk_endRead (u : PortUnit) (ok : PortsOk s) : PortsOk (s.endRead p u) := by
  unfold State.endRead
  split
  · split
    · exact portsOk_handOverRecord _ ok
    · exact portsOk_modPort ok (stagingOk_same (ok p) (outstanding := fun _ h => by cases h))
  · exact portsOk_handOverRecord _ ok

theorem portsOk_endTransaction (ok : PortsOk s) : PortsOk (s.endTransaction p) := by
  have idle : PortsOk (s.modPort p PortUnit.toIdle) := portsOk_modPort ok (stagingOk_begin .IDLE none _ (ok p))
  unfold State.endTransaction
  dsimp only
  split
  · exact idle
  · exact idle
  · split
    · split
      · exact idle
      · next staged =>
        split
        · exact portsOk_handOverControl _ idle
        · next store => exact portsOk_handOverCommit (commitOk_staged (ok p) (by simpa using staged) store) idle
    · split
      · exact portsOk_endRead _ idle
      · exact idle
  · exact portsOk_handOverRecord _ idle
  · split
    · exact portsOk_handOverRecord _ idle
    · exact idle

theorem portsOk_beginTwoWire (d : Direction) (ok : PortsOk s) : PortsOk (s.beginTwoWire p d) := by
  cases d with
  | write => exact portsOk_modPort ok (stagingOk_respond p true (stagingOk_begin .ADDRESS (some .write) _ (ok p)))
  | read =>
    exact portsOk_obtain false (portsOk_modPort ok
      (stagingOk_ask (stagingOk_respond p true (stagingOk_begin .DATA (some .read) _ (ok p))) rfl rfl))

theorem portsOk_start (target : BitVec 7) (d : Direction) (ok : PortsOk s) : PortsOk (s.start p target d) := by
  have settled : PortsOk ((s.endTransaction p).settle p) := portsOk_settle (portsOk_endTransaction ok)
  unfold State.start
  dsimp only
  split
  · exact portsOk_beginTwoWire d settled
  · exact portsOk_modPort settled (stagingOk_respond p false (settled p))

theorem portsOk_busEvent {f : State → State} (act : ∀ t, PortsOk t → PortsOk (f t)) (ok : PortsOk s) :
    PortsOk (s.busEvent p f) := by
  unfold State.busEvent State.whenRunning
  split
  · exact portsOk_arbitrate (act _ (portsOk_settle ok))
  · exact ok

/-- A bus event that changes the port's unit by an operation of its own. -/
theorem portsOk_busEvent_modPort {f : PortUnit → PortUnit} (act : ∀ u, StagingOk u → StagingOk (f u)) (ok : PortsOk s) :
    PortsOk (s.busEvent p fun s => s.modPort p f) :=
  portsOk_busEvent (fun _ ht => portsOk_modPort ht (act _ (ht p))) ok

theorem portsOk_spiStatus (ok : PortsOk s) : PortsOk s.spiStatus := by
  unfold State.spiStatus
  dsimp only
  split
  · exact portsOk_modPort ok (stagingOk_opcode _ (ok spi))
  · split
    · exact portsOk_modPort ok (stagingOk_drive _ (ok spi))
    · exact ok

theorem needsLine_read {u : PortUnit} (h : u.needsLine = true) : u.dir = some .read ∧ u.phase = .DATA := by
  simp only [PortUnit.needsLine, Bool.and_eq_true, beq_iff_eq] at h
  obtain ⟨⟨⟨⟨⟨⟨data, read⟩, -⟩, -⟩, -⟩, -⟩, -⟩ := h
  exact ⟨read, data⟩

theorem portsOk_obtainAtSlot (ok : PortsOk s) : PortsOk s.obtainAtSlot := by
  unfold State.obtainAtSlot
  split
  · next needs =>
    obtain ⟨read, data⟩ := needsLine_read needs
    exact portsOk_obtain true (portsOk_modPort ok (stagingOk_ask (ok spi) read data))
  · exact ok

theorem modPort_dir {f : PortUnit → PortUnit} (h : ∀ u, (f u).dir = u.dir) :
    (s.modPort p f).ports[p].dir = s.ports[p].dir := by
  rw [modPort_ports, upd_self, h]

/-- Obtaining a line leaves the direction. -/
theorem obtain_dir (acts : Bool) : (s.obtain acts p).ports[p].dir = s.ports[p].dir := by
  unfold State.obtain
  dsimp only
  split
  · split
    · split_ifs
      · exact modPort_dir fun _ => rfl
      · rfl
      · exact modPort_dir fun _ => rfl
      · rfl
      · exact modPort_dir fun _ => rfl
    · exact modPort_dir fun _ => rfl
    · split
      · rfl
      · exact modPort_dir fun _ => rfl
  · rfl

theorem obtainAtSlot_dir : s.obtainAtSlot.ports[spi].dir = s.ports[spi].dir := by
  unfold State.obtainAtSlot
  split
  · rw [obtain_dir]
    exact modPort_dir fun _ => rfl
  · rfl

theorem portsOk_readSlot (ok : PortsOk s) : PortsOk s.readSlot := by
  unfold State.readSlot
  dsimp only
  split
  · next cut =>
    have nothing : s.ports[spi].staging = [] := staging_nil_of_phase (ok spi) (by
      rcases cut with h | h
      · rw [h]; exact fun h => by cases h
      · rw [h.1]; exact fun h => by cases h)
    exact portsOk_modPort ok (stagingOk_fillSlot (ok spi) nothing)
  · split
    · next reads =>
      have obtained := portsOk_obtainAtSlot ok
      have nothing : s.obtainAtSlot.ports[spi].staging = [] :=
        staging_nil_of_read (obtained spi) (by rw [obtainAtSlot_dir]; exact reads.2)
      exact portsOk_modPort obtained (stagingOk_readSlot (obtained spi) nothing)
    · exact ok

/-! ## Replies of the store controller -/

theorem portsOk_dropOutstanding (ok : PortsOk s) : PortsOk (s.modPort p fun u => { u with outstanding := none }) :=
  portsOk_modPort ok (stagingOk_same (ok p) (outstanding := fun _ h => by cases h))

theorem portsOk_deliver (f : Fetch) (r : FetchReply) (ok : PortsOk s) : PortsOk (s.deliver p f r) := by
  have returned := portsOk_dropOutstanding (p := p) ok
  unfold State.deliver
  dsimp only
  refine portsOk_obtain false (portsOk_makeHandOver ?_)
  split
  · exact portsOk_writeRecord _ (portsOk_modPort returned (stagingOk_same (returned p)))
  · split
    · exact returned
    · exact portsOk_modPort returned (stagingOk_same (stagingOk_holdLine f.window f.tag r.bytes (returned p)))

theorem portsOk_returnCommit (r : TxStatus) (ok : PortsOk s) : PortsOk (s.returnCommit p r) :=
  portsOk_obtain false (portsOk_makeHandOver (portsOk_writeRecord r (portsOk_dropOutstanding ok)))

theorem portsOk_endPortService (ok : PortsOk s) : PortsOk s.endPortService :=
  portsOk_beside (endPortService_touches_due (fun x hx => by cases x <;> trivial) rfl (Touches.refl besideUnits s)) ok

theorem portsOk_lineFetch (o : ReadOutcome) (ok : PortsOk s) : PortsOk (s.lineFetch p o) := by
  unfold State.lineFetch
  split
  · exact portsOk_endPortService (portsOk_deliver (s := s.setStore _) _ _ ok)
  · exact ok

theorem portsOk_commit (reads : List ReadOutcome) (ok : PortsOk s) : PortsOk (s.commit p reads) := by
  unfold State.commit
  split
  · have posted (ws : List PageWrite) (t : State) (ht : PortsOk t) : PortsOk (t.postAll ws) :=
      portsOk_beside (postAll_touches ws (fun _ => rfl) (fun _ => rfl) (Touches.refl besideUnits t)) ht
    exact portsOk_endPortService (portsOk_returnCommit _ (posted _ (s.setStore _) ok))
  · exact ok

/-! ## Commands and resets -/

theorem portsOk_mapAct (c : Claim) (ok : PortsOk s) : PortsOk (mapAct p c s) := by
  unfold mapAct
  split
  · exact ok
  · next e _ =>
    exact portsOk_obtain (s := s.modTranslator p fun t => { t with map := upd t.map (mapIndex (c.arg 2).toNat) fun _ => e })
      false ok

theorem portsOk_mapTaken (issuer : Port) (ok : PortsOk s) :
    PortsOk (s.takeShared issuer p cMAP (mapAct p) mapAnswer) := by
  unfold State.takeShared
  split
  · exact ok
  · dsimp only
    split
    · exact portsOk_beside (answer_touches _ _ rfl (Touches.refl besideUnits _)) (portsOk_mapAct _ ok)
    · exact portsOk_mapAct _ ok

theorem portsOk_lastResetPart (ok : PortsOk s) : PortsOk (s.lastResetPart p) := by
  unfold State.lastResetPart
  split
  · next r _ =>
    split
    · have settled := portsOk_settle (p := p) ok
      have reset := portsOk_beside (completeReset_touches p r rfl rfl (Touches.refl besideUnits _))
        (portsOk_modPort settled (stagingOk_resetPart (settled p)))
      refine portsOk_arbitrate ?_
      unfold State.portUnitResetAct
      dsimp only
      split
      · exact portsOk_writeRecord _ reset
      · exact reset
    · exact ok
  · exact ok

theorem obtainsLine_read {ln : Fin 16} (ok : PortsOk s) (h : s.obtainsLine p ln = true) :
    s.ports[p].dir = some .read ∧ s.ports[p].phase = .DATA := by
  simp only [State.obtainsLine, Bool.and_eq_true, Bool.or_eq_true, beq_iff_eq] at h
  obtain ⟨-, now⟩ := h
  rcases now with obtaining | ⟨-, needs⟩
  · simp only [PortUnit.obtaining, Bool.and_eq_true] at obtaining
    exact (ok p).asking obtaining.1.1
  · exact needsLine_read needs

theorem portsOk_obtainNow (ln : Fin 16) (ok : PortsOk s) :
    PortsOk (s.whenRunning fun s => if s.obtainsLine p ln then s.obtainNow p else s) := by
  unfold State.whenRunning
  split
  · dsimp only
    split
    · next now =>
      obtain ⟨read, data⟩ := obtainsLine_read ok now
      exact portsOk_obtain true (portsOk_modPort ok (stagingOk_ask (ok p) read data))
    · exact ok
  · exact ok

theorem portsOk_powerUp : PortsOk State.reset := by
  intro q
  have isReset : State.reset.ports[q] = PortUnit.reset := by simp [State.reset]
  rw [isReset]
  exact stagingOk_reset

theorem portsOk_whenRunning {f : State → State} (act : PortsOk (f s)) (ok : PortsOk s) : PortsOk (s.whenRunning f) := by
  unfold State.whenRunning
  split <;> [exact act; exact ok]

theorem portsOk_after (i : Instr) (ok : PortsOk s) : PortsOk (s.after i) := by
  by_cases untouched : ∀ q, touchedBy i (.unit q) = false
  · exact portsOk_of_touches untouched (after_touches i s) ok
  · cases i with
    | powerOnReset x => exact portsOk_powerUp
    | resetNFall completed reads =>
      show PortsOk (s.resetFall completed reads)
      unfold State.resetFall
      split
      · exact ok
      · exact portsOk_powerUp
    | twoWireStart p target dir =>
      show PortsOk (if s.running then s.busEvent p.port (State.start p.port target dir)
        else s.modPort p.port (PortUnit.respond p.port false))
      split
      · exact portsOk_busEvent (fun t => portsOk_start target dir) ok
      · exact portsOk_modPort ok (stagingOk_respond p.port false (ok p.port))
    | addressHighByte p b => exact portsOk_busEvent_modPort (fun _ => stagingOk_highByte p b) ok
    | addressLowByte p b => exact portsOk_busEvent_modPort (fun _ => stagingOk_lowByte p b) ok
    | twoWireWriteByte p b =>
      show PortsOk (s.busEvent p.port fun s => s.modPort p.port (PortUnit.writeByte p.port s.translators[p.port] b))
      exact portsOk_busEvent (fun t ht => portsOk_modPort ht (stagingOk_writeByte p.port _ b (ht p.port))) ok
    | twoWireReadByte p ack =>
      show PortsOk (s.busEvent p.port fun s => (s.modPort p.port (PortUnit.readByte ack)).obtain false p.port)
      exact portsOk_busEvent
        (fun t ht => portsOk_obtain false (portsOk_modPort ht (stagingOk_readByte ack (ht p.port)))) ok
    | spiCsFall =>
      show PortsOk (if s.device.csLow then s
        else (s.setDevice { s.device with csLow := true }).busEvent spi State.csFall)
      split
      · exact ok
      · exact portsOk_busEvent (s := s.setDevice _)
          (fun t ht => portsOk_modPort ht (stagingOk_respond spi false (stagingOk_begin .ADDRESS none _ (ht spi)))) ok
    | spiWrite => exact portsOk_busEvent_modPort (fun _ => stagingOk_opcode _) ok
    | spiRead => exact portsOk_busEvent_modPort (fun _ => stagingOk_opcode _) ok
    | spiStatus => exact portsOk_busEvent (fun t => portsOk_spiStatus) ok
    | spiUnknownOpcode op =>
      refine portsOk_busEvent (fun t ht => ?_) ok
      unfold State.unknownOpcode
      split
      · exact ht
      · exact portsOk_modPort ht (stagingOk_opcode op (ht spi))
    | spiWriteSlot b =>
      show PortsOk (s.busEvent spi fun s => s.modPort spi (PortUnit.writeSlot s.translators[spi] b))
      exact portsOk_busEvent (fun t ht => portsOk_modPort ht (stagingOk_writeSlot _ b (ht spi))) ok
    | spiReadSlot => exact portsOk_busEvent (fun t => portsOk_readSlot) ok
    | transactionEnd p =>
      show PortsOk ((s.setDevice (s.device.afterEnd p)).busEvent p (State.stop p))
      refine portsOk_busEvent (s := s.setDevice _) (fun t ht => ?_) ok
      have ended := portsOk_endTransaction (p := p) ht
      exact portsOk_modPort ended (stagingOk_respond p false (ended p))
    | lineFetch p o =>
      show PortsOk (if s.serving (portRequester p) then s.lineFetch p o else s)
      split <;> [exact portsOk_lineFetch o ok; exact ok]
    | commit p reads =>
      show PortsOk (if s.serving (portRequester p) then s.commit p reads else s)
      split <;> [exact portsOk_commit reads ok; exact ok]
    | controlCommit p =>
      show PortsOk (s.whenRunning fun s => ((s.takeReadyControl p).obtain false p).arbitrate)
      exact portsOk_whenRunning (portsOk_arbitrate (portsOk_obtain false (portsOk_takeReadyControl ok))) ok
    | mapTranslatorTake t p =>
      show PortsOk (s.whenRunning fun s => (s.takeShared p t cMAP (mapAct t) mapAnswer).arbitrate)
      exact portsOk_whenRunning (portsOk_arbitrate (portsOk_mapTaken p ok)) ok
    | portUnitResetPart p => exact portsOk_whenRunning (portsOk_lastResetPart ok) ok
    | attnTake p => exact portsOk_obtainNow 2 ok
    | noticePop p => exact portsOk_obtainNow 4 ok
    | _ => exact absurd (fun q => by simp [touchedBy, dueParts]) untouched

end

/-- Settles O60: every act keeps every unit in form. -/
theorem stepKeepsStaging : Obligations.StepKeepsStaging := by
  unfold Obligations.StepKeepsStaging
  intro s t ok h
  exact step_keeps (P := PortsOk) (fun _ _ hs => hs) (fun _ => portsOk_idle) (fun i _ => portsOk_after i) h ok

end Sys2Proof.Machine

/-! Rights and line fetches (chapters 1, 2 and 4): the checks of a fetch in their order (O16), and where its line goes (O17). -/

namespace Sys2Proof.Machine

open Sys2Proof.Safety

theorem vecOf_get {α : Type} {n : Nat} (f : Nat → α) (i : Fin n) : (vecOf n f)[i] = f i.val := by
  simp [vecOf]

/-! ## Rights (R22) -/

theorem readable_iff {e : PageEntry} {q : Port} : e.readable q = true ↔ (e.policy = .PRIVATE → e.owner = q) := by
  unfold PageEntry.readable
  cases e.policy <;> simp

theorem writable_iff {e : PageEntry} {sup q : Port} : e.writable sup q = true ↔
    (e.policy = .OPEN ∨ (e.policy = .OWNER ∧ e.owner = q) ∨ (e.policy = .FIXED ∧ sup = q) ∨
      (e.policy = .PRIVATE ∧ e.owner = q)) := by
  unfold PageEntry.writable
  cases e.policy <;> simp

/-! ## The checks of a fetch -/

section
variable {h : HoldCtl} {q : Port} {pg : Page} {ln : Fin 16} {o : ReadOutcome} {st : StoreCtl}

theorem serveFetch_policy (refused : st.pages[pg].readable q = false) :
    st.serveFetch h q pg ln o = (st, faulted .POLICY) := by
  rw [StoreCtl.serveFetch, refused]
  rfl

/-- What is left of the checks once the policy passes. -/
theorem serveFetch_readable (readable : st.pages[pg].readable q = true) : st.serveFetch h q pg ln o =
    if h.fullByOther q pg then (st, faulted .HELD) else if st.damaged.contains (lineNo pg ln) then (st, faulted .DAMAGED) else
      ((st.readCheck (lineNo pg ln) o).1, if (st.readCheck (lineNo pg ln) o).2
        then ⟨Memory.readLine st.bytes pg ln, .none⟩ else faulted .DAMAGED) := by
  rw [StoreCtl.serveFetch, readable]
  rfl

theorem serveFetch_held (readable : st.pages[pg].readable q = true) (held : FullByOther h q pg) :
    st.serveFetch h q pg ln o = (st, faulted .HELD) := by
  rw [serveFetch_readable readable, if_pos ((fullByOther_iff h q pg).2 held)]

theorem serveFetch_listed (readable : st.pages[pg].readable q = true) (free : ¬ FullByOther h q pg)
    (listed : lineNo pg ln ∈ st.damaged) : st.serveFetch h q pg ln o = (st, faulted .DAMAGED) := by
  rw [serveFetch_readable readable, if_neg (mt (fullByOther_iff h q pg).1 free), if_pos (List.contains_iff_mem.2 listed)]

/-- A fetch whose checks pass reads the line. -/
theorem serveFetch_read (readable : st.pages[pg].readable q = true) (free : ¬ FullByOther h q pg)
    (unlisted : lineNo pg ln ∉ st.damaged) : st.serveFetch h q pg ln o = ((st.readCheck (lineNo pg ln) o).1,
      if (st.readCheck (lineNo pg ln) o).2 then ⟨Memory.readLine st.bytes pg ln, .none⟩ else faulted .DAMAGED) := by
  rw [serveFetch_readable readable, if_neg (mt (fullByOther_iff h q pg).1 free),
    if_neg (mt List.contains_iff_mem.1 unlisted)]

end

/-- Settles O16: the rights policy by policy, the checks of a fetch in their order. -/
theorem rightsAndLineFetchChecks : Obligations.RightsAndLineFetchChecks := by
  unfold Obligations.RightsAndLineFetchChecks
  refine ⟨fun e sup q => ⟨readable_iff, writable_iff⟩, fun h q pg ln o st => ⟨serveFetch_policy, serveFetch_held,
    serveFetch_listed, fun ⟨readable, free, unlisted⟩ good => ?_, fun ⟨readable, free, unlisted⟩ bad => ?_⟩⟩
  · obtain ⟨st', read, kept, raised⟩ := readCheck_passes (l := lineNo pg ln) st good
    refine ⟨st', Memory.readLine st.bytes pg ln, ?_, kept, raised, fun i => vecOf_get _ i⟩
    rw [serveFetch_read readable free unlisted, read]
    rfl
  · obtain ⟨bytes, fresh, pages, corrected⟩ := enterDamaged_keeps (lineNo pg ln) st
    refine ⟨st.enterDamaged (lineNo pg ln), ?_, enterDamaged_enters _ _, bytes, fresh, pages, corrected⟩
    rw [serveFetch_read readable free unlisted, bad]
    rfl

/-! ## Where the line goes -/

theorem serving_of {s : State} {r : Requester} (running : s.running = true) (service : s.arbiter.inService = some r) :
    s.serving r = true := by
  rw [State.serving, running, service, beq_self_eq_true]
  rfl

theorem lineHalf_lineNo (pg : Page) (ln : Fin 16) :
    lineHalf (lineNo pg ln) = BitVec.ofNat 16 (pg.val * 16 + ln.val) := by
  have small : pg.val * 16 + ln.val < 2048 := by omega
  show BitVec.ofNat 16 ((pg.val * 16 + ln.val) % 2048) = _
  rw [Nat.mod_eq_of_lt small]

section
variable {p : Port} {o : ReadOutcome} {f : Fetch} {s : State} {st : StoreCtl} {r : FetchReply}

theorem exec_lineFetch_served (running : s.running = true) (service : s.arbiter.inService = some (portRequester p))
    (fetch : s.ports[p].outstanding = some (.fetch f)) (served : s.store.serveFetch s.holds p f.page f.line o = (st, r)) :
    exec (.lineFetch p o) s = .next ((s.setStore st).deliver p f r).endPortService := by
  show Host.Outcome.next (if s.serving (portRequester p) then s.lineFetch p o else s) = _
  rw [if_pos (serving_of running service), State.lineFetch, fetch]
  dsimp only
  rw [State.serveFetch, served]

theorem orElse_eq (a b : Option FaultNote) : (a <|> b) = if a = none then b else a := by
  cases a <;> rfl

theorem note_eq (f : Fetch) (r : FetchReply) : f.note r = if r.outcome = .none then none
    else some ⟨r.outcome, byteN f.page.val, BitVec.ofNat 16 (f.page.val * 16 + f.line.val)⟩ := by
  rw [Fetch.note, lineHalf_lineNo]
  rfl

theorem deliver_line (running : s.ports[p].endedRead = none) (kept : f.discard = false) : s.deliver p f r =
    (((s.modPort p fun u => { u with
      outstanding := none, held := some ⟨f.window, f.tag, r.bytes, false⟩, asking := false
      firstFault := u.firstFault <|> f.note r }).makeHandOver p).obtain false p) := by
  rw [State.deliver, running]
  dsimp only
  rw [kept, if_neg Bool.false_ne_true, modPort_modPort]
  rfl

theorem deliver_dropped (running : s.ports[p].endedRead = none) (dropped : f.discard = true) : s.deliver p f r =
    (((s.modPort p fun u => { u with outstanding := none }).makeHandOver p).obtain false p) := by
  rw [State.deliver, running]
  dsimp only
  rw [if_pos dropped]

theorem deliver_ended {fault : Option FaultNote} (ended : s.ports[p].endedRead = some fault) : s.deliver p f r =
    ((((s.modPort p fun u => { u with outstanding := none, endedRead := none }).writeRecord p
      (readRecord (fault <|> f.note r))).makeHandOver p).obtain false p) := by
  rw [State.deliver, ended]
  dsimp only
  rw [modPort_modPort]

end

/-- Settles O17: the three ways of `deliver`. -/
theorem lineFetchReturns : Obligations.LineFetchReturns := by
  unfold Obligations.LineFetchReturns
  intro p o f s st r running service fetch served
  have exec_eq := exec_lineFetch_served running service fetch served
  refine ⟨fun reading kept => ?_, fun reading dropped => ?_, fun fault ended => ?_⟩
  · rw [exec_eq, deliver_line (s := s.setStore st) reading kept]
    simp only [orElse_eq, note_eq]
  · rw [exec_eq, deliver_dropped (s := s.setStore st) reading dropped]
  · rw [exec_eq, deliver_ended (s := s.setStore st) ended, orElse_eq, note_eq]
    rfl

end Sys2Proof.Machine

/-! Commits (chapter 1): one that passes its checks is applied (O18), one that fails a check is refused there (O19). -/

namespace Sys2Proof.Machine

open Sys2Proof.Safety

/-! ## The service of a commit -/

section
variable {p : Port} {reads : List ReadOutcome} {es : List Entry} {s : State} {st : StoreCtl} {r : TxStatus} {ws : List PageWrite}

theorem exec_commit_served (running : s.running = true) (service : s.arbiter.inService = some (portRequester p))
    (commit : s.ports[p].outstanding = some (.commit es))
    (served : s.store.serveCommit s.device.supervisor s.holds p es reads = (st, ⟨r, ws⟩)) :
    exec (.commit p reads) s = .next (afterCommit p st ws r s) := by
  show Host.Outcome.next (if s.serving (portRequester p) then s.commit p reads else s) = _
  rw [if_pos (serving_of running service), State.commit, commit]
  dsimp only
  rw [State.serveCommit, served]
  rfl

end

section
variable {sup q : Port} {h : HoldCtl} {es : List Entry} {reads : List ReadOutcome} {st st' : StoreCtl}

theorem serveCommit_applied (passes : st.commitCheck sup h q es reads (touchedPages es) = (st', none)) :
    st.serveCommit sup h q es reads = (st'.applyCommit es, ⟨commitRecord es (st'.applyCommit es) none,
      (touchedPages es).map (pageWrite q es (st'.applyCommit es).pages)⟩) := by
  rw [StoreCtl.serveCommit, passes]

theorem serveCommit_refused {f : CommitFault} (fails : st.commitCheck sup h q es reads (touchedPages es) = (st', some f)) :
    st.serveCommit sup h q es reads = (st', ⟨commitRecord es st' (some f), []⟩) := by
  rw [StoreCtl.serveCommit, fails]

end

/-! ## A commit that is applied -/

theorem touchedPages_ne_nil {es : List Entry} (some : es ≠ []) : ∃ low rest, touchedPages es = low :: rest := by
  obtain ⟨e, es', rfl⟩ := List.exists_cons_of_ne_nil some
  cases pages : touchedPages (e :: es') with
  | nil =>
    have member : e.page ∈ touchedPages (e :: es') := mem_touchedPages.2 ⟨e, List.mem_cons_self, rfl⟩
    rw [pages] at member
    cases member
  | cons low rest => exact ⟨low, rest, rfl⟩

/-- The first touched page is the lowest page of the commit. -/
theorem lowest_page {es : List Entry} {low : Page} {rest : List Page} (pages : touchedPages es = low :: rest) :
    (∃ e ∈ es, e.page = low) ∧ ∀ e ∈ es, low ≤ e.page := by
  refine ⟨mem_touchedPages.1 (by rw [pages]; exact List.mem_cons_self), fun e he => ?_⟩
  have member : e.page ∈ touchedPages es := mem_touchedPages.2 ⟨e, he, rfl⟩
  have sorted := touchedPages_sorted es
  rw [pages] at member sorted
  rcases List.mem_cons.1 member with same | later
  · exact le_of_eq same.symm
  · exact le_of_lt ((List.pairwise_cons.1 sorted).1 _ later)

theorem minByte_le (a b : Byte) : minByte a b ≤ a ∧ minByte a b ≤ b ∧ (minByte a b = a ∨ minByte a b = b) := by
  unfold minByte
  split
  · next le => exact ⟨BitVec.le_refl a, le, .inl rfl⟩
  · next gt => exact ⟨BitVec.le_of_lt (BitVec.not_le.1 gt), BitVec.le_refl b, .inr rfl⟩

theorem le_maxByte (a b : Byte) : a ≤ maxByte a b ∧ b ≤ maxByte a b ∧ (maxByte a b = a ∨ maxByte a b = b) := by
  unfold maxByte
  split
  · next le => exact ⟨le, BitVec.le_refl b, .inr rfl⟩
  · next gt => exact ⟨BitVec.le_refl a, BitVec.le_of_lt (BitVec.not_le.1 gt), .inl rfl⟩

theorem foldl_minByte (l : List Byte) (a : Byte) : (l.foldl minByte a = a ∨ l.foldl minByte a ∈ l) ∧
    l.foldl minByte a ≤ a ∧ ∀ x ∈ l, l.foldl minByte a ≤ x := by
  induction l generalizing a with
  | nil => exact ⟨.inl rfl, BitVec.le_refl a, fun _ h => absurd h List.not_mem_nil⟩
  | cons b l ih =>
    obtain ⟨member, least, below⟩ := ih (minByte a b)
    obtain ⟨leA, leB, either⟩ := minByte_le a b
    rw [List.foldl_cons]
    refine ⟨?_, BitVec.le_trans least leA, fun x hx => ?_⟩
    · rcases member with same | inL
      · rw [same]
        rcases either with e | e
        · exact .inl e
        · exact .inr (by rw [e]; exact List.mem_cons_self)
      · exact .inr (List.mem_cons_of_mem b inL)
    · rcases List.mem_cons.1 hx with rfl | hx
      · exact BitVec.le_trans least leB
      · exact below x hx

theorem foldl_maxByte (l : List Byte) (a : Byte) : (l.foldl maxByte a = a ∨ l.foldl maxByte a ∈ l) ∧
    a ≤ l.foldl maxByte a ∧ ∀ x ∈ l, x ≤ l.foldl maxByte a := by
  induction l generalizing a with
  | nil => exact ⟨.inl rfl, BitVec.le_refl a, fun _ h => absurd h List.not_mem_nil⟩
  | cons b l ih =>
    obtain ⟨member, most, above⟩ := ih (maxByte a b)
    obtain ⟨leA, leB, either⟩ := le_maxByte a b
    rw [List.foldl_cons]
    refine ⟨?_, BitVec.le_trans leA most, fun x hx => ?_⟩
    · rcases member with same | inL
      · rw [same]
        rcases either with e | e
        · exact .inl e
        · exact .inr (by rw [e]; exact List.mem_cons_self)
      · exact .inr (List.mem_cons_of_mem b inL)
    · rcases List.mem_cons.1 hx with rfl | hx
      · exact BitVec.le_trans leB most
      · exact above x hx

/-- From the highest byte the fold finds the least of a list. -/
theorem least_mem {l : List Byte} (some : l ≠ []) : l.foldl minByte 0xFF ∈ l := by
  obtain ⟨x, xs, rfl⟩ := List.exists_cons_of_ne_nil some
  obtain ⟨member, -, below⟩ := foldl_minByte (x :: xs) 0xFF
  rcases member with top | inL
  · have bound : (0xFF : Byte) ≤ x := top ▸ below x List.mem_cons_self
    have isTop : x = 0xFF := by bv_omega
    rw [top, isTop]
    exact List.mem_cons_self
  · exact inL

theorem greatest_mem {l : List Byte} (some : l ≠ []) : l.foldl maxByte 0 ∈ l := by
  obtain ⟨x, xs, rfl⟩ := List.exists_cons_of_ne_nil some
  obtain ⟨member, -, above⟩ := foldl_maxByte (x :: xs) 0
  rcases member with bottom | inL
  · have bound : x ≤ (0 : Byte) := bottom ▸ above x List.mem_cons_self
    have isBottom : x = 0 := by bv_omega
    rw [bottom, isBottom]
    exact List.mem_cons_self
  · exact inL

theorem mem_offsetsOn {es : List Entry} {pg : Page} {off : Byte} :
    off ∈ offsetsOn es pg ↔ ∃ e ∈ es, e.page = pg ∧ e.offset = off := by
  simp [offsetsOn, and_assoc]

/-- An entry of a commit's posting: the writer, the version of its page, the bounds of what was written there. -/
theorem pageWrite_spec {es : List Entry} (q : Port) (pages : Vector PageEntry 128) {pg : Page} {w : PageWrite}
    (isEntry : pageWrite q es pages pg = w) (touched : ∃ e ∈ es, e.page = pg) :
    w.writer = q ∧ w.version = pages[w.page].version ∧ (∃ e ∈ es, e.page = w.page ∧ e.offset = w.firstOff) ∧
      (∃ e ∈ es, e.page = w.page ∧ e.offset = w.lastOff) ∧
      ∀ e ∈ es, e.page = w.page → w.firstOff ≤ e.offset ∧ e.offset ≤ w.lastOff := by
  have some : offsetsOn es pg ≠ [] := by
    obtain ⟨e, he, page⟩ := touched
    exact List.ne_nil_of_mem (mem_offsetsOn.2 ⟨e, he, page, rfl⟩)
  obtain ⟨-, -, below⟩ := foldl_minByte (offsetsOn es pg) 0xFF
  obtain ⟨-, -, above⟩ := foldl_maxByte (offsetsOn es pg) 0
  subst isEntry
  refine ⟨rfl, rfl, mem_offsetsOn.1 (least_mem some), mem_offsetsOn.1 (greatest_mem some), fun e he page => ?_⟩
  have member := mem_offsetsOn.2 ⟨e, he, page, rfl⟩
  exact ⟨below _ member, above _ member⟩

/-- The checks of a commit that passes them on all its pages. -/
theorem commitCheck_passes {sup q : Port} {h : HoldCtl} {es : List Entry} {st : StoreCtl} {reads : List ReadOutcome}
    {pgs : List Page} (pass : ∀ pg ∈ pgs, (st.pages[pg].writable sup q = true ∧ ¬ HeldByOther h q pg) ∧
      ∀ ln, partLine es pg ln = true → lineNo pg ln ∉ st.damaged) (read : ReadsPass reads (partLines es pgs)) :
    ∃ st', st.commitCheck sup h q es reads pgs = (st', none) ∧ StoreKept st st' ∧
      RaisedBy ((reads.take (partLines es pgs)).count .corrected) st.corrected st'.corrected := by
  obtain ⟨st', check, kept, raised⟩ := commitCheck_append sup h q es pgs [] st reads pass read
  rw [List.append_nil] at check
  exact ⟨st', check, kept, raised⟩

/-- Settles O18: the checks pass with the store kept but for the corrected count; the rest is read off `applyCommit`. -/
theorem commitIsApplied : Obligations.CommitIsApplied := by
  unfold Obligations.CommitIsApplied
  intro p reads es s running service commit wf some pass read
  obtain ⟨st, check, ⟨bytes, fresh, pages, damaged, overflow⟩, raised⟩ := commitCheck_passes pass read
  obtain ⟨low, rest, touched⟩ := touchedPages_ne_nil some
  have version : lowestVersion es (st.applyCommit es).pages = (st.applyCommit es).pages[low].version := by
    rw [lowestVersion, touched]
  have written : (st.applyCommit es).bytes = Memory.writeEntries s.store.bytes es := by rw [← bytes]; rfl
  have posted : ((touchedPages es).map (pageWrite p es (st.applyCommit es).pages)).map PageWrite.page = touchedPages es := by
    rw [List.map_map]
    exact List.map_id _
  refine ⟨st.applyCommit es, (touchedPages es).map (pageWrite p es (st.applyCommit es).pages), low, ?_, lowest_page touched,
    fun before e after split last => ?_, fun a untouched => ?_, fun pg => ?_, ?_, overflow, fresh, raised, ?_, fun pg => ?_,
    fun w posts => ?_⟩
  · rw [exec_commit_served running service commit (serveCommit_applied check), commitRecord, version]
  · rw [written, split]
    exact Memory.read_writeEntries_last wf last
  · rw [written]
    exact Memory.read_writeEntries_of_not untouched
  · have bumped := bumpVersions_get (fun pg => es.any fun e => e.page == pg) s.store.pages pg
    simp only [List.any_eq_true, beq_iff_eq] at bumped
    rw [← bumped, ← pages]
    rfl
  · rw [← damaged]
    rfl
  · rw [posted]
    exact touchedPages_sorted es
  · rw [posted]
    exact mem_touchedPages
  · obtain ⟨pg, touches, isEntry⟩ := List.mem_map.1 posts
    exact pageWrite_spec p _ isEntry (mem_touchedPages.1 touches)

/-! ## A commit that is refused -/

section
variable {sup q : Port} {h : HoldCtl} {es : List Entry} {reads : List ReadOutcome} {st st' : StoreCtl} {pg : Page}
  {pgs : List Page}

theorem commitCheck_policy (refused : st.pages[pg].writable sup q = false) :
    st.commitCheck sup h q es reads (pg :: pgs) = (st, some ⟨.POLICY, pg, Config.noLine⟩) := by
  rw [StoreCtl.commitCheck, refused]
  rfl

theorem commitCheck_held (writable : st.pages[pg].writable sup q = true) (held : HeldByOther h q pg) :
    st.commitCheck sup h q es reads (pg :: pgs) = (st, some ⟨.HELD, pg, Config.noLine⟩) := by
  rw [StoreCtl.commitCheck, writable, (heldByOther_iff h q pg).2 held]
  rfl

theorem commitCheck_damaged (writable : st.pages[pg].writable sup q = true) (free : ¬ HeldByOther h q pg)
    {rest : List ReadOutcome} {l : LineNo} (fails : st.damageCheck es pg reads allLines = (st', rest, some l)) :
    st.commitCheck sup h q es reads (pg :: pgs) = (st', some ⟨.DAMAGED, pg, lineHalf l⟩) := by
  rw [StoreCtl.commitCheck, writable, Bool.eq_false_iff.2 (mt (heldByOther_iff h q pg).1 free), fails]
  rfl

end

/-- The lines below a line, the line, the lines above it. -/
theorem allLines_split (ln : Fin 16) : ∃ below above, allLines = below ++ ln :: above ∧ (∀ l ∈ below, l < ln) ∧
    ∀ l ∈ above, ln < l := by
  obtain ⟨below, above, split⟩ := List.append_of_mem (mem_allLines ln)
  have sorted : allLines.Pairwise (· < ·) := by decide
  rw [split, List.pairwise_append] at sorted
  obtain ⟨-, upper, across⟩ := sorted
  exact ⟨below, above, split, fun l hl => across l hl ln List.mem_cons_self, (List.pairwise_cons.1 upper).1⟩

theorem filter_below {ln : Fin 16} {below above : List (Fin 16)} (split : allLines = below ++ ln :: above)
    (less : ∀ l ∈ below, l < ln) (more : ∀ l ∈ above, ln < l) (f : Fin 16 → Bool) :
    allLines.filter (fun l => decide (l < ln) && f l) = below.filter f := by
  have upper : (ln :: above).filter (fun l => decide (l < ln) && f l) = [] := by
    rw [List.filter_eq_nil_iff]
    intro l hl
    have notLess : ¬ l < ln := by
      rcases List.mem_cons.1 hl with rfl | hl
      · exact lt_irrefl _
      · exact not_lt_of_gt (more l hl)
    simp [notLess]
  rw [split, List.filter_append, upper, List.append_nil]
  exact List.filter_congr fun l hl => by rw [decide_eq_true (less l hl), Bool.true_and]

theorem headD_drop (reads : List ReadOutcome) (n : Nat) : (reads.drop n).headD .good = reads[n]?.getD .good := by
  rw [List.headD_eq_head?_getD, List.head?_drop]

/-- Settles O19: the pages before pass, the check fails on `pg`, in the order of the checks. -/
theorem commitIsRefused : Obligations.CommitIsRefused := by
  unfold Obligations.CommitIsRefused
  intro p reads es s before after pg running service commit touched pass read refused
  obtain ⟨st, check, kept, raised⟩ := commitCheck_append s.device.supervisor s.holds p es before (pg :: after) s.store reads
    pass read
  have pages : st.pages = s.store.pages := kept.2.2.1
  have damaged : st.damaged = s.store.damaged := kept.2.2.2.1
  rw [← touched] at check
  have answers {st' : StoreCtl} {f : CommitFault} (fails : st.commitCheck s.device.supervisor s.holds p es
      (reads.drop (partLines es before)) (pg :: after) = (st', some f)) (page : f.page = pg) :
      refused st' f.reason f.line := by
    have served := exec_commit_served running service commit (serveCommit_refused (check.trans fails))
    rwa [commitRecord, page] at served
  refine ⟨fun closed => ⟨st, ?_, kept, raised⟩, fun writable held => ⟨st, ?_, kept, raised⟩, fun passes ln part unlisted => ?_⟩
  · exact answers (f := ⟨.POLICY, pg, Config.noLine⟩) (commitCheck_policy (by rw [pages]; exact closed)) rfl
  · exact answers (f := ⟨.HELD, pg, Config.noLine⟩) (commitCheck_held (by rw [pages]; exact writable) held) rfl
  · intro n read'
    obtain ⟨writable, free⟩ := passes
    obtain ⟨below, above, split, less, more⟩ := allLines_split ln
    have counted : n = partLines es before + partCount es pg below := by
      show partLines es before + _ = _
      rw [filter_below split less more, partCount]
    rw [counted] at read' ⊢
    obtain ⟨-, readBelow⟩ := readsPass_split read'
    obtain ⟨st', lines, kept', raised'⟩ := damageCheck_append es pg below (ln :: above) st _
      (fun l hl isPart => by rw [damaged]; exact unlisted l (less l hl) isPart) readBelow
    have damaged' : st'.damaged = s.store.damaged := kept'.2.2.2.1.trans damaged
    have raisedAll := raisedBy_add raised raised'
    rw [← count_take_add] at raisedAll
    rw [← split] at lines
    have fails {st'' : StoreCtl} {rest : List ReadOutcome} (atLine : st'.damageCheck es pg
        ((reads.drop (partLines es before)).drop (partCount es pg below)) (ln :: above) = (st'', rest, some (lineNo pg ln))) :
        refused st'' .DAMAGED (BitVec.ofNat 16 (pg.val * 16 + ln.val)) := by
      rw [← lineHalf_lineNo]
      exact answers (f := ⟨.DAMAGED, pg, lineHalf (lineNo pg ln)⟩) (commitCheck_damaged (by rw [pages]; exact writable) free (lines.trans atLine)) rfl
    refine ⟨fun listed => ⟨st', ?_, storeKept_trans kept kept', raisedAll⟩, fun notListed bad => ?_⟩
    · exact fails (damageCheck_listed above _ part (by rw [damaged']; exact listed))
    · obtain ⟨bytes, fresh, pagesKept, -, -⟩ := storeKept_trans kept kept'
      obtain ⟨bytes', fresh', pages', corrected'⟩ := enterDamaged_keeps (lineNo pg ln) st'
      refine ⟨st'.enterDamaged (lineNo pg ln), ?_, ?_, bytes'.trans bytes, fresh'.trans fresh, pages'.trans pagesKept,
        by rw [corrected']; exact raisedAll⟩
      · refine fails (damageCheck_uncorrectable above part (by rw [damaged']; exact notListed) ?_)
        rw [List.drop_drop, headD_drop, bad]
        rfl
      · have entered := enterDamaged_enters (lineNo pg ln) st'
        have overflow : st'.overflow = s.store.overflow := kept'.2.2.2.2.trans kept.2.2.2.2
        unfold Entered at entered ⊢
        rwa [damaged', overflow] at entered

end Sys2Proof.Machine

/-! Page transfers (chapter 8): the checks in their order and the copy (O20); and what a hold keeps from others' writes (O21). -/

namespace Sys2Proof.Machine

open Sys2Proof.Safety

/-! ## The checks of a transfer -/

section
variable {sup q : Port} {h : HoldCtl} {src dst : Page} {reads : List ReadOutcome} {st : StoreCtl}

theorem serveTransfer_unreadable (refused : ¬ st.pages[src].readable q = true) :
    st.serveTransfer sup h q src dst reads = (st, .POLICY, []) := by
  rw [StoreCtl.serveTransfer, Bool.eq_false_iff.2 refused]
  rfl

theorem serveTransfer_sourceHeld (readable : st.pages[src].readable q = true) (held : FullByOther h q src) :
    st.serveTransfer sup h q src dst reads = (st, .HELD, []) := by
  rw [StoreCtl.serveTransfer, readable, (fullByOther_iff h q src).2 held]
  rfl

/-- What is left of a transfer once its source passes. -/
theorem serveTransfer_source (readable : st.pages[src].readable q = true) (free : ¬ FullByOther h q src) :
    st.serveTransfer sup h q src dst reads =
      if !st.pages[dst].writable sup q then (st, .POLICY, [])
      else if h.heldByOther q dst then (st, .HELD, [])
      else if allLines.any fun ln => st.damaged.contains (lineNo src ln) then (st, .DAMAGED, [])
      else if (st.readSource src reads allLines).2 then
        ((st.readSource src reads allLines).1.applyTransfer src dst, .none, [⟨dst, q, 0x00, 0xFF,
          ((st.readSource src reads allLines).1.applyTransfer src dst).pages[dst].version⟩])
      else ((st.readSource src reads allLines).1, .DAMAGED, []) := by
  rw [StoreCtl.serveTransfer, readable, Bool.eq_false_iff.2 (mt (fullByOther_iff h q src).1 free), Bool.not_true,
    if_neg Bool.false_ne_true, if_neg Bool.false_ne_true]

theorem serveTransfer_unwritable (readable : st.pages[src].readable q = true) (free : ¬ FullByOther h q src)
    (refused : ¬ st.pages[dst].writable sup q = true) :
    st.serveTransfer sup h q src dst reads = (st, .POLICY, []) := by
  rw [serveTransfer_source readable free, Bool.eq_false_iff.2 refused, Bool.not_false, if_pos rfl]

theorem serveTransfer_destHeld (readable : st.pages[src].readable q = true) (free : ¬ FullByOther h q src)
    (writable : st.pages[dst].writable sup q = true) (held : HeldByOther h q dst) :
    st.serveTransfer sup h q src dst reads = (st, .HELD, []) := by
  rw [serveTransfer_source readable free, writable, (heldByOther_iff h q dst).2 held, Bool.not_true,
    if_neg Bool.false_ne_true, if_pos rfl]

/-- What is left of a transfer once both pages pass. -/
theorem serveTransfer_pages (readable : st.pages[src].readable q = true) (free : ¬ FullByOther h q src)
    (writable : st.pages[dst].writable sup q = true) (free' : ¬ HeldByOther h q dst) :
    st.serveTransfer sup h q src dst reads =
      if allLines.any fun ln => st.damaged.contains (lineNo src ln) then (st, .DAMAGED, [])
      else if (st.readSource src reads allLines).2 then
        ((st.readSource src reads allLines).1.applyTransfer src dst, .none, [⟨dst, q, 0x00, 0xFF,
          ((st.readSource src reads allLines).1.applyTransfer src dst).pages[dst].version⟩])
      else ((st.readSource src reads allLines).1, .DAMAGED, []) := by
  rw [serveTransfer_source readable free, writable, Bool.eq_false_iff.2 (mt (heldByOther_iff h q dst).1 free'),
    Bool.not_true, if_neg Bool.false_ne_true, if_neg Bool.false_ne_true]

theorem any_listed_iff : (allLines.any fun ln => st.damaged.contains (lineNo src ln)) = true ↔
    ∃ ln, lineNo src ln ∈ st.damaged := by
  simp [mem_allLines]

theorem readSource_passes (pass : ReadsPass reads 16) : ∃ st', st.readSource src reads allLines = (st', true) ∧
    StoreKept st st' ∧ RaisedBy ((reads.take 16).count .corrected) st.corrected st'.corrected := by
  obtain ⟨st', read, kept, raised⟩ := readSource_append src allLines [] st reads pass
  rw [List.append_nil] at read
  exact ⟨st', read, kept, raised⟩

theorem allLines_at (ln : Fin 16) : allLines = allLines.take ln.val ++ ln :: allLines.drop (ln.val + 1) ∧
    (allLines.take ln.val).length = ln.val := by
  revert ln
  decide

/-- The first line that cannot be corrected ends the reading, and is entered. -/
theorem readSource_fails {ln : Fin 16} (bad : reads[ln.val]? = some .uncorrectable) (pass : ReadsPass reads ln.val) :
    ∃ st', st.readSource src reads allLines = (st'.enterDamaged (lineNo src ln), false) ∧ StoreKept st st' ∧
      RaisedBy ((reads.take ln.val).count .corrected) st.corrected st'.corrected := by
  obtain ⟨split, length⟩ := allLines_at ln
  obtain ⟨st', read, kept, raised⟩ := readSource_append src (allLines.take ln.val) (ln :: allLines.drop (ln.val + 1)) st reads
    (by rw [length]; exact pass)
  rw [← split, length] at read
  rw [length] at raised
  refine ⟨st', read.trans (readSource_uncorrectable _ ?_), kept, raised⟩
  rw [headD_drop, bad]
  rfl

end

theorem exec_pageTransfer_served {reads : List ReadOutcome} {src dst : Page} {q : Port} {s : State} {st : StoreCtl} {r : Reason}
    {ws : List PageWrite} (running : s.running = true) (service : s.arbiter.inService = some copyEngine)
    (issued : s.copy.transfer = .issued src dst q)
    (served : s.store.serveTransfer s.device.supervisor s.holds q src dst reads = (st, r, ws)) :
    exec (.pageTransfer reads) s = .next ((((s.setStore st).setNotice (s.notice.post ws).1).raiseAll
      (s.notice.post ws).2).setCopy { s.copy with transfer := .returned r }).endService := by
  show Host.Outcome.next (if s.serving copyEngine then s.pageTransfer reads else s) = _
  rw [if_pos (serving_of running service), State.pageTransfer, issued]
  dsimp only
  rw [State.serveTransfer, served]
  rfl

theorem applyTransfer_pages (src dst : Page) (st : StoreCtl) (pg : Page) : (st.applyTransfer src dst).pages[pg] =
    if pg = dst then { st.pages[pg] with version := st.pages[pg].version + 1 } else st.pages[pg] := by
  have bumped := bumpVersions_get (fun pg => pg == dst) st.pages pg
  simp only [beq_iff_eq] at bumped
  simpa only [StoreCtl.applyTransfer, StoreCtl.undamage] using bumped

/-- What a transfer leaves of the damaged lines and the counts. -/
theorem applyTransfer_lists (src dst : Page) (st : StoreCtl) :
    (st.applyTransfer src dst).damaged = st.damaged.filter (fun l => linePage l != dst) ∧
      (st.applyTransfer src dst).overflow = st.overflow ∧ (st.applyTransfer src dst).codesFresh = st.codesFresh ∧
      (st.applyTransfer src dst).corrected = st.corrected := by
  simp only [StoreCtl.applyTransfer, StoreCtl.undamage, and_true]
  exact List.filter_congr fun l _ => rfl

/-- Settles O20: the checks in their order; then the reads; then the copy, read off `applyTransfer`. -/
theorem pageTransferIsServed : Obligations.PageTransferIsServed := by
  unfold Obligations.PageTransferIsServed
  intro reads src dst q s running service issued ends sourceRights destRights listed
  have answers {st : StoreCtl} {ws : List PageWrite} {r : Reason}
      (served : s.store.serveTransfer s.device.supervisor s.holds q src dst reads = (st, r, ws)) : ends st ws r :=
    exec_pageTransfer_served running service issued served
  refine ⟨fun unreadable => answers (serveTransfer_unreadable unreadable),
    fun readable held => answers (serveTransfer_sourceHeld readable held),
    fun readable free unwritable => answers (serveTransfer_unwritable readable free unwritable),
    fun readable free writable held => answers (serveTransfer_destHeld readable free writable held),
    fun readable free writable free' => ?_⟩
  have pages := serveTransfer_pages (reads := reads) readable free writable free'
  refine ⟨fun isListed => answers ?_, fun notListed ln bad pass => ?_, fun notListed pass wf => ?_⟩
  · rw [pages, if_pos (any_listed_iff.2 isListed)]
  · obtain ⟨st, read, ⟨bytes, fresh, pagesKept, damaged, overflow⟩, raised⟩ := readSource_fails (src := src) (st := s.store)
      bad pass
    obtain ⟨bytes', fresh', pages', corrected'⟩ := enterDamaged_keeps (lineNo src ln) st
    refine ⟨st.enterDamaged (lineNo src ln), answers ?_, ?_, bytes'.trans bytes, fresh'.trans fresh, pages'.trans pagesKept,
      by rw [corrected']; exact raised⟩
    · rw [pages, if_neg (mt any_listed_iff.1 notListed), read, if_neg Bool.false_ne_true]
    · have entered := enterDamaged_enters (lineNo src ln) st
      unfold Entered at entered ⊢
      rwa [damaged, overflow] at entered
  · obtain ⟨st, read, ⟨bytes, fresh, pagesKept, damaged, overflow⟩, raised⟩ := readSource_passes (src := src) (st := s.store) pass
    obtain ⟨damaged', overflow', fresh', corrected'⟩ := applyTransfer_lists src dst st
    refine ⟨st.applyTransfer src dst, answers ?_, fun off => ?_, fun a outside => ?_, fun pg => ?_, ?_, overflow'.trans overflow,
      fresh'.trans fresh, by rw [corrected']; exact raised⟩
    · rw [pages, if_neg (mt any_listed_iff.1 notListed), read, if_pos rfl]
    · rw [applyTransfer_bytes, bytes]
      exact Memory.read_copyPage_dst src dst wf off
    · rw [applyTransfer_bytes, bytes]
      exact Memory.read_copyPage_other src dst s.store.bytes outside
    · rw [applyTransfer_pages, pagesKept]
    · rw [damaged', damaged]

/-! ## Held pages -/

/-- A commit that passes its checks is on pages that no other port holds. -/
theorem commitCheck_free {sup q : Port} {h : HoldCtl} {es : List Entry} {pgs : List Page} {st : StoreCtl}
    {reads : List ReadOutcome} (passes : (st.commitCheck sup h q es reads pgs).2 = none) {pg : Page} (hpg : pg ∈ pgs) :
    h.heldByOther q pg = false := by
  induction pgs generalizing st reads with
  | nil => exact absurd hpg List.not_mem_nil
  | cons x pgs ih =>
    unfold StoreCtl.commitCheck at passes
    split at passes
    · cases passes
    · split at passes
      · cases passes
      · next free =>
        dsimp only at passes
        split at passes
        · cases passes
        · rcases List.mem_cons.1 hpg with rfl | hpg
          · exact Bool.eq_false_iff.2 free
          · exact ih passes hpg

theorem serveCommit_held {sup q : Port} {h : HoldCtl} {es : List Entry} {reads : List ReadOutcome} {st : StoreCtl} {pg : Page}
    (held : HeldByOther h q pg) (off : Byte) :
    Memory.read (st.serveCommit sup h q es reads).1.bytes (storeAddr pg off) = Memory.read st.bytes (storeAddr pg off) := by
  obtain ⟨bytes, -, -⟩ := commitCheck_keeps sup h q es (touchedPages es) st reads
  unfold StoreCtl.serveCommit
  dsimp only
  split
  · rw [bytes]
  · next passes =>
    rw [← bytes]
    refine Memory.read_writeEntries_of_not fun e he same => ?_
    have touched : pg ∈ touchedPages es := mem_touchedPages.2 ⟨e, he, (storeAddr_inj.1 same).1⟩
    rw [← heldByOther_iff, commitCheck_free passes touched] at held
    cases held

theorem serveTransfer_held {sup q : Port} {h : HoldCtl} {src dst : Page} {reads : List ReadOutcome} {st : StoreCtl} {pg : Page}
    (held : HeldByOther h q pg) (off : Byte) :
    Memory.read (st.serveTransfer sup h q src dst reads).1.bytes (storeAddr pg off) =
      Memory.read st.bytes (storeAddr pg off) := by
  obtain ⟨bytes, -, -⟩ := readSource_keeps src allLines st reads
  rcases serveTransfer_cases sup h q src dst reads st with ⟨r, -, refused⟩ | damaged | ⟨-, free, done⟩
  · rw [refused]
  · rw [damaged, bytes]
  · rw [done, applyTransfer_bytes, bytes]
    refine Memory.read_copyPage_other src dst st.bytes fun off' same => ?_
    have page : dst = pg := (storeAddr_inj.1 same).1
    rw [← heldByOther_iff, ← page, free] at held
    cases held

/-- Serving a commit leaves the bytes that `serveCommit` leaves: what comes behind it writes none. -/
theorem serveCommit_bytes (p : Port) (es : List Entry) (reads : List ReadOutcome) (s : State) :
    (s.serveCommit p es reads).endPortService.store.bytes =
      (s.store.serveCommit s.device.supervisor s.holds p es reads).1.bytes := by
  rw [(endPortService_quiet _).bytes, State.serveCommit, (returnCommit_quiet _ _ _).bytes, postAll_store]
  rfl

theorem serveTransfer_bytes (src dst : Page) (q : Port) (reads : List ReadOutcome) (s : State) :
    (s.serveTransfer src dst q reads).endService.store.bytes =
      (s.store.serveTransfer s.device.supervisor s.holds q src dst reads).1.bytes := by
  rw [(endService_quiet _).bytes, State.serveTransfer]
  dsimp only
  rw [setCopy_store, postAll_store]
  rfl

/-- Settles O21: a hold of another port fails the check of every commit and transfer that would write the page. -/
theorem heldPageKeepsItsBytes : Obligations.HeldPageKeepsItsBytes := by
  unfold Obligations.HeldPageKeepsItsBytes
  intro s t r pg granted covers
  have held {q : Port} (other : q ≠ r.1) : HeldByOther s.holds q pg := ⟨r, Ne.symm other, granted, covers⟩
  refine ⟨fun q reads other h off => ?_, fun src dst q reads other issued h off => ?_⟩
  · rw [after_eq h]
    show Memory.read (if s.serving (portRequester q) then s.commit q reads else s).store.bytes _ = _
    unfold State.commit
    split
    · split
      · rw [serveCommit_bytes]
        exact serveCommit_held (held other) off
      · rfl
    · rfl
  · rw [after_eq h]
    show Memory.read (if s.serving copyEngine then s.pageTransfer reads else s).store.bytes _ = _
    rw [State.pageTransfer, issued]
    split
    · rw [serveTransfer_bytes]
      exact serveTransfer_held (held other) off
    · rfl

end Sys2Proof.Machine

/-! Resets, the straps and ALERT_IN (chapters 1, 2 and 9): O4, O5, O6, O7. -/

namespace Sys2Proof.Machine

open Sys2Proof.Safety

/-! ## Reset values -/

theorem reset_source (i : SourceNo) : AttnUnit.reset.sources[i] = ⟨.IDLE, .zero, 0, false, i⟩ := by
  have number : Fin.ofNat 8 i.val = i := Fin.ext (Nat.mod_eq_of_lt i.isLt)
  show (vecOf 8 fun i => (⟨.IDLE, .zero, 0, false, Fin.ofNat 8 i⟩ : Source))[i] = _
  rw [vecOf_get, number]

/-- Blocks with the values of `State.reset` are reset. -/
theorem blocksReset_of {t : State} (arbiter : t.arbiter = Arbiter.reset) (holds : t.holds = HoldCtl.reset)
    (notice : t.notice = NoticeUnit.reset) (copy : t.copy = CopyEngine.reset)
    (translators : t.translators = Vector.replicate 4 Translator.reset) (ports : t.ports = Vector.replicate 4 PortUnit.reset)
    (cmds : t.cmds = Vector.replicate 4 CommandUnit.reset) (claims : t.claims = [])
    (attn : t.attn = Vector.replicate 4 AttnUnit.reset) : BlocksReset t where
  arbiter := arbiter
  slots r := by rw [holds]; exact slot_reset r
  holdQueue := by rw [holds]; rfl
  watch pg := by rw [notice]; simp [NoticeUnit.reset]
  notices q := by rw [notice]; simp [NoticeUnit.reset, NoticeQueue.empty]
  copyQueue := by rw [copy]; rfl
  transfer := by rw [copy]; rfl
  lastCopy q := by rw [copy]; simp [CopyEngine.reset, LastCopy.reset]
  map q w := by simp [translators, Translator.reset]
  mode q := by simp [translators, Translator.reset]
  unit q := by simp [ports, PortUnit.reset]
  line q := by simp [cmds, CommandUnit.reset]
  result q := by
    have detail : detailOf [] = Vector.replicate 12 0 := by decide
    rw [detail]
    simp [cmds, CommandUnit.reset]
  flags q := by simp [cmds, CommandUnit.reset]
  txStatus q := by simp [cmds, CommandUnit.reset, TxStatus.zero]
  claims := claims
  sources q i := by
    have unit : t.attn[q] = AttnUnit.reset := by simp [attn]
    rw [unit]
    exact reset_source i
  output q := by simp [attn, AttnUnit.reset]

theorem reset_pages (pg : Page) : StoreCtl.reset.pages[pg] = ⟨.OPEN, 0, 0⟩ := by
  simp [StoreCtl.reset, PageEntry.reset]

theorem asValues_get (x : Straps) : (asValues x)[(0 : Port)] = x.as0 ∧ (asValues x)[(1 : Port)] = x.as1 ∧
    (asValues x)[(2 : Port)] = x.as2 ∧ (asValues x)[spi] = 0 := by
  simp only [asValues, vecOf_get]
  exact ⟨rfl, rfl, rfl, rfl⟩

/-- Settles O5: the reset values read off `State.reset`; the invariants of a device with empty queues. -/
theorem resetStateHoldsResetValuesAndInvariants : Obligations.ResetStateHoldsResetValuesAndInvariants := by
  unfold Obligations.ResetStateHoldsResetValuesAndInvariants
  exact ⟨⟨blocksReset_of rfl rfl rfl rfl rfl rfl rfl rfl rfl, rfl, rfl, fun _ => rfl, rfl, rfl, rfl, reset_pages⟩,
    Memory.wf_reset, holdsOk_reset, scanned_reset, acyclic_reset, ⟨Nat.zero_le _, List.nodup_nil⟩, noticesOk_reset, copyOk_reset,
    portsOk_powerUp⟩

/-- Settles O4: `powerOn` and `clearEnd` field by field. -/
theorem powerOnResetAndStartUpClear : Obligations.PowerOnResetAndStartUpClear := by
  unfold Obligations.PowerOnResetAndStartUpClear
  refine ⟨fun x s => ?_, fun s clearing => ⟨fun high => ?_, fun low => ?_⟩⟩
  · obtain ⟨as0, as1, as2, -⟩ := asValues_get x
    exact ⟨s.powerOn x, rfl, blocksReset_of rfl rfl rfl rfl rfl rfl rfl rfl rfl, rfl, rfl, rfl, as0, as1, as2, rfl, rfl, rfl,
      fun _ => rfl, rfl, rfl, rfl, reset_pages⟩
  · have ends : s.clearEnd =
        { s with device := { s.device with clearing := false }, store := s.store.cleared } := by
      rw [State.clearEnd, clearing, high]
      rfl
    refine ⟨s.clearEnd, rfl, ?_, fun a => ?_, ?_, ?_⟩
    · rw [ends, State.running, high]
      rfl
    · rw [ends]
      rfl
    · rw [ends]
      rfl
    · rw [ends]
      rfl
  · show Host.Outcome.next s.clearEnd = _
    rw [State.clearEnd, low, Bool.not_true, Bool.and_false, if_neg Bool.false_ne_true]

/-! ## The device reset -/

theorem exec_resetNFall {s : State} {completed : Bool} (high : s.device.resetLow = false) (reads : List ReadOutcome) :
    exec (.resetNFall completed reads) s =
      .next (s.deviceReset (if completed && s.running then s.completedStore reads else s.store)) := by
  show Host.Outcome.next (s.resetFall completed reads) = _
  rw [State.resetFall, high, if_neg Bool.false_ne_true]

/-- What a device reset leaves of a store. -/
theorem deviceReset_spec (st : StoreCtl) (s : State) : BlocksReset (s.deviceReset st) ∧
    (s.deviceReset st).device = { s.device with resetLow := true } ∧ (s.deviceReset st).store.corrected = 0 ∧
    (s.deviceReset st).store.damaged = [] ∧ (s.deviceReset st).store.overflow = false ∧
    ∀ pg : Page, (s.deviceReset st).store.pages[pg] = ⟨.OPEN, 0, st.pages[pg].version⟩ :=
  ⟨blocksReset_of rfl rfl rfl rfl rfl rfl rfl rfl rfl, rfl, rfl, rfl, rfl, fun pg => by
    simp [State.deviceReset, StoreCtl.deviceReset, PageEntry.reset]⟩

theorem requesterPort_port (p : Port) : requesterPort (portRequester p) = some p := by
  revert p
  decide

theorem completedStore_commit {s : State} {p : Port} {es : List Entry} (reads : List ReadOutcome)
    (service : s.arbiter.inService = some (portRequester p)) (commit : s.ports[p].outstanding = some (.commit es)) :
    s.completedStore reads = (s.store.serveCommit s.device.supervisor s.holds p es reads).1 := by
  rw [State.completedStore, service]
  dsimp only
  rw [requesterPort_port]
  dsimp only
  rw [commit]

theorem completedStore_transfer {s : State} {src dst : Page} {q : Port} (reads : List ReadOutcome)
    (service : s.arbiter.inService = some copyEngine) (issued : s.copy.transfer = .issued src dst q) :
    s.completedStore reads = (s.store.serveTransfer s.device.supervisor s.holds q src dst reads).1 := by
  have noPort : requesterPort copyEngine = none := rfl
  rw [State.completedStore, service]
  dsimp only
  rw [noPort, issued]

theorem serveCommit_versions (p : Port) (es : List Entry) (reads : List ReadOutcome) (s : State) (pg : Page) :
    (s.serveCommit p es reads).endPortService.store.pages[pg].version =
      (s.store.serveCommit s.device.supervisor s.holds p es reads).1.pages[pg].version := by
  rw [(endPortService_quiet _).versions, State.serveCommit, (returnCommit_quiet _ _ _).versions, postAll_store]
  rfl

theorem serveTransfer_versions (src dst : Page) (q : Port) (reads : List ReadOutcome) (s : State) (pg : Page) :
    (s.serveTransfer src dst q reads).endService.store.pages[pg].version =
      (s.store.serveTransfer s.device.supervisor s.holds q src dst reads).1.pages[pg].version := by
  rw [(endService_quiet _).versions, State.serveTransfer]
  dsimp only
  rw [setCopy_store, postAll_store]
  rfl

/-- A reset that completes the request in service leaves its bytes and versions. -/
theorem reset_asServed {s : State} {reads : List ReadOutcome} {i : Instr} {t : State} {st : StoreCtl}
    (running : s.running = true) (effect : exec i s = .next t) (completed : s.completedStore reads = st)
    (bytes : t.store.bytes = st.bytes) (versions : ∀ pg : Page, t.store.pages[pg].version = st.pages[pg].version) :
    ∃ t u, exec (.resetNFall true reads) s = .next t ∧ exec i s = .next u ∧
       t.store.bytes = u.store.bytes ∧ BlocksReset t ∧ t.device = { s.device with resetLow := true } ∧
       t.store.corrected = 0 ∧ t.store.damaged = [] ∧ t.store.overflow = false ∧
       ∀ pg : Page, t.store.pages[pg] = ⟨.OPEN, 0, u.store.pages[pg].version⟩ := by
  obtain ⟨blocks, device, corrected, damaged, overflow, pages⟩ := deviceReset_spec st s
  refine ⟨s.deviceReset st, t, ?_, effect, bytes.symm, blocks, device, corrected, damaged, overflow, fun pg => ?_⟩
  · rw [exec_resetNFall (running_iff.1 running).1, running, Bool.and_self, if_pos rfl, completed]
  · rw [pages, versions]

/-- Settles O6: the three resets, the completed request through the frames of what follows its service. -/
theorem deviceResetKeepsBytesAndVersions : Obligations.DeviceResetKeepsBytesAndVersions := by
  unfold Obligations.DeviceResetKeepsBytesAndVersions
  refine ⟨fun s high => ?_, fun s reads running => ⟨fun p es service commit => ?_, fun src dst q service issued => ?_⟩,
    fun x s low => ?_⟩
  · obtain ⟨blocks, device, corrected, damaged, overflow, pages⟩ := deviceReset_spec s.store s
    refine ⟨s.deviceReset s.store, ?_, blocks, rfl, device, rfl, rfl, corrected, damaged, overflow, pages⟩
    rw [exec_resetNFall high, Bool.false_and, if_neg Bool.false_ne_true]
  · have effect : exec (.commit p reads) s = .next (s.serveCommit p es reads).endPortService := by
      show Host.Outcome.next (if s.serving (portRequester p) then s.commit p reads else s) = _
      rw [if_pos (serving_of running service), State.commit, commit]
    exact reset_asServed running effect (completedStore_commit reads service commit) (serveCommit_bytes p es reads s)
      (serveCommit_versions p es reads s)
  · have effect : exec (.pageTransfer reads) s = .next (s.serveTransfer src dst q reads).endService := by
      show Host.Outcome.next (if s.serving copyEngine then s.pageTransfer reads else s) = _
      rw [if_pos (serving_of running service), State.pageTransfer, issued]
    exact reset_asServed running effect (completedStore_transfer reads service issued) (serveTransfer_bytes src dst q reads s)
      (serveTransfer_versions src dst q reads s)
  · obtain ⟨as0, as1, as2, as3⟩ := asValues_get x
    have release : s.resetRelease x = s.setDevice ({ s.device with resetLow := false }.sample x) := if_pos low
    refine ⟨s.resetRelease x, rfl, ?_⟩
    rw [release]
    exact ⟨rfl, rfl, as0, as1, as2, as3, rfl, rfl⟩

/-! ## ALERT_IN -/

theorem raiseAll_alert (s : State) : (∀ q : Port, (s.raiseAll alertEvents).attn[q] = s.attn[q].arrive 7 .zero) ∧
    s.raiseAll alertEvents = { s with attn := (s.raiseAll alertEvents).attn } := by
  refine ⟨fun q => ?_, rfl⟩
  have each : (s.raiseAll alertEvents).attn = upd (upd (upd (upd s.attn 0 (AttnUnit.arrive 7 .zero))
      1 (AttnUnit.arrive 7 .zero)) 2 (AttnUnit.arrive 7 .zero)) 3 (AttnUnit.arrive 7 .zero) := rfl
  rw [each]
  simp only [upd_get]
  fin_cases q <;> rfl

/-- Settles O7: the edge, the level, the rise. -/
theorem alertEdgeReachesEveryUnit : Obligations.AlertEdgeReachesEveryUnit := by
  unfold Obligations.AlertEdgeReachesEveryUnit
  refine fun s => ⟨fun running high => ?_, fun low => ?_, rfl⟩
  · have fall : s.alertFall = (s.setDevice { s.device with alertLow := true }).raiseAll alertEvents := by
      rw [State.alertFall, high, if_neg Bool.false_ne_true]
      exact whenRunning_of running
    obtain ⟨raised, rest⟩ := raiseAll_alert (s.setDevice { s.device with alertLow := true })
    refine ⟨s.alertFall, rfl, ?_⟩
    rw [fall]
    exact ⟨raised, rest⟩
  · show Host.Outcome.next s.alertFall = _
    rw [State.alertFall, if_pos low]

end Sys2Proof.Machine

/-! Attention units (chapter 9): TAKE (O10) and DONE (O11). Answers and records (chapter 10): O31; the lines of the command
unit: O32. -/

namespace Sys2Proof.Machine

open Sys2Proof.Safety

/-! ## TAKE -/

section
variable {u : AttnUnit} {i j : SourceNo}

/-- The unit with source `i` taken. -/
def AttnUnit.taken (i : SourceNo) (u : AttnUnit) : AttnUnit :=
  { u with sources := u.sources.set i { u.sources[i] with state := .ACTIVE, lost := 0 } }

theorem taken_source (u : AttnUnit) (i j : SourceNo) : (u.taken i).sources[j] =
    if i = j then { u.sources[i] with state := .ACTIVE, lost := 0 } else u.sources[j] := by
  show (upd u.sources i fun x => { x with state := .ACTIVE, lost := 0 })[j] = _
  rw [upd_get]
  by_cases e : i = j
  · subst e
    rfl
  · rw [if_neg e, if_neg e]

theorem take_chosen (eligible : u.eligible i = true) (first : ∀ j, u.eligible j = true → u.atLeast i j) :
    u.take = (u.taken i, Line.ofList ([1, byteN i.val, byteN u.sources[i].level.val, u.sources[i].lost,
      (u.taken i).pendingSummary, (u.taken i).activeSummary] ++ u.sources[i].detail.bytes)) := by
  have chosen : u.chosen = some i := pick_of_first eligible first
  rw [AttnUnit.take, chosen]
  rfl

theorem take_none (none : ∀ i, u.eligible i = false) :
    u.take = (u, Line.ofList [0, 0, 0, 0, u.pendingSummary, u.activeSummary]) := by
  have chosen : u.chosen = .none := pick_of_none none
  rw [AttnUnit.take, chosen]

/-- What would be eligible after a TAKE was eligible before, and above the source taken. -/
theorem taken_eligible (eligible : u.eligible i = true) (first : ∀ j, u.eligible j = true → u.atLeast i j) :
    (u.taken i).eligible j = false := by
  rw [← Bool.not_eq_true]
  intro later
  obtain ⟨enabled, pending, above⟩ := eligible_iff.1 later
  have other : i ≠ j := by
    rintro rfl
    rw [taken_source, if_pos rfl] at pending
    cases pending
  have kept : (u.taken i).sources[j] = u.sources[j] := by rw [taken_source, if_neg other]
  have higher : u.sources[i].level < u.sources[j].level := by
    have higher := above i (by rw [taken_source, if_pos rfl]; exact .inl rfl)
    rwa [kept, taken_source, if_pos rfl] at higher
  have before : u.eligible j = true := by
    refine eligible_iff.2 ⟨kept ▸ enabled, kept ▸ pending, fun k active => ?_⟩
    have apart : i ≠ k := by
      rintro rfl
      rw [(eligible_iff.1 eligible).2.1] at active
      rcases active with h | h <;> cases h
    have same : (u.taken i).sources[k] = u.sources[k] := by rw [taken_source, if_neg apart]
    have higher' := above k (by rw [same]; exact active)
    rwa [kept, same] at higher'
  rcases first j before with lower | ⟨equal, -⟩
  · exact absurd (lower.trans higher) (lt_irrefl _)
  · rw [equal] at higher
    exact absurd higher (lt_irrefl _)

theorem pendingSummary_bit (u : AttnUnit) (i : SourceNo) : u.pendingSummary.getLsbD i.val = true ↔
    u.sources[i].state = .PENDING ∨ u.sources[i].state = .ACTIVE_REPEND := by
  rw [AttnUnit.pendingSummary, summary_bit]
  simp [Source.isPending]

theorem activeSummary_bit (u : AttnUnit) (i : SourceNo) : u.activeSummary.getLsbD i.val = true ↔
    u.sources[i].state = .ACTIVE ∨ u.sources[i].state = .ACTIVE_REPEND := by
  rw [AttnUnit.activeSummary, summary_bit, Source.isActive_iff]

end

theorem exec_attnTake {p : Port} {s : State} (running : s.running = true) (window : windowOf s.ports[p].pointer = 0)
    (line : lineOf s.ports[p].pointer = 2) (h : NeedsLineNow p s) :
    exec (.attnTake p) s = .next (s.obtainAttention p) := by
  have now : s.obtainsLine p 2 = true := obtainsLine_of window line h
  show Host.Outcome.next _ = _
  rw [whenRunning_of running, if_pos now, obtainNow_attention now]

/-- Settles O10: the choice by `pick_of_first`, and the command as the obtaining of the ATTENTION line. -/
theorem takeChoosesTheMostUrgent : Obligations.TakeChoosesTheMostUrgent := by
  unfold Obligations.TakeChoosesTheMostUrgent
  refine ⟨fun u v l took => ⟨fun i eligible first => ?_, fun none => ?_, fun i =>
    ⟨pendingSummary_bit v i, activeSummary_bit v i⟩⟩, fun p s running window line needs => ?_⟩
  · rw [take_chosen eligible first] at took
    obtain ⟨rfl, rfl⟩ := Prod.mk.inj took
    exact ⟨rfl, fun j => taken_eligible eligible first, rfl⟩
  · rw [take_none none] at took
    obtain ⟨rfl, rfl⟩ := Prod.mk.inj took
    exact ⟨rfl, rfl⟩
  · rw [exec_attnTake running window line needs, State.obtainAttention, modAttn_const]
    rfl

/-! ## DONE -/

section
variable {u : AttnUnit} {i : SourceNo}

theorem finish_active {x : Source} (active : x.state = .ACTIVE ∨ x.state = .ACTIVE_REPEND) :
    x.finish = if x.state = .ACTIVE then { x with state := .IDLE, detail := .zero } else { x with state := .PENDING } := by
  rcases active with h | h <;> simp [Source.finish, h]

theorem takeOneDone_active (due : u.doneDue ≠ 0) (active : u.sources[i].state = .ACTIVE ∨ u.sources[i].state = .ACTIVE_REPEND)
    (first : ∀ j, (u.sources[j].state = .ACTIVE ∨ u.sources[j].state = .ACTIVE_REPEND) → u.atLeast i j) :
    u.takeOneDone = { u with
      doneDue := u.doneDue - 1
      sources := u.sources.set i (if u.sources[i].state = .ACTIVE then
        { u.sources[i] with state := .IDLE, detail := .zero } else { u.sources[i] with state := .PENDING }) } := by
  have innermost : u.innermost = some i :=
    pick_of_first (Source.isActive_iff.2 active) fun j hj => first j (Source.isActive_iff.1 hj)
  rw [AttnUnit.takeOneDone, if_neg due, AttnUnit.takeDone, AttnUnit.done, innermost, ← finish_active active]
  rfl

theorem takeOneDone_idle (due : u.doneDue ≠ 0)
    (none : ∀ i : SourceNo, ¬ (u.sources[i].state = .ACTIVE ∨ u.sources[i].state = .ACTIVE_REPEND)) :
    u.takeOneDone = { u with doneDue := u.doneDue - 1 } := by
  have innermost : u.innermost = .none :=
    pick_of_none fun i => Bool.eq_false_iff.2 fun active => none i (Source.isActive_iff.1 active)
  rw [AttnUnit.takeOneDone, if_neg due, AttnUnit.takeDone, AttnUnit.done, innermost]

end

/-- Settles O11: the innermost source by `pick_of_first`. -/
theorem doneFinishesTheInnermost : Obligations.DoneFinishesTheInnermost := by
  unfold Obligations.DoneFinishesTheInnermost
  intro p s running due u active
  have effect : exec (.attnDone p) s = .next (s.modAttn p AttnUnit.takeOneDone) :=
    congrArg Host.Outcome.next (whenRunning_of running)
  refine ⟨fun i isActive first => ?_, fun none => ?_⟩
  · rw [effect, modAttn_const, takeOneDone_active due isActive first]
    rw [modAttn_const p fun u : AttnUnit => { u with
      doneDue := u.doneDue - 1
      sources := u.sources.set i (if u.sources[i].state = .ACTIVE then
        { u.sources[i] with state := .IDLE, detail := .zero } else { u.sources[i] with state := .PENDING }) }]
  · rw [effect, modAttn_const, takeOneDone_idle due none,
      modAttn_const p fun u : AttnUnit => { u with doneDue := u.doneDue - 1 }]

/-! ## Answers and records -/

theorem answer_orphan {c : Claim} (orphan : c.orphan = true) (a : Answer) (s : State) : s.answer c a = s := by
  rw [State.answer, if_pos orphan]

theorem answer_kept {c : Claim} (kept : c.orphan = false) (a : Answer) (s : State) :
    s.answer c a = s.modCmd c.issuer (CommandUnit.record c.code a) := by
  rw [State.answer, kept, if_neg Bool.false_ne_true]
  rfl

theorem writeRecord_plain {r : TxStatus} (plain : r.outcome = .OK ∨ r.outcome = .PENDING) (p : Port) (s : State) :
    s.writeRecord p r = s.modCmd p fun u => { u with txStatus := r } := by
  have noFault : r.outcome.isFault = false := by rcases plain with h | h <;> rw [h] <;> rfl
  rw [State.writeRecord, noFault]
  rfl

theorem writeRecord_fault {r : TxStatus} (fault : r.outcome = .VOIDED ∨ r.outcome = .REFUSED ∨ r.outcome = .FAULTED) (p : Port)
    (s : State) : s.writeRecord p r =
      (s.modCmd p fun u => { u with txStatus := r }).modAttn p fun a => a.arrive 5 (.fault r.reason) := by
  have isFault : r.outcome.isFault = true := by rcases fault with h | h | h <;> rw [h] <;> rfl
  rw [State.writeRecord, isFault]
  rfl

/-- Settles O31: `answer` by the orphan mark, `writeRecord` by the outcome. -/
theorem answersAndRecordsAreWritten : Obligations.AnswersAndRecordsAreWritten := by
  unfold Obligations.AnswersAndRecordsAreWritten
  exact ⟨fun c st l s => ⟨fun orphan => answer_orphan orphan _ s, fun kept => answer_kept kept _ s⟩,
    fun p r s => ⟨fun plain => writeRecord_plain plain p s, fun fault => writeRecord_fault fault p s⟩⟩

/-! ## Lines -/

theorem controlLine_above {ln : Fin 16} (above : 8 ≤ ln.val) (s : State) (p : Port) : controlLine s p ln = Line.zero := by
  have other (k : Fin 16) (small : k.val < 8) : ln ≠ k := by
    rintro rfl
    omega
  rw [controlLine, if_neg (other 0 (by decide)), if_neg (other 1 (by decide)), if_neg (other 5 (by decide)),
    if_neg (other 6 (by decide)), if_neg (other 7 (by decide))]

/-- Settles O32: each line is the list that the definitions write. -/
theorem linesOfTheCommandUnit : Obligations.LinesOfTheCommandUnit := by
  unfold Obligations.LinesOfTheCommandUnit
  exact fun s p => ⟨rfl, rfl, rfl, rfl, rfl, fun ln above => controlLine_above above s p⟩

end Sys2Proof.Machine

/-! The PORT STATE line (chapter 10): its bits, and how its parts are taken (O33). -/

namespace Sys2Proof.Machine

open Sys2Proof.Safety

/-! ## Fields packed into a number -/

/-- Fields, each a width and a value, placed one above the other from bit `o` upwards. -/
def placeFields : Nat → List (Nat × Nat) → List (Nat × Nat)
  | _, [] => []
  | o, f :: fs => (o, f.2) :: placeFields (o + f.1) fs

/-- The number of fields that are placed one above the other. -/
def fieldsValue : List (Nat × Nat) → Nat
  | [] => 0
  | f :: fs => fieldsValue fs * 2 ^ f.1 + f.2

/-- Values within their widths, and 128 bits for all of them from bit `o`. -/
def FieldsFit : Nat → List (Nat × Nat) → Prop
  | o, [] => o ≤ 128
  | o, f :: fs => f.2 < 2 ^ f.1 ∧ FieldsFit (o + f.1) fs

theorem fieldsFit_le {o : Nat} {fs : List (Nat × Nat)} (fit : FieldsFit o fs) : o ≤ 128 := by
  induction fs generalizing o with
  | nil => exact fit
  | cons f fs ih => exact (Nat.le_add_right o f.1).trans (ih fit.2)

/-- A field put above a number is added to it. -/
theorem or_field {b : BitVec 128} {o v w : Nat} (low : b.toNat < 2 ^ o) (small : v < 2 ^ w) (fit : o + w ≤ 128) :
    (b ||| (BitVec.ofNat 128 v <<< o)).toNat = b.toNat + v * 2 ^ o ∧ b.toNat + v * 2 ^ o < 2 ^ (o + w) := by
  have shifted : v * 2 ^ o + 2 ^ o ≤ 2 ^ (o + w) := by
    rw [← Nat.succ_mul, Nat.pow_add, Nat.mul_comm (2 ^ o)]
    exact Nat.mul_le_mul_right _ small
  have whole : 2 ^ (o + w) ≤ 2 ^ 128 := Nat.pow_le_pow_right (by decide) fit
  have inside : v < 2 ^ 128 := small.trans_le (Nat.pow_le_pow_right (by decide) (by omega))
  have value : (BitVec.ofNat 128 v <<< o).toNat = v <<< o := by
    rw [BitVec.toNat_shiftLeft, BitVec.toNat_ofNat, Nat.mod_eq_of_lt inside, Nat.mod_eq_of_lt]
    rw [Nat.shiftLeft_eq]
    omega
  refine ⟨?_, by omega⟩
  rw [BitVec.toNat_or, value, Nat.or_comm, ← Nat.shiftLeft_add_eq_or_of_lt low, Nat.shiftLeft_eq, Nat.add_comm]

theorem packBits_from {o : Nat} {fs : List (Nat × Nat)} {b : BitVec 128} (low : b.toNat < 2 ^ o) (fit : FieldsFit o fs) :
    ((placeFields o fs).foldl (fun b f => b ||| (BitVec.ofNat 128 f.2 <<< f.1)) b).toNat =
      b.toNat + fieldsValue fs * 2 ^ o := by
  induction fs generalizing o b with
  | nil => simp [placeFields, fieldsValue]
  | cons f fs ih =>
    obtain ⟨small, rest⟩ := fit
    obtain ⟨value, low'⟩ := or_field low small (fieldsFit_le rest)
    rw [placeFields, List.foldl_cons, ih (by rw [value]; exact low') rest, value, fieldsValue]
    ring

theorem packBits_toNat {fs : List (Nat × Nat)} (fit : FieldsFit 0 fs) : (packBits (placeFields 0 fs)).toNat = fieldsValue fs := by
  rw [packBits, packBits_from (by decide) fit]
  simp

theorem append_toNat {m n : Nat} (x : BitVec m) (y : BitVec n) : (x ++ y).toNat = x.toNat * 2 ^ n + y.toNat := by
  rw [BitVec.toNat_append, ← Nat.shiftLeft_add_eq_or_of_lt y.isLt, Nat.shiftLeft_eq]

/-! ## The fields of the line -/

theorem slotRecord_bits (x : Slot) : slotRecord x = (BitVec.ofNat 7 x.first.val ++ BitVec.ofNat 3 (x.count - 1) ++
    BitVec.ofBool (x.mode == HoldMode.FULL) ++ (match x.state with | .FREE => 0#2 | .WAITING => 1#2 | .GRANTED => 2#2)).toNat := by
  have page : x.first.val % 2 ^ 7 = x.first.val := Nat.mod_eq_of_lt x.first.isLt
  have mode : x.mode.code.toNat = (BitVec.ofBool (x.mode == HoldMode.FULL)).toNat := by cases x.mode <;> rfl
  have state : x.state.code.toNat = (match x.state with | .FREE => 0#2 | .WAITING => 1#2 | .GRANTED => 2#2).toNat := by
    cases x.state <;> rfl
  rw [append_toNat, append_toNat, append_toNat, BitVec.toNat_ofNat, BitVec.toNat_ofNat, page, slotRecord, mode, state]
  omega

theorem slotLeaseCode_bits (x : Slot) : slotLeaseCode x = (if x.state ≠ .GRANTED then (0 : BitVec 8)
    else if x.leaseLeft.toNat < 128 then BitVec.ofNat 8 x.leaseLeft.toNat
    else BitVec.ofNat 8 (127 + (x.leaseLeft.toNat + 511) / 512)).toNat := by
  have small : x.leaseLeft.toNat < 65536 := x.leaseLeft.isLt
  unfold slotLeaseCode leaseCode
  by_cases granted : x.state = .GRANTED
  · rw [if_pos granted, if_neg (not_not.2 granted)]
    by_cases short : x.leaseLeft.toNat < 128
    · rw [if_pos (by omega), if_pos short, BitVec.toNat_ofNat]
      omega
    · rw [if_neg (by omega), if_neg short, BitVec.toNat_ofNat]
      omega
  · rw [if_neg granted, if_pos granted]
    rfl

/-- The copy state of a port, in five bits (R155). -/
def copyBits (e : CopyEngine) (p : Port) : BitVec 5 :=
  match e.queue with
  | [] => 0
  | a :: rest => if a.requester = p then BitVec.ofNat 5 (2 + a.pagesDone) else if ∃ x ∈ rest, x.requester = p then 1 else 0

theorem copyState_bits {e : CopyEngine} (p : Port) (pages : ∀ a ∈ e.queue, a.pagesDone ≤ 16) :
    copyState e p = (copyBits e p).toNat := by
  unfold copyState copyBits
  cases queue : e.queue with
  | nil => rfl
  | cons a rest =>
    have few := pages a (by rw [queue]; exact List.mem_cons_self)
    dsimp only
    by_cases active : a.requester = p
    · rw [if_pos active, if_pos active, BitVec.toNat_ofNat, Nat.mod_eq_of_lt (by omega)]
    · rw [if_neg active, if_neg active]
      by_cases queued : ∃ x ∈ rest, x.requester = p
      · rw [if_pos queued, if_pos (by simpa using queued)]
        rfl
      · rw [if_neg queued, if_neg (by simpa using queued)]
        rfl

/-- The outcome of the last copy, in three bits (R155). -/
def lastBits (l : LastCopy) : BitVec 3 :=
  match l.status, l.reason with
  | .NONE, _ => 0
  | .OK, _ => 1
  | .CANCELLED, _ => 2
  | .FAULT, .HELD => 4
  | .FAULT, .DAMAGED => 5
  | .FAULT, _ => 3

theorem lastCopyCode_bits (l : LastCopy) : lastCopyCode l = (lastBits l).toNat := by
  obtain ⟨status, reason, done⟩ := l
  cases status <;> cases reason <;> rfl

/-- The fields packed are the fields put together. -/
theorem packBits_fields (a : BitVec 5) (l : BitVec 3) (c : BitVec 5) (e w : BitVec 1) (act pend lost : BitVec 8) (n : BitVec 5)
    (l3 l2 l1 l0 : BitVec 8) (s3 s2 s1 s0 : BitVec 13) :
    packBits [(0, s0.toNat), (13, s1.toNat), (26, s2.toNat), (39, s3.toNat), (52, l0.toNat), (60, l1.toNat),
      (68, l2.toNat), (76, l3.toNat), (84, n.toNat), (89, lost.toNat), (97, pend.toNat), (105, act.toNat), (113, w.toNat),
      (114, e.toNat), (115, c.toNat), (120, l.toNat), (123, a.toNat)] =
    (a ++ l ++ c ++ e ++ w ++ act ++ pend ++ lost ++ n ++ l3 ++ l2 ++ l1 ++ l0 ++ s3 ++ s2 ++ s1 ++ s0) := by
  have packed := packBits_toNat (fs := [(13, s0.toNat), (13, s1.toNat), (13, s2.toNat), (13, s3.toNat), (8, l0.toNat),
    (8, l1.toNat), (8, l2.toNat), (8, l3.toNat), (5, n.toNat), (8, lost.toNat), (8, pend.toNat), (8, act.toNat),
    (1, w.toNat), (1, e.toNat), (5, c.toNat), (3, l.toNat), (5, a.toNat)])
    ⟨s0.isLt, s1.isLt, s2.isLt, s3.isLt, l0.isLt, l1.isLt, l2.isLt, l3.isLt, n.isLt, lost.isLt, pend.isLt, act.isLt, w.isLt,
      e.isLt, c.isLt, l.isLt, a.isLt, Nat.le_refl 128⟩
  apply BitVec.eq_of_toNat_eq
  simp only [append_toNat]
  simpa only [placeFields, fieldsValue, Nat.zero_mul, Nat.zero_add, Nat.reduceAdd] using packed

theorem ofNat5 {n : Nat} (few : n ≤ 16) : n = (BitVec.ofNat 5 n).toNat := by
  rw [BitVec.toNat_ofNat, Nat.mod_eq_of_lt (by omega)]

theorem flag_bit (b : Bool) : (if b then 1 else 0) = (BitVec.ofBool b).toNat := by cases b <;> rfl

/-! ## Taking the parts -/

section
variable {s : State} {p : Port}

theorem takeParts_gathering (gathering : s.ports[p].gathering = true) {h : HeldLine} (held : s.ports[p].held = some h) :
    s.takeParts p = (s.modPort p fun u => { u with held := some { h with
      bytes := gatheredLine (Config.lateParts s.freeIndex) h.bytes (portStateLine s p) } }).setFree (s.freeIndex + 1) := by
  rw [State.takeParts, if_pos gathering, modPort_const, PortUnit.takeParts, held]
  conv_rhs => rw [modPort_const]
  rfl

theorem gather_gathering (gathering : s.ports[p].gathering = true) :
    s.gather p = (s.takeParts p).modPort p fun u => { u with gathering := false } := by
  rw [State.gather, if_pos gathering]

end

theorem partOfBit_val (n : Nat) : (partOfBit n).val =
    if n < 84 then 0 else if n < 97 then 1 else if 115 ≤ n then 2 else if n = 113 then 4 else 3 := by
  unfold partOfBit
  grind

/-- Settles O33: the packing of the fields, and `takeParts` with the bits of `gatheredLine`. -/
theorem portStateLineBitByBit : Obligations.PortStateLine := by
  unfold Obligations.PortStateLine
  refine ⟨fun s p records pages done => ?_, fun s p => ⟨fun gathered => ⟨takeParts_of_gathered gathered,
    gather_of_gathered gathered⟩, gather_gathering, fun h gathering held => ?_⟩⟩
  · intro slot lease copy last bits i
    have packed : packBits
        [ (0, slotRecord s.holds.slots[p][(0 : SlotNo)]), (13, slotRecord s.holds.slots[p][(1 : SlotNo)]),
          (26, slotRecord s.holds.slots[p][(2 : SlotNo)]), (39, slotRecord s.holds.slots[p][(3 : SlotNo)]),
          (52, slotLeaseCode s.holds.slots[p][(0 : SlotNo)]), (60, slotLeaseCode s.holds.slots[p][(1 : SlotNo)]),
          (68, slotLeaseCode s.holds.slots[p][(2 : SlotNo)]), (76, slotLeaseCode s.holds.slots[p][(3 : SlotNo)]),
          (84, s.notice.queues[p].records.length), (89, s.notice.queues[p].lost.toNat),
          (97, s.attn[p].pendingSummary.toNat), (105, s.attn[p].activeSummary.toNat),
          (113, if s.translators[p].mode = .WINDOW_WRAP then 1 else 0), (114, if s.attn[p].outputEnable then 1 else 0),
          (115, copyState s.copy p), (120, lastCopyCode s.copy.last[p]), (123, s.copy.last[p].pagesDone) ] = bits := by
      have wrap : (if s.translators[p].mode = .WINDOW_WRAP then 1 else 0) =
          (BitVec.ofBool (s.translators[p].mode == .WINDOW_WRAP)).toNat := by cases s.translators[p].mode <;> rfl
      rw [slotRecord_bits, slotRecord_bits, slotRecord_bits, slotRecord_bits, slotLeaseCode_bits, slotLeaseCode_bits,
        slotLeaseCode_bits, slotLeaseCode_bits, copyState_bits p pages, lastCopyCode_bits, wrap, flag_bit, ofNat5 records,
        ofNat5 done]
      exact packBits_fields _ _ _ _ _ _ _ _ _ _ _ _ _ _ _ _ _
    rw [← packed]
    exact vecOf_get _ i
  · refine ⟨_, takeParts_gathering gathering held, fun i j => ?_⟩
    have bit := gatheredLine_bit (Config.lateParts s.freeIndex) h.bytes (portStateLine s p) i j
    rw [partOfBit_val] at bit
    exact bit

end Sys2Proof.Machine

/-! The store arbiter and what waits for the end of a service (chapter 1): O23. -/

namespace Sys2Proof.Machine

open Sys2Proof.Safety

/-! ## The arbiter's choice -/

/-- A requester has a request waiting. -/
def State.Asks (s : State) (r : Requester) : Prop :=
  (∃ p, r = portRequester p ∧ s.ports[p].outstanding ≠ none) ∨
    (r = copyEngine ∧ ∃ src dst q, s.copy.transfer = .issued src dst q)

section
variable {s : State}

theorem requester_cases (r : Requester) : (∃ p, r = portRequester p) ∨ r = copyEngine := by
  by_cases port : r.val < 4
  · exact .inl ⟨⟨r.val, port⟩, rfl⟩
  · exact .inr (Fin.ext (by have := r.isLt; show r.val = 4; omega))

theorem portRequester_ne_copyEngine (p : Port) : portRequester p ≠ copyEngine := by
  intro same
  have : p.val = 4 := congrArg Fin.val same
  omega

theorem requests_port (p : Port) : s.requests (portRequester p) = s.ports[p].outstanding.isSome := by
  rw [State.requests, requesterPort_port]

theorem requests_copy : s.requests copyEngine = true ↔ ∃ src dst q, s.copy.transfer = .issued src dst q := by
  show (match s.copy.transfer with
    | .issued _ _ _ => true
    | _ => false) = true ↔ _
  cases s.copy.transfer <;> simp

theorem requests_iff (r : Requester) : s.requests r = true ↔ s.Asks r := by
  rcases requester_cases r with ⟨p, rfl⟩ | rfl
  · rw [requests_port, Option.isSome_iff_ne_none]
    constructor
    · exact fun outstanding => .inl ⟨p, rfl, outstanding⟩
    · rintro (⟨q, same, outstanding⟩ | ⟨copy, -⟩)
      · rw [Fin.castSucc_injective 4 same]
        exact outstanding
      · exact absurd copy (portRequester_ne_copyEngine p)
  · rw [requests_copy]
    constructor
    · exact fun issued => .inr ⟨rfl, issued⟩
    · rintro (⟨q, copy, -⟩ | ⟨-, issued⟩)
      · exact absurd copy.symm (portRequester_ne_copyEngine q)
      · exact issued

theorem ringFrom_map (r : Requester) : ringFrom r = (List.finRange 5).map (r + ·) := by
  revert r
  decide

/-- The first on the ring from `r` that satisfies `f`. -/
theorem ringFrom_find {f : Requester → Bool} {r : Requester} {d : Fin 5} (hd : f (r + d) = true)
    (first : ∀ e < d, f (r + e) = false) : (ringFrom r).find? f = some (r + d) := by
  have found : (List.finRange 5).find? (fun e => f (r + e)) = some d := by
    refine List.find?_eq_some_iff_getElem.2 ⟨hd, d.val, by simp, by simp, fun j hj => ?_⟩
    have before := first ⟨j, by omega⟩ hj
    simpa using before
  rw [ringFrom_map, List.find?_map]
  show Option.map _ ((List.finRange 5).find? fun e => f (r + e)) = _
  rw [found]
  rfl

theorem arbitrate_first (running : s.running = true) (free : s.arbiter.inService = none) {d : Fin 5}
    (waits : s.Asks (s.arbiter.pointer + d)) (first : ∀ e < d, ¬ s.Asks (s.arbiter.pointer + e)) :
    s.arbitrate = s.setArbiter ⟨s.arbiter.pointer + d + 1, some (s.arbiter.pointer + d), s.arbiter.due⟩ :=
  arbitrate_choice running free (ringFrom_find ((requests_iff _).2 waits) fun e he =>
    Bool.eq_false_iff.2 fun asks => first e he ((requests_iff _).1 asks))

theorem arbitrate_nobody (nobody : ∀ r, ¬ s.Asks r) : s.arbitrate = s :=
  arbitrate_none (List.find?_eq_none.2 fun r _ asks => nobody r ((requests_iff r).1 asks))

theorem nearer_on_ring : ∀ p r d : Requester, d < r - p → (r - (p + d + 1)).val < (r - p).val := by decide

/-- One that waits is chosen, or the pointer comes nearer to it. -/
theorem arbitrate_nearer (running : s.running = true) (free : s.arbiter.inService = none) {r : Requester} (waits : s.Asks r) :
    s.arbitrate.arbiter.inService = some r ∨ (r - s.arbitrate.arbiter.pointer).val < (r - s.arbiter.pointer).val := by
  have at_distance : s.arbiter.pointer + (r - s.arbiter.pointer) = r := add_sub_cancel _ r
  obtain ⟨d, asks, first⟩ := wellFounded_lt.has_min {d : Fin 5 | s.Asks (s.arbiter.pointer + d)}
    ⟨r - s.arbiter.pointer, by rw [Set.mem_ofPred_eq, at_distance]; exact waits⟩
  rw [arbitrate_first running free asks fun e he waiting => first e waiting he]
  have notAfter : ¬ r - s.arbiter.pointer < d := first _ (by rw [Set.mem_ofPred_eq, at_distance]; exact waits)
  rcases lt_or_eq_of_le (not_lt.1 notAfter) with before | same
  · exact .inr (nearer_on_ring _ _ _ before)
  · left
    show some (s.arbiter.pointer + d) = some r
    rw [same, at_distance]

end

/-! ## Acts between two requests -/

/-- The act of the store controller or of the hold controller that a command is. -/
def IsAct (i : Instr) (a : DueAct) : Prop :=
  match i with
  | .hold p => a = .claim p cHOLD
  | .renew p => a = .claim p cRENEW
  | .release p => a = .claim p cRELEASE
  | .pageInfo p => a = .claim p cPAGE_INFO
  | .policy p => a = .claim p cPOLICY
  | .damageQuery p => a = .claim p cDAMAGE_QUERY
  | .damageClear p => a = .claim p cDAMAGE_CLEAR
  | .tick => a = .tick
  | .holdResetPart p => a = .holdReset p
  | _ => False

theorem exec_of_act {i : Instr} {a : DueAct} (act : IsAct i a) (s : State) :
    exec i s = .next (s.whenRunning (State.betweenRequests a)) := by
  cases i with
  | hold _ | renew _ | release _ | pageInfo _ | policy _ | damageQuery _ | damageClear _ | tick | holdResetPart _ =>
    cases act
    rfl
  | _ => exact act.elim

theorem betweenRequests_ignored {a : DueAct} {s : State} (busy : s.arbiter.inService ≠ none) (not : s.mayBecomeDue a = false) :
    s.betweenRequests a = s := by
  have someone : s.arbiter.inService.isNone = false := Option.isNone_eq_false_iff.2 (Option.isSome_iff_ne_none.2 busy)
  rw [State.betweenRequests, someone, not]
  rfl

section
variable {s : State}

theorem atStage_iff (st : ResetStage) (c : CommandUnit) : c.atStage st = true ↔ ∃ r, c.resetRun = some r ∧ r.stage = st := by
  unfold CommandUnit.atStage
  cases c.resetRun with
  | none => simp
  | some r => simp

theorem mayBecomeDue_claim (p : Port) (code : Byte) : s.mayBecomeDue (.claim p code) = true ↔
    s.arbiter.due.count (.claim p code) < s.claims.countP (isOwned p code) := decide_eq_true_iff

theorem mayBecomeDue_holdReset (p : Port) : s.mayBecomeDue (.holdReset p) = true ↔
    (∃ r, s.cmds[p].resetRun = some r ∧ r.stage = .hold) ∧ DueAct.holdReset p ∉ s.arbiter.due := by
  show (s.cmds[p].atStage .hold && !s.arbiter.due.contains (.holdReset p)) = true ↔ _
  rw [Bool.and_eq_true, atStage_iff, Bool.not_eq_true', ← Bool.not_eq_true, List.contains_iff_mem]

/-- What neither an act nor the events of an outcome change. -/
def arbiterParts (x : Part) : Bool :=
  match x with
  | .arbiter | .unit _ | .bytes => false
  | _ => true

theorem runDue_arbiterParts (a : DueAct) (s : State) : Touches arbiterParts s (s.runDue a) :=
  runDue_touches a rfl rfl rfl rfl rfl (fun _ => rfl) (fun _ => rfl) (Touches.refl _ s)

theorem ports_of_touches {T : Part → Bool} {t : State} (units : ∀ q, T (.unit q) = false) (h : Touches T s t) :
    t.ports = s.ports := Vector.ext fun i hi => h (.unit ⟨i, hi⟩) (units ⟨i, hi⟩)

/-! ## Outcomes that have not been taken -/

theorem takeOutcome_arbiter (s : State) : s.takeOutcome.arbiter = s.arbiter :=
  takeOutcome_touches (T := (· != .arbiter)) rfl (fun _ => rfl) (Touches.refl _ s) .arbiter rfl

theorem copyOutcome_busy (busy : s.arbiter.inService ≠ none) : s.copyOutcome = s.takeOutcome := by
  unfold State.copyOutcome
  split
  · exact arbitrate_busy (by rw [takeOutcome_arbiter]; exact busy)
  · next kept =>
    unfold State.takeOutcome
    split
    · next r returned => exact absurd returned (kept r)
    · rfl

theorem endService_copy (s : State) : s.endService.copy = s.copy :=
  endService_touches (T := (· != .copy)) rfl rfl rfl rfl rfl (fun _ => rfl) (fun _ => rfl) rfl (Touches.refl _ s) .copy rfl

theorem endPortService_taken (s : State) (r : Reason) : s.endPortService.copy.transfer ≠ .returned r := by
  rw [State.endPortService, endService_copy]
  exact takeOutcome_taken s r

end

/-- Settles O23: the first that waits on the ring; the acts by whether the controller is free and whether they may become
due; the end of a service. -/
theorem arbiterAndDueActs : Obligations.ArbiterAndDueActs := by
  unfold Obligations.ArbiterAndDueActs
  refine ⟨fun s running => ⟨arbitrate_busy, fun free => arbitrate_nobody, fun free d => arbitrate_first running free,
    fun free r => arbitrate_nearer running free⟩, ?acts, fun s => ⟨rfl, fun p => ⟨mayBecomeDue_claim p, mayBecomeDue_holdReset p⟩⟩,
    fun s => rfl, ?outcome, ?taken, fun s a => ?kept⟩
  case acts =>
    intro s i a running act
    have next := exec_of_act (i := i) act s
    rw [whenRunning_of running] at next
    refine ⟨fun free => ?_, fun busy may => ?_, fun busy not => ?_⟩
    · rw [next, betweenRequests_free free]
    · rw [next, betweenRequests_busy busy may]
    · rw [next, betweenRequests_ignored busy not]
  case outcome =>
    intro s t running busy next
    have ran : s.whenRunning State.copyOutcome = t := Host.Outcome.next.inj next
    rw [← ran, whenRunning_of running, copyOutcome_busy busy]
    rfl
  case taken =>
    intro p s t running service served r
    have serving : s.serving (portRequester p) = true := serving_of running service
    rcases served with ⟨⟨f, fetch⟩, o, next⟩ | ⟨⟨es, commit⟩, reads, next⟩
    · have ran : (if s.serving (portRequester p) then s.lineFetch p o else s) = t := Host.Outcome.next.inj next
      rw [← ran, if_pos serving, State.lineFetch, fetch]
      exact endPortService_taken _ r
    · have ran : (if s.serving (portRequester p) then s.commit p reads else s) = t := Host.Outcome.next.inj next
      rw [← ran, if_pos serving, State.commit, commit]
      exact endPortService_taken _ r
  case kept =>
    have frame := runDue_arbiterParts a s
    exact ⟨frame .arbiter rfl, ports_of_touches (fun _ => rfl) frame, (frame .bytes rfl).1⟩

end Sys2Proof.Machine

/-! The page table and the damage list (chapters 1 and 2): POLICY (O35) and DAMAGE_CLEAR (O36). -/

namespace Sys2Proof.Machine

open Sys2Proof.Safety

/-! ## The watchers that POLICY removes -/

theorem PortSet.has_keepOwner : ∀ (owner : Port) (w : PortSet) (q : Port),
    PortSet.has (keepOwner owner w) q = (PortSet.has w q && decide (q = owner)) := by decide

theorem PortSet.size_removed : ∀ (owner : Port) (w : PortSet), PortSet.size (PortSet.remove w owner) =
    (allPorts.filter fun q => PortSet.has w q && !PortSet.has (keepOwner owner w) q).length := by decide

theorem sum_map_filter {α : Type} (f : α → Bool) (g : α → Nat) (l : List α) :
    ((l.filter f).map g).sum = (l.map fun x => if f x = true then g x else 0).sum := by
  induction l with
  | nil => rfl
  | cons x xs ih =>
    cases hx : f x with
    | true => simp [hx, ih]
    | false => simp [hx, ih]

/-- The pages of a range, among all. -/
theorem rangePages_perm {first count : Nat} (last : first + count ≤ 128) :
    (rangePages first count).Perm (allPages.filter (inRange first count)) := by
  refine (List.perm_ext_iff_of_nodup (rangePages_nodup last) ((List.nodup_finRange 128).filter _)).2 fun pg => ?_
  rw [mem_rangePages last, List.mem_filter]
  exact ⟨fun inside => ⟨List.mem_finRange pg, inside⟩, And.right⟩

/-- How many watchers of all pages `n` has and `m` has not. -/
def lostWatchers (n m : NoticeUnit) : Nat := (allPages.map fun pg =>
  (allPorts.filter fun q => PortSet.has n.watch[pg] q && !PortSet.has m.watch[pg] q).length).sum

theorem lostWatchers_self (n : NoticeUnit) : lostWatchers n n = 0 := by
  simp [lostWatchers]

theorem removeWatchers_count {first count : Nat} (last : first + count ≤ 128) (owner : Port) (n : NoticeUnit) :
    (n.removeWatchers first count owner).2 = lostWatchers n (n.removeWatchers first count owner).1 := by
  show ((rangePages first count).map fun pg => PortSet.size (PortSet.remove n.watch[pg] owner)).sum =
    lostWatchers n (n.modRange first count (keepOwner owner))
  rw [((rangePages_perm last).map _).sum_eq, sum_map_filter, lostWatchers]
  congr 1
  refine List.map_congr_left fun pg _ => ?_
  rw [modRange_watch]
  by_cases inside : inRange first count pg = true
  · rw [if_pos inside, if_pos inside, PortSet.size_removed]
  · rw [if_neg inside, if_neg inside]
    simp

theorem removeWatchers_has (first count : Nat) (owner : Port) (n : NoticeUnit) (pg : Page) (q : Port) :
    PortSet.has (n.removeWatchers first count owner).1.watch[pg] q =
      (PortSet.has n.watch[pg] q && !decide (inRange first count pg = true ∧ q ≠ owner)) := by
  show PortSet.has (n.modRange first count (keepOwner owner)).watch[pg] q = _
  rw [modRange_watch]
  by_cases inside : inRange first count pg = true
  · rw [if_pos inside, PortSet.has_keepOwner]
    simp [inside]
  · rw [if_neg inside]
    simp [inside]

/-! ## POLICY -/

theorem Policy.ofByte_code (pol : Policy) : Policy.ofByte pol.code = some pol := by
  cases pol <;> rfl

theorem Policy.ofByte_none {b : Byte} (above : 3 < b.toNat) : Policy.ofByte b = none := by
  have other (k : Byte) (low : k.toNat ≤ 3) : b ≠ k := fun same => by
    rw [same] at above
    omega
  rw [Policy.ofByte, if_neg (other 0 (by decide)), if_neg (other 1 (by decide)), if_neg (other 2 (by decide)),
    if_neg (other 3 (by decide))]

/-- The notice unit after POLICY. -/
def NoticeUnit.afterPolicy (first count : Nat) (pol : Policy) (owner : Port) (n : NoticeUnit) : NoticeUnit :=
  if pol = .PRIVATE then (n.removeWatchers first count owner).1 else n

theorem afterPolicy_queues (first count : Nat) (pol : Policy) (owner : Port) (n : NoticeUnit) :
    (n.afterPolicy first count pol owner).queues = n.queues := by
  unfold NoticeUnit.afterPolicy
  split
  · exact modRange_queues first count (keepOwner owner) n
  · exact Eq.refl n.queues

theorem afterPolicy_has (first count : Nat) (pol : Policy) (owner : Port) (n : NoticeUnit) (pg : Page) (q : Port) :
    PortSet.has (n.afterPolicy first count pol owner).watch[pg] q =
      (PortSet.has n.watch[pg] q && !decide (pol = .PRIVATE ∧ inRange first count pg = true ∧ q ≠ owner)) := by
  unfold NoticeUnit.afterPolicy
  by_cases closed : pol = .PRIVATE
  · rw [if_pos closed, removeWatchers_has]
    simp only [closed, true_and]
  · rw [if_neg closed]
    simp [closed]

theorem setPolicy_get (first count : Nat) (pol : Policy) (owner : Port) (pages : Vector PageEntry 128) (pg : Page) :
    (setPolicy first count pol owner pages)[pg] =
      if inRange first count pg = true then { pages[pg] with policy := pol, owner := owner } else pages[pg] := by
  simp only [setPolicy, Fin.getElem_fin, Vector.getElem_ofFn]

section
variable {sup p : Port} {first count : Nat} {pol owner : Byte} {st : StoreCtl} {n : NoticeUnit}

theorem takePolicy_notSupervisor (other : p ≠ sup) :
    takePolicy sup p first count pol owner st n = (st, n, .NOT_SUPERVISOR, []) := by
  rw [takePolicy, if_pos other]
  rfl

theorem takePolicy_badArgument (supervisor : p = sup)
    (bad : ¬ (1 ≤ count ∧ first + count ≤ 128) ∨ 3 < pol.toNat ∨ 3 < owner.toNat) :
    takePolicy sup p first count pol owner st n = (st, n, .BAD_ARGUMENT, []) := by
  rw [takePolicy, if_neg (not_not.2 supervisor)]
  cases range : badRange 128 first count with
  | true => rfl
  | false =>
    have inside : 1 ≤ count ∧ first + count ≤ 128 := by
      by_contra outside
      rw [badRange_true (fun ⟨least, _, last⟩ => outside ⟨least, last⟩)] at range
      exact absurd range (by decide)
    rw [if_neg (by decide)]
    cases named : Policy.ofByte pol with
    | none => rfl
    | some pol' =>
      have low : ¬ 3 < pol.toNat := fun above => by simp [Policy.ofByte_none above] at named
      exact if_pos ((bad.resolve_left (not_not.2 inside)).resolve_left low)

theorem takePolicy_set {pol' : Policy} {o : Port} (supervisor : p = sup) (least : 1 ≤ count) (last : first + count ≤ 128)
    (policy : pol = pol'.code) (named : owner.toNat = o.val) :
    takePolicy sup p first count pol owner st n =
      ({ st with pages := setPolicy first count pol' o st.pages }, n.afterPolicy first count pol' o, .OK,
        [byteN first, byteN count] ++ bytes2 (BitVec.ofNat 16 (lostWatchers n (n.afterPolicy first count pol' o)))) := by
  have port : Fin.ofNat 4 owner.toNat = o := Fin.ext (by rw [Fin.val_ofNat, named, Nat.mod_eq_of_lt o.isLt])
  rw [takePolicy, if_neg (not_not.2 supervisor), badRange_false least (by omega) last, if_neg (by decide), policy,
    Policy.ofByte_code]
  dsimp only
  rw [if_neg (by omega), port, NoticeUnit.afterPolicy]
  by_cases closed : pol' = .PRIVATE
  · rw [if_pos closed, if_pos closed, removeWatchers_count last]
  · rw [if_neg closed, if_neg closed, lostWatchers_self]

end

section
variable {p : Port} {c : Claim} {rest : List Claim} {s : State} {a : Answer}

theorem runDue_policy (p : Port) (s : State) : s.runDue (.claim p cPOLICY) = s.takeOwned p cPOLICY fun c u =>
    ((u.setStore (takePolicy u.device.supervisor p (c.arg 1).toNat (c.arg 2).toNat (c.arg 3) (c.arg 4) u.store u.notice).1).setNotice
      (takePolicy u.device.supervisor p (c.arg 1).toNat (c.arg 2).toNat (c.arg 3) (c.arg 4) u.store u.notice).2.1,
      (takePolicy u.device.supervisor p (c.arg 1).toNat (c.arg 2).toNat (c.arg 3) (c.arg 4) u.store u.notice).2.2) := rfl

/-- Taking POLICY leaves the page table, the watch sets and the answer. -/
theorem exec_policy_taken (h : Takes p cPOLICY c rest s) {st : StoreCtl} {n : NoticeUnit}
    (taken : takePolicy s.device.supervisor p (c.arg 1).toNat (c.arg 2).toNat (c.arg 3) (c.arg 4) s.store s.notice = (st, n, a)) :
    exec (.policy p) s = .next (answered c rest a ((s.setStore st).setNotice n)).arbitrate := by
  refine congrArg Host.Outcome.next ((takes_free h (runDue_policy p)).trans ?_)
  dsimp only
  rw [setClaims_device, setClaims_store, setClaims_notice, taken]
  rfl

theorem exec_policy_refused (h : Takes p cPOLICY c rest s)
    (taken : takePolicy s.device.supervisor p (c.arg 1).toNat (c.arg 2).toNat (c.arg 3) (c.arg 4) s.store s.notice =
      (s.store, s.notice, a)) : exec (.policy p) s = .next (answered c rest a s).arbitrate := exec_policy_taken h taken

theorem runDue_damageClear (p : Port) (s : State) : s.runDue (.claim p cDAMAGE_CLEAR) = s.takeOwned p cDAMAGE_CLEAR fun c u =>
    (u.setStore (u.store.damageClear u.device.supervisor p (c.arg2 1 2)).1,
      (u.store.damageClear u.device.supervisor p (c.arg2 1 2)).2) := rfl

/-- Taking DAMAGE_CLEAR leaves the store controller's change and the answer. -/
theorem exec_damageClear_taken (h : Takes p cDAMAGE_CLEAR c rest s) {st : StoreCtl}
    (taken : s.store.damageClear s.device.supervisor p (c.arg2 1 2) = (st, a)) :
    exec (.damageClear p) s = .next (answered c rest a (s.setStore st)).arbitrate := by
  refine congrArg Host.Outcome.next ((takes_free h (runDue_damageClear p)).trans ?_)
  dsimp only
  rw [setClaims_device, setClaims_store, taken]
  rfl

theorem exec_damageClear_refused (h : Takes p cDAMAGE_CLEAR c rest s)
    (taken : s.store.damageClear s.device.supervisor p (c.arg2 1 2) = (s.store, a)) :
    exec (.damageClear p) s = .next (answered c rest a s).arbitrate := exec_damageClear_taken h taken

end

/-- Settles O35: POLICY's tests in order; then the page table and the watch sets of the range. -/
theorem policyIsSet : Obligations.PolicyIsSet := by
  unfold Obligations.PolicyIsSet
  intro p c rest s h
  refine ⟨fun other => exec_policy_refused h (takePolicy_notSupervisor other),
    fun supervisor bad => exec_policy_refused h (takePolicy_badArgument supervisor bad),
    fun pol owner supervisor inside policy named => ⟨_, s.notice.afterPolicy (c.arg 1).toNat (c.arg 2).toNat pol owner, ?_,
      setPolicy_get (c.arg 1).toNat (c.arg 2).toNat pol owner s.store.pages, afterPolicy_queues _ _ _ _ _,
      afterPolicy_has _ _ _ _ _⟩⟩
  have set := exec_policy_taken h (takePolicy_set (st := s.store) (n := s.notice) supervisor inside.1 inside.2 policy named)
  rw [byteN_toNat, byteN_toNat] at set
  exact set

/-! ## DAMAGE_CLEAR -/

section
variable {sup p : Port} {line : Half} {st : StoreCtl}

theorem damageClear_notSupervisor (other : p ≠ sup) : st.damageClear sup p line = (st, .NOT_SUPERVISOR, []) := by
  rw [StoreCtl.damageClear, if_pos other]
  rfl

theorem damageClear_badArgument (supervisor : p = sup) (above : 2047 < line.toNat) (one : line ≠ 0x0FFF) :
    st.damageClear sup p line = (st, .BAD_ARGUMENT, []) := by
  rw [StoreCtl.damageClear, if_neg (not_not.2 supervisor), if_pos ⟨above, one⟩]
  rfl

theorem damageClear_overflow (supervisor : p = sup) (noLine : line = Config.noLine) : st.damageClear sup p line =
    ({ st with overflow := false }, .OK, StoreCtl.clearDetail { st with overflow := false }) := by
  rw [StoreCtl.damageClear, if_neg (not_not.2 supervisor), if_neg (fun bad => bad.2 noLine), if_pos noLine]

theorem damageClear_line (supervisor : p = sup) {l : LineNo} (named : line.toNat = l.val) : st.damageClear sup p line =
    if l ∈ st.damaged then (st.undamage (· == l), .OK, (st.undamage (· == l)).clearDetail)
    else (st, .NOT_FOUND, st.clearDetail) := by
  have number : Fin.ofNat 2048 line.toNat = l := Fin.ext (by rw [Fin.val_ofNat, named, Nat.mod_eq_of_lt l.isLt])
  have low : line.toNat < 2048 := named ▸ l.isLt
  have noLine : line ≠ Config.noLine := fun same => by
    rw [same] at low
    exact absurd low (by decide)
  rw [StoreCtl.damageClear, if_neg (not_not.2 supervisor), if_neg (fun bad => absurd bad.1 (by omega)), if_neg noLine, number]
  simp only [List.contains_iff_mem]

end

/-- Settles O36: DAMAGE_CLEAR's tests in order; then the overflow flag, or the list without the line. -/
theorem damageClearRemoves : Obligations.DamageClearRemoves := by
  unfold Obligations.DamageClearRemoves
  intro p c rest s h
  refine ⟨fun other => exec_damageClear_refused h (damageClear_notSupervisor other), fun supervisor =>
    ⟨fun above one => exec_damageClear_refused h (damageClear_badArgument supervisor above one),
      fun noLine => exec_damageClear_taken h (damageClear_overflow supervisor noLine), fun l named =>
        ⟨fun listed => ?_, fun unlisted => ?_⟩⟩⟩
  · exact exec_damageClear_taken h ((damageClear_line supervisor named).trans (if_pos listed))
  · exact exec_damageClear_taken h ((damageClear_line supervisor named).trans (if_neg unlisted))

end Sys2Proof.Machine

/-! The outcome of a page transfer (chapter 8): O38. Control commits and commands with an undefined code (chapters 3 and 4):
O39. -/

namespace Sys2Proof.Machine

open Sys2Proof.Safety

/-! ## The outcome of a transfer -/

section
variable {e : CopyEngine} {a : CopyReq} {rest : List CopyReq} {r : Reason}

/-- What a copy that ends leaves, and what it raises. -/
def CopyEngine.ended (a : CopyReq) (rest : List CopyReq) (st : CopyStatus) (r : Reason) (n : Nat) (e : CopyEngine) :
    CopyEngine × List Event :=
  (CopyEngine.issue { e with queue := rest, last := e.last.set a.requester ⟨st, r, n⟩ },
    [⟨a.requester, sCOPY_DONE, .copyDone st r n⟩])

theorem takeOutcome_silent (queue : e.queue = a :: rest) (silent : a.silent = true) :
    e.takeOutcome r = (CopyEngine.issue { e with queue := rest }, []) := by
  rw [CopyEngine.takeOutcome, queue]
  exact if_pos silent

theorem takeOutcome_fault (queue : e.queue = a :: rest) (loud : a.silent = false) (fault : r ≠ .none) :
    e.takeOutcome r = e.ended a rest .FAULT r a.pagesDone := by
  rw [CopyEngine.takeOutcome, queue]
  dsimp only
  rw [loud, if_neg (by decide), if_pos fault, if_neg fault]
  rfl

theorem takeOutcome_last (queue : e.queue = a :: rest) (loud : a.silent = false) (last : a.pagesDone + 1 = a.count) :
    e.takeOutcome .none = e.ended a rest .OK .none (a.pagesDone + 1) := by
  rw [CopyEngine.takeOutcome, queue]
  dsimp only
  rw [loud, if_neg (by decide), if_neg (not_not.2 rfl), if_pos rfl, if_pos last]
  rfl

theorem takeOutcome_cancelled (queue : e.queue = a :: rest) (loud : a.silent = false) (more : a.pagesDone + 1 ≠ a.count)
    (cancel : a.cancel = true) : e.takeOutcome .none = e.ended a rest .CANCELLED .none (a.pagesDone + 1) := by
  rw [CopyEngine.takeOutcome, queue]
  dsimp only
  rw [loud, if_neg (by decide), if_neg (not_not.2 rfl), if_pos rfl, if_neg more, if_pos cancel]
  rfl

theorem takeOutcome_more (queue : e.queue = a :: rest) (loud : a.silent = false) (more : a.pagesDone + 1 ≠ a.count)
    (cancel : a.cancel = false) : e.takeOutcome .none =
      (CopyEngine.issue { e with queue := { a with pagesDone := a.pagesDone + 1 } :: rest }, []) := by
  rw [CopyEngine.takeOutcome, queue]
  dsimp only
  rw [loud, if_neg (by decide), if_neg (not_not.2 rfl), if_pos rfl, if_neg more, cancel, if_neg (by decide)]

theorem exec_outcome {s : State} (running : s.running = true) (returned : s.copy.transfer = .returned r) {t : CopyEngine}
    {es : List Event} (taken : s.copy.takeOutcome r = (t, es)) :
    exec .copyTransferOutcome s = .next ((s.setCopy t).raiseAll es).arbitrate := by
  show Host.Outcome.next (s.whenRunning State.copyOutcome) = _
  rw [whenRunning_of running, State.copyOutcome, returned]
  dsimp only
  rw [State.takeOutcome, returned]
  dsimp only
  rw [taken]

end

/-- Settles O38: an outcome ends the active copy, or its next page is issued. -/
theorem copyGoesOnOrEnds : Obligations.CopyGoesOnOrEnds := by
  unfold Obligations.CopyGoesOnOrEnds
  intro s r a rest running returned queue next ends
  have end_ (st : CopyStatus) (r' : Reason) (n : Nat) (taken : s.copy.takeOutcome r = s.copy.ended a rest st r' n) :
      ends st r' n := by
    refine (exec_outcome running returned taken).trans ?_
    cases rest <;> rfl
  refine ⟨fun silent => ?silent, fun loud => ⟨fun fault => end_ _ _ _ (takeOutcome_fault queue loud fault),
    fun none last => end_ _ _ _ (none ▸ takeOutcome_last queue loud last),
    fun none more cancel => end_ _ _ _ (none ▸ takeOutcome_cancelled queue loud more cancel), fun none more goesOn => ?more⟩⟩
  case silent =>
    refine (exec_outcome running returned (takeOutcome_silent queue silent)).trans ?_
    cases rest <;> rfl
  case more => exact exec_outcome running returned (none ▸ takeOutcome_more queue loud more goesOn)

/-! ## Updates that come to the same -/

theorem modCmd_congr {p : Port} {f g : CommandUnit → CommandUnit} {s : State} (same : f s.cmds[p] = g s.cmds[p]) :
    s.modCmd p f = s.modCmd p g := by
  show { s with cmds := s.cmds.set p (f s.cmds[p]) } = { s with cmds := s.cmds.set p (g s.cmds[p]) }
  rw [same]

theorem modPort_congr {p : Port} {f g : PortUnit → PortUnit} {s : State} (same : f s.ports[p] = g s.ports[p]) :
    s.modPort p f = s.modPort p g := by
  show { s with ports := s.ports.set p (f s.ports[p]) } = { s with ports := s.ports.set p (g s.ports[p]) }
  rw [same]

theorem modAttn_congr {p : Port} {f g : AttnUnit → AttnUnit} {s : State} (same : f s.attn[p] = g s.attn[p]) :
    s.modAttn p f = s.modAttn p g := by
  show { s with attn := s.attn.set p (f s.attn[p]) } = { s with attn := s.attn.set p (g s.attn[p]) }
  rw [same]

/-! ## Control commits -/

theorem unitBlocked_iff (u : PortUnit) : u.blocked = true ↔ u.endedRead ≠ none ∨ ∃ x, u.outstanding = some (.commit x) := by
  unfold PortUnit.blocked
  rw [Bool.or_eq_true, Option.isSome_iff_ne_none]
  rcases u.outstanding with _ | (f | es) <;> simp

theorem unitBlocked_false {u : PortUnit} (ended : u.endedRead = none) (noCommit : ∀ x, u.outstanding ≠ some (.commit x)) :
    u.blocked = false :=
  Bool.eq_false_iff.2 fun blocked => ((unitBlocked_iff u).1 blocked).elim (· ended) fun ⟨x, commit⟩ => noCommit x commit

section
variable {p : Port} {es : List Entry} {s : State}

theorem readyCommand_some (command : s.ports[p].handOver = some (.command es)) (open_ : s.ports[p].blocked = false) :
    s.ports[p].readyCommand = some es := by
  rw [PortUnit.readyCommand, command]
  dsimp only
  rw [open_]
  rfl

theorem readyCommand_none (waits : ∀ es, s.ports[p].handOver = some (.command es) → s.ports[p].blocked = true) :
    s.ports[p].readyCommand = none := by
  unfold PortUnit.readyCommand
  split
  · next es command => rw [waits es command, if_pos rfl]
  · rfl

theorem takeControl_ports (p : Port) (es : List Entry) (s : State) : (s.takeControl p es).ports = s.ports :=
  ports_of_touches (T := fun x => x == .command p || x == .attention p || x == .claims) (fun _ => by simp)
    (takeControl_touches p es (by simp) (by simp) (by simp) (Touches.refl _ s))

theorem writeRecord_ports (p : Port) (r : TxStatus) (s : State) : (s.writeRecord p r).ports = s.ports :=
  ports_of_touches (T := fun x => x == .command p || x == .attention p) (fun _ => by simp)
    (writeRecord_touches p r (by simp) (by simp) (Touches.refl _ s))

/-! ## The record kept behind a hand-over -/

/-- The events of the replaced records, then the kept record. -/
def State.flushed (p : Port) (kept : Option TxStatus) (replaced : Nat) (t : State) : State :=
  match kept with
  | none => t
  | some r => ((t.raiseAll (List.replicate replaced ⟨p, 5, .fault .BAD_ADDRESS⟩)).modPort p fun v =>
      { v with keptVoid := none, replaced := 0 }).writeRecord p r

theorem flushKept_flushed (p : Port) (s : State) :
    s.flushKept p = s.flushed p s.ports[p].keptVoid s.ports[p].replaced := by
  unfold State.flushKept
  cases s.ports[p].keptVoid with
  | none => rfl
  | some r =>
    dsimp only
    rw [raiseReplaced_eq]
    rfl

/-- What is kept at the port of `t`, where `t` differs from `s` in its pending hand-over and beside its port units. -/
theorem flushKept_of_dropped {t : State} (ports : t.ports = (s.modPort p fun u => { u with handOver := none }).ports) :
    t.flushKept p = t.flushed p s.ports[p].keptVoid s.ports[p].replaced := by
  rw [flushKept_flushed, ports, modPort_ports, upd_self]

theorem takeReadyControl_ready (ready : s.ports[p].readyCommand = some es) : s.takeReadyControl p =
    ((s.modPort p fun u => { u with handOver := none }).takeControl p es).flushed p s.ports[p].keptVoid s.ports[p].replaced := by
  rw [State.takeReadyControl, ready]
  exact flushKept_of_dropped (takeControl_ports p es _)

theorem takeReadyControl_waits (none : s.ports[p].readyCommand = none) : s.takeReadyControl p = s := by
  rw [State.takeReadyControl, none]

theorem exec_controlCommit (running : s.running = true) :
    exec (.controlCommit p) s = .next ((s.takeReadyControl p).obtain false p).arbitrate :=
  congrArg Host.Outcome.next (whenRunning_of running)

/-! ## The command line -/

theorem writeCommand_append (before after : List Entry) (ln : Line) :
    writeCommand (before ++ after) ln = writeCommand after (writeCommand before ln) := List.foldl_append

theorem set_line (ln : Line) (k i : Fin 16) (v : Byte) : (ln.set k v)[i] = if k = i then v else ln[i] := upd_get ln k i fun _ => v

theorem lineByte_eq {x : Nat} {i : Fin 16} : Fin.ofNat 16 x = i ↔ x % 16 = i.val := by
  rw [Fin.ext_iff, Fin.val_ofNat]

theorem writeCommand_kept {es : List Entry} {i : Fin 16} (other : ∀ e ∈ es, e.offset.toNat % 16 ≠ i.val) (ln : Line) :
    (writeCommand es ln)[i] = ln[i] := by
  induction es generalizing ln with
  | nil => rfl
  | cons e es ih =>
    refine (ih (fun x hx => other x (List.mem_cons_of_mem _ hx)) _).trans ?_
    rw [set_line, if_neg (fun same => other e List.mem_cons_self (lineByte_eq.1 same))]

theorem writeCommand_last {before after : List Entry} {e : Entry} {i : Fin 16} (at_ : e.offset.toNat % 16 = i.val)
    (other : ∀ x ∈ after, x.offset.toNat % 16 ≠ i.val) (ln : Line) :
    (writeCommand (before ++ e :: after) ln)[i] = e.value := by
  rw [writeCommand_append]
  refine (writeCommand_kept other _).trans ?_
  rw [set_line, if_pos (lineByte_eq.2 at_)]

theorem writesCode_iff (es : List Entry) : writesCode es = true ↔ ∃ e ∈ es, e.offset = 0 := by
  simp [writesCode]

/-! ## Commands -/

theorem isCommandCode_iff (b : Byte) : isCommandCode b = true ↔ 1 ≤ b.toNat ∧ b.toNat ≤ 16 := by
  simp [isCommandCode]

theorem isCommandCode_false (b : Byte) : isCommandCode b = false ↔ b.toNat = 0 ∨ 16 < b.toNat := by
  rw [← Bool.not_eq_true, isCommandCode_iff]
  omega

theorem testedAtUnit_iff (b : Byte) : testedAtUnit b = true ↔
    b ∈ [cSIGNAL, cMAP, cMAP_QUERY, cPORT_CONFIG, cPORT_RESET] ∨ b = 0 ∨ 16 < b.toNat := by
  have zero : b = 0 ↔ b.toNat = 0 := BitVec.toNat_eq
  simp only [testedAtUnit, Bool.or_eq_true, beq_iff_eq, Bool.not_eq_true', isCommandCode_false, List.mem_cons,
    List.not_mem_nil, or_false, zero, or_assoc]

/-- Where a command's claim first waits. -/
def firstStage (code : Byte) : Stage := if testedAtUnit code then .commandUnit else .owner

theorem firstStage_cases (code : Byte) : firstStage code = .owner ∨ firstStage code = .commandUnit := by
  unfold firstStage
  split
  · exact .inr rfl
  · exact .inl rfl

theorem firstStage_unit (code : Byte) : firstStage code = .commandUnit ↔ testedAtUnit code = true := by
  unfold firstStage
  split
  · next tested => simp [tested]
  · next untested => simp [untested]

theorem execute_eq (p : Port) (s : State) : s.execute p =
    (s.modCmd p fun u => { u with inFlight := true }).setClaims
      (s.claims ++ [⟨p, s.cmds[p].line, firstStage s.cmds[p].line[(0 : Fin 16)], false⟩]) := by
  unfold State.execute firstStage
  show _ = State.setClaims (s.claims ++ [⟨p, s.cmds[p].line, if testedAtUnit s.cmds[p].line[(0 : Fin 16)] then .commandUnit else .owner, false⟩])
    (s.modCmd p fun u => { u with inFlight := true })
  by_cases tested : testedAtUnit s.cmds[p].line[(0 : Fin 16)] = true
  · rw [if_pos tested]
    exact congrArg (fun c => State.setClaims (s.claims ++ [c]) (s.modCmd p fun u => { u with inFlight := true })) (if_pos tested)
  · rw [if_neg tested]
    exact congrArg (fun c => State.setClaims (s.claims ++ [c]) (s.modCmd p fun u => { u with inFlight := true })) (if_neg tested)

theorem line_written (p : Port) (es : List Entry) (s : State) :
    (s.modCmd p fun c => { c with line := writeCommand es c.line }) =
      s.modCmd p fun u => { u with line := writeCommand es s.cmds[p].line } := modCmd_congr rfl

theorem takeControl_busy (busy : s.cmds[p].inFlight = true) :
    s.takeControl p es = s.writeRecord p (busyRecord (byteN es.length)) := if_pos busy

theorem takeControl_written (free : s.cmds[p].inFlight = false) (noCode : ∀ e ∈ es, e.offset ≠ 0) : s.takeControl p es =
    (s.modCmd p fun u => { u with line := writeCommand es s.cmds[p].line }).writeRecord p (controlRecord (byteN es.length)) := by
  have code : ¬ writesCode es = true := fun h => ((writesCode_iff es).1 h).elim fun e he => noCode e he.1 he.2
  rw [State.takeControl, if_neg (by rw [free]; decide)]
  dsimp only
  rw [if_neg code, line_written]

theorem takeControl_executed (free : s.cmds[p].inFlight = false) (code : ∃ e ∈ es, e.offset = 0) : s.takeControl p es =
    State.writeRecord p (controlRecord (byteN es.length))
      (((s.modCmd p fun u => { u with line := writeCommand es s.cmds[p].line }).modCmd p fun u =>
        { u with inFlight := true }).setClaims (s.claims ++ [⟨p, writeCommand es s.cmds[p].line,
          firstStage (writeCommand es s.cmds[p].line)[(0 : Fin 16)], false⟩])) := by
  rw [State.takeControl, if_neg (by rw [free]; decide)]
  dsimp only
  rw [if_pos ((writesCode_iff es).2 code), line_written, execute_eq, modCmd_cmds, upd_self]
  rfl

theorem badAtUnit_code {c : Claim} (bad : badAtUnit p c = true) : isCommandCode c.code = false := by
  rw [badAtUnit, Bool.and_eq_true, Bool.not_eq_true'] at bad
  exact bad.2

end

/-- Settles O39: a control commit that is ready is taken, with what is kept behind it; one that is not stays; a claim with an
undefined code is answered at once. -/
theorem controlCommitWritesTheLine : Obligations.ControlCommitWritesTheLine := by
  unfold Obligations.ControlCommitWritesTheLine
  refine ⟨fun p es s running command ended noCommit => ?taken, fun p s waits => ?waiting, fun p c rest s found => ?bad⟩
  case taken =>
    intro dropped flushed ends
    have ready := readyCommand_some command (unitBlocked_false ended noCommit)
    have ends_of (t : State) (control : dropped.takeControl p es = t) : ends t := by
      have after : s.takeReadyControl p = flushed t := by
        rw [takeReadyControl_ready ready]
        show State.flushed p _ _ (dropped.takeControl p es) = flushed t
        rw [control]
        rfl
      exact ⟨after, by rw [exec_controlCommit running, after]⟩
    refine ⟨fun busy => ends_of _ (takeControl_busy (s := dropped) busy), fun free => ⟨writeCommand es s.cmds[p].line,
      fun before e after split_ i at_ other => ?_, fun i other => writeCommand_kept other _, fun noCode => ?_, fun code =>
      ⟨firstStage (writeCommand es s.cmds[p].line)[(0 : Fin 16)], firstStage_cases _,
        (firstStage_unit _).trans (testedAtUnit_iff _), ?_⟩⟩⟩
    · rw [split_]
      exact writeCommand_last at_ other _
    · refine ends_of _ ((takeControl_written (s := dropped) free noCode).trans ?_)
      exact writeRecord_plain (.inl rfl) p _
    · refine ends_of _ ((takeControl_executed (s := dropped) free code).trans ?_)
      exact writeRecord_plain (.inl rfl) p _
  case waiting =>
    exact takeReadyControl_waits (readyCommand_none fun es command => (unitBlocked_iff _).2 (waits es command))
  case bad =>
    obtain ⟨running, oldest⟩ := found
    have code : isCommandCode c.code = false := badAtUnit_code (Oldest.test oldest)
    refine ⟨?_, (isCommandCode_false _).1 code⟩
    refine congrArg Host.Outcome.next ((whenRunning_of running).trans ((examineFirst_of_oldest oldest).trans ?_))
    rw [Claim.verdict, code]
    rfl

end Sys2Proof.Machine

/-! Commands that the command unit tests and the ports share (chapters 9 and 10): SIGNAL and PORT_SIGNAL (O40), MAP,
MAP_TRANSLATOR_TAKE and MAP_QUERY (O41). -/

namespace Sys2Proof.Machine

open Sys2Proof.Safety

/-! ## Sets of ports -/

theorem PortSet.has_zero (q : Port) : PortSet.has 0 q = false := BitVec.getLsbD_zero

theorem PortSet.eq_zero_iff {a : PortSet} : a = 0 ↔ ∀ q, PortSet.has a q = false :=
  ⟨fun empty q => by rw [empty, PortSet.has_zero], fun none => PortSet.eq_of_has fun q => by rw [none, PortSet.has_zero]⟩

theorem PortSet.ne_zero_iff {a : PortSet} : a ≠ 0 ↔ ∃ q, PortSet.has a q = true := by
  rw [ne_eq, PortSet.eq_zero_iff, not_forall]
  simp only [Bool.not_eq_false]

theorem PortSet.has_only : ∀ p q : Port, PortSet.has (PortSet.only p) q = decide (q = p) := by decide

theorem PortSet.has_remove_iff {a : PortSet} {p q : Port} :
    PortSet.has (PortSet.remove a p) q = true ↔ PortSet.has a q = true ∧ q ≠ p := by
  rw [PortSet.has_remove, Bool.and_eq_true, bne_iff_ne, ne_comm]

theorem PortSet.ext_iff {a b : PortSet} : a = b ↔ ∀ q, PortSet.has a q = true ↔ PortSet.has b q = true :=
  ⟨fun same q => by rw [same], fun same => PortSet.eq_of_has fun q => Bool.eq_iff_iff.2 (same q)⟩

theorem Claim.has_portSet (c : Claim) (q : Port) : PortSet.has c.portSet q = (c.arg 1).getLsbD q.val := by
  show ((c.arg 1).setWidth 4).getLsbD q.val = _
  rw [BitVec.getLsbD_setWidth, decide_eq_true q.isLt, Bool.true_and]

/-- The ports that a SIGNAL, MAP or MAP_QUERY names. -/
def Claim.Names (c : Claim) (q : Port) : Prop := (c.arg 1).getLsbD q.val = true

theorem Claim.names_iff {c : Claim} {q : Port} : PortSet.has c.portSet q = true ↔ c.Names q := by
  rw [c.has_portSet]
  rfl

theorem Claim.portSet_zero {c : Claim} : c.portSet = 0 ↔ ∀ q, ¬ c.Names q := by
  rw [PortSet.eq_zero_iff]
  exact forall_congr' fun q => by rw [← Claim.names_iff, Bool.not_eq_true]

theorem Claim.portSet_ne_zero {c : Claim} : c.portSet ≠ 0 ↔ ∃ q, c.Names q := by
  rw [PortSet.ne_zero_iff]
  exact exists_congr fun q => Claim.names_iff

/-! ## Examining a claim -/

section
variable {f : Claim → Bool} {p : Port} {code : Byte} {c : Claim} {rest : List Claim} {s : State} {a : Answer} {st : Stage}

theorem examined_answered (oldest : Oldest f c rest s) (tested : c.verdict s.device.supervisor = .answered a) :
    s.examineFirst f = answered c rest a s := by
  rw [examineFirst_of_oldest oldest, tested]

theorem examined_passed (oldest : Oldest f c rest s) (tested : c.verdict s.device.supervisor = .passed st) :
    s.examineFirst f = s.setClaims (rest ++ [{ c with stage := st }]) := by
  rw [examineFirst_of_oldest oldest, tested]

theorem found_answered (found : Finds f c rest s) (tested : c.verdict s.device.supervisor = .answered a) :
    s.whenRunning (State.examineFirst f) = answered c rest a s :=
  (whenRunning_of found.running).trans (examined_answered found.oldest tested)

theorem found_passed (found : Finds f c rest s) (tested : c.verdict s.device.supervisor = .passed st) :
    s.whenRunning (State.examineFirst f) = s.setClaims (rest ++ [{ c with stage := st }]) :=
  (whenRunning_of found.running).trans (examined_passed found.oldest tested)

theorem code_of_atUnit (h : atUnit p code c = true) : c.code = code := by
  rw [atUnit, Bool.and_eq_true, Bool.and_eq_true, beq_iff_eq, beq_iff_eq] at h
  exact h.1.2

theorem verdict_signal (h : c.code = cSIGNAL) (sup : Port) : c.verdict sup = c.testSignal := by
  rw [Claim.verdict, h]
  rfl

theorem verdict_map (h : c.code = cMAP) (sup : Port) : c.verdict sup = c.testMap sup := by
  rw [Claim.verdict, h]
  rfl

theorem verdict_mapQuery (h : c.code = cMAP_QUERY) (sup : Port) : c.verdict sup = c.testMapQuery sup := by
  rw [Claim.verdict, h]
  rfl

theorem answer_claims (c : Claim) (a : Answer) (s : State) : (s.answer c a).claims = s.claims := by
  obtain ⟨v, hv⟩ := answer_cmds c a s
  rw [hv]

theorem answer_running (c : Claim) (a : Answer) (s : State) : (s.answer c a).running = s.running := by
  obtain ⟨v, hv⟩ := answer_cmds c a s
  rw [hv]
  rfl

theorem answered_claims (c : Claim) (rest : List Claim) (a : Answer) (s : State) : (answered c rest a s).claims = rest :=
  answer_claims c a (s.setClaims rest)

theorem examineFirst_running (f : Claim → Bool) (s : State) : (s.examineFirst f).running = s.running := by
  unfold State.examineFirst
  split
  · rfl
  · split
    · exact answer_running _ _ _
    · rfl

theorem examineFirst_none (none : ∀ x ∈ s.claims, f x = false) : s.examineFirst f = s := by
  rw [State.examineFirst, takeFirst_none none]

theorem takeOwned_none {act : Claim → State → State × Answer} (none : ∀ x ∈ s.claims, isOwned p code x = false) :
    s.takeOwned p code act = s := by
  rw [State.takeOwned, takeFirst_none none]

end

/-! ## A claim that several ports take -/

theorem replaceFirst_removed {f : Claim → Bool} {g : Claim → Option Claim} {before after : List Claim} {c : Claim}
    (hb : ∀ x ∈ before, f x = false) (hc : f c = true) (hg : g c = none) :
    replaceFirst f g (before ++ c :: after) = before ++ after := by
  induction before with
  | nil => simp [replaceFirst, hc, hg]
  | cons b bs ih =>
    have hb' : f b = false := hb b List.mem_cons_self
    simp only [List.cons_append, replaceFirst, hb', Bool.false_eq_true, if_false]
    rw [ih fun x hx => hb x (List.mem_cons_of_mem _ hx)]

section
variable {t p : Port} {code : Byte} {c : Claim} {rest : List Claim} {s : State} {ps left : PortSet}
  {act : Claim → State → State} {answer : Claim → Answer}

theorem takenBy_ports (stage : c.stage = .ports ps) (t : Port) :
    c.takenBy t = { c with stage := .ports (PortSet.remove ps t) } := by
  rw [Claim.takenBy, stage]

/-- Taken by the last port of its set, the claim is over. -/
theorem takeShared_last (oldest : Oldest (isWith p t code) c rest s) (stage : c.stage = .ports ps)
    (last : PortSet.remove ps t = 0) :
    s.takeShared p t code act answer = (act c (s.setClaims rest)).answer c (answer c) := by
  have removed : (c.takenBy t).stage = .ports 0 := by rw [takenBy_ports stage, last]
  have first := takeFirst_of_oldest oldest
  obtain ⟨before, after, claims, rfl, none, found⟩ := oldest
  rw [State.takeShared, first]
  dsimp only
  rw [if_pos removed, claims, replaceFirst_removed none found (if_pos removed)]
  rfl

/-- Taken by another, it waits in its place for the others of its set. -/
theorem takeShared_more (oldest : Oldest (isWith p t code) c rest s) (stage : c.stage = .ports ps)
    (removed : PortSet.remove ps t = left) (more : left ≠ 0) :
    ∃ claims, s.takeShared p t code act answer = act c (s.setClaims claims) ∧
      ∀ before after, s.claims = before ++ c :: after → rest = before ++ after →
        (∀ x ∈ before, isWith p t code x = false) → claims = before ++ { c with stage := .ports left } :: after := by
  have taken : c.takenBy t = { c with stage := .ports left } := by rw [takenBy_ports stage, removed]
  have others : ¬ (c.takenBy t).stage = .ports 0 := by
    rw [taken]
    exact fun same => more (Stage.ports.inj same)
  have first := takeFirst_of_oldest oldest
  have found := Oldest.test oldest
  refine ⟨replaceFirst (isWith p t code) (fun x => if (c.takenBy t).stage = .ports 0 then none else some (x.takenBy t)) s.claims,
    ?_, fun before after claims _ none => ?_⟩
  · rw [State.takeShared, first]
    dsimp only
    rw [if_neg others]
    rfl
  · rw [claims]
    exact replaceFirst_append none found ((if_neg others).trans (congrArg some taken))

theorem last_of_set (last : ∀ q, PortSet.has ps q = true → q = t) : PortSet.remove ps t = 0 :=
  PortSet.eq_zero_iff.2 fun q => Bool.eq_false_iff.2 fun more =>
    (PortSet.has_remove_iff.1 more).2 (last q (PortSet.has_remove_iff.1 more).1)

theorem removed_of_set (has : ∀ q, PortSet.has left q = true ↔ PortSet.has ps q = true ∧ q ≠ t) : PortSet.remove ps t = left :=
  PortSet.ext_iff.2 fun q => PortSet.has_remove_iff.trans (has q).symm

theorem more_of_set (has : ∀ q, PortSet.has left q = true ↔ PortSet.has ps q = true ∧ q ≠ t)
    (more : ∃ q, PortSet.has ps q = true ∧ q ≠ t) : left ≠ 0 :=
  PortSet.ne_zero_iff.2 (more.imp fun q hq => (has q).2 hq)

end

/-! ## SIGNAL -/

section
variable {c : Claim}

theorem testSignal_empty (none : ∀ q, ¬ c.Names q) : c.testSignal = .answered (.BAD_ARGUMENT, []) :=
  if_pos (Claim.portSet_zero.2 none)

theorem remove_issuer_zero (own : ∀ q, c.Names q → q = c.issuer) : PortSet.remove c.portSet c.issuer = 0 :=
  last_of_set fun q named => own q (Claim.names_iff.1 named)

theorem testSignal_own (some_ : ∃ q, c.Names q) (own : ∀ q, c.Names q → q = c.issuer) :
    c.testSignal = .answered (.OK, [0, c.arg 2]) := by
  rw [Claim.testSignal, if_neg (Claim.portSet_ne_zero.2 some_), if_pos (remove_issuer_zero own)]

theorem testSignal_others {ps : PortSet} (others : ∃ q, c.Names q ∧ q ≠ c.issuer)
    (set : ∀ q, PortSet.has ps q = true ↔ c.Names q ∧ q ≠ c.issuer) : c.testSignal = .passed (.ports ps) := by
  have has (q : Port) : PortSet.has ps q = true ↔ PortSet.has c.portSet q = true ∧ q ≠ c.issuer :=
    (set q).trans (and_congr_left' Claim.names_iff.symm)
  have removed : PortSet.remove c.portSet c.issuer = ps := removed_of_set has
  have more : ps ≠ 0 := more_of_set has (others.imp fun q hq => ⟨Claim.names_iff.2 hq.1, hq.2⟩)
  rw [Claim.testSignal, if_neg (Claim.portSet_ne_zero.2 (others.imp fun _ => And.left)), removed, if_neg more]

end

/-- Settles O40: SIGNAL's tests; PORT_SIGNAL is a shared claim that one port takes. -/
theorem signalReachesEveryPortOfItsSet : Obligations.SignalReachesEveryPortOfItsSet := by
  unfold Obligations.SignalReachesEveryPortOfItsSet
  refine ⟨fun p c rest s found => ?signal, fun t p c rest s ps found stage => ?taken⟩
  case signal =>
    have unit : atUnit p cSIGNAL c = true := Oldest.test found.oldest
    obtain rfl := issuer_of_atUnit unit
    have tested := verdict_signal (code_of_atUnit unit) s.device.supervisor
    exact ⟨fun none => congrArg Host.Outcome.next (found_answered found (tested.trans (testSignal_empty none))),
      fun some_ own => congrArg Host.Outcome.next (found_answered found (tested.trans (testSignal_own some_ own))),
      fun others ps set => congrArg Host.Outcome.next (found_passed found (tested.trans (testSignal_others others set)))⟩
  case taken =>
    obtain rfl := issuer_of_with (Oldest.test found.oldest)
    refine ⟨fun last told set => ?last, fun more left set => ?more⟩
    case last =>
      have told_ : PortSet.remove c.portSet c.issuer = told :=
        removed_of_set fun q => (set q).trans (and_congr_left' Claim.names_iff.symm)
      refine congrArg Host.Outcome.next ((whenRunning_of found.running).trans
        ((takeShared_last found.oldest stage (last_of_set last)).trans ?_))
      rw [signalAnswer, told_]
      rfl
    case more =>
      obtain ⟨claims, taken, place⟩ := takeShared_more (act := signalAct t) (answer := signalAnswer) found.oldest stage
        (removed_of_set set) (more_of_set set more)
      exact ⟨claims, congrArg Host.Outcome.next ((whenRunning_of found.running).trans taken), place⟩

/-! ## The tests of MAP and MAP_QUERY -/

section
variable {c : Claim} {sup : Port}

/-- The issuer may name these ports (R49). -/
def Claim.MayName (sup : Port) (c : Claim) : Prop := c.issuer = sup ∨ ∀ q, c.Names q ↔ q = c.issuer

theorem portSet_only : c.portSet = PortSet.only c.issuer ↔ ∀ q, c.Names q ↔ q = c.issuer := by
  rw [PortSet.ext_iff]
  exact forall_congr' fun q => by rw [Claim.names_iff, PortSet.has_only, decide_eq_true_iff]

theorem testPorts_empty (none : ∀ q, ¬ c.Names q) : c.testPorts sup = some .BAD_ARGUMENT := if_pos (Claim.portSet_zero.2 none)

theorem testPorts_refused (some_ : ∃ q, c.Names q) (not : ¬ c.MayName sup) : c.testPorts sup = some .NOT_SUPERVISOR := by
  rw [Claim.testPorts, if_neg (Claim.portSet_ne_zero.2 some_)]
  exact if_pos ⟨fun same => not (.inl same), fun only => not (.inr (portSet_only.1 only))⟩

theorem testPorts_passes (some_ : ∃ q, c.Names q) (may : c.MayName sup) : c.testPorts sup = none := by
  rw [Claim.testPorts, if_neg (Claim.portSet_ne_zero.2 some_)]
  exact if_neg fun both => may.elim both.1 fun own => both.2 (portSet_only.2 own)

theorem windowOk_iff : c.windowOk = true ↔ 1 ≤ (c.arg 2).toNat ∧ (c.arg 2).toNat ≤ 15 := by
  simp [Claim.windowOk]

theorem flagOf_isSome : ∀ b : Byte, (flagOf b).isSome = decide (b.toNat ≤ 1) := by decide

theorem access_isSome : ∀ b : Byte, (Access.ofByte b).isSome = decide (b.toNat ≤ 1) := by decide

theorem mapEntry_isSome : c.mapEntry.isSome = true ↔
    (c.arg 4).toNat ≤ 127 ∧ (c.arg 3).toNat ≤ 1 ∧ (c.arg 5).toNat ≤ 1 := by
  rw [← decide_eq_true_iff (p := (c.arg 3).toNat ≤ 1), ← decide_eq_true_iff (p := (c.arg 5).toNat ≤ 1), ← flagOf_isSome,
    ← access_isSome, Claim.mapEntry]
  cases flagOf (c.arg 3) with
  | none => simp
  | some en =>
    cases Access.ofByte (c.arg 5) with
    | none => simp
    | some ac => by_cases page : (c.arg 4).toNat ≤ 127 <;> simp [page]

/-- Window, flag, page and access are defined values. -/
def Claim.MapDefined (c : Claim) : Prop :=
  1 ≤ (c.arg 2).toNat ∧ (c.arg 2).toNat ≤ 15 ∧ (c.arg 4).toNat ≤ 127 ∧ (c.arg 3).toNat ≤ 1 ∧ (c.arg 5).toNat ≤ 1

theorem mapDefined_iff : (c.windowOk && c.mapEntry.isSome) = true ↔ c.MapDefined := by
  rw [Bool.and_eq_true, windowOk_iff, mapEntry_isSome, and_assoc]
  rfl

theorem testMap_refused {st : Status} (ports : c.testPorts sup = some st) : c.testMap sup = .answered (st, []) := by
  rw [Claim.testMap, ports]
  rfl

theorem testMap_undefined (ports : c.testPorts sup = none) (not : ¬ c.MapDefined) :
    c.testMap sup = .answered (.BAD_ARGUMENT, []) := by
  rw [Claim.testMap, ports]
  exact if_neg fun ok => not (mapDefined_iff.1 ok)

theorem testMap_passes (ports : c.testPorts sup = none) (defined : c.MapDefined) :
    c.testMap sup = .passed (.ports c.portSet) := by
  rw [Claim.testMap, ports]
  exact if_pos (mapDefined_iff.2 defined)

theorem testMapQuery_refused {st : Status} (ports : c.testPorts sup = some st) : c.testMapQuery sup = .answered (st, []) := by
  rw [Claim.testMapQuery, ports]
  rfl

theorem testMapQuery_noWindow (ports : c.testPorts sup = none) (not : ¬ (1 ≤ (c.arg 2).toNat ∧ (c.arg 2).toNat ≤ 15)) :
    c.testMapQuery sup = .answered (.BAD_ARGUMENT, []) := by
  rw [Claim.testMapQuery, ports]
  exact if_neg fun ok => not (windowOk_iff.1 ok)

theorem testMapQuery_passes (ports : c.testPorts sup = none) (window : 1 ≤ (c.arg 2).toNat ∧ (c.arg 2).toNat ≤ 15) :
    c.testMapQuery sup = .passed .owner := by
  rw [Claim.testMapQuery, ports]
  exact if_pos (windowOk_iff.2 window)

/-! ## Taking a map -/

theorem mapEntry_defined {pg : Page} {en : Bool} {ac : Access} (page : (c.arg 4).toNat = pg.val)
    (flag : c.arg 3 = if en = true then 1 else 0) (access : c.arg 5 = ac.code) : c.mapEntry = some ⟨en, pg, ac⟩ := by
  have flag_ : flagOf (c.arg 3) = some en := by
    rw [flag]
    cases en <;> rfl
  have access_ : Access.ofByte (c.arg 5) = some ac := by
    rw [access]
    cases ac <;> rfl
  have page_ : pageOf (c.arg 4).toNat = pg := by
    rw [page]
    exact Fin.ext (pageOf_val pg.isLt)
  rw [Claim.mapEntry, flag_, access_]
  dsimp only
  rw [if_pos (by omega), page_]

theorem mapAct_defined {t : Port} {w : Fin 15} {e : MapEntry} (entry : c.mapEntry = some e) (window : (c.arg 2).toNat = w.val + 1)
    (s : State) : mapAct t c s = (s.modTranslator t fun x => { x with map := x.map.set w e }).obtain false t := by
  rw [mapAct, entry, window]
  dsimp only
  rw [mapIndex_succ]
  rfl

/-! ## MAP_QUERY -/

theorem highestPort_of : ∀ (ps : PortSet) (q : Port), PortSet.has ps q = true → (∀ j, PortSet.has ps j = true → j ≤ q) →
    highestPort ps = q := by decide

theorem mapQueryAnswer_of {q : Port} {w : Fin 15} (named : c.Names q) (highest : ∀ j, c.Names j → j ≤ q)
    (window : (c.arg 2).toNat = w.val + 1) (s : State) : mapQueryAnswer c s =
      (.OK, [byteN q.val, c.arg 2, if s.translators[q].map[w].enabled = true then 1 else 0,
        byteN s.translators[q].map[w].page.val, s.translators[q].map[w].access.code]) := by
  have port : highestPort c.portSet = q :=
    highestPort_of _ _ (Claim.names_iff.2 named) fun j hj => highest j (Claim.names_iff.1 hj)
  have index : mapIndex (c.arg 2).toNat = w := by rw [window, mapIndex_succ]
  subst port index
  rfl

end

section
variable {p : Port} {c : Claim} {rest : List Claim} {s : State} {a : Answer}

theorem exec_mapQuery (running : s.running = true) :
    exec (.mapQuery p) s = .next ((s.examine p cMAP_QUERY).mapQueryAct p) :=
  congrArg Host.Outcome.next (whenRunning_of running)

/-- Once the oldest has been examined, and no other is at the unit, the command does no more than before. -/
theorem exec_mapQuery_examined {t : State} (running : s.running = true) (examined : s.examine p cMAP_QUERY = t)
    (none : ∀ x ∈ t.claims, atUnit p cMAP_QUERY x = false) : exec (.mapQuery p) s = exec (.mapQuery p) t := by
  have running_ : t.running = true := by
    rw [← examined]
    exact (examineFirst_running _ s).trans running
  have again : t.examine p cMAP_QUERY = t := examineFirst_none none
  rw [exec_mapQuery running, exec_mapQuery running_, examined, again]

theorem exec_mapQuery_answered (found : Finds (atUnit p cMAP_QUERY) c rest s)
    (noOther : ∀ x ∈ rest, isOwned p cMAP_QUERY x = false) (tested : c.verdict s.device.supervisor = .answered a) :
    exec (.mapQuery p) s = .next (answered c rest a s) := by
  rw [exec_mapQuery found.running, State.examine, examined_answered found.oldest tested, State.mapQueryAct,
    takeOwned_none (by rw [answered_claims]; exact noOther)]

theorem mapQueryAct_of_oldest (oldest : Oldest (isOwned p cMAP_QUERY) c rest s) :
    s.mapQueryAct p = answered c rest (mapQueryAnswer c s) s := takeOwned_of_oldest oldest

theorem owned_of_atUnit {code : Byte} (unit : atUnit p code c = true) : isOwned p code { c with stage := .owner } = true := by
  rw [atUnit, Bool.and_eq_true] at unit
  rw [isOwned, Bool.and_eq_true]
  exact ⟨unit.1, rfl⟩

theorem atUnit_staged {code : Byte} {st : Stage} (left : st ≠ .commandUnit) : atUnit p code { c with stage := st } = false := by
  simp [atUnit, left]

theorem exec_mapQuery_passed (found : Finds (atUnit p cMAP_QUERY) c rest s)
    (noOther : ∀ x ∈ rest, isOwned p cMAP_QUERY x = false) (tested : c.verdict s.device.supervisor = .passed .owner) :
    exec (.mapQuery p) s = .next (answered c rest (mapQueryAnswer c s) s) := by
  have owned : Oldest (isOwned p cMAP_QUERY) { c with stage := .owner } rest (s.setClaims (rest ++ [{ c with stage := .owner }])) :=
    ⟨rest, [], rfl, (List.append_nil rest).symm, noOther, owned_of_atUnit (Oldest.test found.oldest)⟩
  rw [exec_mapQuery found.running, State.examine, examined_passed found.oldest tested, mapQueryAct_of_oldest owned]
  rfl

end

/-- Settles O41: MAP's tests; MAP_TRANSLATOR_TAKE is a shared claim; MAP_QUERY is examined and then taken by its owner. -/
theorem mapIsTestedTakenAndReported : Obligations.MapIsTestedTakenAndReported := by
  unfold Obligations.MapIsTestedTakenAndReported
  refine ⟨fun p c rest s found => ?map, fun t p c rest s ps w pg en ac found stage window page flag access => ?take,
    fun p c rest s found noOther => ?query, fun p c rest s found => ⟨fun none q named highest w window => ?owned, ?newer⟩⟩
  case map =>
    have unit : atUnit p cMAP c = true := Oldest.test found.oldest
    obtain rfl := issuer_of_atUnit unit
    have tested := verdict_map (code_of_atUnit unit) s.device.supervisor
    refine ⟨fun none => ?_, fun some_ not => ?_, fun some_ may not => ?_, fun some_ may defined => ?_⟩
    · exact congrArg Host.Outcome.next (found_answered found (tested.trans (testMap_refused (testPorts_empty none))))
    · exact congrArg Host.Outcome.next (found_answered found (tested.trans (testMap_refused (testPorts_refused some_ not))))
    · exact congrArg Host.Outcome.next (found_answered found (tested.trans (testMap_undefined (testPorts_passes some_ may) not)))
    · exact congrArg Host.Outcome.next (found_passed found (tested.trans (testMap_passes (testPorts_passes some_ may) defined)))
  case take =>
    have acts := mapAct_defined (t := t) (mapEntry_defined page flag access) window
    have exec_take : exec (.mapTranslatorTake t p) s =
        .next (s.takeShared p t cMAP (mapAct t) mapAnswer).arbitrate :=
      congrArg Host.Outcome.next (whenRunning_of found.running)
    refine ⟨fun last => ?_, fun more left set => ?_⟩
    · rw [exec_take, takeShared_last found.oldest stage (last_of_set last), acts]
      rfl
    · obtain ⟨claims, taken, place⟩ := takeShared_more (act := mapAct t) (answer := mapAnswer) found.oldest stage
        (removed_of_set set) (more_of_set set more)
      exact ⟨claims, by rw [exec_take, taken, acts], place⟩
  case query =>
    have unit : atUnit p cMAP_QUERY c = true := Oldest.test found.oldest
    obtain rfl := issuer_of_atUnit unit
    have tested := verdict_mapQuery (code_of_atUnit unit) s.device.supervisor
    refine ⟨fun none => ?_, fun some_ not => ?_, fun some_ may outside => ?_, fun may q named highest w window => ?_⟩
    · exact exec_mapQuery_answered found noOther (tested.trans (testMapQuery_refused (testPorts_empty none)))
    · exact exec_mapQuery_answered found noOther (tested.trans (testMapQuery_refused (testPorts_refused some_ not)))
    · exact exec_mapQuery_answered found noOther
        (tested.trans (testMapQuery_noWindow (testPorts_passes some_ may) (by omega)))
    · dsimp only
      rw [← mapQueryAnswer_of named highest window s]
      exact exec_mapQuery_passed found noOther
        (tested.trans (testMapQuery_passes (testPorts_passes ⟨q, named⟩ may) (by have := w.isLt; omega)))
  case owned =>
    dsimp only
    rw [exec_mapQuery found.running, State.examine, examineFirst_none none, mapQueryAct_of_oldest found.oldest,
      ← mapQueryAnswer_of named highest window s]
  case newer =>
    intro d left oldest none
    have unit : atUnit p cMAP_QUERY d = true := Oldest.test oldest
    obtain rfl := issuer_of_atUnit unit
    have tested := verdict_mapQuery (code_of_atUnit unit) s.device.supervisor
    have after_answered (a : Answer) (v : d.verdict s.device.supervisor = .answered a) :
        exec (.mapQuery d.issuer) s = exec (.mapQuery d.issuer) (answered d left a s) :=
      exec_mapQuery_examined found.running (examined_answered oldest v) (by rw [answered_claims]; exact none)
    refine ⟨fun empty => ?_, fun some_ not => ?_, fun some_ may outside => ?_, fun some_ may window => ?_⟩
    · exact after_answered _ (tested.trans (testMapQuery_refused (testPorts_empty empty)))
    · exact after_answered _ (tested.trans (testMapQuery_refused (testPorts_refused some_ not)))
    · exact after_answered _ (tested.trans (testMapQuery_noWindow (testPorts_passes some_ may) outside))
    · refine exec_mapQuery_examined found.running
        (examined_passed oldest (tested.trans (testMapQuery_passes (testPorts_passes some_ may) window))) fun x member => ?_
      rcases List.mem_append.1 member with old | new
      · exact none x old
      · rw [List.mem_singleton.1 new]
        exact atUnit_staged (by decide)

end Sys2Proof.Machine

/-! PORT_CONFIG and its halves (chapter 10): O42. PORT_RESET and its begin: O43. -/

namespace Sys2Proof.Machine

open Sys2Proof.Safety

/-! ## The values that PORT_CONFIG sets -/

/-- The mode after PORT_CONFIG. -/
def Claim.newMode (c : Claim) (m : IncMode) : IncMode :=
  if c.arg 1 = 1 then .LINEAR else if c.arg 1 = 2 then .WINDOW_WRAP else m

/-- The output enable after PORT_CONFIG. -/
def Claim.newOutput (c : Claim) (o : Bool) : Bool := if c.arg 2 = 1 then true else if c.arg 2 = 2 then false else o

theorem incAction_mode (b : Byte) (m : IncMode) :
    ((incAction b).getD none).getD m = if b = 1 then .LINEAR else if b = 2 then .WINDOW_WRAP else m := by
  revert b
  cases m <;> decide

theorem enableAction_output (b : Byte) (o : Bool) :
    ((enableAction b).getD none).getD o = if b = 1 then true else if b = 2 then false else o := by
  revert b
  cases o <;> decide

theorem incAction_isSome : ∀ b : Byte, (incAction b).isSome = decide (b.toNat ≤ 2) := by decide

theorem enableAction_isSome : ∀ b : Byte, (enableAction b).isSome = decide (b.toNat ≤ 2) := by decide

theorem configAnswer_eq (m : IncMode) (o : Bool) :
    configAnswer m o = (.OK, [if m = .LINEAR then 1 else 2, if o = true then 1 else 0]) := by
  cases m <;> rfl

theorem modTranslator_congr {p : Port} {f g : Translator → Translator} {s : State}
    (same : f s.translators[p] = g s.translators[p]) : s.modTranslator p f = s.modTranslator p g := by
  show { s with translators := s.translators.set p (f s.translators[p]) } =
    { s with translators := s.translators.set p (g s.translators[p]) }
  rw [same]

section
variable {p : Port} {c : Claim} {before after rest : List Claim} {s : State}

/-- The state with the mode of port `p` set. -/
def State.withMode (p : Port) (m : IncMode) (s : State) : State := s.modTranslator p fun x => { x with mode := m }

/-- The state with the output enable of port `p` set. -/
def State.withOutput (p : Port) (o : Bool) (s : State) : State := s.modAttn p fun x => { x with outputEnable := o }

theorem modTranslator_configure (p : Port) (c : Claim) (s : State) :
    s.modTranslator p (Translator.configure ((incAction (c.arg 1)).getD none)) =
      s.withMode p (c.newMode s.translators[p].mode) := by
  refine modTranslator_congr ?_
  rw [Translator.configure, incAction_mode]
  rfl

theorem modAttn_setOutput (p : Port) (c : Claim) (s : State) :
    s.modAttn p (AttnUnit.setOutput ((enableAction (c.arg 2)).getD none)) =
      s.withOutput p (c.newOutput s.attn[p].outputEnable) := by
  refine modAttn_congr ?_
  rw [AttnUnit.setOutput, enableAction_output]
  rfl

/-! ## Taking one half -/

theorem modeDue_of (halves : isHalves p c = true) {o : HalfClaim Bool} (stage : c.stage = .halves .due o) : modeDue p c = true := by
  rw [modeDue, halves, stage]
  rfl

theorem outputDue_of (halves : isHalves p c = true) {m : HalfClaim IncMode} (stage : c.stage = .halves m .due) :
    outputDue p c = true := by
  rw [outputDue, halves, stage]
  rfl

/-- The translator's half of the port's oldest claim whose half is due. -/
theorem takeModeHalf_of (claims : s.claims = before ++ c :: after) (none : ∀ x ∈ before, modeDue p x = false)
    (halves : isHalves p c = true) {o : HalfClaim Bool} (stage : c.stage = .halves .due o) :
    s.takeModeHalf p = (s.withMode p (c.newMode s.translators[p].mode)).halfTaken (modeDue p) c (before ++ after)
      (.taken (c.newMode s.translators[p].mode)) o := by
  rw [State.takeModeHalf, claims, takeFirst_append none (modeDue_of halves stage)]
  dsimp only
  rw [stage]
  dsimp only
  rw [modTranslator_configure]
  have set : (s.withMode p (c.newMode s.translators[p].mode)).translators[p].mode = c.newMode s.translators[p].mode := by
    rw [State.withMode, modTranslator_translators, upd_self]
  rw [set]

theorem takeOutputHalf_of (claims : s.claims = before ++ c :: after) (none : ∀ x ∈ before, outputDue p x = false)
    (halves : isHalves p c = true) {m : HalfClaim IncMode} (stage : c.stage = .halves m .due) :
    s.takeOutputHalf p = (s.withOutput p (c.newOutput s.attn[p].outputEnable)).halfTaken (outputDue p) c (before ++ after)
      m (.taken (c.newOutput s.attn[p].outputEnable)) := by
  rw [State.takeOutputHalf, claims, takeFirst_append none (outputDue_of halves stage)]
  dsimp only
  rw [stage]
  dsimp only
  rw [modAttn_setOutput]
  have set : (s.withOutput p (c.newOutput s.attn[p].outputEnable)).attn[p].outputEnable =
      c.newOutput s.attn[p].outputEnable := by
    rw [State.withOutput, modAttn_attn, upd_self]
  rw [set]

/-- With the other half still due, the claim waits in its place. -/
theorem takeModeHalf_first (claims : s.claims = before ++ c :: after) (none : ∀ x ∈ before, modeDue p x = false)
    (halves : isHalves p c = true) (stage : c.stage = .halves .due .due) :
    s.takeModeHalf p = (s.withMode p (c.newMode s.translators[p].mode)).setClaims
      (before ++ { c with stage := .halves (.taken (c.newMode s.translators[p].mode)) .due } :: after) := by
  rw [takeModeHalf_of claims none halves stage]
  refine congrArg (fun cs => State.setClaims cs (s.withMode p (c.newMode s.translators[p].mode))) ?_
  show replaceFirst _ _ s.claims = _
  rw [claims]
  exact replaceFirst_append none (modeDue_of halves stage) rfl

theorem takeModeHalf_done (claims : s.claims = before ++ c :: after) (none : ∀ x ∈ before, modeDue p x = false)
    (halves : isHalves p c = true) {o : Bool} (stage : c.stage = .halves .due (.taken o)) :
    s.takeModeHalf p = answered c (before ++ after) (configAnswer (c.newMode s.translators[p].mode) o)
      (s.withMode p (c.newMode s.translators[p].mode)) := takeModeHalf_of claims none halves stage

theorem takeModeHalf_dropped (claims : s.claims = before ++ c :: after) (none : ∀ x ∈ before, modeDue p x = false)
    (halves : isHalves p c = true) (stage : c.stage = .halves .due .discarded) :
    s.takeModeHalf p = (s.withMode p (c.newMode s.translators[p].mode)).setClaims (before ++ after) :=
  takeModeHalf_of claims none halves stage

theorem takeOutputHalf_first (claims : s.claims = before ++ c :: after) (none : ∀ x ∈ before, outputDue p x = false)
    (halves : isHalves p c = true) (stage : c.stage = .halves .due .due) :
    s.takeOutputHalf p = (s.withOutput p (c.newOutput s.attn[p].outputEnable)).setClaims
      (before ++ { c with stage := .halves .due (.taken (c.newOutput s.attn[p].outputEnable)) } :: after) := by
  rw [takeOutputHalf_of claims none halves stage]
  refine congrArg (fun cs => State.setClaims cs (s.withOutput p (c.newOutput s.attn[p].outputEnable))) ?_
  show replaceFirst _ _ s.claims = _
  rw [claims]
  exact replaceFirst_append none (outputDue_of halves stage) rfl

theorem takeOutputHalf_done (claims : s.claims = before ++ c :: after) (none : ∀ x ∈ before, outputDue p x = false)
    (halves : isHalves p c = true) {m : IncMode} (stage : c.stage = .halves (.taken m) .due) :
    s.takeOutputHalf p = answered c (before ++ after) (configAnswer m (c.newOutput s.attn[p].outputEnable))
      (s.withOutput p (c.newOutput s.attn[p].outputEnable)) := takeOutputHalf_of claims none halves stage

theorem takeModeHalf_none (none : ∀ x ∈ s.claims, modeDue p x = false) : s.takeModeHalf p = s := by
  rw [State.takeModeHalf, takeFirst_none none]

theorem takeOutputHalf_none (none : ∀ x ∈ s.claims, outputDue p x = false) : s.takeOutputHalf p = s := by
  rw [State.takeOutputHalf, takeFirst_none none]

theorem takeHalves_none (half : ConfigHalf) (noMode : ∀ x ∈ s.claims, modeDue p x = false)
    (noOutput : ∀ x ∈ s.claims, outputDue p x = false) : s.takeHalves p half = s := by
  cases half with
  | translator => exact takeModeHalf_none noMode
  | attention => exact takeOutputHalf_none noOutput
  | both =>
    show (s.takeModeHalf p).takeOutputHalf p = s
    rw [takeModeHalf_none noMode, takeOutputHalf_none noOutput]

/-! ## PORT_CONFIG -/

theorem verdict_portConfig (h : c.code = cPORT_CONFIG) (sup : Port) : c.verdict sup = c.testPortConfig := by
  rw [Claim.verdict, h]
  rfl

theorem testPortConfig_undefined (bad : 2 < (c.arg 1).toNat ∨ 2 < (c.arg 2).toNat) :
    c.testPortConfig = .answered (.BAD_ARGUMENT, []) := by
  refine if_neg ?_
  rw [incAction_isSome, enableAction_isSome, Bool.and_eq_true, decide_eq_true_iff, decide_eq_true_iff]
  omega

theorem testPortConfig_passes (mode : (c.arg 1).toNat ≤ 2) (output : (c.arg 2).toNat ≤ 2) :
    c.testPortConfig = .passed (.halves .due .due) := by
  refine if_pos ?_
  rw [incAction_isSome, enableAction_isSome, Bool.and_eq_true, decide_eq_true_iff, decide_eq_true_iff]
  exact ⟨mode, output⟩

theorem exec_portConfig (running : s.running = true) (half : ConfigHalf) :
    exec (.portConfig p half) s = .next ((s.examine p cPORT_CONFIG).takeHalves p half) :=
  congrArg Host.Outcome.next (whenRunning_of running)

theorem exec_portConfig_examined (running : s.running = true) (none : ∀ x ∈ s.claims, atUnit p cPORT_CONFIG x = false)
    (half : ConfigHalf) : exec (.portConfig p half) s = .next (s.takeHalves p half) := by
  rw [exec_portConfig running, State.examine, examineFirst_none none]

theorem isHalves_staged (unit : atUnit p cPORT_CONFIG c = true) (m : HalfClaim IncMode) (o : HalfClaim Bool) :
    isHalves p { c with stage := .halves m o } = true := by
  rw [atUnit, Bool.and_eq_true] at unit
  rw [isHalves, Bool.and_eq_true]
  exact ⟨unit.1, rfl⟩

theorem none_atUnit_staged {code : Byte} {st : Stage} (none : ∀ x ∈ rest, atUnit p code x = false) (left : st ≠ .commandUnit) :
    ∀ x ∈ rest ++ [{ c with stage := st }], atUnit p code x = false := by
  intro x member
  rcases List.mem_append.1 member with old | new
  · exact none x old
  · rw [List.mem_singleton.1 new]
    exact atUnit_staged left

end

/-- Settles O42: the claim is examined; then each owner takes its half, in either order or both at once. -/
theorem portConfigSetsItsHalves : Obligations.PortConfigSetsItsHalves := by
  unfold Obligations.PortConfigSetsItsHalves
  refine ⟨fun p c rest s found others => ?fresh, fun p c before after s running none claims halves _ _ => ?waiting⟩
  case fresh =>
    intro mode out modeSet outSet answer
    obtain ⟨running, oldest⟩ := found
    have unit : atUnit p cPORT_CONFIG c = true := Oldest.test oldest
    have tested := verdict_portConfig (code_of_atUnit unit) s.device.supervisor
    have noUnit : ∀ x ∈ rest, atUnit p cPORT_CONFIG x = false := fun x hx => (others x hx).1
    have noMode : ∀ x ∈ rest, modeDue p x = false := fun x hx => (others x hx).2.1
    have noOutput : ∀ x ∈ rest, outputDue p x = false := fun x hx => (others x hx).2.2
    have answer_eq : configAnswer mode out = answer := configAnswer_eq mode out
    refine ⟨fun half bad => ?_, fun modeOk outputOk => ?_⟩
    · rw [exec_portConfig running, State.examine, examined_answered oldest (tested.trans (testPortConfig_undefined bad)),
        takeHalves_none half (by rw [answered_claims]; exact noMode) (by rw [answered_claims]; exact noOutput)]
    · have examined : s.examine p cPORT_CONFIG = s.setClaims (rest ++ [{ c with stage := .halves .due .due }]) :=
        examined_passed oldest (tested.trans (testPortConfig_passes modeOk outputOk))
      have modeTaken : (s.setClaims (rest ++ [{ c with stage := .halves .due .due }])).takeModeHalf p =
          (modeSet s).setClaims (rest ++ [{ c with stage := .halves (.taken mode) .due }]) :=
        takeModeHalf_first (s := s.setClaims _) (c := { c with stage := .halves .due .due }) rfl noMode (isHalves_staged unit _ _) rfl
      have outputTaken : (s.setClaims (rest ++ [{ c with stage := .halves .due .due }])).takeOutputHalf p =
          (outSet s).setClaims (rest ++ [{ c with stage := .halves .due (.taken out) }]) :=
        takeOutputHalf_first (s := s.setClaims _) (c := { c with stage := .halves .due .due }) rfl noOutput (isHalves_staged unit _ _) rfl
      have outputLast : ((modeSet s).setClaims (rest ++ [{ c with stage := .halves (.taken mode) .due }])).takeOutputHalf p =
          answered c rest answer (outSet (modeSet s)) := by
        rw [takeOutputHalf_done (s := (modeSet s).setClaims _) (c := { c with stage := .halves (.taken mode) .due })
          rfl noOutput (isHalves_staged unit _ _) rfl, List.append_nil, ← answer_eq]
        rfl
      have modeLast : ((outSet s).setClaims (rest ++ [{ c with stage := .halves .due (.taken out) }])).takeModeHalf p =
          answered c rest answer (outSet (modeSet s)) := by
        rw [takeModeHalf_done (s := (outSet s).setClaims _) (c := { c with stage := .halves .due (.taken out) })
          rfl noMode (isHalves_staged unit _ _) rfl, List.append_nil, ← answer_eq]
        rfl
      refine ⟨?_, _, _, ?_, rfl, ?_, ?_, rfl, ?_⟩
      · rw [exec_portConfig running, examined]
        show Host.Outcome.next (State.takeOutputHalf p (State.takeModeHalf p _)) = _
        rw [modeTaken, outputLast]
      · rw [exec_portConfig running, examined]
        exact congrArg Host.Outcome.next modeTaken
      · rw [exec_portConfig_examined (s := (modeSet s).setClaims _) running (none_atUnit_staged noUnit (fun same => by cases same))]
        exact congrArg Host.Outcome.next outputLast
      · rw [exec_portConfig running, examined]
        exact congrArg Host.Outcome.next outputTaken
      · rw [exec_portConfig_examined (s := (outSet s).setClaims _) running (none_atUnit_staged noUnit (fun same => by cases same))]
        exact congrArg Host.Outcome.next modeLast
  case waiting =>
    have taken (half : ConfigHalf) := exec_portConfig_examined (p := p) running none half
    intro mode out modeSet outSet answer now
    refine ⟨fun noMode => ⟨fun o stage => ?_, fun stage => ?_, fun stage => ?_⟩, fun noOutput => ⟨fun m stage => ?_, fun stage => ?_⟩⟩
    · refine (taken .translator).trans (congrArg Host.Outcome.next ((takeModeHalf_done claims noMode halves stage).trans ?_))
      rw [configAnswer_eq]
      rfl
    · exact (taken .translator).trans (congrArg Host.Outcome.next (takeModeHalf_dropped claims noMode halves stage))
    · exact (taken .translator).trans (congrArg Host.Outcome.next (takeModeHalf_first claims noMode halves stage))
    · refine (taken .attention).trans (congrArg Host.Outcome.next ((takeOutputHalf_done claims noOutput halves stage).trans ?_))
      rw [configAnswer_eq]
      rfl
    · exact (taken .attention).trans (congrArg Host.Outcome.next (takeOutputHalf_first claims noOutput halves stage))

/-! ## PORT_RESET -/

section
variable {c : Claim} {sup t : Port}

theorem verdict_portReset (h : c.code = cPORT_RESET) (sup : Port) : c.verdict sup = c.testPortReset sup := by
  rw [Claim.verdict, h]
  rfl

theorem port_of_byte {b : Byte} (named : b.toNat = t.val) : Fin.ofNat 4 b.toNat = t :=
  Fin.ext (by rw [Fin.val_ofNat, named, Nat.mod_eq_of_lt t.isLt])

theorem testPortReset_noPort (above : 3 < (c.arg 1).toNat) : c.testPortReset sup = .answered (.BAD_ARGUMENT, []) := if_pos above

theorem testPortReset_refused (named : (c.arg 1).toNat = t.val) (other : t ≠ c.issuer) (notSup : c.issuer ≠ sup) :
    c.testPortReset sup = .answered (.NOT_SUPERVISOR, []) := by
  rw [Claim.testPortReset, if_neg (by omega), port_of_byte named, if_pos ⟨other, notSup⟩]
  rfl

theorem testPortReset_passes (named : (c.arg 1).toNat = t.val) (may : t = c.issuer ∨ c.issuer = sup) :
    c.testPortReset sup = .passed (.begin t) := by
  rw [Claim.testPortReset, if_neg (by omega), port_of_byte named, if_neg fun both => may.elim both.1 both.2]

end

section
variable {t p : Port} {c : Claim} {rest : List Claim} {s : State}

theorem takeBegin_busy (oldest : Oldest (isBegin p t) c rest s) (busy : s.cmds[t].resetRun ≠ none) :
    s.takeBegin t p = answered c rest (.BUSY, []) s := by
  rw [State.takeBegin, takeFirst_of_oldest oldest]
  exact if_pos (Option.isSome_iff_ne_none.2 busy)

theorem takeBegin_begins (oldest : Oldest (isBegin p t) c rest s) (free : s.cmds[t].resetRun = none) :
    s.takeBegin t p = (s.setClaims rest).modCmd t (CommandUnit.beginReset p) := by
  rw [State.takeBegin, takeFirst_of_oldest oldest]
  refine if_neg ?_
  rw [free]
  decide

end

/-- Settles O43: PORT_RESET's tests; the target begins the reset unless one is in progress. -/
theorem portResetBegins : Obligations.PortResetBegins := by
  unfold Obligations.PortResetBegins
  intro p c rest s
  refine ⟨fun found => ?reset, fun t found => ⟨fun busy => ?busy, fun free => ?begins⟩⟩
  case reset =>
    have unit : atUnit p cPORT_RESET c = true := Oldest.test found.oldest
    obtain rfl := issuer_of_atUnit unit
    have tested := verdict_portReset (code_of_atUnit unit) s.device.supervisor
    refine ⟨fun above => ?_, fun t named => ⟨fun other notSup => ?_, fun may => ?_⟩⟩
    · exact congrArg Host.Outcome.next (found_answered found (tested.trans (testPortReset_noPort above)))
    · exact congrArg Host.Outcome.next (found_answered found (tested.trans (testPortReset_refused named other notSup)))
    · exact congrArg Host.Outcome.next (found_passed found (tested.trans (testPortReset_passes named may)))
  case busy => exact congrArg Host.Outcome.next ((whenRunning_of found.running).trans (takeBegin_busy found.oldest busy))
  case begins => exact congrArg Host.Outcome.next ((whenRunning_of found.running).trans (takeBegin_begins found.oldest free))

end Sys2Proof.Machine

/-! The parts of a port reset (chapter 10): at the hold controller, the notice unit, the copy engine and the attention unit
(O44), at the command unit and the port unit (O45). -/

namespace Sys2Proof.Machine

open Sys2Proof.Safety

/-! ## Claims that a reset discards -/

section
variable {p : Port} {s : State} {r : ResetRun} {st next : ResetStage}

/-- The claims but those of port `p` with these codes that wait for their owner. -/
def State.claimsWithout (p : Port) (codes : List Byte) (s : State) : List Claim :=
  s.claims.filter fun c => decide (¬ (c.issuer = p ∧ c.arg 0 ∈ codes ∧ c.stage = .owner))

theorem any_isOwned (p : Port) (codes : List Byte) (c : Claim) :
    (codes.any fun code => isOwned p code c) = decide (c.issuer = p ∧ c.arg 0 ∈ codes ∧ c.stage = .owner) := by
  rw [Bool.eq_iff_iff, List.any_eq_true, decide_eq_true_iff]
  constructor
  · rintro ⟨code, member, owned⟩
    rw [isOwned, Bool.and_eq_true, Bool.and_eq_true, beq_iff_eq, beq_iff_eq, beq_iff_eq] at owned
    obtain ⟨⟨issuer, rfl⟩, stage⟩ := owned
    exact ⟨issuer, member, stage⟩
  · rintro ⟨issuer, member, stage⟩
    refine ⟨c.arg 0, member, ?_⟩
    rw [isOwned, Bool.and_eq_true, Bool.and_eq_true, beq_iff_eq, beq_iff_eq, beq_iff_eq]
    exact ⟨⟨issuer, rfl⟩, stage⟩

theorem discardOwned_eq (p : Port) (codes : List Byte) (s : State) :
    s.discardOwned p codes = s.setClaims (s.claimsWithout p codes) := by
  refine congrArg (fun cs => s.setClaims cs) (List.filter_congr fun c _ => ?_)
  rw [any_isOwned, ← decide_not]

theorem raiseAll_cmds (es : List Event) (s : State) : (s.raiseAll es).cmds = s.cmds := by
  obtain ⟨v, hv⟩ := raiseAll_attn es s
  rw [hv]

/-- The command unit goes to the next step of the reset that it is in. -/
theorem modCmd_toStage {t : State} (run : t.cmds[p].resetRun = some r) (st : ResetStage) :
    t.modCmd p (CommandUnit.toStage st) = t.modCmd p fun u => { u with resetRun := some { r with stage := st } } := by
  refine modCmd_congr ?_
  rw [CommandUnit.toStage, run]
  rfl

theorem atStage_of (run : s.cmds[p].resetRun = some r) (stage : r.stage = st) : s.cmds[p].atStage st = true :=
  (atStage_iff st _).2 ⟨r, run, stage⟩

/-- A part of a reset, once every claim at the command unit has been examined. -/
theorem resetPart_of {act : State → State} (running : s.running = true) (run : s.cmds[p].resetRun = some r) (stage : r.stage = st)
    (examined : ∀ c ∈ s.claims, anyAtUnit p c = false) :
    s.whenRunning (State.resetPart p st next act) = (act s).modCmd p (CommandUnit.toStage next) := by
  rw [whenRunning_of running, State.resetPart, if_pos (atStage_of run stage), examineAll_of_examined examined]

/-! ## The hold controller's part -/

theorem holdResetAct_of (run : s.cmds[p].resetRun = some r) (stage : r.stage = .hold) : s.holdResetAct p =
    (((s.setClaims (s.claimsWithout p holdCodes)).setHolds (s.holds.without p).scan.1).raiseAll (s.holds.without p).scan.2).modCmd p
      fun u => { u with resetRun := some { r with stage := .notice } } := by
  rw [State.holdResetAct, if_pos (atStage_of run stage), discardOwned_eq]
  refine modCmd_toStage ?_ _
  rw [raiseAll_cmds]
  exact run

theorem exec_holdResetPart (running : s.running = true) (free : s.arbiter.inService = none) :
    exec (.holdResetPart p) s = .next (s.holdResetAct p).arbitrate :=
  congrArg Host.Outcome.next ((whenRunning_of running).trans (betweenRequests_free free))

/-! ## The notice unit's part -/

theorem has_resetPart (p : Port) (n : NoticeUnit) (pg : Page) (q : Port) :
    PortSet.has (n.resetPart p).watch[pg] q = (PortSet.has n.watch[pg] q && q != p) := by
  have watch : (n.resetPart p).watch[pg] = PortSet.remove n.watch[pg] p := by
    simp only [NoticeUnit.resetPart, Fin.getElem_fin, Vector.getElem_ofFn]
  rw [watch, PortSet.has_remove, bne_comm]

/-! ## The copy engine's part -/

theorem silenced (p : Port) (a : CopyReq) : (if a.requester = p then { a with silent := true } else a) =
    { a with silent := a.silent || a.requester == p } := by
  by_cases own : a.requester = p
  · rw [if_pos own, beq_iff_eq.2 own, Bool.or_true]
  · rw [if_neg own, beq_eq_false_iff_ne.2 own, Bool.or_false]

/-! ## The attention unit's part -/

theorem resetPart_source (u : AttnUnit) (i : SourceNo) :
    u.resetPart.sources[i] = { u.sources[i] with state := .IDLE, detail := .zero, lost := 0 } := by
  simp only [AttnUnit.resetPart, Source.idle, Fin.getElem_fin, Vector.getElem_ofFn]

section
variable {c : Claim}

theorem dropOutputHalf_other (other : isHalves p c = false) : c.dropOutputHalf p = some c := by
  rw [Claim.dropOutputHalf, other]
  rfl

theorem dropOutputHalf_due (halves : isHalves p c = true) (stage : c.stage = .halves .due .due) :
    c.dropOutputHalf p = some { c with stage := .halves .due .discarded } := by
  rw [Claim.dropOutputHalf, if_pos halves, stage]

theorem dropOutputHalf_last (halves : isHalves p c = true) {m : IncMode} (stage : c.stage = .halves (.taken m) .due) :
    c.dropOutputHalf p = none := by
  rw [Claim.dropOutputHalf, if_pos halves, stage]

theorem dropOutputHalf_over (halves : isHalves p c = true) {m : HalfClaim IncMode} {o : HalfClaim Bool}
    (stage : c.stage = .halves m o) (over_ : o ≠ .due) : c.dropOutputHalf p = some c := by
  rw [Claim.dropOutputHalf, if_pos halves, stage]
  cases o with
  | due => exact absurd rfl over_
  | taken o => cases m <;> rfl
  | discarded => cases m <;> rfl

end

theorem attentionResetAct_eq (p : Port) (s : State) : s.attentionResetAct p =
    (s.setClaims ((s.claimsWithout p [cATTN_CONFIG]).filterMap (Claim.dropOutputHalf p))).modAttn p
      fun _ => s.attn[p].resetPart := by
  rw [State.attentionResetAct, discardOwned_eq]
  exact modAttn_const p AttnUnit.resetPart
    (s.setClaims ((s.claimsWithout p [cATTN_CONFIG]).filterMap (Claim.dropOutputHalf p)))

end

/-- Settles O44: each part acts on its block and its claims, and the reset goes to the next. -/
theorem resetPartsOfHoldNoticeCopyAttention : Obligations.ResetPartsOfHoldNoticeCopyAttention := by
  unfold Obligations.ResetPartsOfHoldNoticeCopyAttention
  refine ⟨fun p s r running run => ⟨fun stage free => ?hold, fun examined => ⟨fun stage => ?notice, fun stage => ?copy⟩⟩,
    fun p s r running run stage examined => ?attention⟩
  case hold =>
    refine ⟨s.holds.without p, slot_without p s.holds, rfl, ?_⟩
    rw [exec_holdResetPart running free, holdResetAct_of run stage]
    rfl
  case notice =>
    refine ⟨s.notice.resetPart p, has_resetPart p s.notice, rfl, ?_⟩
    refine congrArg Host.Outcome.next ((resetPart_of running run stage examined).trans ?_)
    rw [State.noticeResetAct, discardOwned_eq]
    exact modCmd_toStage (t := (s.setClaims (s.claimsWithout p [cWATCH])).setNotice (s.notice.resetPart p))
      (by rw [setNotice_cmds, setClaims_cmds, run]) _
  case copy =>
    refine ⟨s.copy.resetPart p, rfl, rfl, fun empty => by rw [CopyEngine.resetPart, empty], fun a q queue => ?_, ?_⟩
    · rw [CopyEngine.resetPart, queue]
      dsimp only
      rw [silenced]
    · refine congrArg Host.Outcome.next ((resetPart_of running run stage examined).trans ?_)
      rw [State.copyResetAct, discardOwned_eq]
      exact modCmd_toStage (t := (s.setClaims (s.claimsWithout p [cCOPY, cCOPY_CANCEL])).setCopy (s.copy.resetPart p)) run _
  case attention =>
    refine ⟨s.attn[p].resetPart, Claim.dropOutputHalf p, resetPart_source _, rfl, rfl, fun c => dropOutputHalf_other,
      fun c halves => ⟨dropOutputHalf_due halves, fun m => dropOutputHalf_last halves,
        fun m stage => dropOutputHalf_over halves stage (by decide),
        fun m o stage => dropOutputHalf_over halves stage (fun same => by cases same)⟩, ?_⟩
    refine congrArg Host.Outcome.next ((resetPart_of running run stage examined).trans ?_)
    rw [attentionResetAct_eq]
    refine (modCmd_toStage (t := (s.setClaims ((s.claimsWithout p [cATTN_CONFIG]).filterMap (Claim.dropOutputHalf p))).modAttn p
      fun _ => s.attn[p].resetPart) run _).trans ?_
    simp only [State.claimsWithout, List.mem_singleton]

/-! ## The command unit's part -/

section
variable {p : Port} {s : State} {r : ResetRun} {c : Claim} {rest : List Claim}

/-- The claims once the port's claims are orphans. -/
def orphaned (p : Port) (cs : List Claim) : List Claim := cs.map fun c => if c.issuer = p then { c with orphan := true } else c

/-- The result line of a reset, `n` answers on. -/
def resetResult (p : Port) (r : ResetRun) (n : Byte) (u : CommandUnit) : ResultLine :=
  ⟨cPORT_RESET, .OK, u.result.sequence + n, detailOf (resetDetail p r)⟩

/-- The command unit's part of the reset, with `n` answers recorded by it. -/
def State.commandPart (p : Port) (r : ResetRun) (n : Byte) (cs : List Claim) (s : State) : State :=
  (s.setClaims (orphaned p cs)).modCmd p fun u => { u with
    line := Line.zero, inFlight := false, resetRun := some { r with stage := .portUnit }, result := resetResult p r n u }

/-- An eviction is told to the port. -/
def State.evicted (p : Port) (r : ResetRun) (t : State) : State :=
  if r.issuer = p then t else t.raise ⟨p, 3, .holdEnded none .EVICTED⟩

theorem evicted_modCmd (p : Port) (r : ResetRun) (f : CommandUnit → CommandUnit) (t : State) :
    (t.evicted p r).modCmd p f = (t.modCmd p f).evicted p r := by
  unfold State.evicted
  split <;> rfl

theorem answerOwnBegin_none (none : ∀ c ∈ s.claims, isBegin p p c = false) : s.answerOwnBegin p = s := by
  have first : takeFirst (isOwnBegin p) s.claims = .none := takeFirst_none none
  rw [State.answerOwnBegin, first]

theorem answerOwnBegin_of (oldest : Oldest (isBegin p p) c rest s) (kept : c.orphan = false) :
    s.answerOwnBegin p = (s.setClaims rest).recordAnswer p c.code (.BUSY, []) := by
  have first : takeFirst (isOwnBegin p) s.claims = some (c, rest) := takeFirst_of_oldest oldest
  rw [State.answerOwnBegin, first]
  refine (answer_kept kept _ _).trans ?_
  rw [issuer_of_begin (Oldest.test oldest)]
  rfl

theorem commandResetAct_run (run : (s.answerOwnBegin p).cmds[p].resetRun = some r) : s.commandResetAct p =
    (((s.answerOwnBegin p).orphanClaims p).modCmd p (CommandUnit.resetPart p r)).evicted p r := by
  rw [State.commandResetAct, run]
  rfl

/-- The part, from what the port's own PORT_RESET leaves. -/
theorem commandResetAct_part {t : State} (answered : s.answerOwnBegin p = t) (run : t.cmds[p].resetRun = some r) :
    (s.commandResetAct p).modCmd p (CommandUnit.toStage .portUnit) = (t.commandPart p r 1 t.claims).evicted p r := by
  rw [commandResetAct_run (by rw [answered]; exact run), answered, evicted_modCmd, modCmd_modCmd]
  refine congrArg (State.evicted p r) (modCmd_congr ?_)
  have run_ : (t.orphanClaims p).cmds[p].resetRun = some r := run
  simp only [CommandUnit.toStage, CommandUnit.resetPart, run_]
  rfl

/-- An answer recorded first counts one more. -/
theorem commandPart_answered (p : Port) (r : ResetRun) (code : Byte) (a : Answer) (cs rest : List Claim) (s : State) :
    ((s.setClaims rest).recordAnswer p code a).commandPart p r 1 cs = s.commandPart p r 2 cs := by
  have twice (x : Byte) : x + 1 + 1 = x + 2 := by rw [BitVec.add_assoc]; rfl
  show (((s.setClaims (orphaned p cs)).modCmd p (CommandUnit.record code a)).modCmd p _) = _
  rw [modCmd_modCmd]
  refine modCmd_congr ?_
  simp only [resetResult, CommandUnit.record, twice]

end

/-! ## The port unit's part -/

section
variable {u : PortUnit}

theorem cut_quiet (quiet : u.phase = .IDLE ∨ u.phase = .CUT) : u.cut = u := by
  rw [PortUnit.cut]
  rcases quiet with h | h <;> rw [h]

/-- A transaction in progress is cut; its own fetch will be discarded. -/
theorem cut_active (notIdle : u.phase ≠ .IDLE) (notCut : u.phase ≠ .CUT) : u.cut = { u with
    phase := .CUT, voidReason := some .CUT_BY_RESET
    counted := if u.phase = .VOIDED then u.counted else u.staging.length
    staging := [], held := none, asking := false
    outstanding := u.cut.outstanding } := by
  unfold PortUnit.cut
  split
  · next idle => exact absurd idle notIdle
  · next cut => exact absurd cut notCut
  · next h => simp only [h]
  · next h => simp only [h]
  · next h => simp only [h]

theorem cut_outstanding (notIdle : u.phase ≠ .IDLE) (notCut : u.phase ≠ .CUT) : u.cut.outstanding =
    match u.outstanding with
      | some (.fetch f) => some (.fetch { f with discard := true })
      | o => o := by
  unfold PortUnit.cut
  split
  · next idle => exact absurd idle notIdle
  · next cut => exact absurd cut notCut
  all_goals rfl

end

section
variable {p : Port} {s : State} {r : ResetRun}

theorem exec_portUnitResetPart (settled : Settled p s) (run : s.cmds[p].resetRun = some r) (stage : r.stage = .portUnit) :
    exec (.portUnitResetPart p) s = .next (s.portUnitResetAct p r).arbitrate := by
  refine congrArg Host.Outcome.next ((whenRunning_of settled.running).trans ?_)
  rw [State.lastResetPart, run]
  dsimp only
  rw [if_pos stage, settle_of_settled settled]

theorem portUnitResetAct_record {t : TxStatus} (cut : s.ports[p].handOver.bind HandOver.cutRecord = some t) :
    s.portUnitResetAct p r =
      ((s.modPort p fun _ => s.ports[p].resetPart).completeReset p r).writeRecord p t := by
  rw [State.portUnitResetAct, cut, modPort_const]

theorem portUnitResetAct_none (none : s.ports[p].handOver.bind HandOver.cutRecord = .none) :
    s.portUnitResetAct p r = (s.modPort p fun _ => s.ports[p].resetPart).completeReset p r := by
  rw [State.portUnitResetAct, none, modPort_const]

end

/-- Settles O45: the command unit's part from what the port's own PORT_RESET leaves; the port unit's from its phase and its
pending hand-over. -/
theorem resetPartsOfCommandAndPortUnit : Obligations.ResetPartsOfCommandAndPortUnit := by
  unfold Obligations.ResetPartsOfCommandAndPortUnit
  refine ⟨fun p s r running run stage examined => ⟨fun none => ?noBegin, fun c rest oldest kept => ?begin_⟩,
    fun p s r settled run stage => ⟨s.ports[p].resetPart, s.portUnitResetAct p r, exec_portUnitResetPart settled run stage,
      fun quiet => ?quiet, fun notIdle notCut => ⟨?cut, ?commit, ?fetch, ?noRequest⟩, ?records⟩⟩
  case noBegin =>
    refine congrArg Host.Outcome.next ((resetPart_of running run stage examined).trans ?_)
    exact commandResetAct_part (answerOwnBegin_none none) run
  case begin_ =>
    refine congrArg Host.Outcome.next ((resetPart_of running run stage examined).trans ?_)
    have run_ : ((s.setClaims rest).recordAnswer p c.code (.BUSY, [])).cmds[p].resetRun = some r := by
      show (upd s.cmds p (CommandUnit.record c.code (.BUSY, [])))[p].resetRun = some r
      rw [upd_self]
      exact run
    refine (commandResetAct_part (answerOwnBegin_of oldest kept) run_).trans ?_
    rw [commandPart_answered]
    rfl
  case quiet => rw [PortUnit.resetPart, cut_quiet quiet]
  case cut =>
    rw [PortUnit.resetPart, cut_active notIdle notCut]
  case commit =>
    intro es commit
    refine (cut_outstanding notIdle notCut).trans ?_
    rw [commit]
  case fetch =>
    intro f fetch
    refine (cut_outstanding notIdle notCut).trans ?_
    rw [fetch]
  case noRequest =>
    intro none
    refine (cut_outstanding notIdle notCut).trans ?_
    rw [none]
  case records =>
    refine ⟨fun es h => portUnitResetAct_record (by rw [h]; rfl), fun es h => portUnitResetAct_record (by rw [h]; rfl),
      fun n h => (portUnitResetAct_record (by rw [h]; rfl)).trans ?_, fun h => portUnitResetAct_none ?_⟩
    · rw [voidRecord, byteN_toNat]
      rfl
    · rcases h with h | ⟨x, h⟩ <;> rw [h] <;> rfl

end Sys2Proof.Machine

/-! Obtaining the line at the pointer and making the pending hand-over (chapters 3 and 4): O52. -/

namespace Sys2Proof.Machine

open Sys2Proof.Safety

/-! ## Obtaining the line at the pointer -/

section
variable {p : Port} {acts : Bool} {s : State}

theorem obtain_idle (idle : s.ports[p].obtaining = false) : s.obtain acts p = s := by
  rw [State.obtain]
  exact if_neg (by rw [idle]; decide)

theorem obtain_control (obtaining : s.ports[p].obtaining = true) {ln b : Fin 16}
    (place : s.translators[p].translate s.ports[p].pointer = .control ln b) (not2 : ln ≠ 2) (not4 : ln ≠ 4) :
    s.obtain acts p = s.modPort p fun u => { u with
      held := some ⟨0, ln, controlLine s p ln, false⟩, asking := false, gathering := ln == 5 } := by
  rw [State.obtain, if_pos obtaining, place]
  exact (if_neg not2).trans (if_neg not4)

theorem obtainAttention_eq (p : Port) (s : State) : s.obtainAttention p =
    (s.modAttn p fun _ => s.attn[p].take.1).modPort p fun u =>
      { u with held := some ⟨0, 2, s.attn[p].take.2, false⟩, asking := false } := by
  rw [State.obtainAttention, modAttn_const]
  rfl

theorem obtain_disabled (obtaining : s.ports[p].obtaining = true)
    (place : s.translators[p].translate s.ports[p].pointer = .disabled) : s.obtain acts p = s.modPort p fun u => { u with
      held := some ⟨windowOf s.ports[p].pointer, lineOf s.ports[p].pointer, Vector.replicate 16 0xFF, false⟩
      asking := false, kind := .STORE_READ
      firstFault := if u.firstFault = none then some ⟨.DISABLED_WINDOW, 0xFF, 0x0FFF⟩ else u.firstFault } := by
  rw [State.obtain, if_pos obtaining, place]
  refine modPort_congr ?_
  rw [PortUnit.holdFill, PortUnit.noteFault, PortUnit.holdLine]
  cases s.ports[p].firstFault <;> rfl

theorem obtain_store (obtaining : s.ports[p].obtaining = true) {pg : Page} {off : Byte} {ac : Access}
    (place : s.translators[p].translate s.ports[p].pointer = .store pg off ac) (free : s.ports[p].outstanding = none) :
    s.obtain acts p = s.modPort p fun u => { u with
      outstanding := some (.fetch ⟨windowOf s.ports[p].pointer, lineOf s.ports[p].pointer, pg, lineOf s.ports[p].pointer, false⟩)
      asking := false, kind := .STORE_READ } := by
  rw [State.obtain, if_pos obtaining, place]
  refine (if_neg ?_).trans (modPort_congr rfl)
  rw [free]
  decide

theorem obtain_waits (obtaining : s.ports[p].obtaining = true) {pg : Page} {off : Byte} {ac : Access}
    (place : s.translators[p].translate s.ports[p].pointer = .store pg off ac) (busy : s.ports[p].outstanding ≠ none) :
    s.obtain acts p = s := by
  rw [State.obtain, if_pos obtaining, place]
  exact if_pos (Option.isSome_iff_ne_none.2 busy)

/-! ## The pending hand-over -/

/-- The state without the pending hand-over. -/
def State.dropped (p : Port) (s : State) : State := s.modPort p fun u => { u with handOver := none }

theorem notBlocked (ended : s.ports[p].endedRead = none) (free : s.ports[p].outstanding = none) :
    ¬ (s.ports[p].blocked || s.ports[p].outstanding.isSome) = true := by
  have open_ : s.ports[p].blocked = false := unitBlocked_false ended fun x commit => by
    rw [free] at commit
    cases commit
  rw [open_, free]
  decide

theorem makeHandOver_none (pending : s.ports[p].handOver = none) : s.makeHandOver p = s := by
  rw [State.makeHandOver, pending]
  exact ite_self s

theorem makeHandOver_command {es : List Entry} (pending : s.ports[p].handOver = some (.command es)) : s.makeHandOver p = s := by
  rw [State.makeHandOver, pending]
  exact ite_self s

theorem makeHandOver_record (ended : s.ports[p].endedRead = none) (free : s.ports[p].outstanding = none) {r : TxStatus}
    (pending : s.ports[p].handOver = some (.record r)) : s.makeHandOver p = ((s.dropped p).writeRecord p r).flushKept p := by
  rw [State.makeHandOver, if_neg (notBlocked ended free), pending]
  rfl

theorem makeHandOver_done (ended : s.ports[p].endedRead = none) (free : s.ports[p].outstanding = none) {n : Byte}
    (pending : s.ports[p].handOver = some (.done n)) : s.makeHandOver p = ((s.dropped p).giveDone p n).flushKept p := by
  rw [State.makeHandOver, if_neg (notBlocked ended free), pending]
  rfl

theorem makeHandOver_commit (ended : s.ports[p].endedRead = none) (free : s.ports[p].outstanding = none) {es : List Entry}
    (pending : s.ports[p].handOver = some (.commit es)) : s.makeHandOver p = (s.dropped p).issueHeld p es := by
  rw [State.makeHandOver, if_neg (notBlocked ended free), pending]
  rfl

theorem giveDone_eq (p : Port) (n : Byte) (t : State) : t.giveDone p n =
    (t.writeRecord p (controlRecord n)).modAttn p fun u => { u with doneDue := u.doneDue + 1 } := rfl

theorem giveDone_ports (p : Port) (n : Byte) (t : State) : (t.giveDone p n).ports = t.ports := by
  rw [giveDone_eq, modAttn_ports, writeRecord_ports]

theorem raiseAll_ports (es : List Event) (s : State) : (s.raiseAll es).ports = s.ports := by
  obtain ⟨v, hv⟩ := raiseAll_attn es s
  rw [hv]

/-- The commit that was held is issued; the events of the replaced records come first, and the kept record waits for it. -/
theorem issueHeld_eq (p : Port) (es : List Entry) (s : State) : s.issueHeld p es =
    ((s.raiseAll (List.replicate s.ports[p].replaced ⟨p, 5, .fault .BAD_ADDRESS⟩)).modPort p fun v => { v with
      handOver := s.ports[p].keptVoid.map .record, keptVoid := none, replaced := 0
      outstanding := some (.commit es) }).writeRecord p (pendingRecord es) := by
  rw [State.issueHeld, State.issueCommit, raiseReplaced_eq, modPort_modPort]
  refine congrArg (State.writeRecord p (pendingRecord es)) (modPort_congr ?_)
  rw [raiseAll_ports]

end

/-- Settles O52: the line at the pointer by the place there, and the pending hand-over by what it is. -/
theorem lineIsObtainedAndHandOverMade : Obligations.LineIsObtainedAndHandOverMade := by
  unfold Obligations.LineIsObtainedAndHandOverMade
  refine ⟨fun p acts s asks data free => ?obtain, fun p s ended noRequest => ?made⟩
  case obtain =>
    have obtaining := obtaining_of asks data free
    refine ⟨fun b place => obtain_control obtaining place, fun place => ?_, fun place => ?_,
      fun place => obtain_disabled obtaining place, fun pg off ac place => ⟨obtain_store obtaining place, obtain_waits obtaining place⟩⟩
    · rw [State.obtain, if_pos obtaining, place, ← obtainAttention_eq]
      rfl
    · rw [State.obtain, if_pos obtaining, place]
      rfl
  case made =>
    refine ⟨fun stays => ?_, fun r pending => ?_, fun n pending => ?_, fun es pending => ?_⟩
    · rcases stays with none | ⟨es, command⟩
      · exact makeHandOver_none none
      · exact makeHandOver_command command
    · exact (makeHandOver_record ended noRequest pending).trans (flushKept_of_dropped (writeRecord_ports p r _))
    · exact (makeHandOver_done ended noRequest pending).trans (flushKept_of_dropped (giveDone_ports p n _))
    · refine (makeHandOver_commit ended noRequest pending).trans ((issueHeld_eq p es _).trans ?_)
      rw [State.dropped, modPort_ports, upd_self]
      rfl

end Sys2Proof.Machine

/-! What a port does at once, before each of its bus events (chapter 3): O47. -/

namespace Sys2Proof.Machine

open Sys2Proof.Safety

/-! ## A bus event comes after what is due -/

section
variable {p : Port} {s : State}

theorem settle_running (p : Port) (s : State) : (s.settle p).running = s.running := by
  rw [State.running, device_of_settle]
  rfl

theorem busEvent_settle (running : s.running = true) (f : State → State) : s.busEvent p f = (s.settle p).busEvent p f := by
  unfold State.busEvent
  rw [whenRunning_of running, whenRunning_of ((settle_running p s).trans running), settle_settle]

/-- The commands that are bus events of port `p`. -/
def BusEventOf (p : Port) (s : State) (i : Instr) : Prop :=
  match i with
  | .addressHighByte q _ | .addressLowByte q _ | .transactionEnd q => q = p
  | .twoWireWriteByte q _ | .twoWireReadByte q _ | .twoWireStart q _ _ => q.port = p
  | .spiWrite | .spiRead | .spiStatus | .spiUnknownOpcode _ | .spiWriteSlot _ | .spiReadSlot => spi = p
  | .spiCsFall => spi = p ∧ s.device.csLow = false
  | _ => False

theorem exec_transactionEnd_settle (running : s.running = true) :
    exec (.transactionEnd p) s = exec (.transactionEnd p) (s.settle p) := by
  obtain ⟨supervisor, straps, resetLow, clearing⟩ := afterEnd_straps p s.device
  have runs : (s.setDevice (s.device.afterEnd p)).running = true := by
    rw [State.running, setDevice_device, resetLow, clearing]
    exact running
  show Host.Outcome.next ((s.setDevice (s.device.afterEnd p)).busEvent p (State.stop p)) =
    .next (((s.settle p).setDevice ((s.settle p).device.afterEnd p)).busEvent p (State.stop p))
  rw [device_of_settle, busEvent_setDevice_settle _ _ supervisor straps runs]

theorem exec_spiCsFall_settle (running : s.running = true) (high : s.device.csLow = false) :
    exec .spiCsFall s = exec .spiCsFall (s.settle spi) := by
  show Host.Outcome.next (if s.device.csLow then s
      else (s.setDevice { s.device with csLow := true }).busEvent spi State.csFall) =
    .next (if (s.settle spi).device.csLow then s.settle spi
      else ((s.settle spi).setDevice { (s.settle spi).device with csLow := true }).busEvent spi State.csFall)
  rw [device_of_settle, high, if_neg (by decide), if_neg (by decide),
    busEvent_setDevice_settle { s.device with csLow := true } State.csFall rfl rfl running]

theorem exec_twoWireStart_running (running : s.running = true) (q : TwoWirePort) (target : BitVec 7) (d : Direction) :
    exec (.twoWireStart q target d) s = .next (s.busEvent q.port (State.start q.port target d)) :=
  congrArg Host.Outcome.next (if_pos running)

theorem exec_settle {i : Instr} (running : s.running = true) (event : BusEventOf p s i) : exec i s = exec i (s.settle p) := by
  cases i with
  | addressHighByte q b | addressLowByte q b =>
    cases event
    exact congrArg Host.Outcome.next (busEvent_settle running _)
  | transactionEnd q =>
    cases event
    exact exec_transactionEnd_settle running
  | twoWireWriteByte q b | twoWireReadByte q b =>
    cases event
    exact congrArg Host.Outcome.next (busEvent_settle running _)
  | twoWireStart q target d =>
    cases event
    rw [exec_twoWireStart_running running, exec_twoWireStart_running ((settle_running q.port s).trans running)]
    exact congrArg Host.Outcome.next (busEvent_settle running _)
  | spiWrite | spiRead | spiStatus | spiUnknownOpcode op | spiWriteSlot b | spiReadSlot =>
    cases event
    exact congrArg Host.Outcome.next (busEvent_settle running _)
  | spiCsFall =>
    obtain ⟨same, high⟩ := event
    cases same
    exact exec_spiCsFall_settle running high
  | _ => exact event.elim

end

/-! ## Examining the oldest claim at the unit -/

section
variable {f g : Claim → Bool} {p : Port} {c : Claim} {rest : List Claim} {s : State}

/-- The oldest claim of a kind is the oldest of any kind within it that it belongs to. -/
theorem Oldest.of_imp (oldest : Oldest f c rest s) (belongs : g c = true) (within : ∀ x, f x = false → g x = false) :
    Oldest g c rest s := by
  obtain ⟨before, after, claims, rest_, none, -⟩ := oldest
  exact ⟨before, after, claims, rest_, fun x hx => within x (none x hx), belongs⟩

theorem examineFirst_eq (oldest : Oldest f c rest s) (oldest' : Oldest g c rest s) : s.examineFirst g = s.examineFirst f := by
  rw [examineFirst_of_oldest oldest, examineFirst_of_oldest oldest']

theorem atUnit_of_any {code : Byte} (any : anyAtUnit p c = true) (named : c.arg 0 = code) : atUnit p code c = true := by
  rw [anyAtUnit, Bool.and_eq_true] at any
  rw [atUnit, Bool.and_eq_true, Bool.and_eq_true]
  exact ⟨⟨any.1, beq_iff_eq.2 named⟩, any.2⟩

theorem not_atUnit {code : Byte} {x : Claim} (none : anyAtUnit p x = false) : atUnit p code x = false := by
  rw [anyAtUnit, Bool.and_eq_false_iff] at none
  rw [atUnit, Bool.and_eq_false_iff, Bool.and_eq_false_iff]
  exact none.imp .inl id

theorem not_badAtUnit {x : Claim} (none : anyAtUnit p x = false) : badAtUnit p x = false := by
  rw [badAtUnit, none]
  rfl

/-- Whichever command examines it, the oldest claim at the unit is examined alike. -/
theorem examine_oldest {code : Byte} (oldest : Oldest (anyAtUnit p) c rest s) (named : c.arg 0 = code) :
    s.examine p code = s.examineFirst (anyAtUnit p) :=
  examineFirst_eq oldest (Oldest.of_imp oldest (atUnit_of_any (Oldest.test oldest) named) fun _ => not_atUnit)

theorem examine_bad (oldest : Oldest (anyAtUnit p) c rest s) (bad : (c.arg 0).toNat = 0 ∨ 16 < (c.arg 0).toNat) :
    s.examineFirst (badAtUnit p) = s.examineFirst (anyAtUnit p) := by
  refine examineFirst_eq oldest (Oldest.of_imp oldest ?_ fun _ => not_badAtUnit)
  have noCommand : isCommandCode c.code = false := (isCommandCode_false _).2 bad
  rw [badAtUnit, Oldest.test oldest, noCommand]
  rfl

/-- With no other claim at the unit, none is there after the examination. -/
theorem examined_last (oldest : Oldest (anyAtUnit p) c rest s) (others : ∀ x ∈ rest, anyAtUnit p x = false) :
    ∀ x ∈ (s.examineFirst (anyAtUnit p)).claims, anyAtUnit p x = false := by
  cases tested : c.verdict s.device.supervisor with
  | answered a =>
    rw [examined_answered oldest tested, answered_claims]
    exact others
  | passed st =>
    rw [examined_passed oldest tested]
    intro x member
    rcases List.mem_append.1 member with old | new
    · exact others x old
    · rw [List.mem_singleton.1 new]
      simp [anyAtUnit, verdict_passed tested]

/-! ## What is due, command by command -/

theorem examineAll_iterate (p : Port) (s : State) :
    s.examineAll p = (State.examineFirst (anyAtUnit p))^[s.claims.countP (anyAtUnit p)] s := by
  have each (n : Nat) (t : State) : State.examineOldest p n t = (State.examineFirst (anyAtUnit p))^[n] t := by
    induction n generalizing t with
    | zero => rfl
    | succ n ih => exact ih _
  exact each _ s

/-- One DONE is taken, if one is due. -/
def State.takeOneDone (p : Port) (s : State) : State := s.whenRunning (State.modAttn p AttnUnit.takeOneDone)

theorem takeOneDone_due {n : Nat} (running : s.running = true) (due : s.attn[p].doneDue = n + 1) :
    s.takeOneDone p = s.modAttn p AttnUnit.takeDone := by
  refine (whenRunning_of running).trans (modAttn_congr ?_)
  rw [AttnUnit.takeOneDone, if_neg (by omega)]

theorem takeDones_iterate {n : Nat} (running : s.running = true) (due : s.attn[p].doneDue = n) :
    (State.takeOneDone p)^[n] s = s.modAttn p (AttnUnit.takeDones n) := by
  induction n generalizing s with
  | zero => exact (modAttn_self rfl).symm
  | succ n ih =>
    have left : (s.modAttn p AttnUnit.takeDone).attn[p].doneDue = n := by
      rw [modAttn_attn, upd_self]
      show s.attn[p].doneDue - 1 = n
      omega
    rw [Function.iterate_succ_apply, takeOneDone_due running due, ih (s := s.modAttn p AttnUnit.takeDone) running left,
      modAttn_modAttn]
    rfl

theorem takeAllDones_iterate (running : s.running = true) :
    s.takeAllDones p = (State.takeOneDone p)^[s.attn[p].doneDue] s := by
  rw [takeDones_iterate running rfl]
  exact modAttn_congr rfl

theorem examineAll_running (p : Port) (s : State) : (s.examineAll p).running = s.running := by
  have each (n : Nat) (t : State) : (State.examineOldest p n t).running = t.running := by
    induction n generalizing t with
    | zero => rfl
    | succ n ih => exact (ih _).trans (examineFirst_running _ t)
  exact each _ s

theorem takeReadyControl_running (p : Port) (s : State) : (s.takeReadyControl p).running = s.running := by
  have same : (s.takeReadyControl p).device = s.device :=
    device_of_setDevice (f := State.takeReadyControl p) (takeReadyControl_setDevice p s s.device)
  rw [State.running, same]
  rfl

theorem not_obtaining {u : PortUnit} (h : u.asking = false ∨ u.phase ≠ .DATA ∨ u.handOver ≠ none) : u.obtaining = false := by
  rw [PortUnit.obtaining, Bool.and_eq_false_iff, Bool.and_eq_false_iff, beq_eq_false_iff_ne, Option.isNone_eq_false_iff,
    Option.isSome_iff_ne_none]
  tauto

/-! ## Nothing is left -/

/-- A line is needed in phase DATA alone. -/
def PortUnit.AsksInData (u : PortUnit) : Prop := u.asking = true → u.phase = .DATA

/-- What is kept is written with the port unit's phase and its need of a line as they were. -/
theorem flushed_asksInData {kept : Option TxStatus} {n : Nat} {t : State} (h : t.ports[p].AsksInData) :
    (t.flushed p kept n).ports[p].AsksInData := by
  cases kept with
  | none => exact h
  | some r =>
    show (State.writeRecord p r _).ports[p].AsksInData
    rw [writeRecord_ports, modPort_ports, upd_self, raiseAll_ports]
    exact h

theorem takeReadyControl_asksInData (h : s.ports[p].AsksInData) : (s.takeReadyControl p).ports[p].AsksInData := by
  cases ready : s.ports[p].readyCommand with
  | none =>
    rw [takeReadyControl_waits ready]
    exact h
  | some es =>
    rw [takeReadyControl_ready ready]
    refine flushed_asksInData ?_
    rw [takeControl_ports, modPort_ports, upd_self]
    exact h

theorem obtain_asksInData (h : s.ports[p].AsksInData) : (s.obtain true p).ports[p].AsksInData := by
  obtain ⟨-, -, ⟨same, -⟩ | ⟨asked, -⟩⟩ := obtain_spec p s
  · rw [same]
    exact h
  · exact fun asks => absurd (asked.symm.trans asks) (by decide)

theorem gather_asksInData (h : s.ports[p].AsksInData) : (s.gather p).ports[p].AsksInData := by
  obtain ⟨held, n, gathered⟩ := gather_spec p s
  rw [gathered, setFree_ports, modPort_ports, upd_self]
  exact h

theorem settle_asksInData (h : s.ports[p].AsksInData) : (s.settle p).ports[p].AsksInData := by
  refine gather_asksInData (obtain_asksInData ?_)
  obtain ⟨-, ports, -⟩ := examineAll_spec p (s.takeReadyControl p)
  show ((s.takeReadyControl p).examineAll p).ports[p].AsksInData
  rw [ports]
  exact takeReadyControl_asksInData h

theorem waits_of_notReady (none : s.ports[p].readyCommand = none) {es : List Entry}
    (command : s.ports[p].handOver = some (.command es)) : s.ports[p].blocked = true := by
  by_contra open_
  rw [readyCommand_some command (Bool.eq_false_iff.2 open_)] at none
  cases none

theorem settled_settle (running : s.running = true) (h : s.ports[p].AsksInData) : Settled p (s.settle p) := by
  have data := settle_asksInData h
  obtain ⟨gathered, examined, noDone, noControl, obtained⟩ := settle_spec p s
  refine ⟨(settle_running p s).trans running, fun es command => (unitBlocked_iff _).1 (waits_of_notReady noControl command),
    examined, noDone, fun asks => ?_, gathered⟩
  by_cases free : (s.settle p).ports[p].handOver = none
  · obtain ⟨outstanding, place⟩ := obtained (obtaining_of asks (data asks) free)
    exact .inr ⟨Option.isSome_iff_ne_none.1 outstanding, place⟩
  · exact .inl free

end

/-- Settles O47: a bus event settles its port first; settling is the commands that are due, one after the other, and leaves
none. -/
theorem busEventsFollowWhatIsDue : Obligations.BusEventsFollowWhatIsDue := by
  unfold Obligations.BusEventsFollowWhatIsDue
  refine ⟨fun p s running i event => exec_settle running event, fun p s running => ⟨State.examineFirst (anyAtUnit p),
    State.takeOneDone p, ?_, fun t none => examineFirst_none none, fun t x rest runs oldest => ⟨?examined, ?bad, ?signal, ?map,
    ?reset, fun others => ⟨?query, ?config⟩⟩, fun t => rfl, fun idle => obtain_idle (not_obtaining idle), ?window⟩,
    fun p s running => settled_settle running⟩
  · rw [← examineAll_iterate, ← takeAllDones_iterate
      ((examineAll_running p _).trans ((takeReadyControl_running p s).trans running))]
    rfl
  case examined => exact examineFirst_of_oldest oldest
  case bad => exact fun bad => congrArg Host.Outcome.next ((whenRunning_of runs).trans (examine_bad oldest bad))
  case signal => exact fun named => congrArg Host.Outcome.next ((whenRunning_of runs).trans (examine_oldest oldest named))
  case map => exact fun named => congrArg Host.Outcome.next ((whenRunning_of runs).trans (examine_oldest oldest named))
  case reset => exact fun named => congrArg Host.Outcome.next ((whenRunning_of runs).trans (examine_oldest oldest named))
  case query =>
    exact fun named => exec_mapQuery_examined runs (examine_oldest oldest named) fun y hy =>
      not_atUnit (examined_last oldest others y hy)
  case config =>
    intro named half
    rw [exec_portConfig runs, examine_oldest oldest named, exec_portConfig_examined ((examineFirst_running _ t).trans runs)
      (fun y hy => not_atUnit (examined_last oldest others y hy))]
  case window =>
    rw [← examineAll_iterate, ← takeAllDones_iterate
      ((examineAll_running p _).trans ((takeReadyControl_running p s).trans running))]
    generalize done : State.takeAllDones p _ = c
    have runs : c.running = true := by
      rw [← done]
      exact (examineAll_running p _).trans ((takeReadyControl_running p s).trans running)
    intro asks data free window
    have obtaining := obtaining_of asks data free
    refine ⟨fun line => ?_, fun line => ?_⟩
    · rw [exec_attnTake runs window line (.inl ⟨asks, data, free⟩), obtain_attention window line obtaining]
    · rw [exec_noticePop runs window line (.inl ⟨asks, data, free⟩), obtain_notice window line obtaining]

end Sys2Proof.Machine

/-! Bus events of a settled port (chapter 3): TWO_WIRE_START and the address bytes (O48). -/

namespace Sys2Proof.Machine

open Sys2Proof.Safety

/-! ## A bus event that is the port unit's alone -/

section
variable {p : Port} {s : State} {u v : PortUnit}

/-- At a settled port such an event is the unit's change, then the arbiter's look. -/
theorem busEvent_unit (settled : Settled p s) {f : PortUnit → PortUnit} (change : f s.ports[p] = v) :
    s.busEvent p (State.modPort p f) = (s.modPort p fun _ => v).arbitrate := by
  rw [busEvent_of_settled settled, modPort_const, change]

theorem port_ne_spi (q : TwoWirePort) : q.port ≠ spi := by
  revert q
  decide

theorem acks_of_twoWire (p : Port) (ack : Bool) (twoWire : p ≠ spi) : (ack && p != spi) = ack := by
  rw [bne_iff_ne.2 twoWire, Bool.and_true]

theorem notHeld_free (free : p ≠ spi → u.handOver = none) : u.heldAt p = false := by
  by_cases own : p = spi
  · rw [PortUnit.heldAt, own]
    rfl
  · rw [PortUnit.heldAt, PortUnit.sclHeldForHandOver, free own]
    simp

theorem refusing_iff (u : PortUnit) : u.refusing = true ↔ u.phase = .VOIDED ∨ u.phase = .CUT := by
  rw [PortUnit.refusing, Bool.or_eq_true, beq_iff_eq, beq_iff_eq]

theorem notRefusing (notVoided : u.phase ≠ .VOIDED) (notCut : u.phase ≠ .CUT) : u.refusing = false :=
  Bool.eq_false_iff.2 fun refusing => ((refusing_iff u).1 refusing).elim notVoided notCut

/-! ## TWO_WIRE_START -/

theorem endTransaction_idle (idle : s.ports[p].phase = .IDLE) : s.endTransaction p = s.modPort p PortUnit.toIdle := by
  rw [State.endTransaction, idle]

section
variable {q : TwoWirePort} {target : BitVec 7} {d : Direction}

theorem exec_start (settled : Settled q.port s) :
    exec (.twoWireStart q target d) s = .next (s.start q.port target d).arbitrate := by
  rw [exec_twoWireStart_running settled.running, busEvent_of_settled settled]

theorem start_named {t : State} (ended : (s.endTransaction p).settle p = t) (named : target = 0x34 + t.device.asValue[p].setWidth 7) :
    s.start p target d = t.beginTwoWire p d := by
  rw [State.start, ended]
  exact if_pos (beq_iff_eq.2 named)

theorem start_other {t : State} (ended : (s.endTransaction p).settle p = t) (other : target ≠ 0x34 + t.device.asValue[p].setWidth 7) :
    s.start p target d = t.modPort p (PortUnit.respond p false) := by
  rw [State.start, ended]
  exact if_neg fun named => other (beq_iff_eq.1 named)

/-- The unit of a two-wire port once a transaction has begun. -/
def PortUnit.begun (ph : Phase) (d : TxDir) (m : IncMode) (u : PortUnit) : PortUnit :=
  { u.begin ph (some d) m with ackOut := true, dataOut := 0xFF }

theorem begin_responds (q : TwoWirePort) (ph : Phase) (d : TxDir) (m : IncMode) (u : PortUnit) :
    (u.begin ph (some d) m).respond q.port true = u.begun ph d m := by
  rw [PortUnit.respond, acks_of_twoWire q.port true (port_ne_spi q)]
  rfl

theorem beginTwoWire_write (q : TwoWirePort) (t : State) : t.beginTwoWire q.port .write =
    t.modPort q.port (PortUnit.begun .ADDRESS .write t.translators[q.port].mode) :=
  modPort_congr (begin_responds q .ADDRESS .write _ _)

theorem beginTwoWire_read (q : TwoWirePort) (t : State) : t.beginTwoWire q.port .read =
    (t.modPort q.port fun u => (u.begun .DATA .read t.translators[q.port].mode).ask).obtain false q.port :=
  congrArg (State.obtain false q.port) (modPort_congr (congrArg PortUnit.ask (begin_responds q .DATA .read _ _)))

end

/-! ## The address bytes -/

theorem highNibble : ∀ b : Byte, b &&& 0xF0 ≠ 0 ↔ 16 ≤ b.toNat := by decide

theorem lowNibble (b : Byte) : b.setWidth 4 = BitVec.ofNat 4 b.toNat := (BitVec.ofNat_toNat 4 b).symm

section
variable {b : Byte}

theorem highByte_open (held : u.heldAt p = false) (address : u.phase = .ADDRESS) (dir : u.dir ≠ none) (first : u.addrHigh = none) :
    u.highByte p b = (u.takeHigh b).1.respond p (u.takeHigh b).2 := by
  have open_ : u.refusing = false := notRefusing (by rw [address]; decide) (by rw [address]; decide)
  rw [PortUnit.highByte, held, open_, if_neg (by decide), if_neg (by decide)]
  exact if_pos ⟨address, Option.isSome_iff_ne_none.2 dir, by rw [first]; rfl⟩

theorem takeHigh_bad (bad : 16 ≤ b.toNat) : u.takeHigh b = (u.void .BAD_ADDRESS, false) := if_pos ((highNibble b).2 bad)

theorem takeHigh_good (good : b.toNat < 16) : u.takeHigh b = ({ u with addrHigh := some (BitVec.ofNat 4 b.toNat) }, true) := by
  rw [PortUnit.takeHigh, if_neg (fun bad => absurd ((highNibble b).1 bad) (by omega)), lowNibble]

theorem lowByte_open (held : u.heldAt p = false) (address : u.phase = .ADDRESS) {hi : BitVec 4} (high : u.addrHigh = some hi) :
    u.lowByte p b = (u.takeLow hi b).respond p true := by
  have open_ : u.refusing = false := notRefusing (by rw [address]; decide) (by rw [address]; decide)
  rw [PortUnit.lowByte, held, open_, if_neg (by decide), if_neg (by decide), address, high]

end

end

/-- Settles O48: a START by what it ends and names; an address byte by the unit's functions. -/
theorem startAndAddressBytes : Obligations.StartAndAddressBytes := by
  unfold Obligations.StartAndAddressBytes
  refine ⟨fun q target s settled => ⟨endTransaction_idle, fun named => ⟨?write, ?read⟩, fun other d => ?other⟩,
    fun p b s settled address dir free => ⟨fun first => ⟨fun bad => ?bad, fun good => ?good⟩, fun hi high => ?low⟩⟩
  case write =>
    rw [exec_start settled, start_named rfl named, beginTwoWire_write]
    rfl
  case read =>
    rw [exec_start settled, start_named rfl named, beginTwoWire_read]
    rfl
  case other =>
    rw [exec_start settled, start_other rfl other]
    rfl
  case bad =>
    refine congrArg Host.Outcome.next (busEvent_unit settled ?_)
    rw [highByte_open (notHeld_free free) address dir first, takeHigh_bad bad]
    rfl
  case good =>
    refine congrArg Host.Outcome.next (busEvent_unit settled ?_)
    rw [highByte_open (notHeld_free free) address dir first, takeHigh_good good]
    rfl
  case low =>
    refine congrArg Host.Outcome.next (busEvent_unit settled ?_)
    rw [lowByte_open (notHeld_free free) address high]
    rfl

end Sys2Proof.Machine

/-! The bytes of a write (chapter 3): a byte that is judged (O49), bytes that are not taken (O50). -/

namespace Sys2Proof.Machine

open Sys2Proof.Safety

/-! ## The two-page limit -/

/-- Pages of two at most, one of them taken and another among them: a third one is one that is not among them. -/
theorem thirdPage_iff {es : List Entry} {pg : Page} (two : (touchedPages es).length ≤ 2) :
    thirdPage es pg = true ↔ (∀ e ∈ es, e.page ≠ pg) ∧ ∃ e ∈ es, ∃ e' ∈ es, e.page ≠ e'.page := by
  cases es with
  | nil => simp [thirdPage, firstPage]
  | cons x xs =>
    cases found : xs.find? (fun y => y.page != x.page) with
    | none =>
      have second : secondPage (x :: xs) = none := by rw [secondPage, found]; rfl
      have same (e : Entry) (he : e ∈ x :: xs) : e.page = x.page := by
        rcases List.mem_cons.1 he with rfl | he
        · rfl
        · simpa using List.find?_eq_none.1 found e he
      rw [thirdPage, second]
      refine ⟨fun third => absurd third (by cases firstPage (x :: xs) <;> exact Bool.false_ne_true), ?_⟩
      rintro ⟨-, e, he, e', he', apart⟩
      exact absurd ((same e he).trans (same e' he').symm) apart
    | some y =>
      have second : secondPage (x :: xs) = some y.page := by rw [secondPage, found]; rfl
      have apart : y.page ≠ x.page := by simpa using List.find?_some found
      have member : y ∈ x :: xs := List.mem_cons_of_mem x (List.mem_of_find?_eq_some found)
      have third (pg : Page) : thirdPage (x :: xs) pg = true ↔ pg ≠ x.page ∧ pg ≠ y.page := by
        rw [thirdPage, second]
        simp [firstPage]
      have firstTaken : thirdPage (x :: xs) x.page = false := Bool.eq_false_iff.2 fun h => ((third _).1 h).1 rfl
      obtain ⟨a, b, -, within⟩ := pages_within two firstTaken
      have either (e : Entry) (he : e ∈ x :: xs) : e.page = x.page ∨ e.page = y.page := by
        have xIn := within x List.mem_cons_self
        have yIn := within y member
        have eIn := within e he
        simp only [List.mem_cons, List.not_mem_nil, or_false] at xIn yIn eIn
        grind
      rw [third]
      constructor
      · rintro ⟨notFirst, notSecond⟩
        refine ⟨fun e he same => ?_, x, List.mem_cons_self, y, member, fun same => apart same.symm⟩
        rcases either e he with first | second
        · exact notFirst (same.symm.trans first)
        · exact notSecond (same.symm.trans second)
      · rintro ⟨none, -⟩
        exact ⟨fun same => none x List.mem_cons_self same.symm, fun same => none y member same.symm⟩

/-! ## Judging a byte -/

section
variable {p : Port} {u : PortUnit} {t : Translator} {b : Byte}

theorem writeKind_control (control : u.kind = .CONTROL_WRITE ∨ (u.kind = .NONE ∧ windowOf u.pointer = 0)) :
    u.writeKind = .CONTROL_WRITE := by
  unfold PortUnit.writeKind
  rcases control with kind | ⟨kind, window⟩
  · rw [kind]
    rfl
  · rw [if_pos kind, if_pos window]

theorem writeKind_store (store : (u.kind = .STORE_WRITE ∨ u.kind = .NONE) ∧ windowOf u.pointer ≠ 0) :
    u.writeKind = .STORE_WRITE := by
  unfold PortUnit.writeKind
  obtain ⟨kind | kind, window⟩ := store
  · rw [kind]
    rfl
  · rw [if_pos kind, if_neg window]

theorem judge_control (control : u.writeKind = .CONTROL_WRITE) : u.judge t b = u.judgeControl b := if_pos control

theorem judge_store (store : u.writeKind = .STORE_WRITE) : u.judge t b = u.judgeStore t b :=
  if_neg (by rw [store]; decide)

theorem judgeControl_end (out : u.endOfView = true ∨ windowOf u.pointer ≠ 0) : u.judgeControl b = .void .VIEW_END :=
  if_pos (by rw [Bool.or_eq_true, bne_iff_ne]; exact out)

theorem judgeControl_inside (inside : u.endOfView = false) (window : windowOf u.pointer = 0) : u.judgeControl b =
    if lineOf u.pointer = 0 ∨ lineOf u.pointer = 3 then
      .accept ⟨pageOf (lineOf u.pointer).val, byteN (byteOf u.pointer).val, b⟩
    else .void .CONTROL_READ_ONLY :=
  if_neg (by rw [inside, window]; decide)

theorem judgeStore_end (out : u.endOfView = true) : u.judgeStore t b = .void .VIEW_END := if_pos out

theorem judgeStore_disabled (inside : u.endOfView = false) (place : t.translate u.pointer = .disabled) :
    u.judgeStore t b = .void .DISABLED_WINDOW := by
  rw [PortUnit.judgeStore, inside, if_neg (by decide), place]

theorem judgeStore_readOnly (inside : u.endOfView = false) {pg : Page} {off : Byte} (place : t.translate u.pointer = .store pg off .RO) :
    u.judgeStore t b = .void .READ_ONLY_WINDOW := by
  rw [PortUnit.judgeStore, inside, if_neg (by decide), place]

theorem judgeStore_writable (inside : u.endOfView = false) {pg : Page} {off : Byte} (place : t.translate u.pointer = .store pg off .RW) :
    u.judgeStore t b = if thirdPage u.staging pg then .void .STAGING_FULL
      else if 64 ≤ u.staging.length then .void .STAGING_FULL else .accept ⟨pg, off, b⟩ := by
  rw [PortUnit.judgeStore, inside, if_neg (by decide), place]
  rfl

/-! ## Taking a byte -/

theorem takeData_accepts {k : TxKind} {e : Entry} (kind : u.writeKind = k) (accepts : u.judge t b = .accept e) :
    u.takeData t b = (PortUnit.advance { u with kind := k, staging := u.staging ++ [e] }, true) := by
  rw [PortUnit.takeData, accepts, kind]

theorem takeData_voids {k : TxKind} {r : Reason} (kind : u.writeKind = k) (voids : u.judge t b = .void r) :
    u.takeData t b = (PortUnit.advance { u with
      kind := k, phase := .VOIDED, voidReason := some r, counted := u.staging.length, staging := [] }, false) := by
  rw [PortUnit.takeData, voids, kind]
  rfl

theorem writeByte_data (q : TwoWirePort) (data : u.phase = .DATA) (write : u.dir = some .write) (free : u.handOver = none) {v : PortUnit}
    {ack : Bool} (taken : u.takeData t b = (v, ack)) : u.writeByte q.port t b = { v with ackOut := ack, dataOut := 0xFF } := by
  have open_ : u.refusing = false := notRefusing (by rw [data]; decide) (by rw [data]; decide)
  rw [PortUnit.writeByte, notHeld_free fun _ => free, write, open_, if_neg (by decide), if_neg (by decide), if_pos data, taken,
    PortUnit.respond, acks_of_twoWire q.port ack (port_ne_spi q)]
  rfl

theorem writeSlot_data (data : u.phase = .DATA) (write : u.dir = some .write) (free : u.handOver = none) {v : PortUnit}
    {ack : Bool} (taken : u.takeData t b = (v, ack)) : u.writeSlot t b = { v with dataOut := 0xA5 } := by
  rw [PortUnit.writeSlot, if_neg (not_not.2 write), data]
  dsimp only
  rw [free, if_neg (by decide), taken]
  rfl

end

section
variable {s : State} {b : Byte} {v : PortUnit}

theorem exec_writeByte {q : TwoWirePort} (settled : Settled q.port s)
    (change : s.ports[q.port].writeByte q.port s.translators[q.port] b = v) :
    exec (.twoWireWriteByte q b) s = .next (s.modPort q.port fun _ => v).arbitrate := by
  show Host.Outcome.next (s.busEvent q.port fun s => s.modPort q.port (PortUnit.writeByte q.port s.translators[q.port] b)) = _
  rw [busEvent_of_settled settled, modPort_const, change]

theorem exec_writeSlot (settled : Settled spi s) (change : s.ports[spi].writeSlot s.translators[spi] b = v) :
    exec (.spiWriteSlot b) s = .next (s.modPort spi fun _ => v).arbitrate := by
  show Host.Outcome.next (s.busEvent spi fun s => s.modPort spi (PortUnit.writeSlot s.translators[spi] b)) = _
  rw [busEvent_of_settled settled, modPort_const, change]

end

/-- Settles O49: the kind decides the rows, the rows the judgement, and the judgement what the unit makes of the byte. -/
theorem writtenByteIsJudged : Obligations.WrittenByteIsJudged := by
  unfold Obligations.WrittenByteIsJudged
  intro p b s settled data write free two u ends accepts voids control store
  have ends_of {v : PortUnit} {ack : Bool} (taken : u.takeData s.translators[p] b = (v.advance, ack)) : ends v ack := by
    refine ⟨fun q same => ?_, fun same => ?_⟩
    · subst same
      exact exec_writeByte settled (writeByte_data q data write free taken)
    · subst same
      exact exec_writeSlot settled (writeSlot_data data write free taken)
  refine ⟨fun isControl => ?control, fun isStore => ?store⟩
  case control =>
    have kind := writeKind_control isControl
    have judged := judge_control (t := s.translators[p]) (b := b) kind
    refine ⟨fun out => ends_of (takeData_voids kind (judged.trans (judgeControl_end out))), fun inside window =>
      ⟨fun line => ?_, fun not0 not3 => ?_⟩⟩
    · exact ends_of (takeData_accepts kind (judged.trans ((judgeControl_inside inside window).trans (if_pos line))))
    · exact ends_of (takeData_voids kind
        (judged.trans ((judgeControl_inside inside window).trans (if_neg fun line => line.elim not0 not3))))
  case store =>
    have kind := writeKind_store isStore
    have judged := judge_store (t := s.translators[p]) (b := b) kind
    refine ⟨fun out => ends_of (takeData_voids kind (judged.trans (judgeStore_end out))), fun inside =>
      ⟨fun place => ends_of (takeData_voids kind (judged.trans (judgeStore_disabled inside place))), fun pg off =>
        ⟨fun place => ends_of (takeData_voids kind (judged.trans (judgeStore_readOnly inside place))), fun place => ?_⟩⟩⟩
    have writable := judged.trans (judgeStore_writable (b := b) inside place)
    refine ⟨fun full => ends_of (takeData_voids kind (writable.trans ?_)),
      fun notThird room => ends_of (takeData_accepts kind (writable.trans ?_))⟩
    · by_cases third : thirdPage u.staging pg = true
      · exact if_pos third
      · exact (if_neg third).trans (if_pos (full.resolve_left fun h => third ((thirdPage_iff two).2 h)))
    · exact (if_neg fun h => notThird ((thirdPage_iff two).1 h)).trans (if_neg (by omega))

/-! ## Bytes that are not taken -/

section
variable {p : Port} {u : PortUnit} {t : Translator} {b : Byte}

/-- A unit that refuses bytes is not held back by its hand-over. -/
theorem notHeld_refusing (h : u.phase = .CUT ∨ (u.phase = .VOIDED ∧ u.handOver = none)) : u.heldAt p = false := by
  rw [PortUnit.heldAt, PortUnit.sclHeldForHandOver]
  rcases h with cut | ⟨-, free⟩
  · rw [cut]
    simp
  · rw [free]
    simp

theorem refuses (h : u.phase = .CUT ∨ (u.phase = .VOIDED ∧ u.handOver = none)) : u.refusing = true :=
  (refusing_iff u).2 (h.elim .inr fun voided => .inl voided.1)

theorem writeByte_refused (h : u.phase = .CUT ∨ (u.phase = .VOIDED ∧ u.handOver = none)) (write : u.dir = some .write) :
    u.writeByte p t b = { u.skip with ackOut := false, dataOut := 0xFF } := by
  rw [PortUnit.writeByte, notHeld_refusing h, write, refuses h, if_neg (by decide), if_pos rfl]
  rfl

theorem highByte_refused (h : u.phase = .CUT ∨ (u.phase = .VOIDED ∧ u.handOver = none)) :
    u.highByte p b = { u with ackOut := false, dataOut := 0xFF } := by
  rw [PortUnit.highByte, notHeld_refusing h, refuses h, if_neg (by decide), if_pos rfl]
  rfl

theorem lowByte_refused (h : u.phase = .CUT ∨ (u.phase = .VOIDED ∧ u.handOver = none)) :
    u.lowByte p b = { u with ackOut := false, dataOut := 0xFF } := by
  rw [PortUnit.lowByte, notHeld_refusing h, refuses h, if_neg (by decide), if_pos rfl]
  rfl

theorem writeSlot_cut (write : u.dir = some .write) (cut : u.phase = .CUT) :
    u.writeSlot t b = { u.skip with dataOut := 0xFF } := by
  rw [PortUnit.writeSlot, if_neg (not_not.2 write), cut]
  rfl

theorem writeSlot_voided (write : u.dir = some .write) (voided : u.phase = .VOIDED) (free : u.handOver = none) :
    u.writeSlot t b = { u.skip with dataOut := 0xA5 } := by
  rw [PortUnit.writeSlot, if_neg (not_not.2 write), voided, free]
  rfl

theorem writeSlot_waits (write : u.dir = some .write) (phase : u.phase = .DATA ∨ u.phase = .VOIDED) (pending : u.handOver ≠ none) :
    u.writeSlot t b = u.drive 0x00 := by
  have held : u.handOver.isSome = true := Option.isSome_iff_ne_none.2 pending
  rw [PortUnit.writeSlot, if_neg (not_not.2 write)]
  rcases phase with data | voided
  · rw [data]
    exact if_pos held
  · rw [voided]
    exact if_pos held

theorem heldForHandOver (notIdle : u.phase ≠ .IDLE) (notCut : u.phase ≠ .CUT) (pending : u.handOver ≠ none) :
    u.sclHeldForHandOver = true := by
  rw [PortUnit.sclHeldForHandOver, Option.isSome_iff_ne_none.2 pending, bne_iff_ne.2 notIdle, bne_iff_ne.2 notCut]
  rfl

theorem readByte_held (notCut : u.phase ≠ .CUT) (pending : u.handOver ≠ none) (ack : Bool) : u.readByte ack = u := by
  unfold PortUnit.readByte
  split
  · rfl
  · split
    · next cut => exact absurd cut notCut
    · exact if_pos (Option.isSome_iff_ne_none.2 pending)
    · rfl
    · rfl
    · rfl

end

section
variable {p : Port} {s : State} {q : TwoWirePort}

theorem arbitrate_unchanged {u : PortUnit} (same : s.ports[p] = u) : (s.modPort p fun _ => u).arbitrate = s.arbitrate := by
  rw [modPort_self (f := fun _ => u) same.symm]

theorem exec_readByte (settled : Settled q.port s) {ack : Bool} {v : PortUnit} (change : s.ports[q.port].readByte ack = v) :
    exec (.twoWireReadByte q ack) s = .next ((s.modPort q.port fun _ => v).obtain false q.port).arbitrate := by
  show Host.Outcome.next (s.busEvent q.port fun s => (s.modPort q.port (PortUnit.readByte ack)).obtain false q.port) = _
  rw [busEvent_of_settled settled, modPort_const, change]

/-- At a settled port there is no line that could be obtained now. -/
theorem obtain_settled (settled : Settled p s) (acts : Bool) : s.obtain acts p = s := by
  cases obtaining : s.ports[p].obtaining with
  | false => exact obtain_idle obtaining
  | true =>
    have parts := obtaining
    rw [PortUnit.obtaining, Bool.and_eq_true, Bool.and_eq_true, Option.isNone_iff_eq_none] at parts
    obtain ⟨⟨asks, -⟩, free⟩ := parts
    obtain ⟨busy, pg, off, ac, place⟩ := (settled.obtained asks).resolve_left (not_not.2 free)
    exact obtain_waits obtaining place busy

theorem exec_readByte_same (settled : Settled q.port s) {ack : Bool} (same : s.ports[q.port].readByte ack = s.ports[q.port]) :
    exec (.twoWireReadByte q ack) s = .next s.arbitrate := by
  rw [exec_readByte settled same, modPort_self rfl, obtain_settled settled]

end

/-- Settles O50: a voided or cut unit refuses and skips; one with a hand-over pending takes nothing. -/
theorem bytesNotTaken : Obligations.BytesNotTaken := by
  unfold Obligations.BytesNotTaken
  refine ⟨fun p b s settled write => ⟨fun refused => ⟨fun q same => ?byte, fun twoWire => ⟨?high, ?low⟩⟩, fun same cut => ?cut,
    fun same voided free => ?voided⟩, fun p s settled pending => ⟨fun q b same notIdle notCut => ?held,
    fun b same phase write => ?waits⟩⟩
  case byte =>
    subst same
    exact exec_writeByte settled (writeByte_refused refused write)
  case high =>
    refine congrArg Host.Outcome.next ((busEvent_unit settled (highByte_refused refused)).trans ?_)
    rw [modPort_const p fun u => { u with ackOut := false, dataOut := 0xFF }]
  case low =>
    refine congrArg Host.Outcome.next ((busEvent_unit settled (lowByte_refused refused)).trans ?_)
    rw [modPort_const p fun u => { u with ackOut := false, dataOut := 0xFF }]
  case cut =>
    subst same
    exact exec_writeSlot settled (writeSlot_cut write cut)
  case voided =>
    subst same
    exact exec_writeSlot settled (writeSlot_voided write voided free)
  case held =>
    subst same
    have scl := heldForHandOver notIdle notCut pending
    have held : s.ports[q.port].heldAt q.port = true := by
      rw [PortUnit.heldAt, scl, Bool.and_true, bne_iff_ne]
      exact port_ne_spi q
    refine ⟨?_, ?_, ?_, ?_, fun ack => exec_readByte_same settled (readByte_held notCut pending ack)⟩
    · rw [sclHeld, settled.running, scl]
      rfl
    · rw [exec_writeByte settled (v := s.ports[q.port]) (by rw [PortUnit.writeByte, held]; rfl), arbitrate_unchanged rfl]
    · refine congrArg Host.Outcome.next ((busEvent_unit settled (v := s.ports[q.port]) ?_).trans (arbitrate_unchanged rfl))
      rw [PortUnit.highByte, held]
      rfl
    · refine congrArg Host.Outcome.next ((busEvent_unit settled (v := s.ports[q.port]) ?_).trans (arbitrate_unchanged rfl))
      rw [PortUnit.lowByte, held]
      rfl
  case waits =>
    subst same
    rw [exec_writeSlot settled (writeSlot_waits write phase pending), modPort_const spi fun u => { u with dataOut := 0x00 }]
    rfl

end Sys2Proof.Machine

/-! The bytes of a read (chapter 3): a two-wire read byte (O51), a slot of an SPI READ (O54). -/

namespace Sys2Proof.Machine

open Sys2Proof.Safety

/-! ## The line in hand -/

section
variable {u : PortUnit} {h : HeldLine}

theorem inHand_iff : u.inHand = some h ↔ u.held = some h ∧ h.window = windowOf u.pointer ∧ h.line = lineOf u.pointer := by
  unfold PortUnit.inHand
  cases u.held with
  | none => simp
  | some x =>
    by_cases here : x.window = windowOf u.pointer ∧ x.line = lineOf u.pointer
    · simp only [if_pos here, Option.some.injEq]
      exact ⟨fun same => ⟨same, same ▸ here⟩, And.left⟩
    · simp only [if_neg here, Option.some.injEq]
      refine ⟨fun same => absurd same (by simp), fun ⟨same, there⟩ => absurd (same ▸ there) here⟩

theorem inHand_none (none : ∀ h, ¬ (u.held = some h ∧ h.window = windowOf u.pointer ∧ h.line = lineOf u.pointer)) :
    u.inHand = .none :=
  Option.eq_none_iff_forall_ne_some.2 fun h hand => none h (inHand_iff.1 hand)

theorem ownFetch_iff : u.ownFetch = true ↔ ∃ f, u.outstanding = some (.fetch f) ∧ f.discard = false := by
  unfold PortUnit.ownFetch
  rcases u.outstanding with _ | (f | es) <;> simp

/-! ## A two-wire read byte -/

theorem advance_drive (b : Byte) (u : PortUnit) : (u.drive b).advance = { u.advance with dataOut := b } := rfl

section
variable {ack : Bool}

theorem readByte_stopped (read : u.dir = some .read) (data : u.phase = .DATA) (free : u.handOver = none) (stopped : u.stopped = true) :
    u.readByte ack = u.drive 0xFF := by
  rw [PortUnit.readByte, if_neg (not_not.2 read), data]
  dsimp only
  rw [free, if_neg (by decide), if_pos stopped]
  rfl

/-- The unit after a byte beyond the end of the view. -/
def PortUnit.drivenEnd (ack : Bool) (u : PortUnit) : PortUnit := { u with dataOut := 0xFF, stopped := !ack }

theorem readByte_end (read : u.dir = some .read) (data : u.phase = .DATA) (free : u.handOver = none) (goes : u.stopped = false)
    (out : u.endOfView = true) : u.readByte ack = u.drivenEnd ack := by
  rw [PortUnit.readByte, if_neg (not_not.2 read), data]
  dsimp only
  rw [free, if_neg (by decide), goes, if_neg (by decide), if_pos out]
  rfl

theorem readByte_inside (read : u.dir = some .read) (data : u.phase = .DATA) (free : u.handOver = none) (goes : u.stopped = false)
    (inside : u.endOfView = false) (hand : u.inHand = some h) : u.readByte ack = u.afterRead ack h.bytes[byteOf u.pointer] := by
  rw [PortUnit.readByte, if_neg (not_not.2 read), data]
  dsimp only
  rw [free, goes, inside, if_neg (by decide), if_neg (by decide), if_neg (by decide), hand]

theorem readByte_waits (read : u.dir = some .read) (data : u.phase = .DATA) (free : u.handOver = none) (goes : u.stopped = false)
    (inside : u.endOfView = false) (hand : u.inHand = none) : u.readByte ack = u := by
  unfold PortUnit.readByte
  rw [if_neg (not_not.2 read), free, goes, inside, hand]
  split
  · next cut => rw [data] at cut; cases cut
  · rfl
  · rfl
  · rfl
  · rfl

theorem readByte_cut (read : u.dir = some .read) (cut : u.phase = .CUT) : u.readByte ack = { u.advance with dataOut := 0xFF } := by
  rw [← advance_drive, PortUnit.readByte, if_neg (not_not.2 read), cut]
  rfl

theorem afterRead_stops (b : Byte) (u : PortUnit) : u.afterRead false b = { u.advance with dataOut := b, stopped := true } := rfl

theorem afterRead_goesOn {b : Byte} {v : PortUnit} (after : { u.advance with dataOut := b } = v)
    (next : v.endOfView = true ∨ v.inHand.isSome = true) : u.afterRead true b = v := by
  rw [PortUnit.afterRead, advance_drive, after, if_neg (by decide)]
  exact if_pos (by rw [Bool.or_eq_true]; exact next)

theorem afterRead_asks {b : Byte} {v : PortUnit} (after : { u.advance with dataOut := b } = v)
    (inside : v.endOfView = false) (hand : v.inHand = none) : u.afterRead true b = { v with asking := true } := by
  rw [PortUnit.afterRead, advance_drive, after, if_neg (by decide)]
  exact if_neg (by rw [inside, hand]; decide)

end

end

/-! ## SCL -/

theorem heldForHandOver_iff (u : PortUnit) :
    u.sclHeldForHandOver = true ↔ u.phase ≠ .IDLE ∧ u.phase ≠ .CUT ∧ u.handOver ≠ none := by
  rw [PortUnit.sclHeldForHandOver, Bool.and_eq_true, Bool.and_eq_true, bne_iff_ne, bne_iff_ne, Option.isSome_iff_ne_none, and_assoc]

theorem fetched_iff (x : Place) : x.fetched = true ↔ ∃ pg off ac, x = .store pg off ac := by
  cases x <;> simp [Place.fetched]

theorem heldForLine_iff (t : Translator) (u : PortUnit) : u.sclHeldForLine t = true ↔
    u.phase = .DATA ∧ u.dir = some .read ∧ ((∃ f, u.outstanding = some (.fetch f) ∧ f.discard = false) ∨
      (u.asking = true ∧ ∃ pg off ac, t.translate u.pointer = .store pg off ac)) := by
  rw [PortUnit.sclHeldForLine, Bool.and_eq_true, Bool.and_eq_true, beq_iff_eq, beq_iff_eq, Bool.or_eq_true, ownFetch_iff,
    Bool.and_eq_true, fetched_iff, and_assoc]

/-- Settles O51: a read byte by the phase, the stop, the end of the view and the line in hand; SCL by its two causes. -/
theorem twoWireReadByteIsDriven : Obligations.TwoWireReadByteIsDriven := by
  unfold Obligations.TwoWireReadByteIsDriven
  refine ⟨fun q ack s settled => ?byte, fun q s running => ?scl⟩
  case byte =>
    intro u read ends
    refine ⟨fun data free => ⟨fun stopped => exec_readByte settled (readByte_stopped read data free stopped),
      fun goes => ⟨fun h inside held window line => ?inside, fun out => exec_readByte settled (readByte_end read data free goes out),
        fun inside none => ?waits⟩⟩, fun cut => exec_readByte settled (readByte_cut read cut)⟩
    case inside =>
      intro v
      have hand : u.inHand = some h := inHand_iff.2 ⟨held, window, line⟩
      have byte := readByte_inside (ack := ack) read data free goes inside hand
      have heldNext : v.held = some h := held
      refine ⟨fun stops => exec_readByte settled (byte.trans ?_), fun goesOn next => exec_readByte settled (byte.trans ?_),
        fun goesOn inside' out => exec_readByte settled (byte.trans ?_)⟩
      · rw [stops]
        exact afterRead_stops _ u
      · rw [goesOn]
        refine afterRead_goesOn rfl (next.imp id fun here => ?_)
        rw [inHand_iff.2 ⟨heldNext, here⟩]
        rfl
      · rw [goesOn]
        refine afterRead_asks rfl inside' (inHand_none fun x ⟨same, here⟩ => out ?_)
        rw [Option.some.inj (heldNext.symm.trans same)]
        exact here
    case waits =>
      exact exec_readByte_same settled (readByte_waits read data free goes inside (inHand_none fun h ⟨held, there⟩ => none h held there))
  case scl =>
    rw [sclHeld, running, Bool.true_and, Bool.or_eq_true, heldForHandOver_iff, heldForLine_iff]

/-! ## A slot of an SPI READ -/

section
variable {s : State} {u : PortUnit} {h : HeldLine}

theorem readSlot_end (out : u.endOfView = true) : u.readSlot = u.drive 0xFF := if_pos out

theorem readSlot_hand (inside : u.endOfView = false) (hand : u.inHand = some h) : u.readSlot = u.readyOrByte h := by
  rw [PortUnit.readSlot, inside, if_neg (by decide), hand]

theorem readSlot_waits (inside : u.endOfView = false) (hand : u.inHand = none) : u.readSlot = u.drive 0x00 := by
  rw [PortUnit.readSlot, inside, if_neg (by decide), hand]
  rfl

theorem readyOrByte_first (first : h.ready = false) :
    u.readyOrByte h = { u with dataOut := 0xA5, held := some { h with ready := true } } := by
  rw [PortUnit.readyOrByte, if_neg (by rw [first]; decide)]
  rfl

theorem readyOrByte_then (ready : h.ready = true) :
    u.readyOrByte h = { u.advance with dataOut := h.bytes[byteOf u.pointer] } := if_pos ready

theorem needsLine_false (h : u.endOfView = true ∨ u.handOver ≠ none ∨ u.ownFetch = true ∨ u.inHand.isSome = true) :
    u.needsLine = false := by
  refine Bool.eq_false_iff.2 fun needs => ?_
  simp only [PortUnit.needsLine, Bool.and_eq_true, Bool.not_eq_true', Option.isNone_iff_eq_none] at needs
  obtain ⟨⟨⟨⟨⟨-, inside⟩, -⟩, free⟩, fetch⟩, hand⟩ := needs
  rcases h with out | pending | own | inHand
  · simp [out] at inside
  · exact pending free
  · simp [own] at fetch
  · simp [hand] at inHand

theorem needsLine_true (data : u.phase = .DATA) (read : u.dir = some .read) (inside : u.endOfView = false) (goes : u.stopped = false)
    (free : u.handOver = none) (noFetch : u.ownFetch = false) (hand : u.inHand = none) : u.needsLine = true := by
  rw [PortUnit.needsLine, data, read, inside, goes, free, noFetch, hand]
  rfl

theorem obtain_endOfView (acts : Bool) (p : Port) (s : State) :
    (s.obtain acts p).ports[p].endOfView = s.ports[p].endOfView := by
  have unit (t : State) (ports : t.ports = s.ports) (f : PortUnit → PortUnit) (keeps : ∀ u, (f u).endOfView = u.endOfView) :
      (t.modPort p f).ports[p].endOfView = s.ports[p].endOfView := by
    rw [modPort_ports, upd_self, keeps, ports]
  unfold State.obtain
  dsimp only
  split
  · split
    · split
      · split
        · exact unit _ rfl _ fun _ => rfl
        · rfl
      · split
        · split
          · exact unit _ rfl _ fun _ => rfl
          · rfl
        · exact unit _ rfl _ fun _ => rfl
    · exact unit _ rfl _ fun _ => rfl
    · split
      · rfl
      · exact unit _ rfl _ fun _ => rfl
  · rfl

theorem exec_readSlot (settled : Settled spi s) : exec .spiReadSlot s = .next s.readSlot.arbitrate :=
  congrArg Host.Outcome.next (busEvent_of_settled settled)

theorem readSlot_over (over_ : s.ports[spi].phase = .CUT ∨ (s.ports[spi].phase = .VOIDED ∧ s.ports[spi].dir ≠ some .write)) :
    s.readSlot = s.modPort spi fun _ => { s.ports[spi].skip with dataOut := 0xFF } := by
  rw [State.readSlot, if_pos over_, modPort_const]
  rfl

/-- A slot of a READ in phase DATA, once the line at the pointer has been obtained where it is needed. -/
theorem readSlot_data (data : s.ports[spi].phase = .DATA) (read : s.ports[spi].dir = some .read) {t : State} {v : PortUnit}
    (obtained : s.obtainAtSlot = t) (slot : t.ports[spi].readSlot = v) : s.readSlot = t.modPort spi fun _ => v := by
  have going : ¬ (s.ports[spi].phase = .CUT ∨ (s.ports[spi].phase = .VOIDED ∧ s.ports[spi].dir ≠ some .write)) := by
    rw [data]
    simp
  rw [State.readSlot, if_neg going, if_pos ⟨data, read⟩, obtained, modPort_const, slot]

theorem obtainAtSlot_none (noNeed : s.ports[spi].needsLine = false) : s.obtainAtSlot = s :=
  if_neg (by rw [noNeed]; decide)

theorem obtainAtSlot_needs (needs : s.ports[spi].needsLine = true) :
    s.obtainAtSlot = (s.modPort spi PortUnit.ask).obtain true spi := if_pos needs

end

/-- Settles O54: a slot by the phase, the end of the view, and the line in hand before or after it is obtained. -/
theorem spiReadSlotCarries : Obligations.SpiReadSlotCarries := by
  unfold Obligations.SpiReadSlotCarries
  intro s settled u ends inHand skipped
  have slot (t : State) (v : PortUnit) (read : s.readSlot = t.modPort spi fun _ => v) : ends t v :=
    (exec_readSlot settled).trans (by rw [read])
  refine ⟨fun over_ => slot _ _ (readSlot_over over_), fun data read => ⟨fun out => ?end_, fun inside =>
    ⟨fun h hand first => ?ready, fun h hand ready => ?byte, fun none => ⟨fun busy => ?busy, fun free goes noFetch => ?obtains⟩⟩⟩⟩
  case end_ =>
    exact slot _ _ (readSlot_data data read (obtainAtSlot_none (needsLine_false (.inl out))) (readSlot_end out))
  case ready =>
    have hand_ : u.inHand = some h := inHand_iff.2 hand
    exact slot _ _ (readSlot_data data read
      (obtainAtSlot_none (needsLine_false (.inr (.inr (.inr (Option.isSome_iff_exists.2 ⟨h, hand_⟩))))))
      ((readSlot_hand inside hand_).trans (readyOrByte_first first)))
  case byte =>
    have hand_ : u.inHand = some h := inHand_iff.2 hand
    exact slot _ _ (readSlot_data data read
      (obtainAtSlot_none (needsLine_false (.inr (.inr (.inr (Option.isSome_iff_exists.2 ⟨h, hand_⟩))))))
      ((readSlot_hand inside hand_).trans (readyOrByte_then ready)))
  case busy =>
    have noNeed : u.needsLine = false := needsLine_false (.inr (busy.imp id fun own => .inl (ownFetch_iff.2 own)))
    exact slot _ _ (readSlot_data data read (obtainAtSlot_none noNeed) (readSlot_waits inside (inHand_none none)))
  case obtains =>
    intro t
    have noOwn : u.ownFetch = false := Bool.eq_false_iff.2 fun own => by
      obtain ⟨f, fetch, kept⟩ := ownFetch_iff.1 own
      rw [noFetch f fetch] at kept
      cases kept
    have needs : u.needsLine = true := needsLine_true data read inside goes free noOwn (inHand_none none)
    have inside' : t.ports[spi].endOfView = false := by
      rw [obtain_endOfView, modPort_ports, upd_self]
      exact inside
    exact ⟨fun h hand first => slot _ _ (readSlot_data data read (obtainAtSlot_needs needs)
        ((readSlot_hand inside' (inHand_iff.2 hand)).trans (readyOrByte_first first))),
      fun none' => slot _ _ (readSlot_data data read (obtainAtSlot_needs needs) (readSlot_waits inside' (inHand_none none')))⟩

end Sys2Proof.Machine

/-! SPI_CS_FALL, the opcodes and the status byte (chapter 3): O53. -/

namespace Sys2Proof.Machine

open Sys2Proof.Safety

/-! ## Pin levels of a settled port -/

theorem busEvent_setDevice {p : Port} {s : State} (settled : Settled p s) (d : Device) (f : State → State)
    (supervisor : d.supervisor = s.device.supervisor) (straps : d.asValue = s.device.asValue)
    (running : (s.setDevice d).running = true) : (s.setDevice d).busEvent p f = (f (s.setDevice d)).arbitrate := by
  rw [State.busEvent, whenRunning_of running, settle_setDevice p s d supervisor straps, settle_of_settled settled]

/-! ## Opcodes -/

theorem opcodeDir_unknown {op : Byte} (notWrite : op ≠ 0x3A) (notRead : op ≠ 0x3B) (notStatus : op ≠ 0x3C) :
    opcodeDir op = none := (if_neg notWrite).trans ((if_neg notRead).trans (if_neg notStatus))

theorem opcodeCommand_unknown {op : Byte} (notWrite : op ≠ 0x3A) (notRead : op ≠ 0x3B) (notStatus : op ≠ 0x3C) :
    opcodeCommand op = .spiUnknownOpcode op := by
  rw [opcodeCommand, opcodeDir_unknown notWrite notRead notStatus]

section
variable {s : State} {u : PortUnit} {op : Byte}

theorem awaits (address : u.phase = .ADDRESS) (noDir : u.dir = none) : u.awaitsOpcode = true := by
  rw [PortUnit.awaitsOpcode, address, noDir]
  rfl

theorem opcode_write (awaiting : u.awaitsOpcode = true) :
    u.opcode 0x3A = { u with dir := some .write, ackOut := false, dataOut := 0xFF } := if_pos awaiting

theorem opcode_read (awaiting : u.awaitsOpcode = true) :
    u.opcode 0x3B = { u with dir := some .read, ackOut := false, dataOut := 0xFF } := if_pos awaiting

theorem opcode_status (awaiting : u.awaitsOpcode = true) :
    u.opcode 0x3C = { u with dir := some .status, phase := .DATA, ackOut := false, dataOut := 0xFF } := if_pos awaiting

theorem opcode_unknown (awaiting : u.awaitsOpcode = true) (unknown : opcodeDir op = none) : u.opcode op = { u with
    phase := .VOIDED, voidReason := some .BAD_ADDRESS, counted := u.staging.length, staging := []
    kind := .STORE_READ, ackOut := false, dataOut := 0xFF } := by
  rw [PortUnit.opcode, if_pos awaiting, unknown]
  rfl

/-- The next byte of a transaction that awaits its opcode is the opcode. -/
theorem exec_opcode (settled : Settled spi s) (awaiting : s.ports[spi].awaitsOpcode = true) (op : Byte) :
    exec (opcodeCommand op) s = .next (s.modPort spi (PortUnit.opcode op)).arbitrate := by
  by_cases write : op = 0x3A
  · subst write
    exact congrArg Host.Outcome.next (busEvent_of_settled settled)
  by_cases read : op = 0x3B
  · subst read
    exact congrArg Host.Outcome.next (busEvent_of_settled settled)
  by_cases status : op = 0x3C
  · subst status
    refine congrArg Host.Outcome.next ((busEvent_of_settled settled).trans ?_)
    rw [State.spiStatus, if_pos awaiting]
    rfl
  · rw [opcodeCommand_unknown write read status]
    refine congrArg Host.Outcome.next ((busEvent_of_settled settled).trans ?_)
    rw [State.unknownOpcode, opcodeDir_unknown write read status]
    rfl

theorem exec_opcode_unit (settled : Settled spi s) (awaiting : s.ports[spi].awaitsOpcode = true) (op : Byte) {v : PortUnit}
    (change : s.ports[spi].opcode op = v) : exec (opcodeCommand op) s = .next (s.modPort spi fun _ => v).arbitrate := by
  rw [exec_opcode settled awaiting, modPort_const, change]

/-! ## The status byte -/

/-- The status byte by its five conditions. -/
def statusBits (eligible inFlight ok notices waiting : Bool) : Byte :=
  (if eligible then 0x01 else 0) ||| (if inFlight then 0x02 else 0) ||| (if ok then 0x04 else 0) |||
  (if notices then 0x08 else 0) ||| (if waiting then 0x10 else 0)

theorem statusBits_bits : ∀ a b c d e : Bool, (statusBits a b c d e).getLsbD 0 = a ∧ (statusBits a b c d e).getLsbD 1 = b ∧
    (statusBits a b c d e).getLsbD 2 = c ∧ (statusBits a b c d e).getLsbD 3 = d ∧ (statusBits a b c d e).getLsbD 4 = e ∧
    (statusBits a b c d e).getLsbD 5 = false ∧ (statusBits a b c d e).getLsbD 6 = false ∧
    (statusBits a b c d e).getLsbD 7 = false := by decide

theorem statusByte_bits (s : State) : statusByte s = statusBits s.attn[spi].anyEligible s.cmds[spi].inFlight
    (decide (s.cmds[spi].txStatus.outcome = .OK)) (!s.notice.queues[spi].records.isEmpty)
    (allSlots.any fun k => s.holds.slots[spi][k].state == .WAITING) := by
  rw [statusByte, statusBits]
  cases s.notice.queues[spi].records.isEmpty <;> simp only [decide_eq_true_eq, Bool.not_true, Bool.not_false] <;> rfl

theorem anyWaiting_iff (h : HoldCtl) (p : Port) :
    (allSlots.any fun k => h.slots[p][k].state == .WAITING) = true ↔ ∃ k, (h.slot (p, k)).state = .WAITING := by
  have all : ∀ k : SlotNo, k ∈ allSlots := by decide
  rw [List.any_eq_true]
  exact ⟨fun ⟨k, _, waits⟩ => ⟨k, beq_iff_eq.1 waits⟩, fun ⟨k, waits⟩ => ⟨k, all k, beq_iff_eq.2 waits⟩⟩

theorem exec_spiStatus (settled : Settled spi s) (status : s.ports[spi].dir = some .status) : exec .spiStatus s =
    .next (s.modPort spi fun u => { u with
      dataOut := if s.ports[spi].phase = .DATA then statusByte s else 0xFF }).arbitrate := by
  refine congrArg Host.Outcome.next ((busEvent_of_settled settled).trans ?_)
  have given : ¬ s.ports[spi].awaitsOpcode = true := by
    rw [PortUnit.awaitsOpcode, status]
    simp
  rw [State.spiStatus, if_neg given, if_pos status]
  rfl

end

/-- Settles O53: the opcode is the byte that a transaction awaits; the status byte bit by bit. -/
theorem spiOpcodesAndStatusByte : Obligations.SpiOpcodesAndStatusByte := by
  unfold Obligations.SpiOpcodesAndStatusByte
  refine ⟨fun s settled => ⟨fun high => ?fall, fun address noDir => ?opcodes, fun op address noDir =>
    exec_opcode settled (awaits address noDir) op⟩, ⟨rfl, rfl, rfl, fun op => opcodeCommand_unknown⟩,
    fun s settled status phase => ⟨if s.ports[spi].phase = .DATA then statusByte s else 0xFF, exec_spiStatus settled status,
      fun cut => ?cut, fun data => ?data⟩⟩
  case fall =>
    show Host.Outcome.next (if s.device.csLow then s
      else (s.setDevice { s.device with csLow := true }).busEvent spi State.csFall) = _
    rw [high, if_neg (by decide), busEvent_setDevice settled { s.device with csLow := true } State.csFall rfl rfl settled.running]
    rfl
  case opcodes =>
    have awaiting := awaits address noDir
    refine ⟨exec_opcode_unit settled awaiting 0x3A (opcode_write awaiting),
      exec_opcode_unit settled awaiting 0x3B (opcode_read awaiting),
      exec_opcode_unit settled awaiting 0x3C (opcode_status awaiting), fun op notWrite notRead notStatus => ?_⟩
    rw [← opcodeCommand_unknown notWrite notRead notStatus]
    exact exec_opcode_unit settled awaiting op (opcode_unknown awaiting (opcodeDir_unknown notWrite notRead notStatus))
  case cut => exact if_neg (by rw [cut]; decide)
  case data =>
    obtain ⟨eligible, inFlight, ok, notices, waiting, bits⟩ := statusBits_bits s.attn[spi].anyEligible s.cmds[spi].inFlight
      (decide (s.cmds[spi].txStatus.outcome = .OK)) (!s.notice.queues[spi].records.isEmpty)
      (allSlots.any fun k => s.holds.slots[spi][k].state == .WAITING)
    rw [if_pos data, statusByte_bits]
    refine ⟨?_, ?_, ?_, ?_, ?_, bits⟩
    · rw [eligible, anyEligible_iff]
    · rw [inFlight]
    · rw [ok, decide_eq_true_iff]
    · rw [notices, Bool.not_eq_true', ← Bool.not_eq_true, List.isEmpty_iff]
    · rw [waiting, anyWaiting_iff]

end Sys2Proof.Machine

/-! The end of a transaction (chapters 3 and 4): O55. -/

namespace Sys2Proof.Machine

open Sys2Proof.Safety

/-! ## A hand-over does not see the transaction that has ended -/

section
variable {p : Port} {s : State} {r : TxStatus} {es : List Entry}

theorem writeRecord_modPort (p : Port) (r : TxStatus) (f : PortUnit → PortUnit) (s : State) :
    (s.modPort p f).writeRecord p r = (s.writeRecord p r).modPort p f := by
  unfold State.writeRecord
  dsimp only
  split <;> rfl

theorem toIdle_ports (p : Port) (s : State) : (s.modPort p PortUnit.toIdle).ports[p] = s.ports[p].toIdle := by
  rw [modPort_ports, upd_self]

theorem toIdle_blocked (u : PortUnit) : u.toIdle.blocked = u.blocked := rfl

/-- A change of the unit that comes to the same before and after the transaction ends. -/
theorem modPort_toIdle {f : PortUnit → PortUnit} (same : ∀ u, f u.toIdle = (f u).toIdle) (p : Port) (s : State) :
    (s.modPort p PortUnit.toIdle).modPort p f = (s.modPort p f).modPort p PortUnit.toIdle := by
  rw [modPort_modPort, modPort_modPort]
  exact modPort_congr (same _)

theorem handOverRecord_toIdle (p : Port) (r : TxStatus) (s : State) :
    (s.modPort p PortUnit.toIdle).handOverRecord p r = (s.handOverRecord p r).modPort p PortUnit.toIdle := by
  unfold State.handOverRecord
  dsimp only
  rw [toIdle_ports, toIdle_blocked]
  show (if s.ports[p].handOver.isSome then _ else if s.ports[p].blocked then _ else _) = _
  split
  · exact modPort_toIdle (by intro u; rfl) p s
  · split
    · exact modPort_toIdle (by intro u; rfl) p s
    · exact writeRecord_modPort p r _ s

theorem handOverCommit_toIdle (p : Port) (es : List Entry) (s : State) :
    (s.modPort p PortUnit.toIdle).handOverCommit p es = (s.handOverCommit p es).modPort p PortUnit.toIdle := by
  unfold State.handOverCommit
  rw [toIdle_ports, toIdle_blocked]
  show (if s.ports[p].outstanding.isSome || s.ports[p].blocked then _ else _) = _
  split
  · exact modPort_toIdle (by intro u; rfl) p s
  · exact (congrArg (State.writeRecord p (pendingRecord es)) (modPort_toIdle (by intro u; rfl) p s)).trans
      (writeRecord_modPort p (pendingRecord es) PortUnit.toIdle _)

theorem handOverControl_toIdle (p : Port) (es : List Entry) (s : State) :
    (s.modPort p PortUnit.toIdle).handOverControl p es = (s.handOverControl p es).modPort p PortUnit.toIdle := by
  unfold State.handOverControl
  rw [toIdle_ports, toIdle_blocked]
  split
  · split
    · exact modPort_toIdle (by intro u; rfl) p s
    · rw [State.giveDone, writeRecord_modPort]
      rfl
  · exact modPort_toIdle (by intro u; rfl) p s

theorem endRead_toIdle (p : Port) (u : PortUnit) (s : State) :
    (s.modPort p PortUnit.toIdle).endRead p u = (s.endRead p u).modPort p PortUnit.toIdle := by
  unfold State.endRead
  split
  · split
    · exact handOverRecord_toIdle p _ s
    · exact modPort_toIdle (by intro u; rfl) p s
  · exact handOverRecord_toIdle p _ s

/-! ## What a transaction hands over -/

/-- What the transaction of `s` hands over at its end, before the unit is idle. -/
def State.handsOver (p : Port) (s : State) : State :=
  let u := s.ports[p]
  match u.phase with
  | .IDLE | .ADDRESS => s
  | .DATA =>
    if u.dir = some .write then
      if u.staging.isEmpty then s
      else if u.kind = .CONTROL_WRITE then s.handOverControl p u.staging
      else s.handOverCommit p u.staging
    else if u.kind = .STORE_READ then s.endRead p u
    else s
  | .VOIDED => s.handOverRecord p (voidRecord u.recordKind (u.voidReason.getD .none) u.counted)
  | .CUT => if u.cutRecords then s.handOverRecord p (voidRecord u.recordKind .CUT_BY_RESET u.counted) else s

theorem endTransaction_eq (p : Port) (s : State) : s.endTransaction p = (s.handsOver p).modPort p PortUnit.toIdle := by
  unfold State.endTransaction State.handsOver
  dsimp only
  cases s.ports[p].phase with
  | IDLE => rfl
  | ADDRESS => rfl
  | DATA =>
    dsimp only
    split_ifs
    · rfl
    · exact handOverControl_toIdle p _ s
    · exact handOverCommit_toIdle p _ s
    · exact endRead_toIdle p _ s
    · rfl
  | VOIDED => exact handOverRecord_toIdle p _ s
  | CUT =>
    dsimp only
    split_ifs
    · exact handOverRecord_toIdle p _ s
    · rfl

theorem handsOver_quiet (quiet : s.ports[p].phase = .IDLE ∨ s.ports[p].phase = .ADDRESS) : s.handsOver p = s := by
  rw [State.handsOver]
  rcases quiet with h | h <;> rw [h]

section
variable (data : s.ports[p].phase = .DATA)
include data

theorem handsOver_nothing (write : s.ports[p].dir = some .write) (none : s.ports[p].staging = []) : s.handsOver p = s := by
  rw [State.handsOver, data]
  dsimp only
  rw [if_pos write, none]
  rfl

theorem handsOver_control (write : s.ports[p].dir = some .write) (staged : s.ports[p].staging ≠ [])
    (control : s.ports[p].kind = .CONTROL_WRITE) : s.handsOver p = s.handOverControl p s.ports[p].staging := by
  rw [State.handsOver, data]
  dsimp only
  rw [if_pos write, if_neg (by rw [List.isEmpty_iff]; exact staged), if_pos control]

theorem handsOver_commit (write : s.ports[p].dir = some .write) (staged : s.ports[p].staging ≠ [])
    (store : s.ports[p].kind = .STORE_WRITE) : s.handsOver p = s.handOverCommit p s.ports[p].staging := by
  rw [State.handsOver, data]
  dsimp only
  rw [if_pos write, if_neg (by rw [List.isEmpty_iff]; exact staged), if_neg (by rw [store]; decide)]

theorem handsOver_read (noWrite : s.ports[p].dir ≠ some .write) (read : s.ports[p].kind = .STORE_READ) :
    s.handsOver p = s.endRead p s.ports[p] := by
  rw [State.handsOver, data]
  dsimp only
  rw [if_neg noWrite, if_pos read]

theorem handsOver_noKind (noWrite : s.ports[p].dir ≠ some .write) (noRead : s.ports[p].kind ≠ .STORE_READ) :
    s.handsOver p = s := by
  rw [State.handsOver, data]
  dsimp only
  rw [if_neg noWrite, if_neg noRead]

end

theorem recordKind_eq (u : PortUnit) : u.recordKind =
    if u.kind = .NONE then (if u.dir = some .write then .STORE_WRITE else .STORE_READ) else u.kind := by
  rw [PortUnit.recordKind, ite_not]

theorem handsOver_voided (voided : s.ports[p].phase = .VOIDED) {reason : Reason} (because : s.ports[p].voidReason = some reason) :
    s.handsOver p = s.handOverRecord p (voidRecord s.ports[p].recordKind reason s.ports[p].counted) := by
  rw [State.handsOver, voided]
  dsimp only
  rw [because]
  rfl

theorem cutRecords_iff (u : PortUnit) : u.cutRecords = true ↔ (u.dir ≠ none ∨ u.kind ≠ .NONE) ∧ u.dir ≠ some .status := by
  rw [PortUnit.cutRecords, Bool.and_eq_true, Bool.or_eq_true, bne_iff_ne, bne_iff_ne, bne_iff_ne]

theorem handsOver_cut (cut : s.ports[p].phase = .CUT) : s.handsOver p = if s.ports[p].cutRecords then
    s.handOverRecord p (voidRecord s.ports[p].recordKind .CUT_BY_RESET s.ports[p].counted) else s := by
  rw [State.handsOver, cut]

/-! ## The hand-overs, case by case -/

theorem handOverRecord_now (free : s.ports[p].handOver = none) (open_ : s.ports[p].blocked = false) :
    s.handOverRecord p r = s.writeRecord p r := by
  rw [State.handOverRecord, free, open_]
  rfl

theorem handOverRecord_waits (free : s.ports[p].handOver = none) (waits : s.ports[p].blocked = true) :
    s.handOverRecord p r = s.modPort p fun u => { u with handOver := some (.record r) } := by
  rw [State.handOverRecord, free, waits]
  rfl

theorem handOverRecord_kept (pending : s.ports[p].handOver ≠ none) : s.handOverRecord p r = s.modPort p fun v => { v with
    keptVoid := some r, replaced := if v.keptVoid = none then v.replaced else v.replaced + 1 } := by
  rw [State.handOverRecord]
  refine (if_pos (Option.isSome_iff_ne_none.2 pending)).trans (modPort_congr ?_)
  cases s.ports[p].keptVoid <;> rfl

theorem handOverCommit_now (free : s.ports[p].outstanding = none) (ended : s.ports[p].endedRead = none) : s.handOverCommit p es =
    (s.modPort p fun v => { v with outstanding := some (.commit es) }).writeRecord p (pendingRecord es) := by
  refine if_neg ?_
  rw [Bool.or_comm]
  exact notBlocked ended free

theorem handOverCommit_waits (busy : s.ports[p].outstanding ≠ none ∨ s.ports[p].endedRead ≠ none) :
    s.handOverCommit p es = s.modPort p fun v => { v with handOver := some (.commit es) } := by
  refine if_pos ?_
  rw [Bool.or_eq_true, Option.isSome_iff_ne_none, unitBlocked_iff]
  exact busy.imp id .inl

theorem handOverControl_command (other : firstPage es ≠ some 3) :
    s.handOverControl p es = s.modPort p fun v => { v with handOver := some (.command es) } := if_neg other

theorem handOverControl_done (done : firstPage es = some 3) : s.handOverControl p es =
    if s.ports[p].blocked then s.modPort p fun v => { v with handOver := some (.done (byteN es.length)) }
    else s.giveDone p (byteN es.length) := if_pos done

theorem endRead_fetch {u : PortUnit} {f : Fetch} (fetch : u.outstanding = some (.fetch f)) (kept : f.discard = false) :
    s.endRead p u = s.modPort p fun v => { v with
      outstanding := some (.fetch { f with discard := true }), endedRead := some u.firstFault } := by
  rw [State.endRead, fetch]
  exact if_neg (by rw [kept]; decide)

theorem endRead_record {u : PortUnit} (noFetch : ∀ f, u.outstanding = some (.fetch f) → f.discard = true) :
    s.endRead p u = s.handOverRecord p (readRecord u.firstFault) := by
  unfold State.endRead
  split
  · next f fetch => exact if_pos (noFetch f fetch)
  · rfl

/-! ## The command -/

/-- The state with the pin levels after the end of a transaction of port `p`. -/
def State.released (p : Port) (s : State) : State := s.setDevice (s.device.afterEnd p)

theorem stop_eq (p : Port) (s : State) : s.stop p = (s.handsOver p).modPort p fun v => v.toIdle.respond p false := by
  rw [State.stop, endTransaction_eq, modPort_modPort]

theorem exec_transactionEnd (settled : Settled p s) {t : State} (over_ : (s.released p).handsOver p = t) :
    exec (.transactionEnd p) s = .next (t.modPort p fun v => v.toIdle.respond p false).arbitrate := by
  obtain ⟨supervisor, straps, resetLow, clearing⟩ := afterEnd_straps p s.device
  have running : (s.setDevice (s.device.afterEnd p)).running = true := by
    rw [State.running, setDevice_device, resetLow, clearing]
    exact settled.running
  refine congrArg Host.Outcome.next ((busEvent_setDevice settled _ _ supervisor straps running).trans ?_)
  rw [stop_eq, ← over_]
  rfl

end

/-- Settles O55: the phase, the direction and the kind decide what is handed over, and what waits decides how. -/
theorem transactionEndsByItsKind : Obligations.TransactionEndsByItsKind := by
  unfold Obligations.TransactionEndsByItsKind
  intro p s settled u idle s₀ ends n held waits records readEnds voided kind
  have ends_of {t : State} (over_ : s₀.handsOver p = t) : ends t := exec_transactionEnd settled over_
  have blocked_iff : u.blocked = true ↔ waits := unitBlocked_iff u
  have records_of {r : TxStatus} (over_ : s₀.handsOver p = s₀.handOverRecord p r) : records r :=
    ⟨fun free open_ => ends_of (over_.trans (handOverRecord_now (s := s₀) free (Bool.eq_false_iff.2 fun h => open_ (blocked_iff.1 h)))),
      fun free waiting => ends_of (over_.trans (handOverRecord_waits (s := s₀) free (blocked_iff.2 waiting))),
      fun pending => ends_of (over_.trans (handOverRecord_kept (s := s₀) pending))⟩
  have kind_eq : u.recordKind = kind := recordKind_eq u
  refine ⟨fun quiet => ends_of (handsOver_quiet (s := s₀) quiet), fun data write => ⟨fun none => ?nothing, fun staged store =>
    ⟨fun free ended => ?commit, fun busy => ?heldCommit⟩, fun control e es staging => ?control⟩, fun data read =>
    ⟨fun storeRead => ⟨fun f fetch kept => ?fetch, fun noFetch => ?readRecord⟩, fun noRead => ?noRead⟩, fun data status noKind => ?status,
    fun isVoided r because => ?voided, fun cut => ⟨fun silent => ?cutSilent, fun notStatus known => ?cutRecord⟩⟩
  case nothing => exact ends_of (handsOver_nothing (s := s₀) data write none)
  case commit =>
    exact ends_of ((handsOver_commit (s := s₀) data write staged store).trans (handOverCommit_now (s := s₀) free ended))
  case heldCommit =>
    exact ends_of ((handsOver_commit (s := s₀) data write staged store).trans (handOverCommit_waits (s := s₀) busy))
  case control =>
    have staged : u.staging ≠ [] := by
      rw [staging]
      exact List.cons_ne_nil e es
    have first : firstPage u.staging = some e.page := by
      rw [staging]
      rfl
    have over_ := handsOver_control (s := s₀) data write staged control
    refine ⟨fun line0 => ends_of (over_.trans (handOverControl_command ?_)), fun line3 open_ => ends_of (over_.trans ?_),
      fun line3 waiting => ends_of (over_.trans ?_)⟩
    · rw [show firstPage s₀.ports[p].staging = _ from first, line0]
      decide
    · refine (handOverControl_done (first.trans (congrArg some line3))).trans (if_neg fun h => open_ (blocked_iff.1 h))
    · refine (handOverControl_done (first.trans (congrArg some line3))).trans (if_pos (blocked_iff.2 waiting))
  case fetch =>
    have notWrite : u.dir ≠ some .write := by rw [read]; decide
    exact ends_of ((handsOver_read (s := s₀) data notWrite storeRead).trans (endRead_fetch fetch kept))
  case readRecord =>
    have notWrite : u.dir ≠ some .write := by rw [read]; decide
    have record : readRecord u.firstFault = readEnds u.firstFault := by cases u.firstFault <;> rfl
    rw [← record]
    exact records_of ((handsOver_read (s := s₀) data notWrite storeRead).trans (endRead_record noFetch))
  case noRead => exact ends_of (handsOver_noKind (s := s₀) data (show u.dir ≠ _ by rw [read]; decide) noRead)
  case status =>
    exact ends_of (handsOver_noKind (s := s₀) data (show u.dir ≠ _ by rw [status]; decide) (show u.kind ≠ _ by rw [noKind]; decide))
  case voided =>
    rw [← kind_eq]
    exact records_of (handsOver_voided (s := s₀) isVoided because)
  case cutSilent =>
    refine ends_of ((handsOver_cut (s := s₀) cut).trans (if_neg fun h => ?_))
    obtain ⟨known, notStatus⟩ := (cutRecords_iff u).1 h
    rcases silent with status | ⟨noDir, noKind⟩
    · exact notStatus status
    · exact known.elim (fun dir => dir noDir) fun kind => kind noKind
  case cutRecord =>
    rw [← kind_eq]
    exact records_of ((handsOver_cut (s := s₀) cut).trans (if_pos ((cutRecords_iff u).2 ⟨known, notStatus⟩)))

end Sys2Proof.Machine
